-- ==== Sys2Proof/Word.lean ====
section
/-! DEFINITION. The word types of the core: bytes of MEM, 32-bit register values and 64-bit command words (00 R10, 30 R90). -/

namespace Sys2Proof

/-- A byte of MEM, a symbol of the alphabet (00 R6). Bit 7 is the most significant (00 R8). -/
abbrev Byte := BitVec 8

/-- A u32: a register, an address, a size, a weight, a container field (00 R6, R7). -/
abbrev Word := BitVec 32

/-- A command word, CMD_HI above CMD_LO (30 R90, 10 R22). -/
abbrev Cmd := BitVec 64

/-- `2^32`, the number of MEM addresses and one more than the largest u32 (00 R10, 20 R69). -/
def u32Limit : Nat := 4294967296

/-- An exact number stored in a u32 (00 R10: sums are checked before they are stored). -/
def u32 (n : Nat) : Word := BitVec.ofNat 32 n

end Sys2Proof
end

