-- ==== Sys2Proof/Config.lean ====
section
/-! DEFINITION. What an instantiation of the core fixes (00 R6, R7) and the free values, which nothing in the model or in a proof can evaluate. -/

namespace Sys2Proof.Config

/-- N_CTX, the number of host-visible contexts (00 R7; 92 D5). DESIGN CHOICE to fix it, log 22. -/
def nCtx : Nat := 4

/-- ALPHABET (00 R6). -/
def alphabet : Nat := 256

/-- MAX_CODE_LEN, the longest code in bits (00 R6). -/
def maxCodeLen : Nat := 32

/-- MAX_TREE_NODES = 2 × 256 − 1 (00 R7; 92 D20). -/
def maxTreeNodes : Nat := 511

/-- MAGIC, the first u32 of a container (00 R6, 20 R79). -/
def magic : Word := 0x1234#32

/-- HDR_FIXED, the bytes of the global header (00 R6, 20 R79). -/
def hdrFixed : Nat := 16

/-- DIR_ENTRY, the bytes of one directory entry (00 R6, 20 R80). -/
def dirEntry : Nat := 12

/-- VERSION of the interface (10 R36). -/
def version : Word := 0x1#32

/-- CAPS = N_CTX | (32 << 8) (10 R36). -/
def caps : Word := u32 nCtx ||| (u32 maxCodeLen <<< 8)

/-- MEM_SIZE of the instantiation that `State.reset` describes: the one the spec's own vectors use
(95, conventions). DESIGN CHOICE, log 4: the parameter is open (00 R7) and every statement over a
state is over every value of `params.memSize`. -/
def resetMemSize : Nat := 0x1000

/-- HW_PARALLELISM of the instantiation that `State.reset` describes (95, conventions). DESIGN
CHOICE, log 4. -/
def resetHwParallelism : Word := 4#32

/-- What a byte of MEM reads as that nothing has written. DESIGN CHOICE, log 5: the spec leaves MEM to
the host (70 R250). -/
def unlistedByte : Byte := 0#8

/-- Free value: which of the enabled steps comes next (42 R174; 93 U9, U10), once the state's own
`sched` is used up. Log 2. -/
opaque choice : Nat → Nat

/-- Free value: a PLAN_* or DESC_* register read while BUSY = 1 (10 R27, R28; 93 U27). Log 3. -/
opaque freeWord : Nat → Word

/-- Free value: a byte the host reads from a live destination range (20 R75; 93 U21), and a byte of the
destination range after an aborting reset (70 R252; 93 U22). Log 3. -/
opaque freeByte : Nat → Byte

end Sys2Proof.Config
end

