-- ==== Sys2Proof/Syntax.lean ====
section
/-! DEFINITION. The command set: one constructor per row of spec/opcode_table.json (30 R94), with the operands of 30 R92. -/

namespace Sys2Proof

/-- A command or job micro-operation. `k` is the CTX field, `bit` the BIT field, `n` the N field; the
IMM field is the byte offset, the value, the permit count or the block index (30 R92). -/
inductive Instr where
  -- bit cursor commands (40)
  | wbind (k : BitVec 4)
  | wseek (k : BitVec 4) (byteOffset : Word) (bit : BitVec 3)
  | wtell (k : BitVec 4)
  | wbit (k : BitVec 4) (value : Bool)
  | wbits (k : BitVec 4) (value : Word) (n : BitVec 6)
  | rbind (k : BitVec 4)
  | rseek (k : BitVec 4) (byteOffset : Word) (bit : BitVec 3)
  | rtell (k : BitVec 4)
  | rbit (k : BitVec 4)
  | rbyte (k : BitVec 4)
  -- tree, lookup and traversal commands (41)
  | tcreate (k : BitVec 4)
  | twrite (k : BitVec 4)
  | tread (k : BitVec 4)
  | tlookup (k : BitVec 4)
  | tbitcount (k : BitVec 4)
  | tcroot (k : BitVec 4)
  | tcisleaf (k : BitVec 4)
  | tcvalue (k : BitVec 4)
  | tcleft (k : BitVec 4)
  | tcright (k : BitVec 4)
  -- orchestration commands (43)
  | prepc
  | compress
  | prepd
  | decompress
  -- job micro-operations, controller only (42)
  | linit (permits : Word)
  | lacq
  | lrel
  | analyze (block : Word)
  | encode (block : Word)
  | decode (block : Word)
deriving DecidableEq, Repr

/-- Issuer C of 30 R94: only the controller makes these words; the host issuing one is illegal
(60 R221). -/
def Instr.isMicroOp : Instr → Bool
  | .linit _ | .lacq | .lrel | .analyze _ | .encode _ | .decode _ => true
  | .wbind _ | .wseek _ _ _ | .wtell _ | .wbit _ _ | .wbits _ _ _ => false
  | .rbind _ | .rseek _ _ _ | .rtell _ | .rbit _ | .rbyte _ => false
  | .tcreate _ | .twrite _ | .tread _ | .tlookup _ | .tbitcount _ => false
  | .tcroot _ | .tcisleaf _ | .tcvalue _ | .tcleft _ | .tcright _ => false
  | .prepc | .compress | .prepd | .decompress => false

/-- The CTX operand of a context command (30 R93). -/
def Instr.context? : Instr → Option (BitVec 4)
  | .wbind k | .wseek k _ _ | .wtell k | .wbit k _ | .wbits k _ _ => some k
  | .rbind k | .rseek k _ _ | .rtell k | .rbit k | .rbyte k => some k
  | .tcreate k | .twrite k | .tread k | .tlookup k | .tbitcount k => some k
  | .tcroot k | .tcisleaf k | .tcvalue k | .tcleft k | .tcright k => some k
  | .prepc | .compress | .prepd | .decompress => none
  | .linit _ | .lacq | .lrel | .analyze _ | .encode _ | .decode _ => none

end Sys2Proof
end

