-- ==== Sys2Proof/WellFormed.lean ====
section
/-! DEFINITION. Which terms of `Instr` are commands of the core. The field types already hold every width; what is left is 30 R93: the context of a context command exists. -/

namespace Sys2Proof

/-- CTX selects an existing context, `k < N_CTX` (30 R93, R95). -/
def ctxExists (k : BitVec 4) : Bool := decide (k.toNat < Config.nCtx)

/-- A command is well-formed when the context it names, if it names one, exists (30 R93). A WBITS with
N > 32 is well-formed: it faults in execution (30 R96). -/
def Instr.wf (i : Instr) : Bool :=
  match i.context? with
  | some k => ctxExists k
  | none => true

end Sys2Proof
end

