-- ==== Sys2Proof/Decode.lean ====
section
/-! DEFINITION. The command encoding (30 R90 to R98): the one format, the opcode table, the decoder (total, rejecting by name) and the encoder. -/

namespace Sys2Proof

/-- The fields of the command word, reserved ones included (30 R90). -/
structure Fields where
  opc : BitVec 8
  ctx : BitVec 4 := 0#4
  rsv15 : BitVec 4 := 0#4
  n : BitVec 6 := 0#6
  rsv23 : BitVec 2 := 0#2
  bit : BitVec 3 := 0#3
  rsv31 : BitVec 5 := 0#5
  imm : Word := 0#32
deriving DecidableEq, Repr

/-- The bit positions of 30 R90, read out. -/
def fieldsOf (w : Cmd) : Fields where
  opc := w.extractLsb' 0 8
  ctx := w.extractLsb' 8 4
  rsv15 := w.extractLsb' 12 4
  n := w.extractLsb' 16 6
  rsv23 := w.extractLsb' 22 2
  bit := w.extractLsb' 24 3
  rsv31 := w.extractLsb' 27 5
  imm := w.extractLsb' 32 32

/-- The bit positions of 30 R90, put together: the pattern
`i…i 00000bbb 00nnnnnn 0000cccc oooooooo`. -/
def Fields.word (f : Fields) : Cmd :=
  f.imm ++ f.rsv31 ++ f.bit ++ f.rsv23 ++ f.n ++ f.rsv15 ++ f.ctx ++ f.opc

/-- "Fields used" of a row of 30 R94: the bits that may be non-zero. `imm` is a mask, since WBIT uses
IMM[0] alone. -/
structure Used where
  ctx : Bool := false
  n : Bool := false
  bit : Bool := false
  imm : Word := 0#32
deriving DecidableEq, Repr

/-- A row of the opcode table (30 R94) and the command it stands for. -/
structure Row where
  mnemonic : String
  opc : BitVec 8
  used : Used
  build : Fields → Instr

/-- The row's match word (30 R94). -/
def Row.matchWord (r : Row) : Cmd := Fields.word { opc := r.opc }

/-- The row's mask (30 R94): every bit but those of the fields it uses. -/
def Row.mask (r : Row) : Cmd :=
  Fields.word
    { opc := 0xFF#8
      ctx := if r.used.ctx then 0#4 else 0xF#4
      rsv15 := 0xF#4
      n := if r.used.n then 0#6 else 0x3F#6
      rsv23 := 0x3#2
      bit := if r.used.bit then 0#3 else 0x7#3
      rsv31 := 0x1F#5
      imm := ~~~ r.used.imm }

/-- All of IMM. -/
def immAll : Word := 0xFFFFFFFF#32

/-- Rows 0x01 to 0x0D: the bit cursor commands (30 R94). -/
def cursorRows : List Row :=
  [ ⟨"WBIND", 0x01#8, { ctx := true }, fun f => .wbind f.ctx⟩
  , ⟨"WSEEK", 0x02#8, { ctx := true, bit := true, imm := immAll }, fun f => .wseek f.ctx f.imm f.bit⟩
  , ⟨"WTELL", 0x03#8, { ctx := true }, fun f => .wtell f.ctx⟩
  , ⟨"WBIT", 0x04#8, { ctx := true, imm := 1#32 }, fun f => .wbit f.ctx (f.imm.getLsbD 0)⟩
  , ⟨"WBITS", 0x05#8, { ctx := true, n := true, imm := immAll }, fun f => .wbits f.ctx f.imm f.n⟩
  , ⟨"RBIND", 0x09#8, { ctx := true }, fun f => .rbind f.ctx⟩
  , ⟨"RSEEK", 0x0A#8, { ctx := true, bit := true, imm := immAll }, fun f => .rseek f.ctx f.imm f.bit⟩
  , ⟨"RTELL", 0x0B#8, { ctx := true }, fun f => .rtell f.ctx⟩
  , ⟨"RBIT", 0x0C#8, { ctx := true }, fun f => .rbit f.ctx⟩
  , ⟨"RBYTE", 0x0D#8, { ctx := true }, fun f => .rbyte f.ctx⟩ ]

/-- Rows 0x10 to 0x1C: the tree and traversal commands (30 R94). -/
def treeRows : List Row :=
  [ ⟨"TCREATE", 0x10#8, { ctx := true }, fun f => .tcreate f.ctx⟩
  , ⟨"TWRITE", 0x11#8, { ctx := true }, fun f => .twrite f.ctx⟩
  , ⟨"TREAD", 0x12#8, { ctx := true }, fun f => .tread f.ctx⟩
  , ⟨"TLOOKUP", 0x13#8, { ctx := true }, fun f => .tlookup f.ctx⟩
  , ⟨"TBITCOUNT", 0x14#8, { ctx := true }, fun f => .tbitcount f.ctx⟩
  , ⟨"TCROOT", 0x18#8, { ctx := true }, fun f => .tcroot f.ctx⟩
  , ⟨"TCISLEAF", 0x19#8, { ctx := true }, fun f => .tcisleaf f.ctx⟩
  , ⟨"TCVALUE", 0x1A#8, { ctx := true }, fun f => .tcvalue f.ctx⟩
  , ⟨"TCLEFT", 0x1B#8, { ctx := true }, fun f => .tcleft f.ctx⟩
  , ⟨"TCRIGHT", 0x1C#8, { ctx := true }, fun f => .tcright f.ctx⟩ ]

/-- Rows 0x20 to 0x23: the orchestration commands (30 R94). -/
def orchestrationRows : List Row :=
  [ ⟨"PREPC", 0x20#8, {}, fun _ => .prepc⟩
  , ⟨"COMPRESS", 0x21#8, {}, fun _ => .compress⟩
  , ⟨"PREPD", 0x22#8, {}, fun _ => .prepd⟩
  , ⟨"DECOMPRESS", 0x23#8, {}, fun _ => .decompress⟩ ]

/-- Rows 0x30 to 0x35: the job micro-operations (30 R94, R98). -/
def microRows : List Row :=
  [ ⟨"LINIT", 0x30#8, { imm := immAll }, fun f => .linit f.imm⟩
  , ⟨"LACQ", 0x31#8, {}, fun _ => .lacq⟩
  , ⟨"LREL", 0x32#8, {}, fun _ => .lrel⟩
  , ⟨"ANALYZE", 0x33#8, { imm := immAll }, fun f => .analyze f.imm⟩
  , ⟨"ENCODE", 0x34#8, { imm := immAll }, fun f => .encode f.imm⟩
  , ⟨"DECODE", 0x35#8, { imm := immAll }, fun f => .decode f.imm⟩ ]

/-- The opcode table (30 R94). -/
def opcodeRows : List Row := cursorRows ++ treeRows ++ orchestrationRows ++ microRows

/-- Why a word is no command (30 R96). -/
inductive DecodeError where
  | unassignedOpcode   -- OPC is in no row
  | reservedField      -- bits 15:12, 23:22 or 31:27 are non-zero
  | unusedField        -- a field the row does not use is non-zero
  | noSuchContext      -- CTX >= N_CTX
deriving DecidableEq, Repr

/-- Bits 15:12, 23:22 and 31:27 are zero (30 R90). -/
def Fields.reservedZero (f : Fields) : Bool := f.rsv15 == 0#4 && f.rsv23 == 0#2 && f.rsv31 == 0#5

/-- Every field outside "Fields used" is zero (30 R94). -/
def Fields.unusedZero (f : Fields) (u : Used) : Bool :=
  (u.ctx || f.ctx == 0#4) && (u.n || f.n == 0#6) && (u.bit || f.bit == 0#3) && (f.imm &&& ~~~ u.imm) == 0#32

/-- The decoder (30 R95, R96). It reads every row of the table; who may issue the command is checked
where the command is issued (60 R221). -/
def decode (w : Cmd) : Except DecodeError Instr :=
  let f := fieldsOf w
  match opcodeRows.find? (fun r => r.opc == f.opc) with
  | none => .error .unassignedOpcode
  | some r =>
    if !f.reservedZero then .error .reservedField
    else if !f.unusedZero r.used then .error .unusedField
    else if r.used.ctx && !ctxExists f.ctx then .error .noSuchContext
    else .ok (r.build f)

/-- `{CMD_HI, CMD_LO}` (10 R22, 30 R90). -/
def commandWord (hi lo : Word) : Cmd := hi ++ lo

/-- The encoder, from the table of 30 R94 and the forms of 30 R98 and R101. -/
def encode : Instr → Cmd
  | .wbind k => Fields.word { opc := 0x01#8, ctx := k }
  | .wseek k byteOffset bit => Fields.word { opc := 0x02#8, ctx := k, bit := bit, imm := byteOffset }
  | .wtell k => Fields.word { opc := 0x03#8, ctx := k }
  | .wbit k v => Fields.word { opc := 0x04#8, ctx := k, imm := if v then 1#32 else 0#32 }
  | .wbits k v n => Fields.word { opc := 0x05#8, ctx := k, n := n, imm := v }
  | .rbind k => Fields.word { opc := 0x09#8, ctx := k }
  | .rseek k byteOffset bit => Fields.word { opc := 0x0A#8, ctx := k, bit := bit, imm := byteOffset }
  | .rtell k => Fields.word { opc := 0x0B#8, ctx := k }
  | .rbit k => Fields.word { opc := 0x0C#8, ctx := k }
  | .rbyte k => Fields.word { opc := 0x0D#8, ctx := k }
  | .tcreate k => Fields.word { opc := 0x10#8, ctx := k }
  | .twrite k => Fields.word { opc := 0x11#8, ctx := k }
  | .tread k => Fields.word { opc := 0x12#8, ctx := k }
  | .tlookup k => Fields.word { opc := 0x13#8, ctx := k }
  | .tbitcount k => Fields.word { opc := 0x14#8, ctx := k }
  | .tcroot k => Fields.word { opc := 0x18#8, ctx := k }
  | .tcisleaf k => Fields.word { opc := 0x19#8, ctx := k }
  | .tcvalue k => Fields.word { opc := 0x1A#8, ctx := k }
  | .tcleft k => Fields.word { opc := 0x1B#8, ctx := k }
  | .tcright k => Fields.word { opc := 0x1C#8, ctx := k }
  | .prepc => Fields.word { opc := 0x20#8 }
  | .compress => Fields.word { opc := 0x21#8 }
  | .prepd => Fields.word { opc := 0x22#8 }
  | .decompress => Fields.word { opc := 0x23#8 }
  | .linit p => Fields.word { opc := 0x30#8, imm := p }
  | .lacq => Fields.word { opc := 0x31#8 }
  | .lrel => Fields.word { opc := 0x32#8 }
  | .analyze i => Fields.word { opc := 0x33#8, imm := i }
  | .encode i => Fields.word { opc := 0x34#8, imm := i }
  | .decode i => Fields.word { opc := 0x35#8, imm := i }

/-- A word as spec/opcode_table.json numbers its bits (bit 0 of CMD_LO is bit 0): the low `nbits`, the
rest zero. -/
def tableWord (nbits w : Nat) : Cmd := BitVec.ofNat 64 (w % 2 ^ nbits)

/-- What the decoder reads from a word of the table. -/
def decodeTableWord (nbits w : Nat) : Option Instr :=
  match decode (tableWord nbits w) with
  | .ok i => some i
  | .error _ => none

end Sys2Proof
end

