-- ==== Sys2Proof/Machine/State.lean ====
section
/-! DEFINITION. The state of the core (10 R20 to R45, 20 R60) as plain data, with the model's own fields beside it, and the state after reset (70 R250). -/

namespace Sys2Proof.Machine

/-- The faults of 60 R220: a command that ends in one goes on to a next state, in which STATUS and
ERRINFO report it. -/
inductive FaultCode where
  | invalidMagic
  | headerSizeMismatch
  | truncatedInput
  | corruptTree
  | illegalCommand
  | bitCountRange
  | writeOutOfBounds
  | traversalAtLeaf
  | valueAtBranch
  | emptyInput
  | notReady
  | codeTooLong
  | sizeOverflow
  | invalidBlockSize
  | noPlan
  | dstTooSmall
  | bufferOverlap
  | busError
  | limiterOverRelease
deriving DecidableEq, Repr

/-- Where the model itself stops. Each is for a state the spec rules out, or for an access to an
address it says does not exist. -/
inductive Fault where
  /-- Raised by a host byte access to an address >= MEM_SIZE (20 R60: it does not exist). Safe. Log 9. -/
  | noSuchAddress
  /-- Raised by a tree command or job body on a built tree that breaks the invariants of 10 R33. Safe:
  no step makes such a tree. Log 12. -/
  | malformedTree
  /-- Raised by a micro-operation whose job is not in JOBS (42 R171 to R177 give each to a job). Safe. Log 13. -/
  | noSuchJob
  /-- Raised by a job body whose block the plan does not have (43 R191: a block is never empty), or by an
  ENCODE whose descriptor holds no tree (10 R38). Safe. Log 13. -/
  | noSuchBlock
  /-- Raised by the join of an ANALYZE phase when a job without an error has no result (42 R175). Safe. Log 13. -/
  | missingResult
  /-- Raised by a job whose program word is no micro-operation (42 R173: the controller makes them). Safe. Log 13. -/
  | illegalMicroOp
deriving DecidableEq, Repr

/-- Steps the model does not give. -/
inductive Refusal where
  /-- Raised by an arm of `exec` without a meaning: none is left. Safe. -/
  | notModelled (mnemonic : String)
  /-- Raised by a host write of CMD_HI while STATUS.BUSY = 1 (10 R22, 70 R256 item 1). Safe. Log 8. -/
  | issueWhileBusy
  /-- Raised by a register access that is not 32 bits wide and 4-byte aligned (20 R61, 70 R256 item 3). Safe. Log 8. -/
  | badRegisterAccess
  /-- Raised by a host byte store to a live source or destination range, and by the issue of a WBIT, WBITS or
  TWRITE that would store to a live source range (20 R75, 70 R256 item 2). Safe. Log 8. -/
  | hostWriteToLiveRange
deriving DecidableEq, Repr

/-- How a step ends. -/
abbrev Result (σ : Type) := Host.Outcome σ Fault Refusal

/-- A writer or reader cursor (10 R31, R32): the buffer is `MEM[base .. base + len − 1]`, `byteOff` is
B and `bitOff` is o. -/
structure Cursor where
  base : Word := 0#32
  len : Word := 0#32
  byteOff : Word := 0#32
  bitOff : BitVec 3 := 0#3
deriving DecidableEq, Repr

/-- A node of the arena (10 R33). -/
inductive Node where
  | leaf (value : Byte) (weight : Word)
  | branch (weight : Word) (left right : Nat)
deriving DecidableEq, Repr

/-- A Huffman tree, a flat arena addressed by index (10 R33, 41 R140). The root of a tree that is not built is 0,
the model's choice: the spec gives no value (DESIGN CHOICE, log 29). -/
structure Tree where
  built : Bool := false
  nodes : List Node := []
  root : Nat := 0
deriving DecidableEq, Repr

/-- An entry of a lookup table (10 R34); the code is the low `length` bits of `pattern`. -/
structure LutEntry where
  pattern : Word := 0#32
  length : Nat := 0
  weight : Word := 0#32
deriving DecidableEq, Repr

/-- A lookup table, one entry for each byte value (10 R34). -/
structure LookupTable where
  generated : Bool := false
  entry : Vector LutEntry 256 := Vector.replicate 256 {}
deriving DecidableEq, Repr

/-- A traversal cursor into the tree of the same context (10 R35). -/
structure TraversalCursor where
  valid : Bool := false
  node : Nat := 0
deriving DecidableEq, Repr

/-- A host-visible context (10 R30): W, R, T, LUT, TC. -/
structure Context where
  w : Cursor := {}
  r : Cursor := {}
  tree : Tree := {}
  lut : LookupTable := {}
  tc : TraversalCursor := {}
deriving DecidableEq, Repr

/-- The host registers that hold a value of their own (10 R21 to R29). STATUS.ERR and ERRCODE are `fault`;
PLAN_VALID and PLAN_KIND, and the PLAN_*, DESC_*, LUT_* and LIM_* registers, are views. Log 21. -/
structure Regs where
  cmdLo : Word := 0#32
  cmdHi : Word := 0#32
  busy : Bool := false
  done : Bool := false
  fault : Option FaultCode := none
  errInfo : Word := 0#32
  srcBase : Word := 0#32
  srcSize : Word := 0#32
  dstBase : Word := 0#32
  dstSize : Word := 0#32
  blockSize : Word := 0#32
  nThreads : Word := 0#32
  result0 : Word := 0#32
  result1 : Word := 0#32
  result2 : Word := 0#32
  result3 : Word := 0#32
  descSel : Word := 0#32
  lutSel : BitVec 12 := 0#12
deriving DecidableEq, Repr

/-- PLAN.kind (10 R37): a compression or a decompression plan. -/
inductive PlanKind where
  | c
  | d
deriving DecidableEq, Repr

/-- A block descriptor (10 R38). The tree is present for kind C only. -/
structure Desc where
  dsize : Word := 0#32
  csize : Word := 0#32
  offset : Word := 0#32
  doff : Word := 0#32
  tree : Option Tree := none
deriving DecidableEq, Repr

/-- PLAN (10 R37). -/
structure Plan where
  valid : Bool := false
  kind : PlanKind := .c
  srcBase : Word := 0#32
  srcSize : Word := 0#32
  inSize : Word := 0#32
  outSize : Word := 0#32
  blockSize : Word := 0#32
  blockCount : Word := 0#32
  headerSize : Word := 0#32
  desc : List Desc := []
deriving DecidableEq, Repr

/-- LIMITER (10 R39). -/
structure Limiter where
  capacity : Word := 0#32
  permits : Word := 0#32
deriving DecidableEq, Repr

/-- CONTROLLER.phase (10 R40). -/
inductive Phase where
  | idle
  | analyze
  | encode
  | decode
deriving DecidableEq, Repr

/-- CONTROLLER (10 R40). -/
structure Controller where
  phase : Phase := .idle
  dstBase : Word := 0#32
  dstSize : Word := 0#32
deriving DecidableEq, Repr

/-- The result of ANALYZE (42 R175): dsize, csize and the tree. Log 17. -/
structure AnalyzeResult where
  dsize : Word
  csize : Word
  tree : Tree
deriving DecidableEq, Repr

/-- A job (10 R41, R42). `block` is its identity i (60 R230); `prog` holds the three command words of
30 R98, log 16. -/
structure Job where
  block : Nat
  pc : Fin 4 := 0
  prog : Vector Cmd 3
  err : Option FaultCode := none
  holds : Bool := false
  w : Cursor := {}
  r : Cursor := {}
  tree : Tree := {}
  lut : LookupTable := {}
  res : Option AnalyzeResult := none
deriving DecidableEq, Repr

/-- MEM (20 R60): the bytes that differ from `Config.unlistedByte`, by rising address. -/
abbrev Memory := List Host.Cell

/-- The open parameters of an instantiation (00 R7, 10 R20). No step changes them. Log 4. -/
structure Params where
  memSize : Nat
  hwParallelism : Word
deriving DecidableEq, Repr

/-- What the host can do next (20 R61, R60, 30 R103, 70 R251): the machine's input. Log 1. -/
inductive HostStep where
  /-- A register write of `width` bits at a byte offset (20 R61). -/
  | regWrite (offset width : Nat) (value : Word)
  /-- A register read of `width` bits at a byte offset (20 R61). -/
  | regRead (offset width : Nat)
  /-- The host's own byte store to MEM (20 R60, 30 R103). -/
  | memWrite (addr : Word) (value : Byte)
  /-- The host's own byte load from MEM (20 R60, 30 R103). -/
  | memRead (addr : Word)
  /-- WAIT (30 R103): the host goes on once STATUS.BUSY = 0. -/
  | await
  /-- Reset (70 R251, R252). -/
  | reset
deriving DecidableEq, Repr

/-- Who takes a step (20 R70, 42 R174). -/
inductive Agent where
  | host
  | controller
  | job (i : Nat)
deriving DecidableEq, Repr

/-- The state: the tuple of 10 R20 and MEM; then the model's own fields (INVENTORY.md, logs 1 to 7). -/
structure State where
  regs : Regs := {}
  ctx : Vector Context 4 := Vector.replicate 4 {}
  plan : Plan := {}
  limiter : Limiter := {}
  controller : Controller := {}
  jobs : List Job := []
  mem : Memory := []
  params : Params
  inputs : List HostStep := []
  sched : List Nat := []
  draws : Nat := 0
  hostRead : Word := 0#32
  turn : Agent := .host
deriving DecidableEq, Repr

/-- The core after reset, in the instantiation `p` (70 R250): every field at its reset value. -/
def State.resetWith (p : Params) : State := { params := p }

/-- The core after reset. The instantiation is the one the spec's vectors use (DESIGN CHOICE, log 4). -/
def State.reset : State :=
  State.resetWith { memSize := Config.resetMemSize, hwParallelism := Config.resetHwParallelism }

end Sys2Proof.Machine
end

