-- ==== Sys2Proof/Machine/Flags.lean ====
section
/-! DEFINITION. The flags: STATUS, ERRCODE and ERRINFO (10 R23, R24; 60 R220, R224). -/

namespace Sys2Proof.Machine

/-- The code numbers of 60 R220. -/
def FaultCode.number : FaultCode → BitVec 8
  | .invalidMagic => 0x01#8
  | .headerSizeMismatch => 0x02#8
  | .truncatedInput => 0x03#8
  | .corruptTree => 0x04#8
  | .illegalCommand => 0x10#8
  | .bitCountRange => 0x11#8
  | .writeOutOfBounds => 0x12#8
  | .traversalAtLeaf => 0x13#8
  | .valueAtBranch => 0x14#8
  | .emptyInput => 0x15#8
  | .notReady => 0x16#8
  | .codeTooLong => 0x17#8
  | .sizeOverflow => 0x18#8
  | .invalidBlockSize => 0x19#8
  | .noPlan => 0x1A#8
  | .dstTooSmall => 0x1B#8
  | .bufferOverlap => 0x1C#8
  | .busError => 0x1D#8
  | .limiterOverRelease => 0x1E#8

/-- ERRINFO of a fault that names no block (10 R24, 00 R11). -/
def noBlock : Word := 0xFFFFFFFF#32

/-- STATUS.ERRCODE, 0 when ERR = 0 (10 R23). -/
def Regs.errCode (r : Regs) : BitVec 8 :=
  match r.fault with
  | some e => e.number
  | none => 0#8

/-- STATUS as read (10 R23): BUSY, DONE, ERR, zeros, ERRCODE, PLAN_VALID, PLAN_KIND, zeros. PLAN_KIND is 0
when PLAN_VALID is 0. -/
def statusWord (r : Regs) (p : Plan) : Word :=
  0#14 ++ BitVec.ofBool (p.valid && p.kind == .d) ++ BitVec.ofBool p.valid ++ r.errCode ++ 0#5 ++
    BitVec.ofBool r.fault.isSome ++ BitVec.ofBool r.done ++ BitVec.ofBool r.busy

/-- What issue does to STATUS and ERRINFO (60 R224). -/
def Regs.issue (r : Regs) : Regs := { r with busy := true, done := false, fault := none, errInfo := 0#32 }

/-- What a completion without a fault does (60 R224). -/
def Regs.complete (r : Regs) : Regs := { r with busy := false, done := true }

/-- What a completion with `Fault(code, info)` does (60 R224). -/
def Regs.completeFault (r : Regs) (e : FaultCode) (info : Word) : Regs :=
  { r with busy := false, done := true, fault := some e, errInfo := info }

end Sys2Proof.Machine
end

