-- ==== Sys2Proof/Machine/Memory.lean ====
section
/-! DEFINITION. MEM (20 R60 to R69): one byte read and written, the canonical form, little-endian u32 fields, and address ranges. -/

namespace Sys2Proof.Machine

/-- MEM[a] (20 R60): the listed byte, else what an unlisted address reads as. -/
def Memory.read : Memory → Nat → Byte
  | [], _ => Config.unlistedByte
  | (b, x) :: m, a => if a = b then x else Memory.read m a

/-- `MEM[a] <- v` (20 R62). The list stays in its canonical form. -/
def Memory.write : Memory → Nat → Byte → Memory
  | [], a, v => if v = Config.unlistedByte then [] else [(a, v)]
  | (b, x) :: m, a, v =>
    if a < b then
      if v = Config.unlistedByte then (b, x) :: m else (a, v) :: (b, x) :: m
    else if a = b then
      if v = Config.unlistedByte then m else (a, v) :: m
    else (b, x) :: Memory.write m a v

/-- Addresses rise strictly from `lo` on, and no entry equals what an unlisted address reads as. -/
def Memory.wfFrom : Nat → Memory → Bool
  | _, [] => true
  | lo, (a, x) :: m => decide (lo ≤ a) && x != Config.unlistedByte && Memory.wfFrom (a + 1) m

/-- The canonical form of MEM. -/
def Memory.wf (m : Memory) : Bool := Memory.wfFrom 0 m

/-- No byte is listed at an address that does not exist (20 R60, R62). -/
def Memory.within (m : Memory) (memSize : Nat) : Bool := m.all (fun c => decide (c.1 < memSize))

/-- The bytes `MEM[a .. a + n − 1]`. -/
def Memory.readBytes (m : Memory) (a n : Nat) : List Byte := (List.range n).map (fun j => Memory.read m (a + j))

/-- Bytes written at rising addresses from `a` on. -/
def Memory.writeBytes (m : Memory) (a : Nat) : List Byte → Memory
  | [] => m
  | v :: vs => Memory.writeBytes (Memory.write m a v) (a + 1) vs

/-- `MemRead32LE` (00 R11, 20 R63): the byte at `a + 3` is the highest. -/
def Memory.read32LE (m : Memory) (a : Nat) : Word :=
  Memory.read m (a + 3) ++ Memory.read m (a + 2) ++ Memory.read m (a + 1) ++ Memory.read m a

/-- The four bytes of a u32, lowest first (20 R63). -/
def bytesLE (v : Word) : List Byte :=
  [v.extractLsb' 0 8, v.extractLsb' 8 8, v.extractLsb' 16 8, v.extractLsb' 24 8]

/-- `MemWrite32LE` (00 R11, 20 R63). -/
def Memory.write32LE (m : Memory) (a : Nat) (v : Word) : Memory := Memory.writeBytes m a (bytesLE v)

/-- `Overlap(a, m, b, n)` (43 R190): both ranges are non-empty and they meet. -/
def overlap (a m b n : Nat) : Bool := decide (0 < m) && decide (0 < n) && decide (a < b + n) && decide (b < a + m)

/-- `a` lies in `[base, base + n)`. -/
def inRange (a base n : Nat) : Bool := decide (base ≤ a) && decide (a < base + n)

/-- A free value in each of the `n` bytes from `a` on (70 R252), the draws numbered from `d`. -/
def Memory.draw (m : Memory) (a d n : Nat) : Memory :=
  Memory.writeBytes m a ((List.range n).map (fun j => Config.freeByte (d + j)))

end Sys2Proof.Machine
end

