-- ==== Sys2Proof/Machine/Cursor.lean ====
section
/-! DEFINITION. The cursor primitives of 40 R119: positions, bounds, and bits written to and read from MEM, MSB-first. -/

namespace Sys2Proof.Machine

/-- `Pos(c) = 8·B + o` (00 R9, 40 R119). -/
def Cursor.pos (c : Cursor) : Nat := 8 * c.byteOff.toNat + c.bitOff.toNat

/-- The cursor moved to the absolute bit position `p`. -/
def Cursor.moveTo (c : Cursor) (p : Nat) : Cursor :=
  { c with byteOff := u32 (p / 8), bitOff := BitVec.ofNat 3 (p % 8) }

/-- `Advance(c, k)` (40 R119). -/
def Cursor.advance (c : Cursor) (k : Nat) : Cursor := c.moveTo (c.pos + k)

/-- `Fits(c, n)` (40 R119, R124): the next `n` bits lie in the buffer; no bound applies to n = 0. -/
def Cursor.fits (c : Cursor) (n : Nat) : Bool := n == 0 || decide (c.pos + n ≤ 8 * c.len.toNat)

/-- The address of the byte that holds the bit `j` positions ahead. -/
def Cursor.addrOf (c : Cursor) (j : Nat) : Nat := c.base.toNat + (c.pos + j) / 8

/-- `a` is in `Bytes(c, n)` (40 R119): from the current byte to the byte of the last of the `n` bits. -/
def Cursor.touches (c : Cursor) (n a : Nat) : Bool :=
  n != 0 && decide (c.addrOf 0 ≤ a) && decide (a ≤ c.addrOf (n - 1))

/-- `MemOK(c, n)` (40 R119): every address of `Bytes(c, n)` exists. The range is an interval, so its
last address decides. -/
def Cursor.memOk (memSize : Nat) (c : Cursor) (n : Nat) : Bool := n == 0 || decide (c.addrOf (n - 1) < memSize)

/-- A buffer `(base, len)` that 20 R69 allows. -/
def Cursor.legal (c : Cursor) : Bool := decide (c.base.toNat + c.len.toNat ≤ u32Limit)

/-- The byte with the bits of `mask` replaced by those of `bits` (20 R66). -/
def replaceBits (x mask bits : Byte) : Byte := (x &&& ~~~ mask) ||| (bits &&& mask)

/-- `PutBit(c, v)` (40 R119). -/
def putBit (m : Memory) (c : Cursor) (v : Bool) : Memory × Cursor :=
  let a := c.base.toNat + c.byteOff.toNat
  let mask := 1#8 <<< (7 - c.bitOff.toNat)
  (Memory.write m a (replaceBits (Memory.read m a) mask (if v then mask else 0#8)), c.advance 1)

/-- The chunk loop of `PutBits` (40 R119): `r` bits of `v` are left. Each turn writes at least one, so
`r` turns are enough (`fuel`). -/
def putChunks (v : Word) : Nat → Nat → Memory → Cursor → Memory × Cursor
  | 0, _, m, c => (m, c)
  | fuel + 1, r, m, c =>
    if r = 0 then (m, c)
    else
      let rem := 8 - c.bitOff.toNat
      let k := min rem r
      let chunk := (v.toNat >>> (r - k)) % 2 ^ k
      let shift := rem - k
      let mask := BitVec.ofNat 8 ((2 ^ k - 1) <<< shift)
      let a := c.base.toNat + c.byteOff.toNat
      let m' := Memory.write m a (replaceBits (Memory.read m a) mask (BitVec.ofNat 8 (chunk <<< shift)))
      putChunks v fuel (r - k) m' (c.advance k)

/-- `PutBits(c, v, n)` (40 R119): the low `n` bits of `v`, most significant first. -/
def putBits (m : Memory) (c : Cursor) (v : Word) (n : Nat) : Memory × Cursor := putChunks v n n m c

/-- The bit at the cursor: bit `7 − o` of its byte (00 R8, 40 R119). -/
def bitAt (m : Memory) (c : Cursor) : Bool :=
  (Memory.read m (c.base.toNat + c.byteOff.toNat)).getLsbD (7 - c.bitOff.toNat)

/-- `GetBit(c)` (40 R119). -/
def getBit (m : Memory) (c : Cursor) : Bool × Cursor := (bitAt m c, c.advance 1)

/-- `n` turns of `v <- (v << 1) | GetBit(c)` (40 R119). -/
def getBits (m : Memory) : Nat → Byte → Cursor → Byte × Cursor
  | 0, v, c => (v, c)
  | n + 1, v, c =>
    let (b, c') := getBit m c
    getBits m n ((v <<< 1) ||| (if b then 1#8 else 0#8)) c'

/-- `GetByte(c)` (40 R119). -/
def getByte (m : Memory) (c : Cursor) : Byte × Cursor := getBits m 8 0#8 c

end Sys2Proof.Machine
end

