-- ==== Sys2Proof/Machine/Tree.lean ====
section
/-! DEFINITION. The tree algorithms of 41 R140 to R155: building, depth, serialization, parsing, the lookup table, the bit count and the decode walk. -/

namespace Sys2Proof.Machine

/-- The weight of a node (10 R33). -/
def Node.weight : Node → Word
  | .leaf _ w => w
  | .branch w _ _ => w

/-- The tag of a node (10 R33). -/
def Node.isLeaf : Node → Bool
  | .leaf _ _ => true
  | .branch _ _ _ => false

/-! ### Building (41 R141, R142) -/

/-- The leaves in ascending byte value, one for each value that occurs, with its count (41 R141, R142). -/
def leavesOf (bytes : List Byte) : List Node :=
  (List.range Config.alphabet).filterMap (fun v =>
    let n := bytes.count (BitVec.ofNat 8 v)
    if n = 0 then none else some (.leaf (BitVec.ofNat 8 v) (u32 n)))

/-- The weight of the node at an index. -/
def weightAt (nodes : List Node) (i : Nat) : Nat :=
  match nodes[i]? with
  | some n => n.weight.toNat
  | none => 0

/-- Insert `n` "immediately before the first existing node whose weight is strictly greater" (41 R142). -/
def insertByWeight (nodes : List Node) (n : Nat) : List Nat → List Nat
  | [] => [n]
  | e :: l => if weightAt nodes n < weightAt nodes e then n :: e :: l else e :: insertByWeight nodes n l

/-- Indices sorted stably by weight: each is inserted behind those of equal weight (41 R142). -/
def sortByWeight (nodes : List Node) (is : List Nat) : List Nat :=
  is.foldl (fun l i => insertByWeight nodes i l) []

/-- The merge loop of 41 R142. Each turn shortens the list by one, so its length is enough `fuel`. -/
def mergeLoop : Nat → List Node → List Nat → List Node × List Nat
  | fuel + 1, nodes, a :: b :: l =>
    let n := nodes.length
    let nodes' := nodes ++ [.branch (u32 (weightAt nodes a + weightAt nodes b)) a b]
    mergeLoop fuel nodes' (insertByWeight nodes' n l)
  | _, nodes, l => (nodes, l)

/-- `BuildTree(bytes)` (41 R142). -/
def buildTree (bytes : List Byte) : Tree :=
  let leaves := leavesOf bytes
  let (nodes, l) := mergeLoop leaves.length leaves (sortByWeight leaves (List.range leaves.length))
  { built := true, nodes := nodes, root := l.headD 0 }

/-! ### The shape of an arena (41 R140) -/

/-- The tree an arena holds, seen from a node: what the recursive functions of 41 run over. -/
inductive Shape where
  | leaf (value : Byte) (weight : Word)
  | branch (weight : Word) (left right : Shape)
deriving DecidableEq, Repr

/-- The shape below index `i`, or none if an index is invalid or a path has more than `fuel` nodes. -/
def shapeAt (nodes : List Node) : Nat → Nat → Option Shape
  | 0, _ => none
  | fuel + 1, i =>
    match nodes[i]? with
    | none => none
    | some (.leaf v w) => some (.leaf v w)
    | some (.branch w l r) =>
      match shapeAt nodes fuel l, shapeAt nodes fuel r with
      | some sl, some sr => some (.branch w sl sr)
      | _, _ => none

/-- The shape of a tree. No path of an acyclic arena has more nodes than the arena, so this is none
exactly when what is reachable from the root breaks 10 R33. -/
def Tree.shape (t : Tree) : Option Shape := shapeAt t.nodes t.nodes.length t.root

/-- The depth of the deepest leaf (41 R140). -/
def Shape.depth : Shape → Nat
  | .leaf _ _ => 0
  | .branch _ l r => max l.depth r.depth + 1

/-- `Depth(t)` (41 R140). -/
def Tree.depth (t : Tree) : Nat :=
  match t.shape with
  | some sh => sh.depth
  | none => 0

/-! ### Bit count (41 R144, R148) -/

/-- `TreeBits(t)`: 1 for each Branch node and 9 for each Leaf node (41 R144, R148). -/
def Tree.treeBits (t : Tree) : Nat := (t.nodes.map (fun n => if n.isLeaf then 9 else 1)).sum

/-- The bits the serialization of a shape takes (41 R144). -/
def Shape.bits : Shape → Nat
  | .leaf _ _ => 9
  | .branch _ l r => 1 + l.bits + r.bits

/-- Σ over the leaves of code length × weight, below a node at depth `d` (41 R148). -/
def Shape.dataBits : Shape → Nat → Nat
  | .leaf _ w, d => d * w.toNat
  | .branch _ l r, d => l.dataBits (d + 1) + r.dataBits (d + 1)

/-- `ceil(n / 8)` (00 R10). -/
def bytesFor (bits : Nat) : Nat := (bits + 7) / 8

/-! ### Serialization and parsing (41 R144, R146) -/

/-- `Serialize(c, t, i)` (41 R144): preorder, 1 for a Branch, 0 and the value for a Leaf. -/
def Shape.serialize : Shape → Memory → Cursor → Memory × Cursor
  | .leaf v _, m, c =>
    let (m1, c1) := putBit m c false
    putBits m1 c1 (v.setWidth 32) 8
  | .branch _ l r, m, c =>
    let (m1, c1) := putBit m c true
    let (m2, c2) := l.serialize m1 c1
    r.serialize m2 c2

/-- Where a parse stands: the reader, the arena so far, and the index of the node parsed or the fault met. -/
structure Parsed where
  cur : Cursor
  nodes : List Node
  out : Except FaultCode Nat

/-- `ParseNode()` (41 R146). Each level of recursion appends a node and the arena is bounded, so
`MAX_TREE_NODES + 1` levels are enough `fuel` (log 28). -/
def parseNode (memSize : Nat) (m : Memory) : Nat → Cursor → List Node → Parsed
  | 0, c, nodes => ⟨c, nodes, .error .corruptTree⟩
  | fuel + 1, c, nodes =>
    let i := nodes.length
    if ¬ i < Config.maxTreeNodes then ⟨c, nodes, .error .corruptTree⟩
    else
      let nodes1 := nodes ++ [.leaf 0#8 0#32]
      if !c.fits 1 then ⟨c, nodes1, .error .truncatedInput⟩
      else if !c.memOk memSize 1 then ⟨c, nodes1, .error .busError⟩
      else
        let (b, c1) := getBit m c
        if b then
          let l := parseNode memSize m fuel c1 nodes1
          match l.out with
          | .error e => ⟨l.cur, l.nodes, .error e⟩
          | .ok li =>
            let r := parseNode memSize m fuel l.cur l.nodes
            match r.out with
            | .error e => ⟨r.cur, r.nodes, .error e⟩
            | .ok ri => ⟨r.cur, r.nodes.set i (.branch 0#32 li ri), .ok i⟩
        else if !c1.fits 8 then ⟨c1, nodes1, .error .truncatedInput⟩
        else if !c1.memOk memSize 8 then ⟨c1, nodes1, .error .busError⟩
        else
          let (v, c2) := getByte m c1
          ⟨c2, nodes1.set i (.leaf v 0#32), .ok i⟩

/-- `Parse(c)` (41 R146): the reader after it, and the tree or the first fault met. -/
def parseTree (memSize : Nat) (m : Memory) (c : Cursor) : Cursor × Except FaultCode Tree :=
  let p := parseNode memSize m (Config.maxTreeNodes + 1) c []
  match p.out with
  | .error e => (p.cur, .error e)
  | .ok i => (p.cur, .ok { built := true, nodes := p.nodes, root := i })

/-! ### Lookup table and walk (41 R147, R155) -/

/-- `Visit(i, path, d)` (41 R147): left first, so a later leaf of the same value overwrites. -/
def Shape.visit : Shape → Word → Nat → Vector LutEntry 256 → Vector LutEntry 256
  | .leaf v w, path, d, tab => tab.set v.toNat { pattern := path, length := d, weight := w } v.isLt
  | .branch _ l r, path, d, tab =>
    r.visit ((path <<< 1) ||| 1#32) (d + 1) (l.visit (path <<< 1) (d + 1) tab)

/-- `GenerateLookup(t)` (41 R147). -/
def Shape.lookup (sh : Shape) : LookupTable where
  generated := true
  entry := sh.visit 0#32 0 (Vector.replicate 256 {})

/-- The entry of a byte value. -/
def LookupTable.entryOf (t : LookupTable) (v : Byte) : LutEntry := t.entry[v.toNat]'v.isLt

/-- `Walk(t, c)` (41 R155): one bit for each Branch, left for 0. -/
def Shape.walk (memSize : Nat) (m : Memory) : Shape → Cursor → Cursor × Except FaultCode Byte
  | .leaf v _, c => (c, .ok v)
  | .branch _ l r, c =>
    if !c.fits 1 then (c, .error .truncatedInput)
    else if !c.memOk memSize 1 then (c, .error .busError)
    else
      let (b, c1) := getBit m c
      if b then r.walk memSize m c1 else l.walk memSize m c1

end Sys2Proof.Machine
end

