-- ==== Sys2Proof/Machine/Ops.lean ====
section
/-! DEFINITION. The named operations on State: updates of one part, command issue, completion with and without a fault (the core's whole exception mechanism, 60 R223 to R226), ordered checks, contexts and jobs. -/

namespace Sys2Proof.Machine

/-! ### One part of the state replaced -/

def State.setRegs (s : State) (x : Regs) : State := { s with regs := x }
def State.setCtxs (s : State) (x : Vector Context 4) : State := { s with ctx := x }
def State.setPlan (s : State) (x : Plan) : State := { s with plan := x }
def State.setLimiter (s : State) (x : Limiter) : State := { s with limiter := x }
def State.setController (s : State) (x : Controller) : State := { s with controller := x }
def State.setJobs (s : State) (x : List Job) : State := { s with jobs := x }
def State.setMem (s : State) (x : Memory) : State := { s with mem := x }
def State.setInputs (s : State) (x : List HostStep) : State := { s with inputs := x }
def State.setSched (s : State) (x : List Nat) : State := { s with sched := x }
def State.setDraws (s : State) (x : Nat) : State := { s with draws := x }
def State.setHostRead (s : State) (x : Word) : State := { s with hostRead := x }
def State.setTurn (s : State) (x : Agent) : State := { s with turn := x }

/-- `ctx[k] <- x` (10 R30). -/
def State.setCtx (s : State) (k : Fin 4) (x : Context) : State := s.setCtxs (s.ctx.set k x)

/-- `PLAN.valid <- 0` (43 R192, R194, R199, R201). The other fields stay: R194 says so of COMPRESS; of PREPC and PREPD it
is read from that assignment (DEDUCED, log 24). -/
def State.dropPlan (s : State) : State := s.setPlan { s.plan with valid := false }

/-! ### Issue, completion and faults -/

/-- Issue: BUSY ← 1 and the flags of the last command cleared, the error state among them (60 R224,
R226: this is the only way out of it but reset). -/
def State.begin (s : State) : State := s.setRegs s.regs.issue

/-- Completion without a fault (60 R224). -/
def State.complete (s : State) : State := s.setRegs s.regs.complete

/-- `raise Fault(code, info)`: the command completes and STATUS and ERRINFO report the fault (00 R11, 60
R224). Nothing is saved and control goes nowhere (60 R225). -/
def State.raise (s : State) (e : FaultCode) (info : Word) : State := s.setRegs (s.regs.completeFault e info)

/-- A command word that decode rejects, or that the host may not issue (30 R95, 60 R221). -/
def State.illegalCommand (s : State) : State := s.begin.raise .illegalCommand noBlock

/-- `check c else Fault(code)` (00 R11). -/
structure Check where
  holds : Bool
  code : FaultCode
deriving DecidableEq, Repr

/-- The first check that fails, in the order listed (60 R222). -/
def firstFailure : List Check → Option FaultCode
  | [] => none
  | c :: cs => if c.holds then firstFailure cs else some c.code

/-- A host primitive command: issue, every check before any change, then the effect and completion, all
in one step. A failed check changes only STATUS and ERRINFO (60 R223, R224; 92 D33). -/
def State.primitive (s : State) (checks : List Check) (effect : State → Result State) : Result State :=
  match firstFailure checks with
  | some e => .next (s.begin.raise e noBlock)
  | none =>
    match effect s.begin with
    | .next t => .next t.complete
    | .fault f => .fault f
    | .refused r => .refused r

/-! ### Jobs -/

/-- Job `i` (60 R230: a job is identified by its block index). -/
def State.job? (s : State) (i : Nat) : Option Job := s.jobs.find? (fun j => j.block == i)

/-- Job `i` replaced by `f` of it. -/
def State.updateJob (s : State) (i : Nat) (f : Job → Job) : State :=
  s.setJobs (s.jobs.map (fun j => if j.block = i then f j else j))

/-- The three words of `[LACQ, BODY i, LREL]` (10 R42, 30 R98). -/
def jobProgram (body : Instr) : Vector Cmd 3 := #v[encode .lacq, encode body, encode .lrel]

/-- Job `i` as it is launched (42 R173). The root of its tree, not built, and the entries of its table, not generated,
are the model's choice: DESIGN CHOICE, log 29. -/
def freshJob (body : Word → Instr) (i : Nat) : Job := { block := i, prog := jobProgram (body (u32 i)) }

/-- `Launch(BODY)` and `CONTROLLER.phase <- BODY` (42 R173, 43 R190). -/
def State.launch (s : State) (phase : Phase) (body : Word → Instr) : State :=
  (s.setJobs ((List.range s.plan.blockCount.toNat).map (freshJob body))).setController
    { s.controller with phase := phase }

/-- `LINIT(p)` (42 R170). -/
def State.initLimiter (s : State) (p : Word) : State := s.setLimiter { capacity := p, permits := p }

end Sys2Proof.Machine
end

