-- ==== Sys2Proof/Machine/Operands.lean ====
section
/-! DEFINITION. The operand forms of 30 R92 and 10 R25: the context operand, the argument registers as buffers, the permit count, and the result registers of 30 R100. -/

namespace Sys2Proof.Machine

/-- The context operand `k` (30 R92, R93). A context that does not exist is IllegalCommand, which comes
before every other check (30 R95, 60 R222). -/
def State.withContext (s : State) (k : BitVec 4) (f : Fin 4 → Result State) : Result State :=
  if h : k.toNat < 4 then f ⟨k.toNat, h⟩ else .next s.illegalCommand

/-- SRC_BASE and SRC_SIZE as a buffer at position (0, 0) (40 R127). -/
def Regs.srcBuffer (r : Regs) : Cursor := { base := r.srcBase, len := r.srcSize }

/-- DST_BASE and DST_SIZE as a buffer at position (0, 0) (40 R120). -/
def Regs.dstBuffer (r : Regs) : Cursor := { base := r.dstBase, len := r.dstSize }

/-- `SRC_BASE + SRC_SIZE`, exact (00 R10). -/
def Regs.srcEnd (r : Regs) : Nat := r.srcBase.toNat + r.srcSize.toNat

/-- `p`: NTHREADS if it is non-zero, else HW_PARALLELISM (42 R170). -/
def State.permitCount (s : State) : Word :=
  if s.regs.nThreads = 0#32 then s.params.hwParallelism else s.regs.nThreads

/-- RESULT0 <- a (30 R100). -/
def State.result (s : State) (a : Word) : State := s.setRegs { s.regs with result0 := a }

/-- RESULT0 <- a, RESULT1 <- b (30 R100). -/
def State.result2 (s : State) (a b : Word) : State := s.setRegs { s.regs with result0 := a, result1 := b }

/-- RESULT0..3 (30 R100). -/
def State.result4 (s : State) (a b c d : Word) : State :=
  s.setRegs { s.regs with result0 := a, result1 := b, result2 := c, result3 := d }

/-- The micro-operations are the controller's: the host issuing one is IllegalCommand (30 R95, 60 R221). -/
def State.microOp (s : State) (f : Result State) : Result State :=
  match s.turn with
  | .host => .next s.illegalCommand
  | .controller | .job _ => f

end Sys2Proof.Machine
end

