-- ==== Sys2Proof/Machine/BitCursor.lean ====
section
/-! DEFINITION. The meanings of the bit cursor commands (40 R120 to R133). -/

namespace Sys2Proof.Machine

/-- The writer of context `k`. -/
def State.writer (s : State) (k : Fin 4) : Cursor := s.ctx[k].w

/-- The reader of context `k`. -/
def State.reader (s : State) (k : Fin 4) : Cursor := s.ctx[k].r

/-- `ctx[k].W <- c`. -/
def State.setWriter (s : State) (k : Fin 4) (c : Cursor) : State := s.setCtx k { s.ctx[k] with w := c }

/-- `ctx[k].R <- c`. -/
def State.setReader (s : State) (k : Fin 4) (c : Cursor) : State := s.setCtx k { s.ctx[k] with r := c }

/-- The effect of a write through the writer of context `k`: MEM and the cursor (40 R119). -/
def State.written (s : State) (k : Fin 4) (mc : Memory × Cursor) : State := (s.setMem mc.1).setWriter k mc.2

/-- A seek moves within the binding and touches nothing else (40 R121, R128). -/
def Cursor.seek (c : Cursor) (byteOffset : Word) (bit : BitVec 3) : Cursor :=
  { c with byteOff := byteOffset, bitOff := bit }

/-- RESULT0 and RESULT1 take a cursor's position (40 R122, R129). -/
def State.tell (s : State) (c : Cursor) : State := s.result2 c.byteOff (c.bitOff.setWidth 32)

/-- The checks of every write of `n` bits through a writer, in order: WriteOutOfBounds, BusError (40 R123 to R125). -/
def State.storeChecks (s : State) (c : Cursor) (n : Nat) : List Check :=
  [⟨c.fits n, .writeOutOfBounds⟩, ⟨c.memOk s.params.memSize n, .busError⟩]

/-- The checks of WBITS, in order: BitCountRange comes first (40 R125). -/
def State.wbitsChecks (s : State) (c : Cursor) (n : Nat) : List Check :=
  ⟨decide (n ≤ 32), .bitCountRange⟩ :: s.storeChecks c n

/-- WBIND (40 R120). -/
def execWbind (k : BitVec 4) (s : State) : Result State :=
  s.withContext k fun k =>
    s.primitive [⟨s.regs.dstBuffer.legal, .sizeOverflow⟩] fun s => .next (s.setWriter k s.regs.dstBuffer)

/-- WSEEK (40 R121). -/
def execWseek (k : BitVec 4) (byteOffset : Word) (bit : BitVec 3) (s : State) : Result State :=
  s.withContext k fun k =>
    s.primitive [] fun s => .next (s.setWriter k ((s.writer k).seek byteOffset bit))

/-- WTELL (40 R122). -/
def execWtell (k : BitVec 4) (s : State) : Result State :=
  s.withContext k fun k => s.primitive [] fun s => .next (s.tell (s.writer k))

/-- WBIT (40 R123). -/
def execWbit (k : BitVec 4) (value : Bool) (s : State) : Result State :=
  s.withContext k fun k =>
    let c := s.writer k
    s.primitive (s.storeChecks c 1) fun s => .next (s.written k (putBit s.mem c value))

/-- WBITS (40 R125): BitCountRange, WriteOutOfBounds, BusError, in this order. -/
def execWbits (k : BitVec 4) (value : Word) (n : BitVec 6) (s : State) : Result State :=
  s.withContext k fun k =>
    let c := s.writer k
    s.primitive (s.wbitsChecks c n.toNat) fun s => .next (s.written k (putBits s.mem c value n.toNat))

/-- RBIND (40 R127). -/
def execRbind (k : BitVec 4) (s : State) : Result State :=
  s.withContext k fun k =>
    s.primitive [⟨s.regs.srcBuffer.legal, .sizeOverflow⟩] fun s => .next (s.setReader k s.regs.srcBuffer)

/-- RSEEK (40 R128). -/
def execRseek (k : BitVec 4) (byteOffset : Word) (bit : BitVec 3) (s : State) : Result State :=
  s.withContext k fun k =>
    s.primitive [] fun s => .next (s.setReader k ((s.reader k).seek byteOffset bit))

/-- RTELL (40 R129). -/
def execRtell (k : BitVec 4) (s : State) : Result State :=
  s.withContext k fun k => s.primitive [] fun s => .next (s.tell (s.reader k))

/-- RBIT (40 R130). -/
def execRbit (k : BitVec 4) (s : State) : Result State :=
  s.withContext k fun k =>
    let c := s.reader k
    s.primitive [⟨c.fits 1, .truncatedInput⟩, ⟨c.memOk s.params.memSize 1, .busError⟩] fun s =>
      let (b, c') := getBit s.mem c
      .next ((s.setReader k c').result (if b then 1#32 else 0#32))

/-- RBYTE (40 R131). -/
def execRbyte (k : BitVec 4) (s : State) : Result State :=
  s.withContext k fun k =>
    let c := s.reader k
    s.primitive [⟨c.fits 8, .truncatedInput⟩, ⟨c.memOk s.params.memSize 8, .busError⟩] fun s =>
      let (v, c') := getByte s.mem c
      .next ((s.setReader k c').result (v.setWidth 32))

end Sys2Proof.Machine
end

