-- ==== Sys2Proof/Machine/HuffmanTree.lean ====
section
/-! DEFINITION. The meanings of the tree, lookup and traversal commands (41 R143 to R154). -/

namespace Sys2Proof.Machine

/-- The tree of context `k`. -/
def State.tree (s : State) (k : Fin 4) : Tree := s.ctx[k].tree

/-- `ctx[k].T <- t`, with LUT cleared and TC invalid (41 R143, R146; 92 D22, D23). -/
def State.setTree (s : State) (k : Fin 4) (t : Tree) : State :=
  s.setCtx k { s.ctx[k] with tree := t, lut := {}, tc := {} }

/-- `ctx[k].LUT <- t` (41 R147). -/
def State.setLut (s : State) (k : Fin 4) (t : LookupTable) : State := s.setCtx k { s.ctx[k] with lut := t }

/-- `ctx[k].TC <- c` (41 R150 to R154). -/
def State.setTc (s : State) (k : Fin 4) (c : TraversalCursor) : State := s.setCtx k { s.ctx[k] with tc := c }

/-- Go on with the shape of a built tree. An arena without one breaks 10 R33: log 12. -/
def Tree.withShape (t : Tree) (f : Shape → Result State) : Result State :=
  match t.shape with
  | some sh => f sh
  | none => .fault .malformedTree

/-- The node under the traversal cursor of context `k` (10 R35). -/
def State.node? (s : State) (k : Fin 4) : Option Node := s.ctx[k].tree.nodes[s.ctx[k].tc.node]?

/-- `ctx[k].TC.valid == 1 else NotReady` (41 R151 to R154). -/
def State.tcReady (s : State) (k : Fin 4) : Check := ⟨s.ctx[k].tc.valid, .notReady⟩

/-- "node is Leaf else ValueAtBranch" (41 R152). -/
def leafCheck : Option Node → Check
  | some (.branch _ _ _) => ⟨false, .valueAtBranch⟩
  | some (.leaf _ _) | none => ⟨true, .valueAtBranch⟩

/-- "node is Branch else TraversalAtLeaf" (41 R153, R154). -/
def branchCheck : Option Node → Check
  | some (.leaf _ _) => ⟨false, .traversalAtLeaf⟩
  | some (.branch _ _ _) | none => ⟨true, .traversalAtLeaf⟩

/-- The checks of TWRITE, in order: NotReady comes first (41 R145). -/
def State.twriteChecks (s : State) (c : Cursor) (t : Tree) : List Check :=
  ⟨t.built, .notReady⟩ :: s.storeChecks c t.treeBits

/-- TCREATE (41 R143). -/
def execTcreate (k : BitVec 4) (s : State) : Result State :=
  s.withContext k fun k =>
    s.primitive
      [ ⟨decide (0 < s.regs.srcSize.toNat), .emptyInput⟩, ⟨decide (s.regs.srcEnd ≤ u32Limit), .sizeOverflow⟩
      , ⟨decide (s.regs.srcEnd ≤ s.params.memSize), .busError⟩ ] fun s =>
      .next (s.setTree k (buildTree (Memory.readBytes s.mem s.regs.srcBase.toNat s.regs.srcSize.toNat)))

/-- TWRITE (41 R145). -/
def execTwrite (k : BitVec 4) (s : State) : Result State :=
  s.withContext k fun k =>
    let t := s.tree k
    let c := s.writer k
    s.primitive (s.twriteChecks c t) fun s =>
      t.withShape fun sh => .next (s.written k (sh.serialize s.mem c))

/-- TREAD (41 R146): the first fault met in parse order, before any change. -/
def execTread (k : BitVec 4) (s : State) : Result State :=
  s.withContext k fun k =>
    match parseTree s.params.memSize s.mem (s.reader k) with
    | (_, .error e) => s.primitive [⟨false, e⟩] .next
    | (c, .ok t) => s.primitive [] fun s => .next ((s.setReader k c).setTree k t)

/-- TLOOKUP (41 R147). -/
def execTlookup (k : BitVec 4) (s : State) : Result State :=
  s.withContext k fun k =>
    let t := s.tree k
    s.primitive [⟨t.built, .notReady⟩, ⟨decide (t.depth ≤ Config.maxCodeLen), .codeTooLong⟩] fun s =>
      t.withShape fun sh => .next (s.setLut k sh.lookup)

/-- TBITCOUNT (41 R149). -/
def execTbitcount (k : BitVec 4) (s : State) : Result State :=
  s.withContext k fun k =>
    let t := s.tree k
    s.primitive [⟨t.built, .notReady⟩] fun s =>
      t.withShape fun sh =>
        let tb := t.treeBits
        let db := sh.dataBits 0
        .next (s.result4 (u32 tb) (u32 db) (u32 (db / u32Limit)) (u32 (bytesFor (tb + db))))

/-- TCROOT (41 R150). -/
def execTcroot (k : BitVec 4) (s : State) : Result State :=
  s.withContext k fun k =>
    s.primitive [⟨(s.tree k).built, .notReady⟩] fun s => .next (s.setTc k ⟨true, (s.tree k).root⟩)

/-- TCISLEAF (41 R151). -/
def execTcisleaf (k : BitVec 4) (s : State) : Result State :=
  s.withContext k fun k =>
    s.primitive [s.tcReady k] fun s =>
      match s.node? k with
      | some n => .next (s.result (if n.isLeaf then 1#32 else 0#32))
      | none => .fault .malformedTree

/-- TCVALUE (41 R152). -/
def execTcvalue (k : BitVec 4) (s : State) : Result State :=
  s.withContext k fun k =>
    s.primitive [s.tcReady k, leafCheck (s.node? k)] fun s =>
      match s.node? k with
      | some (.leaf v _) => .next (s.result (v.setWidth 32))
      | some (.branch _ _ _) | none => .fault .malformedTree

/-- TCLEFT (41 R153). -/
def execTcleft (k : BitVec 4) (s : State) : Result State :=
  s.withContext k fun k =>
    s.primitive [s.tcReady k, branchCheck (s.node? k)] fun s =>
      match s.node? k with
      | some (.branch _ l _) => .next (s.setTc k ⟨true, l⟩)
      | some (.leaf _ _) | none => .fault .malformedTree

/-- TCRIGHT (41 R154). -/
def execTcright (k : BitVec 4) (s : State) : Result State :=
  s.withContext k fun k =>
    s.primitive [s.tcReady k, branchCheck (s.node? k)] fun s =>
      match s.node? k with
      | some (.branch _ _ r) => .next (s.setTc k ⟨true, r⟩)
      | some (.leaf _ _) | none => .fault .malformedTree

end Sys2Proof.Machine
end

