-- ==== Sys2Proof/Machine/Jobs.lean ====
section
/-! DEFINITION. The meanings of the limiter and job micro-operations (42 R170 to R177). -/

namespace Sys2Proof.Machine

/-- The job whose turn it is, for a micro-operation that names none (42 R171, R172). Log 6, log 13. -/
def State.currentJob (s : State) (f : Nat → Job → Result State) : Result State :=
  s.microOp (match s.turn with
    | .job i =>
      match s.job? i with
      | some j => f i j
      | none => .fault .noSuchJob
    | .host | .controller => .fault .noSuchJob)

/-- The job a body names by its block index (42 R175 to R177). -/
def State.bodyJob (s : State) (i : Nat) (f : Job → Result State) : Result State :=
  s.microOp (match s.job? i with
    | some j => f j
    | none => .fault .noSuchJob)

/-- "each completed micro-operation advances it by one" (10 R42), for a LINIT word in a job's program:
log 14. -/
def State.advanceTurn (s : State) : State :=
  match s.turn with
  | .job i => s.updateJob i (fun j => { j with pc := j.pc + 1 })
  | .host | .controller => s

/-- The first byte of block `i` of the plan's source (42 R175, R176). -/
def Plan.blockStart (p : Plan) (i : Nat) : Nat := p.srcBase.toNat + i * p.blockSize.toNat

/-- `min(bs, n − i·bs)` (43 R191). It is 0 for an index past the last block. -/
def Plan.blockLen (p : Plan) (i : Nat) : Nat := min p.blockSize.toNat (p.inSize.toNat - i * p.blockSize.toNat)

/-- LINIT (42 R170). -/
def execLinit (permits : Word) (s : State) : Result State :=
  s.microOp (.next (s.initLimiter permits).advanceTurn)

/-- LACQ (42 R171). Not enabled, the job has no step and waits: nothing changes (00 R12). Log 11. -/
def execLacq (s : State) : Result State :=
  s.currentJob fun i _ =>
    if s.limiter.permits = 0#32 then .next s
    else .next ((s.setLimiter { s.limiter with permits := s.limiter.permits - 1#32 }).updateJob i
      (fun j => { j with holds := true, pc := 1 }))

/-- LREL (42 R172). -/
def execLrel (s : State) : Result State :=
  s.currentJob fun i _ =>
    if s.limiter.permits.toNat + 1 > s.limiter.capacity.toNat then
      .next (s.updateJob i (fun j =>
        { j with err := j.err.orElse (fun _ => some .limiterOverRelease), holds := false, pc := 3 }))
    else
      .next ((s.setLimiter { s.limiter with permits := s.limiter.permits + 1#32 }).updateJob i
        (fun j => { j with holds := false, pc := 3 }))

/-- What ANALYZE leaves in a job: a result or a fault (42 R175). -/
def analyzeBlock (bytes : List Byte) (sh : Shape) (t : Tree) : Except FaultCode AnalyzeResult :=
  let cs := bytesFor (t.treeBits + sh.dataBits 0)
  if sh.depth > Config.maxCodeLen then .error .codeTooLong
  else if cs ≥ u32Limit then .error .sizeOverflow
  else .ok { dsize := u32 bytes.length, csize := u32 cs, tree := t }

/-- ANALYZE (42 R175). -/
def execAnalyze (block : Word) (s : State) : Result State :=
  let i := block.toNat
  s.bodyJob i fun _ =>
    let start := s.plan.blockStart i
    let dsize := s.plan.blockLen i
    if dsize = 0 then .fault .noSuchBlock
    else if start + dsize > s.params.memSize then
      .next (s.updateJob i (fun j => { j with err := some .busError, pc := 2 }))
    else
      let bytes := Memory.readBytes s.mem start dsize
      let t := buildTree bytes
      t.withShape fun sh =>
        match analyzeBlock bytes sh t with
        | .error e => .next (s.updateJob i (fun j => { j with err := some e, pc := 2 }))
        | .ok r => .next (s.updateJob i (fun j => { j with res := some r, pc := 2 }))

/-- MEM and the cursor where a run of a job body stands, and the fault that stopped it, if any. -/
structure BodyRun where
  mem : Memory
  cur : Cursor
  err : Option FaultCode

/-- The code loop of ENCODE (42 R176): `remaining` source bytes from address `src` on are encoded. It
stops at the first failed check, and writes already made stay. -/
def encodeBytes (memSize : Nat) (lut : LookupTable) : Nat → Nat → Memory → Cursor → BodyRun
  | 0, _, m, c => ⟨m, c, none⟩
  | remaining + 1, src, m, c =>
    if ¬ src < memSize then ⟨m, c, some .busError⟩
    else
      let e := lut.entryOf (Memory.read m src)
      if !c.fits e.length then ⟨m, c, some .writeOutOfBounds⟩
      else if !c.memOk memSize e.length then ⟨m, c, some .busError⟩
      else
        let (m', c') := putBits m c e.pattern e.length
        encodeBytes memSize lut remaining (src + 1) m' c'

/-- ENCODE (42 R176). -/
def execEncode (block : Word) (s : State) : Result State :=
  let i := block.toNat
  s.bodyJob i fun _ =>
    match s.plan.desc[i]? with
    | none => .fault .noSuchBlock
    | some d =>
      match d.tree with
      | none => .fault .noSuchBlock
      | some t =>
        let region := u32 (s.controller.dstBase.toNat + s.plan.headerSize.toNat + d.offset.toNat)
        let w : Cursor := { base := region, len := d.csize }
        if !w.fits t.treeBits then
          .next (s.updateJob i (fun j => { j with w := w, tree := t, err := some .writeOutOfBounds, pc := 2 }))
        else if !w.memOk s.params.memSize t.treeBits then
          .next (s.updateJob i (fun j => { j with w := w, tree := t, err := some .busError, pc := 2 }))
        else
          t.withShape fun sh =>
            let (m1, w1) := sh.serialize s.mem w
            let run := encodeBytes s.params.memSize sh.lookup d.dsize.toNat (s.plan.blockStart i) m1 w1
            .next ((s.setMem run.mem).updateJob i (fun j =>
              { j with w := run.cur, tree := t, lut := sh.lookup, err := run.err.or j.err, pc := 2 }))

/-- The output loop of DECODE (42 R177): `remaining` bytes are walked and written from address `out`
on. It stops at the first failed check, and writes already made stay. -/
def decodeBytes (memSize : Nat) (sh : Shape) : Nat → Nat → Memory → Cursor → BodyRun
  | 0, _, m, c => ⟨m, c, none⟩
  | remaining + 1, out, m, c =>
    match sh.walk memSize m c with
    | (c', .error e) => ⟨m, c', some e⟩
    | (c', .ok v) =>
      if ¬ out < memSize then ⟨m, c', some .busError⟩
      else decodeBytes memSize sh remaining (out + 1) (Memory.write m out v) c'

/-- DECODE (42 R177): the tree is read even if the block has no bytes (92 D54). -/
def execDecode (block : Word) (s : State) : Result State :=
  let i := block.toNat
  s.bodyJob i fun _ =>
    match s.plan.desc[i]? with
    | none => .fault .noSuchBlock
    | some d =>
      let region := u32 (s.plan.srcBase.toNat + s.plan.headerSize.toNat + d.offset.toNat)
      let r : Cursor := { base := region, len := d.csize }
      let out := s.controller.dstBase.toNat + d.doff.toNat
      match parseTree s.params.memSize s.mem r with
      | (c, .error e) => .next (s.updateJob i (fun j => { j with r := c, err := some e, pc := 2 }))
      | (c, .ok t) =>
        t.withShape fun sh =>
          let run := decodeBytes s.params.memSize sh d.dsize.toNat out s.mem c
          .next ((s.setMem run.mem).updateJob i (fun j =>
            { j with r := run.cur, tree := t, err := run.err.or j.err, pc := 2 }))

end Sys2Proof.Machine
end

