-- ==== Sys2Proof/Machine/Orchestrator.lean ====
section
/-! DEFINITION. The meanings of the orchestration commands (43 R190 to R204) and the controller's join step (42 R179, 43 R190). -/

namespace Sys2Proof.Machine

/-- `ceil(n / bs)` (43 R191). -/
def blockCountOf (n bs : Nat) : Nat := (n + bs - 1) / bs

/-- `LINIT(p); Launch(BODY); CONTROLLER.phase <- BODY` (43 R190). -/
def State.startPhase (s : State) (phase : Phase) (body : Word → Instr) : State :=
  (s.initLimiter s.permitCount).launch phase body

/-- An orchestration command's issue step: the checks in order; a failed one completes the command in
the same step, else the command's own changes are made (43 R190). -/
def State.issueChecked (s : State) (checks : List Check) (effect : State → State) : Result State :=
  match firstFailure checks with
  | some e => .next (s.raise e noBlock)
  | none => .next (effect s)

/-! ### PREPC (43 R191, R192) -/

/-- PLAN as PREPC's issue step sets it (43 R192). The rule names every field but the descriptors: that there are none
from here until the join installs them, or for good when the join faults, is the model's choice (DESIGN CHOICE, log 30). -/
def Regs.prepcPlan (r : Regs) : Plan where
  kind := .c
  srcBase := r.srcBase
  srcSize := r.srcSize
  inSize := r.srcSize
  blockSize := r.blockSize
  blockCount := u32 (blockCountOf r.srcSize.toNat r.blockSize.toNat)

/-- PREPC, the issue step (43 R192). -/
def execPrepc (s : State) : Result State :=
  s.begin.dropPlan.issueChecked
    [ ⟨s.regs.blockSize != 0#32, .invalidBlockSize⟩, ⟨decide (s.regs.srcEnd ≤ u32Limit), .sizeOverflow⟩
    , ⟨decide (s.regs.srcEnd ≤ s.params.memSize), .busError⟩ ] fun s =>
    (s.setPlan s.regs.prepcPlan).startPhase .analyze .analyze

/-- The descriptors of the analyzed blocks, each at the running sum of the compressed sizes, and the
sum after them (43 R192, R193). -/
def planBlocks : List AnalyzeResult → Nat → List Desc × Nat
  | [], off => ([], off)
  | r :: rs, off =>
    let (ds, off') := planBlocks rs (off + r.csize.toNat)
    ({ dsize := r.dsize, csize := r.csize, offset := u32 off, tree := some r.tree } :: ds, off')

/-- `16 + 12 × block_count` (43 R192, 20 R79). -/
def headerSizeOf (blockCount : Nat) : Nat := Config.hdrFixed + Config.dirEntry * blockCount

/-- The results of the analyze jobs in block order, or none if one is missing. -/
def analyzeResults : List Job → Option (List AnalyzeResult)
  | [] => some []
  | j :: js =>
    match j.res, analyzeResults js with
    | some r, some rs => some (r :: rs)
    | _, _ => none

/-! ### COMPRESS (43 R194 to R197) -/

/-- One directory entry (20 R80, 43 R195). -/
def writeEntry (m : Memory) (a : Nat) (d : Desc) : Memory :=
  Memory.write32LE (Memory.write32LE (Memory.write32LE m a d.dsize) (a + 4) d.csize) (a + 8) d.offset

/-- The directory from address `a` on (20 R80, 43 R195). -/
def writeDirectory (m : Memory) (a : Nat) : List Desc → Memory
  | [] => m
  | d :: ds => writeDirectory (writeEntry m a d) (a + Config.dirEntry) ds

/-- `WriteHeader(D)` (43 R195, 20 R79). -/
def writeHeader (m : Memory) (a : Nat) (p : Plan) : Memory :=
  let m := Memory.write32LE m a Config.magic
  let m := Memory.write32LE m (a + 4) p.blockCount
  let m := Memory.write32LE m (a + 8) p.blockSize
  let m := Memory.write32LE m (a + 12) p.headerSize
  writeDirectory m (a + Config.hdrFixed) p.desc

/-- The checks COMPRESS and DECOMPRESS make of the plan and the destination, in order (43 R196, R204). The
source range of kind C has `in_size` bytes, that of kind D `src_size`. -/
def State.executeChecks (s : State) (kind : PlanKind) (srcLen : Word) : List Check :=
  let p := s.plan
  let dst := s.regs.dstBase.toNat
  let out := p.outSize.toNat
  [ ⟨p.valid && p.kind == kind, .noPlan⟩
  , ⟨decide (out ≤ s.regs.dstSize.toNat), .dstTooSmall⟩
  , ⟨decide (dst + out ≤ u32Limit), .sizeOverflow⟩
  , ⟨!overlap p.srcBase.toNat srcLen.toNat dst out, .bufferOverlap⟩
  , ⟨decide (dst + out ≤ s.params.memSize), .busError⟩ ]

/-- `CONTROLLER.dst_base <- REG[DST_BASE]; CONTROLLER.dst_size <- REG[DST_SIZE]` (43 R194, R201). -/
def State.latchDst (s : State) : State :=
  s.setController { s.controller with dstBase := s.regs.dstBase, dstSize := s.regs.dstSize }

/-- COMPRESS, the issue step (43 R194). -/
def execCompress (s : State) : Result State :=
  s.begin.issueChecked (s.executeChecks .c s.plan.inSize) fun s =>
    let s := s.latchDst
    let s := s.setMem (writeHeader s.mem s.regs.dstBase.toNat s.plan)
    s.dropPlan.startPhase .encode .encode

/-! ### PREPD (43 R198 to R200) -/

/-- A fault with its ERRINFO. -/
structure Failure where
  code : FaultCode
  info : Word
deriving DecidableEq, Repr

/-- The directory read of 43 R200: `remaining` entries from index `i`, at address `e`, with the output
offset so far. -/
def readDirectory (m : Memory) (hs n : Nat) : Nat → Nat → Nat → Nat → Except Failure (List Desc × Nat)
  | 0, _, _, doff => .ok ([], doff)
  | remaining + 1, i, e, doff =>
    let ds := Memory.read32LE m e
    let cs := Memory.read32LE m (e + 4)
    let off := Memory.read32LE m (e + 8)
    if hs + off.toNat + cs.toNat > n then .error ⟨.truncatedInput, u32 i⟩
    else
      match readDirectory m hs n remaining (i + 1) (e + Config.dirEntry) (doff + ds.toNat) with
      | .error f => .error f
      | .ok (rest, total) =>
        .ok ({ dsize := ds, csize := cs, offset := off, doff := u32 doff } :: rest, total)

/-- The header checks of 43 R199, in order. -/
def headerChecks (memSize : Nat) (m : Memory) (r : Regs) : List Check :=
  let s := r.srcBase.toNat
  let n := r.srcSize.toNat
  let bc := Memory.read32LE m (s + 4)
  let hs := Memory.read32LE m (s + 12)
  [ ⟨decide (s + n ≤ u32Limit), .sizeOverflow⟩
  , ⟨decide (Config.hdrFixed ≤ n), .truncatedInput⟩
  , ⟨decide (s + n ≤ memSize), .busError⟩
  , ⟨Memory.read32LE m s == Config.magic, .invalidMagic⟩
  , ⟨decide (hs.toNat = headerSizeOf bc.toNat), .headerSizeMismatch⟩
  , ⟨decide (hs.toNat ≤ n), .truncatedInput⟩ ]

/-- Header validation, directory read and plan build (43 R199, R200). -/
def prepdPlan (memSize : Nat) (m : Memory) (r : Regs) : Except Failure Plan :=
  match firstFailure (headerChecks memSize m r) with
  | some e => .error ⟨e, noBlock⟩
  | none =>
    let s := r.srcBase.toNat
    let bc := Memory.read32LE m (s + 4)
    let hs := Memory.read32LE m (s + 12)
    match readDirectory m hs.toNat r.srcSize.toNat bc.toNat 0 (s + Config.hdrFixed) 0 with
    | .error f => .error f
    | .ok (desc, doff) =>
      if doff ≥ u32Limit then .error ⟨.sizeOverflow, noBlock⟩
      else
        .ok { valid := true, kind := .d, srcBase := r.srcBase, srcSize := r.srcSize, inSize := r.srcSize,
              outSize := u32 doff, blockSize := Memory.read32LE m (s + 8), blockCount := bc,
              headerSize := hs, desc := desc }

/-- PREPD, the whole command in one step (43 R198). -/
def execPrepd (s : State) : Result State :=
  let t := s.begin.dropPlan
  match prepdPlan s.params.memSize s.mem s.regs with
  | .error f => .next (t.raise f.code f.info)
  | .ok p => .next (t.setPlan p).complete

/-! ### DECOMPRESS (43 R201 to R204) -/

/-- DECOMPRESS, the issue step (43 R201). -/
def execDecompress (s : State) : Result State :=
  s.begin.issueChecked (s.executeChecks .d s.plan.srcSize) fun s =>
    s.latchDst.dropPlan.startPhase .decode .decode

/-! ### The join (42 R179, 43 R190, R192, R194, R201) -/

/-- The lowest failing block and its fault (42 R179; 92 D28). -/
def lowestFailure : List Job → Option (Nat × FaultCode)
  | [] => none
  | j :: js =>
    match j.err, lowestFailure js with
    | none, f => f
    | some e, none => some (j.block, e)
    | some e, some (i, e') => if j.block ≤ i then some (j.block, e) else some (i, e')

/-- The join is enabled: a phase runs and every job has pc = 3 (42 R179, 43 R190). -/
def State.joinReady (s : State) : Bool := s.controller.phase != .idle && s.jobs.all (fun j => j.pc == 3)

/-- `JOBS <- []` and `CONTROLLER.phase <- IDLE` (42 R179, 43 R190). -/
def State.endPhase (s : State) : State := (s.setJobs []).setController { s.controller with phase := .idle }

/-- The end of the command: with the fault of the lowest failing block, or without one (42 R179). -/
def State.finish (s : State) (f : Option (Nat × FaultCode)) : State :=
  match f with
  | some (i, e) => s.raise e (u32 i)
  | none => s.complete

/-- PREPC's completion actions when no job failed (43 R192). A sum that does not fit is found before
anything is stored, log 18: the plan then keeps the empty descriptor list of the issue step, log 30. -/
def State.installPlan (s : State) (rs : List AnalyzeResult) : State :=
  let hs := headerSizeOf s.plan.blockCount.toNat
  let (desc, off) := planBlocks rs 0
  if hs ≥ u32Limit ∨ hs + off ≥ u32Limit then s.raise .sizeOverflow noBlock
  else
    (s.setPlan { s.plan with valid := true, headerSize := u32 hs, outSize := u32 (hs + off), desc := desc }).complete

/-- The join step (43 R190): Join, the completion actions of the command, and completion. In the idle
phase the controller has no step. -/
def State.join (s : State) : Result State :=
  let failed := lowestFailure s.jobs
  match s.controller.phase with
  | .idle => .next s
  | .encode | .decode => .next ((s.endPhase.setPlan {}).finish failed)
  | .analyze =>
    match failed, analyzeResults s.jobs with
    | some f, _ => .next (s.endPhase.finish (some f))
    | none, some rs => .next (s.endPhase.installPlan rs)
    | none, none => .fault .missingResult

end Sys2Proof.Machine
end

