-- ==== Sys2Proof/Machine/Dispatch.lean ====
section
/-! DEFINITION. One arm per command of 30 R94. -/

namespace Sys2Proof.Machine

def exec (i : Instr) (s : State) : Host.Outcome State Fault Refusal :=
  match i with
  | .wbind k => Sys2Proof.Machine.execWbind k s
  | .wseek k byteOffset bit => Sys2Proof.Machine.execWseek k byteOffset bit s
  | .wtell k => Sys2Proof.Machine.execWtell k s
  | .wbit k value => Sys2Proof.Machine.execWbit k value s
  | .wbits k value n => Sys2Proof.Machine.execWbits k value n s
  | .rbind k => Sys2Proof.Machine.execRbind k s
  | .rseek k byteOffset bit => Sys2Proof.Machine.execRseek k byteOffset bit s
  | .rtell k => Sys2Proof.Machine.execRtell k s
  | .rbit k => Sys2Proof.Machine.execRbit k s
  | .rbyte k => Sys2Proof.Machine.execRbyte k s
  | .tcreate k => Sys2Proof.Machine.execTcreate k s
  | .twrite k => Sys2Proof.Machine.execTwrite k s
  | .tread k => Sys2Proof.Machine.execTread k s
  | .tlookup k => Sys2Proof.Machine.execTlookup k s
  | .tbitcount k => Sys2Proof.Machine.execTbitcount k s
  | .tcroot k => Sys2Proof.Machine.execTcroot k s
  | .tcisleaf k => Sys2Proof.Machine.execTcisleaf k s
  | .tcvalue k => Sys2Proof.Machine.execTcvalue k s
  | .tcleft k => Sys2Proof.Machine.execTcleft k s
  | .tcright k => Sys2Proof.Machine.execTcright k s
  | .prepc => Sys2Proof.Machine.execPrepc s
  | .compress => Sys2Proof.Machine.execCompress s
  | .prepd => Sys2Proof.Machine.execPrepd s
  | .decompress => Sys2Proof.Machine.execDecompress s
  | .linit permits => Sys2Proof.Machine.execLinit permits s
  | .lacq => Sys2Proof.Machine.execLacq s
  | .lrel => Sys2Proof.Machine.execLrel s
  | .analyze block => Sys2Proof.Machine.execAnalyze block s
  | .encode block => Sys2Proof.Machine.execEncode block s
  | .decode block => Sys2Proof.Machine.execDecode block s

end Sys2Proof.Machine
end

