-- ==== Sys2Proof/Machine/HostPort.lean ====
section
/-! DEFINITION. The host's side of the core: the register map (10 R21 to R29, 20 R61), command issue (10 R22), the host's own bytes of MEM (20 R60, R75) and reset (70 R250 to R252). -/

namespace Sys2Proof.Machine

/-! ### The register map (10 R21) -/

/-- A PLAN_* register: the field when a plan is held, else 0 (10 R27). -/
def Plan.view (p : Plan) (field : Word) : Word := if p.valid then field else 0#32

/-- The descriptor DESC_SEL selects, or one of zeros (10 R28). -/
def State.selectedDesc (s : State) : Desc :=
  if s.plan.valid && decide (s.regs.descSel.toNat < s.plan.blockCount.toNat) then
    s.plan.desc.getD s.regs.descSel.toNat {}
  else {}

/-- The lookup table entry LUT_SEL selects, or one of zeros: SYM is bits 7:0 and CTX bits 11:8 (10 R29). -/
def State.selectedLut (s : State) : LutEntry :=
  let k := s.regs.lutSel.extractLsb' 8 4
  if h : k.toNat < 4 then
    let lut := s.ctx[k.toNat].lut
    if lut.generated then lut.entryOf (s.regs.lutSel.extractLsb' 0 8) else {}
  else {}

/-- What a register reads (10 R21). An offset past the map reads 0 (20 R61). -/
def State.readRegister (s : State) (offset : Nat) : Word :=
  match offset with
  | 0x00 => s.regs.cmdLo
  | 0x04 => s.regs.cmdHi
  | 0x08 => statusWord s.regs s.plan
  | 0x0C => s.regs.errInfo
  | 0x10 => s.regs.srcBase
  | 0x14 => s.regs.srcSize
  | 0x18 => s.regs.dstBase
  | 0x1C => s.regs.dstSize
  | 0x20 => s.regs.blockSize
  | 0x24 => s.regs.nThreads
  | 0x28 => s.regs.result0
  | 0x2C => s.regs.result1
  | 0x30 => s.regs.result2
  | 0x34 => s.regs.result3
  | 0x38 => s.plan.view s.plan.inSize
  | 0x3C => s.plan.view s.plan.outSize
  | 0x40 => s.plan.view s.plan.blockSize
  | 0x44 => s.plan.view s.plan.blockCount
  | 0x48 => s.plan.view s.plan.headerSize
  | 0x4C => s.regs.descSel
  | 0x50 => s.selectedDesc.dsize
  | 0x54 => s.selectedDesc.csize
  | 0x58 => s.selectedDesc.offset
  | 0x5C => s.regs.lutSel.setWidth 32
  | 0x60 => s.selectedLut.pattern
  | 0x64 => u32 s.selectedLut.length
  | 0x68 => s.selectedLut.weight
  | 0x6C => Config.caps
  | 0x70 => s.params.hwParallelism
  | 0x74 => s.limiter.capacity
  | 0x78 => s.limiter.permits
  | 0x7C => Config.version
  | _ => 0#32

/-- The PLAN_* and DESC_* registers, which read any value while BUSY = 1 (10 R27, R28). -/
def isPlanView (offset : Nat) : Bool :=
  [0x38, 0x3C, 0x40, 0x44, 0x48, 0x50, 0x54, 0x58].contains offset

/-- What a register write stores. CMD_HI only stores here: its issue is `State.issue`. A read-only register
and an offset past the map ignore the write (20 R61); LUT_SEL keeps bits 11:0 (10 R29). -/
def Regs.write (r : Regs) (offset : Nat) (v : Word) : Regs :=
  match offset with
  | 0x00 => { r with cmdLo := v }
  | 0x04 => { r with cmdHi := v }
  | 0x10 => { r with srcBase := v }
  | 0x14 => { r with srcSize := v }
  | 0x18 => { r with dstBase := v }
  | 0x1C => { r with dstSize := v }
  | 0x20 => { r with blockSize := v }
  | 0x24 => { r with nThreads := v }
  | 0x4C => { r with descSel := v }
  | 0x5C => { r with lutSel := v.extractLsb' 0 12 }
  | _ => r

/-- A register access is 32 bits wide and 4-byte aligned (20 R61). -/
def goodAccess (offset width : Nat) : Bool := width == 32 && offset % 4 == 0

/-- The plan's source range is not the host's to write: while a command runs, and while a compression plan
waits for its COMPRESS (20 R75). -/
def State.sourceLive (s : State) : Bool := s.regs.busy || (s.plan.valid && s.plan.kind == .c)

/-- The checks of the command pass and the `n` bits it then stores through the writer `c` touch a byte of the
plan's source range. A command that faults stores nothing (60 R223). -/
def State.storesToSource (s : State) (checks : List Check) (c : Cursor) (n : Nat) : Bool :=
  firstFailure checks == none && n != 0 &&
    overlap (c.addrOf 0) (c.addrOf (n - 1) + 1 - c.addrOf 0) s.plan.srcBase.toNat s.plan.srcSize.toNat

/-- The command is a host write to a live source range: of the commands of 40 and 41, WBIT, WBITS and TWRITE
store to MEM, each as the host's own step (20 R70, R75). COMPRESS stores to its destination alone (43 R196). -/
def State.storesToLiveSource (s : State) (i : Instr) : Bool :=
  s.sourceLive &&
    match i with
    | .wbit k _ =>
      if h : k.toNat < 4 then
        let c := s.writer ⟨k.toNat, h⟩
        s.storesToSource (s.storeChecks c 1) c 1
      else false
    | .wbits k _ n =>
      if h : k.toNat < 4 then
        let c := s.writer ⟨k.toNat, h⟩
        s.storesToSource (s.wbitsChecks c n.toNat) c n.toNat
      else false
    | .twrite k =>
      if h : k.toNat < 4 then
        let c := s.writer ⟨k.toNat, h⟩
        let t := s.tree ⟨k.toNat, h⟩
        s.storesToSource (s.twriteChecks c t) c t.treeBits
      else false
    | .wbind _ | .wseek _ _ _ | .wtell _ | .rbind _ | .rseek _ _ _ | .rtell _ | .rbit _ | .rbyte _ => false
    | .tcreate _ | .tread _ | .tlookup _ | .tbitcount _ => false
    | .tcroot _ | .tcisleaf _ | .tcvalue _ | .tcleft _ | .tcright _ => false
    | .prepc | .compress | .prepd | .decompress => false
    | .linit _ | .lacq | .lrel | .analyze _ | .encode _ | .decode _ => false

/-- The command word in CMD_HI and CMD_LO is decoded and executed (10 R22, 30 R95). The host has no step that
issues a store to a live source range (20 R75, 70 R256 item 2): log 8. -/
def State.issue (s : State) : Result State :=
  match decode (commandWord s.regs.cmdHi s.regs.cmdLo) with
  | .error _ => .next s.illegalCommand
  | .ok i => if s.storesToLiveSource i then .refused .hostWriteToLiveRange else exec i s

/-- A host register write (10 R22, 20 R61). -/
def State.hostRegWrite (s : State) (offset width : Nat) (v : Word) : Result State :=
  if !goodAccess offset width then .refused .badRegisterAccess
  else if offset = 0x04 then
    if s.regs.busy then .refused .issueWhileBusy
    else (s.setRegs (s.regs.write offset v)).issue
  else .next (s.setRegs (s.regs.write offset v))

/-- A free word drawn (10 R27, R28). -/
def State.drawRead (s : State) (v : Word) : State := (s.setHostRead v).setDraws (s.draws + 1)

/-- A host register read. It changes no state of the core (10 R21). -/
def State.hostRegRead (s : State) (offset width : Nat) : Result State :=
  if !goodAccess offset width then .refused .badRegisterAccess
  else if s.regs.busy && isPlanView offset then .next (s.drawRead (Config.freeWord s.draws))
  else .next (s.setHostRead (s.readRegister offset))

/-! ### The host's own accesses to MEM (20 R60, R75) -/

/-- A byte of the live source range (20 R75). -/
def State.liveSource (s : State) (a : Nat) : Bool :=
  s.sourceLive && inRange a s.plan.srcBase.toNat s.plan.srcSize.toNat

/-- The destination range of the running command (20 R75). -/
def State.liveDestination (s : State) (a : Nat) : Bool :=
  s.regs.busy && inRange a s.controller.dstBase.toNat s.plan.outSize.toNat

/-- The host's byte store (20 R60). -/
def State.hostMemWrite (s : State) (a : Nat) (v : Byte) : Result State :=
  if ¬ a < s.params.memSize then .fault .noSuchAddress
  else if s.liveSource a || s.liveDestination a then .refused .hostWriteToLiveRange
  else .next (s.setMem (Memory.write s.mem a v))

/-- The host's byte load (20 R60). A live destination byte reads as any value (20 R75). -/
def State.hostMemRead (s : State) (a : Nat) : Result State :=
  if ¬ a < s.params.memSize then .fault .noSuchAddress
  else if s.liveDestination a then .next (s.drawRead ((Config.freeByte s.draws).setWidth 32))
  else .next (s.setHostRead ((Memory.read s.mem a).setWidth 32))

/-! ### Reset (70 R250 to R252) -/

/-- How many bytes an aborted COMPRESS or DECOMPRESS leaves with any value (70 R252). -/
def State.abortedBytes (s : State) : Nat :=
  match s.controller.phase with
  | .encode | .decode => min s.plan.outSize.toNat (s.params.memSize - s.controller.dstBase.toNat)
  | .idle | .analyze => 0

/-- Reset: every piece of core state at its reset value, MEM as it was but for an aborted command's
destination. The host's coming steps, the schedule and the parameters are not the core's. Log 23. -/
def State.afterReset (s : State) : State :=
  { State.resetWith s.params with
    mem := Memory.draw s.mem s.controller.dstBase.toNat s.draws s.abortedBytes
    inputs := s.inputs
    sched := s.sched
    draws := s.draws + s.abortedBytes
    hostRead := s.hostRead }

/-! ### The host's next step -/

/-- One step of the host. -/
def State.hostStep (s : State) (h : HostStep) : Result State :=
  match h with
  | .regWrite offset width v => s.hostRegWrite offset width v
  | .regRead offset width => s.hostRegRead offset width
  | .memWrite a v => s.hostMemWrite a.toNat v
  | .memRead a => s.hostMemRead a.toNat
  | .await => .next s
  | .reset => .next s.afterReset

/-- The host has a next step: WAIT holds until BUSY = 0 (30 R103). -/
def State.hostReady (s : State) : Bool :=
  match s.inputs with
  | [] => false
  | .await :: _ => !s.regs.busy
  | .regWrite _ _ _ :: _ | .regRead _ _ :: _ | .memWrite _ _ :: _ | .memRead _ :: _ | .reset :: _ => true

/-- The host's first coming step is taken. -/
def State.runHost (s : State) : Result State :=
  match s.inputs with
  | [] => .next s
  | h :: rest => (s.setInputs rest).hostStep h

end Sys2Proof.Machine
end

