-- ==== Sys2Proof/Machine/Schedule.lean ====
section
/-! DEFINITION. Which steps are enabled, which of them comes next (42 R174), and the step of each agent. Placing a command where the machine takes its next one. -/

namespace Sys2Proof.Machine

/-- The word job `j` runs next: `prog[pc]`, none when the job has finished (10 R42). -/
def Job.word? (j : Job) : Option Cmd := j.prog[j.pc.val]?

/-- A job with pc < 3 has a step; LACQ only if a permit is free (42 R171, R174). -/
def State.jobReady (s : State) (j : Job) : Bool :=
  match j.word? with
  | none => false
  | some w =>
    match decode w with
    | .ok .lacq => s.limiter.permits != 0#32
    | .ok _ | .error _ => true

/-- The set of enabled steps (42 R174): the host's, the join, and those of the jobs. -/
def State.enabled (s : State) : List Agent :=
  (if s.hostReady then [Agent.host] else []) ++ (if s.joinReady then [Agent.controller] else []) ++
    (s.jobs.filter s.jobReady).map (fun j => Agent.job j.block)

/-- The scheduler's choice among `k` enabled steps: the next of `sched`; when that is used up and there
is a choice to make, a free value (42 R174; log 2). -/
def State.choose (s : State) (k : Nat) : Nat × State :=
  match s.sched with
  | c :: rest => (c % k, s.setSched rest)
  | [] => if k ≤ 1 then (0, s) else (Config.choice s.draws % k, s.setDraws (s.draws + 1))

/-- The agent whose step comes next, or none if no step is enabled. -/
def State.pick (s : State) : Option (Agent × State) :=
  match s.enabled with
  | [] => none
  | a :: as =>
    let (n, t) := s.choose (as.length + 1)
    some ((a :: as).getD n a, t)

/-- Job `i` runs its next micro-operation (10 R42). A job program holds nothing else (42 R173), log 13. -/
def State.runJob (s : State) (i : Nat) : Result State :=
  match s.job? i with
  | none => .fault .noSuchJob
  | some j =>
    match j.word? with
    | none => .next s
    | some w =>
      match decode w with
      | .error _ => .fault .illegalMicroOp
      | .ok op => if op.isMicroOp then exec op s else .fault .illegalMicroOp

/-- The step of an agent, with the agent recorded in `turn`. -/
def State.runAgent (s : State) (a : Agent) : Result State :=
  match a with
  | .host => (s.setTurn .host).runHost
  | .controller => (s.setTurn .controller).join
  | .job i => (s.setTurn (.job i)).runJob i

/-! ### A command placed where the next step takes it (log 15) -/

/-- A host command word: CMD_LO holds the low half, the host's next step writes the high half to CMD_HI,
and the schedule takes that step. BUSY is 0, as issue needs (10 R22). -/
def State.placeHostWord (s : State) (w : Cmd) : State :=
  ((s.setRegs { s.regs with cmdLo := w.extractLsb' 0 32, busy := false }).setInputs
    (.regWrite 0x04 32 (w.extractLsb' 32 32) :: s.inputs)).setSched (0 :: s.sched)

/-- The block a micro-operation names, 0 if it names none. -/
def blockOperand : Instr → Nat
  | .analyze i | .encode i | .decode i => i.toNat
  | .linit _ | .lacq | .lrel => 0
  | .wbind _ | .wseek _ _ _ | .wtell _ | .wbit _ _ | .wbits _ _ _ => 0
  | .rbind _ | .rseek _ _ _ | .rtell _ | .rbit _ | .rbyte _ => 0
  | .tcreate _ | .twrite _ | .tread _ | .tlookup _ | .tbitcount _ => 0
  | .tcroot _ | .tcisleaf _ | .tcvalue _ | .tcleft _ | .tcright _ => 0
  | .prepc | .compress | .prepd | .decompress => 0

/-- Where a micro-operation stands in a job's program (10 R42). -/
def programPoint : Instr → Fin 3
  | .analyze _ | .encode _ | .decode _ => 1
  | .lrel => 2
  | .linit _ | .lacq => 0
  | .wbind _ | .wseek _ _ _ | .wtell _ | .wbit _ _ | .wbits _ _ _ => 0
  | .rbind _ | .rseek _ _ _ | .rtell _ | .rbit _ | .rbyte _ => 0
  | .tcreate _ | .twrite _ | .tread _ | .tlookup _ | .tbitcount _ => 0
  | .tcroot _ | .tcisleaf _ | .tcvalue _ | .tcleft _ | .tcright _ => 0
  | .prepc | .compress | .prepd | .decompress => 0

/-- A job about to run the word `w` of the micro-operation `i`, holding a permit if it is past its LACQ. -/
def placedJob (i : Instr) (w : Cmd) : Job :=
  { block := blockOperand i
    pc := (programPoint i).castSucc
    prog := (jobProgram i).set (programPoint i) w
    holds := programPoint i != 0 }

/-- The plan a job body needs: the state's own if it has the block, else one whose blocks `0 .. i` are
one byte each, compressed to a single-leaf tree of two bytes. -/
def Plan.withBlock (p : Plan) (i : Nat) : Plan :=
  if p.blockLen i != 0 && (p.desc[i]?.bind (·.tree)).isSome then p
  else
    { p with
      inSize := u32 (i + 1)
      blockSize := 1#32
      blockCount := u32 (i + 1)
      desc := List.replicate (i + 1) { dsize := 1#32, csize := 2#32, tree := some { built := true, nodes := [.leaf 0#8 1#32] } } }

/-- A limiter in which a LACQ is enabled, or whose permit the job at its LREL holds (42 R171, R172). -/
def Limiter.forOp (l : Limiter) (i : Instr) : Limiter :=
  match i with
  | .lacq => if l.permits = 0#32 then ⟨1#32, 1#32⟩ else l
  | .lrel => if l.permits.toNat + 1 > l.capacity.toNat then ⟨1#32, 0#32⟩ else l
  | _ => l

/-- A micro-operation word: a job with it in its program is added, and the schedule takes its step. The
host's step, if it has one, stands before the jobs' in the enabled set. -/
def State.placeMicroOp (s : State) (i : Instr) (w : Cmd) : State :=
  let plan := match i with
    | .analyze b | .encode b | .decode b => s.plan.withBlock b.toNat
    | _ => s.plan
  (((s.setPlan plan).setLimiter (s.limiter.forOp i)).setJobs
    (placedJob i w :: s.jobs.filter (fun j => j.block != blockOperand i))).setSched
    ((if s.hostReady then 1 else 0) :: s.sched)

/-- A command word placed as its issuer places it: a micro-operation in a job's program, any other word
in the command registers. -/
def State.placeWord (s : State) (w : Cmd) : State :=
  match decode w with
  | .ok i => if i.isMicroOp then s.placeMicroOp i w else s.placeHostWord w
  | .error _ => s.placeHostWord w

end Sys2Proof.Machine
end

