-- ==== Sys2Proof/Machine/Step.lean ====
section
/-! DEFINITION. One step of the machine (42 R174), and a word of the opcode table stored where the step takes its next command. -/

namespace Sys2Proof.Machine

/-- One step: the scheduler picks an enabled step and its agent takes it. When none is enabled the core
is idle and stays as it is (60 R231; log 10). -/
def step (s : State) : Host.Outcome State Fault Refusal :=
  match s.pick with
  | none => .next s
  | some (a, t) => t.runAgent a

/-- `s` with the command word `w`, `nbits` long, placed so that the very next step runs it. Log 15. -/
def State.withFetchWord (s : State) (nbits w : Nat) : State := s.placeWord (tableWord nbits w)

end Sys2Proof.Machine
end

