-- ==== Sys2Proof/Safety.lean ====
section
/-! DEFINITION. What a state of the core must satisfy, the invariants of 10, 42 and 43, and the terms the statements use. -/

namespace Sys2Proof.Machine

/-! ### STATUS and ERRINFO at the end of a command (60 R224) -/

/-- The registers after a command that completed without a fault: BUSY 0, DONE 1, ERR and ERRCODE 0,
ERRINFO 0; the others as they were. -/
def Regs.succeeded (r : Regs) : Regs := { r with busy := false, done := true, fault := none, errInfo := 0#32 }

/-- The registers after a command that ended in `Fault(e, info)`: the others as they were. -/
def Regs.failed (r : Regs) (e : FaultCode) (info : Word) : Regs :=
  { r with busy := false, done := true, fault := some e, errInfo := info }

/-- The state after a command that faulted and changed nothing but STATUS and ERRINFO (60 R223). -/
def State.failedOnly (s : State) (e : FaultCode) (info : Word) : State := { s with regs := s.regs.failed e info }

/-- The registers of 30 R100. -/
def Regs.results (r : Regs) : List Word := [r.result0, r.result1, r.result2, r.result3]

/-! ### Command words (30 R90, R94) -/

/-- The word of an opcode and its fields, each at its bits of 30 R90. -/
def formWord (opc : BitVec 8) (k : BitVec 4) (n : BitVec 6) (bit : BitVec 3) (imm : Word) : Cmd :=
  (imm.setWidth 64 <<< 32) ||| (bit.setWidth 64 <<< 24) ||| (n.setWidth 64 <<< 16) ||| (k.setWidth 64 <<< 8) |||
    opc.setWidth 64

/-- Match and mask of the context commands, as 30 R94 writes them. -/
def contextMasks : List (String × Cmd × Cmd) :=
  [ ("WBIND", 0x0000000000000001#64, 0xFFFFFFFFFFFFF0FF#64)
  , ("WSEEK", 0x0000000000000002#64, 0x00000000F8FFF0FF#64)
  , ("WTELL", 0x0000000000000003#64, 0xFFFFFFFFFFFFF0FF#64)
  , ("WBIT", 0x0000000000000004#64, 0xFFFFFFFEFFFFF0FF#64)
  , ("WBITS", 0x0000000000000005#64, 0x00000000FFC0F0FF#64)
  , ("RBIND", 0x0000000000000009#64, 0xFFFFFFFFFFFFF0FF#64)
  , ("RSEEK", 0x000000000000000A#64, 0x00000000F8FFF0FF#64)
  , ("RTELL", 0x000000000000000B#64, 0xFFFFFFFFFFFFF0FF#64)
  , ("RBIT", 0x000000000000000C#64, 0xFFFFFFFFFFFFF0FF#64)
  , ("RBYTE", 0x000000000000000D#64, 0xFFFFFFFFFFFFF0FF#64)
  , ("TCREATE", 0x0000000000000010#64, 0xFFFFFFFFFFFFF0FF#64)
  , ("TWRITE", 0x0000000000000011#64, 0xFFFFFFFFFFFFF0FF#64)
  , ("TREAD", 0x0000000000000012#64, 0xFFFFFFFFFFFFF0FF#64)
  , ("TLOOKUP", 0x0000000000000013#64, 0xFFFFFFFFFFFFF0FF#64)
  , ("TBITCOUNT", 0x0000000000000014#64, 0xFFFFFFFFFFFFF0FF#64)
  , ("TCROOT", 0x0000000000000018#64, 0xFFFFFFFFFFFFF0FF#64)
  , ("TCISLEAF", 0x0000000000000019#64, 0xFFFFFFFFFFFFF0FF#64)
  , ("TCVALUE", 0x000000000000001A#64, 0xFFFFFFFFFFFFF0FF#64)
  , ("TCLEFT", 0x000000000000001B#64, 0xFFFFFFFFFFFFF0FF#64)
  , ("TCRIGHT", 0x000000000000001C#64, 0xFFFFFFFFFFFFF0FF#64) ]

/-- Match and mask of the orchestration commands, as 30 R94 writes them. -/
def orchestrationMasks : List (String × Cmd × Cmd) :=
  [ ("PREPC", 0x0000000000000020#64, 0xFFFFFFFFFFFFFFFF#64)
  , ("COMPRESS", 0x0000000000000021#64, 0xFFFFFFFFFFFFFFFF#64)
  , ("PREPD", 0x0000000000000022#64, 0xFFFFFFFFFFFFFFFF#64)
  , ("DECOMPRESS", 0x0000000000000023#64, 0xFFFFFFFFFFFFFFFF#64) ]

/-- Match and mask of the micro-operations, as 30 R94 writes them. -/
def microMasks : List (String × Cmd × Cmd) :=
  [ ("LINIT", 0x0000000000000030#64, 0x00000000FFFFFFFF#64)
  , ("LACQ", 0x0000000000000031#64, 0xFFFFFFFFFFFFFFFF#64)
  , ("LREL", 0x0000000000000032#64, 0xFFFFFFFFFFFFFFFF#64)
  , ("ANALYZE", 0x0000000000000033#64, 0x00000000FFFFFFFF#64)
  , ("ENCODE", 0x0000000000000034#64, 0x00000000FFFFFFFF#64)
  , ("DECODE", 0x0000000000000035#64, 0x00000000FFFFFFFF#64) ]

/-- "Match and mask per command (64-bit, cmd & mask == match)" (30 R94). -/
def commandMasks : List (String × Cmd × Cmd) := contextMasks ++ orchestrationMasks ++ microMasks

/-! ### Bits of a buffer (00 R9) -/

/-- The bit at position `p` of the buffer at `base`: bit `7 − (p mod 8)` of byte `p div 8`. -/
def memBit (m : Memory) (base p : Nat) : Bool := (Memory.read m (base + p / 8)).getLsbD (7 - p % 8)

/-- Bit `b` of the byte at `a` is one of the `n` bits at positions `p, p + 1, …` of the buffer at `base`. -/
def isTarget (base p n a b : Nat) : Prop := ∃ j, j < n ∧ a = base + (p + j) / 8 ∧ b = 7 - (p + j) % 8

/-- The host's RBITS of context `k` (30 R102): `n` times RBIT, `acc <- (acc << 1) | RESULT0` after each. None
when one of them does not complete without a fault. -/
def readByRbits (k : BitVec 4) : Nat → Nat → State → Option (Nat × State)
  | 0, acc, s => some (acc, s)
  | n + 1, acc, s =>
    match exec (.rbit k) s with
    | .next t => if t.regs.fault.isNone then readByRbits k n (2 * acc + t.regs.result0.toNat) t else none
    | .fault _ => none
    | .refused _ => none

/-- The low `n` bits of `v` written one by one, bit n − 1 first (40 R126). -/
def putBitByBit (m : Memory) (c : Cursor) (v : Word) : Nat → Memory × Cursor
  | 0 => (m, c)
  | n + 1 =>
    let (m', c') := putBit m c (v.getLsbD n)
    putBitByBit m' c' v n

/-! ### Trees -/

/-- The weights of a shape replaced by 0, as a serialization loses them (41 R144, R157). -/
def Shape.unweighted : Shape → Shape
  | .leaf v _ => .leaf v 0#32
  | .branch _ l r => .branch 0#32 l.unweighted r.unweighted

/-- The nodes a serialization visits. -/
def Shape.size : Shape → Nat
  | .leaf _ _ => 1
  | .branch _ l r => 1 + l.size + r.size

/-- The bits of a byte, bit 7 first (41 R144). -/
def byteBits (v : Byte) : List Bool := (List.range 8).map (fun j => v.getLsbD (7 - j))

/-- The serialized tree (41 R144): "Branch emits bit 1 then recursively serializes left, then right"; "Leaf
emits bit 0 then the 8-bit value". -/
def Shape.preorder : Shape → List Bool
  | .leaf v _ => false :: byteBits v
  | .branch _ l r => true :: (l.preorder ++ r.preorder)

/-- The code of an entry: the low `length` bits of `pattern`, most significant first (10 R34). -/
def LutEntry.code (e : LutEntry) : List Bool := (List.range e.length).map (fun j => e.pattern.getLsbD (e.length - 1 - j))

/-- The leaf values of a shape, from left to right. -/
def Shape.values : Shape → List Byte
  | .leaf v _ => [v]
  | .branch _ l r => l.values ++ r.values

/-- The weight at the top of a shape. -/
def Shape.weight : Shape → Word
  | .leaf _ w => w
  | .branch w _ _ => w

/-- "Weight of a Branch is the sum of descendant leaf weights" (10 R33). -/
def Shape.summed : Shape → Bool
  | .leaf _ _ => true
  | .branch w l r => w.toNat == l.weight.toNat + r.weight.toNat && l.summed && r.summed

/-- The children of a node are in the arena (10 R33). -/
def Node.inArena (n : Nat) : Node → Bool
  | .leaf _ _ => true
  | .branch _ l r => decide (l < n) && decide (r < n)

/-- What 10 R33 says of a built tree: a valid root, valid indices, no cycle, at most MAX_TREE_NODES nodes;
and the arena holds exactly as many nodes and tree bits as serialization visits (41 R144). A tree not built has no nodes. -/
def Tree.wf (t : Tree) : Bool :=
  if t.built then
    decide (t.nodes.length ≤ Config.maxTreeNodes) && decide (t.root < t.nodes.length) &&
    t.nodes.all (Node.inArena t.nodes.length) && (t.shape.map Shape.size == some t.nodes.length) &&
    (t.shape.map Shape.bits == some t.treeBits)
  else t.nodes.isEmpty

/-- A lookup table holds no code longer than MAX_CODE_LEN (10 R34). -/
def LookupTable.wf (t : LookupTable) : Bool := t.entry.toList.all (fun e => decide (e.length ≤ Config.maxCodeLen))

/-- A context: legal buffers (20 R69), a sound tree and table, and a traversal cursor on a node of a built
tree when it is valid (10 R31 to R35). -/
def Context.wf (c : Context) : Bool :=
  c.w.legal && c.r.legal && c.tree.wf && c.lut.wf &&
  (!c.tc.valid || (c.tree.built && decide (c.tc.node < c.tree.nodes.length)))

/-! ### The loops of the job bodies over an unchanging MEM (42 R176, R177) -/

/-- The code loop of ENCODE from source address `src` and region bit `p` on: the bits of the codes up to the first
failed check, and that check's fault. `region` and `csize` bound the writer. -/
def encodedBits (memSize : Nat) (m : Memory) (lut : LookupTable) (region csize : Nat) :
    Nat → Nat → Nat → List Bool × Option FaultCode
  | 0, _, _ => ([], none)
  | remaining + 1, src, p =>
    let e := lut.entryOf (Memory.read m src)
    if memSize ≤ src then ([], some .busError)
    else if e.length ≠ 0 ∧ 8 * csize < p + e.length then ([], some .writeOutOfBounds)
    else if e.length ≠ 0 ∧ memSize ≤ region + (p + e.length - 1) / 8 then ([], some .busError)
    else
      let (bits, err) := encodedBits memSize m lut region csize remaining (src + 1) (p + e.length)
      (e.code ++ bits, err)

/-- The output loop of DECODE from reader `c` and output address `out` on: the bytes walked up to the first failed
check, and that check's fault. -/
def decodedBytes (memSize : Nat) (m : Memory) (sh : Shape) : Nat → Nat → Cursor → List Byte × Option FaultCode
  | 0, _, _ => ([], none)
  | remaining + 1, out, c =>
    match sh.walk memSize m c with
    | (_, .error e) => ([], some e)
    | (c', .ok v) =>
      if memSize ≤ out then ([], some .busError)
      else
        let (vs, err) := decodedBytes memSize m sh remaining (out + 1) c'
        (v :: vs, err)

/-! ### Control: STATUS, CONTROLLER, JOBS and LIMITER -/

/-- BUSY is 1 exactly while a phase runs (10 R40), no plan is held meanwhile, DONE and BUSY exclude each
other, and a fault is reported only by a command that has completed (10 R23). -/
def State.statusOk (s : State) : Bool :=
  (s.regs.busy == (s.controller.phase != .idle)) && !(s.regs.busy && s.plan.valid) &&
  !(s.regs.busy && s.regs.done) && (!s.regs.fault.isSome || s.regs.done)

/-- BODY i of a phase (10 R42). -/
def Phase.body? : Phase → Nat → Option Instr
  | .idle, _ => none
  | .analyze, i => some (.analyze (u32 i))
  | .encode, i => some (.encode (u32 i))
  | .decode, i => some (.decode (u32 i))

/-- A job of a phase: its program is [LACQ, BODY i, LREL], and it holds a permit exactly between its
LACQ and its LREL (10 R41, R42). -/
def Job.controlOk (phase : Phase) (j : Job) : Bool :=
  (some j.prog == (phase.body? j.block).map jobProgram) && (j.holds == (j.pc == 1 || j.pc == 2)) &&
  (j.err.isNone || decide (2 ≤ j.pc.val))

/-- JOBS is empty when the phase is IDLE, else it holds one job for each block, in order (10 R41). -/
def State.jobsOk (s : State) : Bool :=
  if s.controller.phase = .idle then s.jobs.isEmpty
  else s.jobs.map (·.block) == List.range s.plan.blockCount.toNat && s.jobs.all (Job.controlOk s.controller.phase)

/-- `capacity − permits = |{ i : job[i].holds = 1 }|` (10 R39, 42 R180), and p >= 1 while a phase runs (42 R170). -/
def State.limiterOk (s : State) : Bool :=
  s.limiter.permits.toNat + s.jobs.countP (·.holds) == s.limiter.capacity.toNat &&
  (s.controller.phase == .idle || s.limiter.capacity != 0#32)

/-- The control invariant: it speaks of no tree and no byte of MEM. HW_PARALLELISM is at least 1 (00 R7). -/
def State.controlOk (s : State) : Bool :=
  s.statusOk && s.jobsOk && s.limiterOk && s.params.hwParallelism != 0#32

/-- Job `i` as 42 R173 launches it: pc 0, the program [LACQ, BODY i, LREL] as the words of 30 R98, everything else empty
(the root of its tree and the entries of its table are the model's choice, log 29). -/
def phaseJob (body : Word → Instr) (i : Nat) : Job where
  block := i
  pc := 0
  prog := #v[encode .lacq, encode (body (BitVec.ofNat 32 i)), encode .lrel]
  err := none
  holds := false
  w := { base := 0#32, len := 0#32, byteOff := 0#32, bitOff := 0#3 }
  r := { base := 0#32, len := 0#32, byteOff := 0#32, bitOff := 0#3 }
  tree := { built := false, nodes := [], root := 0 }
  lut := { generated := false }
  res := none

/-! ### Plans -/

/-- The source range of a plan exists (43 R192, R199). -/
def Plan.sourceOk (p : Plan) (memSize : Nat) : Bool :=
  p.inSize == p.srcSize && decide (p.srcBase.toNat + p.srcSize.toNat ≤ u32Limit) &&
  decide (p.srcBase.toNat + p.srcSize.toNat ≤ memSize)

/-- What PREPC's issue step leaves (43 R191, R192). -/
def Plan.partitioned (p : Plan) (memSize : Nat) : Bool :=
  p.kind == .c && p.sourceOk memSize && p.blockSize != 0#32 &&
  p.blockCount.toNat == blockCountOf p.inSize.toNat p.blockSize.toNat

/-- The descriptors from block `i` and compressed offset `off` on follow the partition and one another
(43 R191, R193), each with a sound built tree (10 R38). Gives the offset after them. -/
def Plan.chainC (p : Plan) : Nat → Nat → List Desc → Option Nat
  | _, off, [] => some off
  | i, off, d :: ds =>
    if d.dsize.toNat == p.blockLen i && d.offset.toNat == off && (d.tree.map (fun t => t.built && t.wf) == some true) then
      p.chainC (i + 1) (off + d.csize.toNat) ds
    else none

/-- A compression plan (10 R37, 43 R192, R193). -/
def Plan.compressionOk (p : Plan) (memSize : Nat) : Bool :=
  p.partitioned memSize && decide (p.desc.length = p.blockCount.toNat) &&
  p.headerSize.toNat == headerSizeOf p.blockCount.toNat &&
  ((p.chainC 0 0 p.desc).map (p.headerSize.toNat + ·) == some p.outSize.toNat)

/-- The descriptors from output offset `doff` on: each region is in the container, each output range
follows the last (43 R200, R202). Gives the output offset after them. -/
def Plan.chainD (p : Plan) : Nat → List Desc → Option Nat
  | doff, [] => some doff
  | doff, d :: ds =>
    if decide (p.headerSize.toNat + d.offset.toNat + d.csize.toNat ≤ p.srcSize.toNat) && d.doff.toNat == doff then
      p.chainD (doff + d.dsize.toNat) ds
    else none

/-- A decompression plan (10 R37, 43 R199, R200). -/
def Plan.decompressionOk (p : Plan) (memSize : Nat) : Bool :=
  p.kind == .d && p.sourceOk memSize && decide (p.desc.length = p.blockCount.toNat) &&
  p.headerSize.toNat == headerSizeOf p.blockCount.toNat &&
  (p.chainD 0 p.desc == some p.outSize.toNat)

/-- A job that has analyzed its block has a result or a fault, and the result is that of its block. -/
def Plan.analyzed (p : Plan) (j : Job) : Bool :=
  match j.res with
  | none => decide (j.pc.val < 2) || j.err.isSome
  | some r => r.dsize.toNat == p.blockLen j.block && r.tree.built && r.tree.wf

/-- The destination range of the running command exists (43 R196, R204). -/
def State.destinationOk (s : State) : Bool :=
  decide (s.controller.dstBase.toNat + s.plan.outSize.toNat ≤ u32Limit) &&
  decide (s.controller.dstBase.toNat + s.plan.outSize.toNat ≤ s.params.memSize)

/-- PLAN while it is held, and while its command runs (10 R37, 43 R192 to R204). -/
def State.planOk (s : State) : Bool :=
  (match s.controller.phase with
    | .idle => true
    | .analyze => s.plan.partitioned s.params.memSize && s.jobs.all s.plan.analyzed
    | .encode => s.plan.compressionOk s.params.memSize && s.destinationOk
    | .decode => s.plan.decompressionOk s.params.memSize && s.destinationOk) &&
  (!s.plan.valid ||
    (match s.plan.kind with
      | .c => s.plan.compressionOk s.params.memSize
      | .d => s.plan.decompressionOk s.params.memSize))

/-! ### The whole invariant -/

/-- The parameters are in their ranges (00 R7). -/
def Params.wf (p : Params) : Bool := decide (1 ≤ p.memSize) && decide (p.memSize ≤ u32Limit) && p.hwParallelism != 0#32

/-- The invariant every step keeps and reset has. -/
structure State.Inv (s : State) : Prop where
  params : s.params.wf = true
  memory : Memory.wf s.mem = true
  control : s.controlOk = true
  contexts : ∀ k : Fin 4, s.ctx[k].wf = true
  plan : s.planOk = true

/-- A step that goes on, or that stops only because of what the host asked for: an address that does
not exist, or a step it may not take (20 R60, R61, R75; 10 R22). -/
def hostStopOnly : Result State → Prop
  | .next _ => True
  | .fault f => f = .noSuchAddress
  | .refused r => r = .issueWhileBusy ∨ r = .badRegisterAccess ∨ r = .hostWriteToLiveRange

end Sys2Proof.Machine
end

