-- ==== Sys2Proof/Certificates/Slice0/Obligations.lean ====
section
/-! DEFINITION. The statements for the provers. Each docstring names the rules of spec/ the statement formalises; OBLIGATIONS.json lists them. -/

section

open Sys2Proof Sys2Proof.Machine

/-! ## Encoding (30) -/

/-- No bit of an encoding is dropped: the decoder reads back every well-formed command (30 R90 to R98). -/
def Obligations.DecodeOfEncode : Prop := ∀ i : Instr, i.wf = true → decode (encode i) = .ok i

/-- Every word the decoder takes is the encoding of a well-formed command (30 R91, R97). -/
def Obligations.EncodeOfDecode : Prop :=
  ∀ (w : Cmd) (i : Instr), decode w = .ok i → i.wf = true ∧ encode i = w

/-- The decoder takes exactly the words that match a row of 30 R94, with an existing context where the row has one;
match and mask are the literal words of 30 R94, and no word matches two rows. -/
def Obligations.DecoderFollowsTheTable : Prop :=
  opcodeRows.map (fun r => (r.mnemonic, r.matchWord, r.mask)) = commandMasks ∧
  (∀ (w : Cmd) (i : Instr), decode w = .ok i ↔
    ∃ r ∈ opcodeRows, w &&& r.mask = r.matchWord ∧ (r.used.ctx = true → (w.extractLsb' 8 4).toNat < 4) ∧
      i = r.build (fieldsOf w)) ∧
  (∀ (w : Cmd) (r r' : Row), r ∈ opcodeRows → r' ∈ opcodeRows → w &&& r.mask = r.matchWord →
    w &&& r'.mask = r'.matchWord → r.mnemonic = r'.mnemonic)

/-- 30 R96, its five bullets over the literal opcodes and masks, and its last sentence. A host word is issued with the
turn the host's (log 6). -/
def Obligations.IllegalWordsFault : Prop :=
  ∀ s : State, s.turn = .host →
    let w := commandWord s.regs.cmdHi s.regs.cmdLo
    let opc := (w.extractLsb' 0 8).toNat
    let illegal := s.issue = .next (s.failedOnly .illegalCommand 0xFFFFFFFF#32)
    ((opc = 0x00 ∨ (0x06 ≤ opc ∧ opc ≤ 0x08) ∨ (0x0E ≤ opc ∧ opc ≤ 0x0F) ∨ (0x15 ≤ opc ∧ opc ≤ 0x17) ∨
      (0x1D ≤ opc ∧ opc ≤ 0x1F) ∨ (0x24 ≤ opc ∧ opc ≤ 0x2F) ∨ 0x36 ≤ opc) → illegal) ∧
    ((0x30 ≤ opc ∧ opc ≤ 0x35) → illegal) ∧
    ((w.extractLsb' 12 4 ≠ 0#4 ∨ w.extractLsb' 22 2 ≠ 0#2 ∨ w.extractLsb' 27 5 ≠ 0#5) → illegal) ∧
    ((∃ e ∈ commandMasks, w.extractLsb' 0 8 = e.2.1.extractLsb' 0 8 ∧ w &&& e.2.2 ≠ e.2.1) → illegal) ∧
    ((∃ e ∈ contextMasks, w &&& e.2.2 = e.2.1) → 4 ≤ (w.extractLsb' 8 4).toNat → illegal) ∧
    (∀ k v n, w = formWord 0x05#8 k n 0#3 v → k.toNat < 4 → 33 ≤ n.toNat →
      decode w = .ok (.wbits k v n) ∧ s.issue = .next (s.failedOnly .bitCountRange 0xFFFFFFFF#32))

/-- Words of 30 R98 and of 95 section 2.1, one or more of each family, decode to the commands they stand for. -/
def Obligations.SpecWordsDecode : Prop :=
  decode 0x0000000005000002#64 = .ok (.wseek 0#4 0#32 5#3) ∧
  decode 0x0000000500030005#64 = .ok (.wbits 0#4 5#32 3#6) ∧
  decode 0x000000070200020A#64 = .ok (.rseek 2#4 7#32 2#3) ∧
  decode 0x000000000000031C#64 = .ok (.tcright 3#4) ∧
  decode 0x0000000000000023#64 = .ok .decompress ∧
  decode 0x0000000200000034#64 = .ok (.encode 2#32) ∧
  decode 0x0000000200000004#64 = .error .unusedField ∧
  decode 0x0000000000000401#64 = .error .noSuchContext

/-! ## The host port (10, 20, 60) -/

/-- 10 R22: what a write of CMD_LO and of CMD_HI does, the refusal while BUSY = 1, and both registers reading back the
last value written, after the command too. A command that would store to a live source is a host step 20 R75 does not
give (log 8; HostMemoryDuty says which those are). -/
def Obligations.CommandRegisters : Prop :=
  ∀ (s : State) (v : Word),
    let lo : State := { s with regs := { s.regs with cmdLo := v } }
    let hi : State := { s with regs := { s.regs with cmdHi := v } }
    s.hostRegWrite 0x00 32 v = .next lo ∧ lo.readRegister 0x00 = v ∧
    (s.regs.busy = true → s.hostRegWrite 0x04 32 v = .refused .issueWhileBusy) ∧
    (s.regs.busy = false →
      (∀ i, decode (v ++ s.regs.cmdLo) = .ok i → hi.storesToLiveSource i = false →
        s.hostRegWrite 0x04 32 v = exec i hi) ∧
      (∀ i, decode (v ++ s.regs.cmdLo) = .ok i → hi.storesToLiveSource i = true →
        s.hostRegWrite 0x04 32 v = .refused .hostWriteToLiveRange) ∧
      (∀ e, decode (v ++ s.regs.cmdLo) = .error e →
        s.hostRegWrite 0x04 32 v = .next (hi.failedOnly .illegalCommand 0xFFFFFFFF#32)) ∧
      (∀ t, s.hostRegWrite 0x04 32 v = .next t → t.readRegister 0x04 = v ∧ t.readRegister 0x00 = s.regs.cmdLo))

/-- The host's step (20 R61, R60; 30 R103; 70 R251): it is ready when it has a step to come, WAIT only while BUSY = 0;
when it is picked, step takes the first of its steps off the list and is that step; at a write of CMD_HI it runs the
decoded command, or ends in IllegalCommand (10 R22, 30 R95), or is refused where the command would store to a live
source: 20 R75 and 70 R256 give the host no such step, and that this takes in a command's stores is the model's reading
(log 8). Nothing else moves around it but the schedule and the draw counter (42 R174; logs 1, 2, 6). -/
def Obligations.StepRunsIssuedCommand : Prop :=
  (∀ s : State, s.hostReady = true ↔ ∃ h rest, s.inputs = h :: rest ∧ (h = .await → s.regs.busy = false)) ∧
  (∀ (s u : State) (h : HostStep) (rest : List HostStep), s.pick = some (.host, u) → s.inputs = h :: rest →
    let t : State := { u with turn := .host, inputs := rest }
    u = { s with sched := u.sched, draws := u.draws } ∧
    step s = (match h with
      | .regWrite offset width v => t.hostRegWrite offset width v
      | .regRead offset width => t.hostRegRead offset width
      | .memWrite a v => t.hostMemWrite a.toNat v
      | .memRead a => t.hostMemRead a.toNat
      | .await => .next t
      | .reset => t.hostStep .reset)) ∧
  (∀ (s u : State) (v : Word) (rest : List HostStep),
    s.pick = some (.host, u) → s.inputs = .regWrite 0x04 32 v :: rest → s.regs.busy = false →
    let t : State := { u with turn := .host, inputs := rest, regs := { s.regs with cmdHi := v } }
    (∀ i, decode (v ++ s.regs.cmdLo) = .ok i → t.storesToLiveSource i = false → step s = exec i t) ∧
    (∀ i, decode (v ++ s.regs.cmdLo) = .ok i → t.storesToLiveSource i = true →
      step s = .refused .hostWriteToLiveRange) ∧
    (∀ e, decode (v ++ s.regs.cmdLo) = .error e → step s = .next (t.failedOnly .illegalCommand 0xFFFFFFFF#32)))

/-- A step of a job runs the micro-operation at its pc, a step of the controller is the join, and with no enabled step
the state stays as it is (10 R42, 42 R174, R179, 43 R190; log 10). -/
def Obligations.StepRunsJobMicroOperation : Prop :=
  (∀ (s u : State) (b : Nat) (j : Job) (i : Instr) (h : j.pc.val < 3),
    s.pick = some (.job b, u) → s.job? b = some j → decode (j.prog[j.pc.val]) = .ok i → i.isMicroOp = true →
    u = { s with sched := u.sched, draws := u.draws } ∧ step s = exec i { u with turn := .job b }) ∧
  (∀ s u : State, s.pick = some (.controller, u) →
    u = { s with sched := u.sched, draws := u.draws } ∧ step s = State.join { u with turn := .controller }) ∧
  (∀ s : State, s.pick = none → step s = .next s)

/-- The enabled steps are those of 42 R174; one of them is taken, any one can be, and none is taken only when none is
enabled (log 2). -/
def Obligations.SchedulerChoosesFreely : Prop :=
  ∀ s : State,
    (∀ a : Agent, a ∈ s.enabled ↔
      ((a = .host ∧ s.hostReady = true) ∨
       (a = .controller ∧ s.controller.phase ≠ .idle ∧ ∀ j ∈ s.jobs, j.pc.val = 3) ∨
       (∃ j ∈ s.jobs, a = .job j.block ∧ ∃ h : j.pc.val < 3,
          (decode (j.prog[j.pc.val]) = .ok .lacq → s.limiter.permits.toNat > 0)))) ∧
    (∀ a u, s.pick = some (a, u) → a ∈ s.enabled ∧ u = { s with sched := u.sched, draws := u.draws }) ∧
    (∀ a ∈ s.enabled, ∃ n, ∀ rest, State.pick { s with sched := n :: rest } = some (a, { s with sched := rest })) ∧
    (s.pick = none ↔ s.enabled = [])

/-- 60 R223, the faults found at issue: a faulting primitive command, COMPRESS or DECOMPRESS changes only STATUS and
ERRINFO, a faulting PREPC or PREPD drops the plan as well (43 R192, R199: PLAN.valid <- 0). That the dropped plan's
other fields stay is the model's (log 24). -/
def Obligations.FaultedCommandChangesOnlyFlags : Prop :=
  ∀ s t : State, t.regs.fault.isSome = true →
    (∀ i : Instr, i.context?.isSome = true → exec i s = .next t → ∃ e, t = s.failedOnly e 0xFFFFFFFF#32) ∧
    (exec .compress s = .next t ∨ exec .decompress s = .next t → ∃ e, t = s.failedOnly e 0xFFFFFFFF#32) ∧
    (exec .prepc s = .next t ∨ exec .prepd s = .next t →
      ∃ e info, t = { s.failedOnly e info with plan := { s.plan with valid := false } })

/-- 60 R224: a command completes in its issue step, or is PREPC, COMPRESS or DECOMPRESS with its phase launched; the
join completes it. A success leaves ERR, ERRCODE and ERRINFO 0. -/
def Obligations.CompletionProtocol : Prop :=
  (∀ (i : Instr) (s t : State), i.isMicroOp = false → exec i s = .next t →
    (t.regs.busy = false ∧ t.regs.done = true ∧ (t.regs.fault = none → t.regs.errInfo = 0#32)) ∨
    (t.regs.busy = true ∧ t.regs.done = false ∧ t.regs.fault = none ∧ t.regs.errInfo = 0#32 ∧
      ((i = .prepc ∧ t.controller.phase = .analyze) ∨ (i = .compress ∧ t.controller.phase = .encode) ∨
       (i = .decompress ∧ t.controller.phase = .decode)))) ∧
  (∀ s t : State, s.controller.phase ≠ .idle → s.join = .next t →
    t.regs.busy = false ∧ t.regs.done = true ∧ t.controller.phase = .idle ∧ t.jobs = [])

/-- A context command whose context does not exist, and a micro-operation issued by the host, is IllegalCommand
whatever the rest of the state (30 R93, R95; 60 R221, R222). -/
def Obligations.MissingContextIsIllegal : Prop :=
  (∀ (i : Instr) (k : BitVec 4) (s : State), i.context? = some k → 4 ≤ k.toNat →
    exec i s = .next (s.failedOnly .illegalCommand 0xFFFFFFFF#32)) ∧
  (∀ (i : Instr) (s : State), i.isMicroOp = true → s.turn = .host →
    exec i s = .next (s.failedOnly .illegalCommand 0xFFFFFFFF#32))

/-- STATUS reads its fields at the bits of 10 R23, and ERRCODE is the number of 60 R220. -/
def Obligations.StatusAndFaultCodes : Prop :=
  (∀ (r : Regs) (p : Plan),
    (statusWord r p).getLsbD 0 = r.busy ∧ (statusWord r p).getLsbD 1 = r.done ∧
    (statusWord r p).getLsbD 2 = r.fault.isSome ∧ (statusWord r p).extractLsb' 3 5 = 0#5 ∧
    (statusWord r p).extractLsb' 8 8 = (r.fault.map FaultCode.number).getD 0#8 ∧
    (statusWord r p).getLsbD 16 = p.valid ∧ (statusWord r p).getLsbD 17 = (p.valid && p.kind == .d) ∧
    (statusWord r p).extractLsb' 18 14 = 0#14) ∧
  [FaultCode.invalidMagic, .headerSizeMismatch, .truncatedInput, .corruptTree].map FaultCode.number =
    [0x01#8, 0x02#8, 0x03#8, 0x04#8] ∧
  [FaultCode.illegalCommand, .bitCountRange, .writeOutOfBounds, .traversalAtLeaf, .valueAtBranch, .emptyInput,
    .notReady, .codeTooLong, .sizeOverflow, .invalidBlockSize, .noPlan, .dstTooSmall, .bufferOverlap, .busError,
    .limiterOverRelease].map FaultCode.number =
    [0x10#8, 0x11#8, 0x12#8, 0x13#8, 0x14#8, 0x15#8, 0x16#8, 0x17#8, 0x18#8, 0x19#8, 0x1A#8, 0x1B#8, 0x1C#8, 0x1D#8,
      0x1E#8]

/-- The host's own accesses to MEM (20 R60, R75; 70 R256 items 2 and 4): no address past MEM_SIZE, no byte store to a live
range, any value read from a live destination (logs 3, 8, 9); which commands are a store to a live source, and that
these alone are refused at issue; and, for a state with the invariant, no step changes the source of a held
compression plan. -/
def Obligations.HostMemoryDuty : Prop :=
  ∀ s : State,
    let inSource := fun a => s.plan.srcBase.toNat ≤ a ∧ a < s.plan.srcBase.toNat + s.plan.srcSize.toNat
    let inDest := fun a => s.controller.dstBase.toNat ≤ a ∧ a < s.controller.dstBase.toNat + s.plan.outSize.toNat
    let heldC := s.plan.valid = true ∧ s.plan.kind = .c
    (∀ (a : Nat) (v : Byte),
      (s.params.memSize ≤ a → s.hostMemWrite a v = .fault .noSuchAddress ∧ s.hostMemRead a = .fault .noSuchAddress) ∧
      (a < s.params.memSize →
        (((s.regs.busy = true ∧ (inSource a ∨ inDest a)) ∨ (heldC ∧ inSource a)) →
          s.hostMemWrite a v = .refused .hostWriteToLiveRange) ∧
        (¬ ((s.regs.busy = true ∧ (inSource a ∨ inDest a)) ∨ (heldC ∧ inSource a)) →
          s.hostMemWrite a v = .next { s with mem := Memory.write s.mem a v }) ∧
        (s.regs.busy = true ∧ inDest a →
          s.hostMemRead a =
            .next { s with hostRead := (Config.freeByte s.draws).setWidth 32, draws := s.draws + 1 }) ∧
        (¬ (s.regs.busy = true ∧ inDest a) →
          s.hostMemRead a = .next { s with hostRead := (Memory.read s.mem a).setWidth 32 }))) ∧
    (∀ (k : BitVec 4) (h : k.toNat < 4),
      let c := s.ctx[k.toNat].w
      let tr := s.ctx[k.toNat].tree
      let p := 8 * c.byteOff.toNat + c.bitOff.toNat
      let storesToSource := fun n => (s.regs.busy = true ∨ heldC) ∧ p + n ≤ 8 * c.len.toNat ∧
        c.base.toNat + (p + n - 1) / 8 < s.params.memSize ∧ ∃ j, j < n ∧ inSource (c.base.toNat + (p + j) / 8)
      (∀ v, s.storesToLiveSource (.wbit k v) = true ↔ storesToSource 1) ∧
      (∀ v n, s.storesToLiveSource (.wbits k v n) = true ↔ n.toNat ≤ 32 ∧ storesToSource n.toNat) ∧
      (s.storesToLiveSource (.twrite k) = true ↔ tr.built = true ∧ storesToSource tr.treeBits)) ∧
    (∀ i : Instr, s.storesToLiveSource i = true →
      ∃ k : BitVec 4, k.toNat < 4 ∧ ((∃ v, i = .wbit k v) ∨ (∃ v n, i = .wbits k v n) ∨ i = .twrite k)) ∧
    (∀ t, s.Inv → heldC → step s = .next t → ∀ a, inSource a → Memory.read t.mem a = Memory.read s.mem a)

/-- Register accesses (20 R61, 10 R21 to R29, R39): the refused forms, read-only registers and offsets past the map,
LUT_SEL, what each offset of the map reads, and the readouts of the plan and of the lookup table; while BUSY = 1 a plan
readout is any value (log 3). -/
def Obligations.RegisterAccessRules : Prop :=
  ∀ (s : State) (offset width : Nat) (v : Word),
    ((width ≠ 32 ∨ offset % 4 ≠ 0) →
      s.hostRegWrite offset width v = .refused .badRegisterAccess ∧
      s.hostRegRead offset width = .refused .badRegisterAccess) ∧
    (offset % 4 = 0 → 0x80 ≤ offset →
      s.hostRegWrite offset 32 v = .next s ∧ s.hostRegRead offset 32 = .next { s with hostRead := 0#32 }) ∧
    (offset ∈ [0x08, 0x0C, 0x28, 0x2C, 0x30, 0x34, 0x38, 0x3C, 0x40, 0x44, 0x48, 0x50, 0x54, 0x58, 0x60, 0x64, 0x68,
        0x6C, 0x70, 0x74, 0x78, 0x7C] → s.hostRegWrite offset 32 v = .next s) ∧
    (offset ∈ [0x10, 0x14, 0x18, 0x1C, 0x20, 0x24, 0x4C, 0x5C] → ∃ t, s.hostRegWrite offset 32 v = .next t ∧
      t = { s with regs := t.regs } ∧
      t.readRegister offset = (if offset = 0x5C then v &&& 0xFFF#32 else v) ∧
      (∀ o ∈ [0x00, 0x04, 0x0C, 0x10, 0x14, 0x18, 0x1C, 0x20, 0x24, 0x28, 0x2C, 0x30, 0x34, 0x4C, 0x5C], o ≠ offset →
        t.readRegister o = s.readRegister o) ∧ t.readRegister 0x08 = s.readRegister 0x08) ∧
    [0x00, 0x04, 0x08, 0x0C].map s.readRegister = [s.regs.cmdLo, s.regs.cmdHi, statusWord s.regs s.plan, s.regs.errInfo] ∧
    [0x10, 0x14, 0x18, 0x1C, 0x20, 0x24].map s.readRegister =
      [s.regs.srcBase, s.regs.srcSize, s.regs.dstBase, s.regs.dstSize, s.regs.blockSize, s.regs.nThreads] ∧
    [0x28, 0x2C, 0x30, 0x34].map s.readRegister = [s.regs.result0, s.regs.result1, s.regs.result2, s.regs.result3] ∧
    [0x4C, 0x5C, 0x74, 0x78].map s.readRegister =
      [s.regs.descSel, s.regs.lutSel.setWidth 32, s.limiter.capacity, s.limiter.permits] ∧
    (s.regs.busy = true → offset ∈ [0x38, 0x3C, 0x40, 0x44, 0x48, 0x50, 0x54, 0x58] →
      s.hostRegRead offset 32 = .next { s with hostRead := Config.freeWord s.draws, draws := s.draws + 1 }) ∧
    ((s.regs.busy = false ∨ offset ∉ [0x38, 0x3C, 0x40, 0x44, 0x48, 0x50, 0x54, 0x58]) → offset < 0x80 → offset % 4 = 0 →
      s.hostRegRead offset 32 = .next { s with hostRead := s.readRegister offset }) ∧
    [0x38, 0x3C, 0x40, 0x44, 0x48].map s.readRegister =
      (if s.plan.valid then [s.plan.inSize, s.plan.outSize, s.plan.blockSize, s.plan.blockCount, s.plan.headerSize]
       else [0#32, 0#32, 0#32, 0#32, 0#32]) ∧
    (∀ d, s.plan.valid = true → s.regs.descSel.toNat < s.plan.blockCount.toNat →
      s.plan.desc[s.regs.descSel.toNat]? = some d →
      [0x50, 0x54, 0x58].map s.readRegister = [d.dsize, d.csize, d.offset]) ∧
    (¬ (s.plan.valid = true ∧ s.regs.descSel.toNat < s.plan.blockCount.toNat) →
      [0x50, 0x54, 0x58].map s.readRegister = [0#32, 0#32, 0#32]) ∧
    (∀ (h : (s.regs.lutSel.extractLsb' 8 4).toNat < 4),
      let lut := s.ctx[(s.regs.lutSel.extractLsb' 8 4).toNat].lut
      let e := lut.entryOf (s.regs.lutSel.extractLsb' 0 8)
      [0x60, 0x64, 0x68].map s.readRegister =
        (if lut.generated then [e.pattern, BitVec.ofNat 32 e.length, e.weight] else [0#32, 0#32, 0#32])) ∧
    (4 ≤ (s.regs.lutSel.extractLsb' 8 4).toNat → [0x60, 0x64, 0x68].map s.readRegister = [0#32, 0#32, 0#32])

/-! ## Bit cursor commands (40) -/

/-- WBIND and RBIND (40 R120, R127): SizeOverflow, or the cursor bound at (0, 0); all else as it was. -/
def Obligations.BindCommands : Prop :=
  ∀ (k : BitVec 4) (s : State) (h : k.toNat < 4),
    (s.regs.dstBase.toNat + s.regs.dstSize.toNat ≤ 4294967296 →
      exec (.wbind k) s = .next { s with
        regs := s.regs.succeeded
        ctx := s.ctx.set k.toNat { s.ctx[k.toNat] with
          w := { base := s.regs.dstBase, len := s.regs.dstSize, byteOff := 0#32, bitOff := 0#3 } } }) ∧
    (4294967296 < s.regs.dstBase.toNat + s.regs.dstSize.toNat →
      exec (.wbind k) s = .next (s.failedOnly .sizeOverflow 0xFFFFFFFF#32)) ∧
    (s.regs.srcBase.toNat + s.regs.srcSize.toNat ≤ 4294967296 →
      exec (.rbind k) s = .next { s with
        regs := s.regs.succeeded
        ctx := s.ctx.set k.toNat { s.ctx[k.toNat] with
          r := { base := s.regs.srcBase, len := s.regs.srcSize, byteOff := 0#32, bitOff := 0#3 } } }) ∧
    (4294967296 < s.regs.srcBase.toNat + s.regs.srcSize.toNat →
      exec (.rbind k) s = .next (s.failedOnly .sizeOverflow 0xFFFFFFFF#32))

/-- WSEEK, RSEEK, WTELL and RTELL (40 R121, R122, R128, R129): they never fault on an existing context; a seek moves
within the binding, a tell writes RESULT0 and RESULT1; all else as it was. -/
def Obligations.SeekAndTellCommands : Prop :=
  ∀ (k : BitVec 4) (s : State) (h : k.toNat < 4),
    (∀ byteOffset bit, exec (.wseek k byteOffset bit) s = .next { s with
      regs := s.regs.succeeded
      ctx := s.ctx.set k.toNat { s.ctx[k.toNat] with
        w := { s.ctx[k.toNat].w with byteOff := byteOffset, bitOff := bit } } }) ∧
    (∀ byteOffset bit, exec (.rseek k byteOffset bit) s = .next { s with
      regs := s.regs.succeeded
      ctx := s.ctx.set k.toNat { s.ctx[k.toNat] with
        r := { s.ctx[k.toNat].r with byteOff := byteOffset, bitOff := bit } } }) ∧
    exec (.wtell k) s = .next { s with
      regs := { s.regs.succeeded with
        result0 := s.ctx[k.toNat].w.byteOff, result1 := s.ctx[k.toNat].w.bitOff.setWidth 32 } } ∧
    exec (.rtell k) s = .next { s with
      regs := { s.regs.succeeded with
        result0 := s.ctx[k.toNat].r.byteOff, result1 := s.ctx[k.toNat].r.bitOff.setWidth 32 } }

/-- WBIT (40 R123): the two faults in their order; else the bit at the cursor takes the value, every other bit of MEM
stays, the cursor moves on by one, all else as it was. -/
def Obligations.WbitWritesOneBit : Prop :=
  ∀ (k : BitVec 4) (v : Bool) (s : State) (h : k.toNat < 4), Memory.wf s.mem = true →
    let c := s.ctx[k.toNat].w
    let a := c.base.toNat + c.byteOff.toNat
    (c.len.toNat ≤ c.byteOff.toNat → exec (.wbit k v) s = .next (s.failedOnly .writeOutOfBounds 0xFFFFFFFF#32)) ∧
    (c.byteOff.toNat < c.len.toNat → s.params.memSize ≤ a →
      exec (.wbit k v) s = .next (s.failedOnly .busError 0xFFFFFFFF#32)) ∧
    (c.byteOff.toNat < c.len.toNat → a < s.params.memSize →
      ∃ m, exec (.wbit k v) s = .next { s with
          regs := s.regs.succeeded
          mem := m
          ctx := s.ctx.set k.toNat { s.ctx[k.toNat] with w := { c with
            byteOff := if c.bitOff = 7#3 then c.byteOff + 1#32 else c.byteOff
            bitOff := c.bitOff + 1#3 } } } ∧
        ∀ x b, b < 8 → (Memory.read m x).getLsbD b =
          if x = a ∧ b = 7 - c.bitOff.toNat then v else (Memory.read s.mem x).getLsbD b)

/-- WBITS (40 R125, R124): the three faults in their order; else the next n bits of the buffer take the low n bits of
the value, most significant first, every other bit of MEM stays, the cursor moves on by n, all else as it was. -/
def Obligations.WbitsWritesTheLowBits : Prop :=
  ∀ (k : BitVec 4) (v : Word) (n : BitVec 6) (s : State) (h : k.toNat < 4), Memory.wf s.mem = true →
    let c := s.ctx[k.toNat].w
    let p := 8 * c.byteOff.toNat + c.bitOff.toNat
    let outside := n.toNat ≠ 0 ∧ 8 * c.len.toNat < p + n.toNat
    let absent := n.toNat ≠ 0 ∧ s.params.memSize ≤ c.base.toNat + (p + n.toNat - 1) / 8
    (33 ≤ n.toNat → exec (.wbits k v n) s = .next (s.failedOnly .bitCountRange 0xFFFFFFFF#32)) ∧
    (n.toNat ≤ 32 → outside → exec (.wbits k v n) s = .next (s.failedOnly .writeOutOfBounds 0xFFFFFFFF#32)) ∧
    (n.toNat ≤ 32 → ¬ outside → absent → exec (.wbits k v n) s = .next (s.failedOnly .busError 0xFFFFFFFF#32)) ∧
    (n.toNat ≤ 32 → ¬ outside → ¬ absent →
      ∃ m, exec (.wbits k v n) s = .next { s with
          regs := s.regs.succeeded
          mem := m
          ctx := s.ctx.set k.toNat { s.ctx[k.toNat] with w := { c with
            byteOff := BitVec.ofNat 32 ((p + n.toNat) / 8), bitOff := BitVec.ofNat 3 ((p + n.toNat) % 8) } } } ∧
        (∀ j, j < n.toNat → memBit m c.base.toNat (p + j) = v.getLsbD (n.toNat - 1 - j)) ∧
        (∀ x b, b < 8 → ¬ isTarget c.base.toNat p n.toNat x b →
          (Memory.read m x).getLsbD b = (Memory.read s.mem x).getLsbD b))

/-- 40 R126, its first sentence: the chunked PutBits leaves MEM and the cursor as the single bits v[n-1], ..., v[0] do. -/
def Obligations.PutBitsIsBitByBit : Prop :=
  ∀ (m : Memory) (c : Cursor) (v : Word) (n : Nat), Memory.wf m = true → n ≤ 32 →
    putBits m c v n = putBitByBit m c v n

/-- 40 R133: WBITS of n bits, then n RBITs from the same place (the host's RBITS of 30 R102), gives `v mod 2^n`, and
both cursors move on by exactly n bits. The buffer may hold anything before. -/
def Obligations.BitCursorInverse : Prop :=
  ∀ (s : State) (k k' : BitVec 4) (v : Word) (n : BitVec 6) (h : k.toNat < 4) (h' : k'.toNat < 4),
    Memory.wf s.mem = true → n.toNat ≤ 32 →
    let c := s.ctx[k.toNat].w
    let p := 8 * c.byteOff.toNat + c.bitOff.toNat
    s.ctx[k'.toNat].r = c →
    (n.toNat ≠ 0 → p + n.toNat ≤ 8 * c.len.toNat ∧ c.base.toNat + (p + n.toNat - 1) / 8 < s.params.memSize) →
    ∃ t u, exec (.wbits k v n) s = .next t ∧ t.regs.fault = none ∧
      readByRbits k' n.toNat 0 t = some (v.toNat % 2 ^ n.toNat, u) ∧
      u.ctx[k.toNat].w.pos = p + n.toNat ∧ u.ctx[k'.toNat].r.pos = p + n.toNat

/-- RBIT and RBYTE (40 R130, R131): the two faults of each in their order; else RESULT0 is the bit at the cursor, or
`((byte[B] << o) | (byte[B+1] >> (8 - o))) & 0xFF`, the cursor moves on by one bit or by one byte, all else as it was. -/
def Obligations.RbitAndRbyteRead : Prop :=
  ∀ (k : BitVec 4) (s : State) (h : k.toNat < 4),
    let c := s.ctx[k.toNat].r
    let a := c.base.toNat + c.byteOff.toNat
    let o := c.bitOff.toNat
    let last := if o = 0 then a else a + 1
    let truncated := 8 * c.len.toNat < 8 * c.byteOff.toNat + o + 8
    (c.len.toNat ≤ c.byteOff.toNat → exec (.rbit k) s = .next (s.failedOnly .truncatedInput 0xFFFFFFFF#32)) ∧
    (c.byteOff.toNat < c.len.toNat → s.params.memSize ≤ a →
      exec (.rbit k) s = .next (s.failedOnly .busError 0xFFFFFFFF#32)) ∧
    (c.byteOff.toNat < c.len.toNat → a < s.params.memSize →
      exec (.rbit k) s = .next { s with
        regs := { s.regs.succeeded with
          result0 := if (Memory.read s.mem a).getLsbD (7 - o) then 1#32 else 0#32 }
        ctx := s.ctx.set k.toNat { s.ctx[k.toNat] with r := { c with
          byteOff := if c.bitOff = 7#3 then c.byteOff + 1#32 else c.byteOff
          bitOff := c.bitOff + 1#3 } } }) ∧
    (truncated → exec (.rbyte k) s = .next (s.failedOnly .truncatedInput 0xFFFFFFFF#32)) ∧
    (¬ truncated → s.params.memSize ≤ last → exec (.rbyte k) s = .next (s.failedOnly .busError 0xFFFFFFFF#32)) ∧
    (¬ truncated → last < s.params.memSize →
      exec (.rbyte k) s = .next { s with
        regs := { s.regs.succeeded with
          result0 := ((Memory.read s.mem a <<< o) ||| (Memory.read s.mem (a + 1) >>> (8 - o))).setWidth 32 }
        ctx := s.ctx.set k.toNat { s.ctx[k.toNat] with r := { c with byteOff := c.byteOff + 1#32 } } })

/-! ## Frames -/

/-- What every context command leaves alone: argument and selection registers, the plan, the limiter, the controller,
the jobs, the other contexts, and of its own context every part its rule does not name; and MEM, but for WBIT, WBITS
and TWRITE, whose stored bits are stated with them (40, 41). -/
def Obligations.PrimitiveFrame : Prop :=
  ∀ (i : Instr) (k : BitVec 4) (s t : State) (h : k.toNat < 4), i.context? = some k → exec i s = .next t →
    (t.plan = s.plan ∧ t.limiter = s.limiter ∧ t.controller = s.controller ∧ t.jobs = s.jobs ∧ t.params = s.params ∧
      t.inputs = s.inputs ∧ t.sched = s.sched ∧ t.draws = s.draws ∧ t.hostRead = s.hostRead ∧ t.turn = s.turn) ∧
    (∀ o ∈ [0x00, 0x04, 0x10, 0x14, 0x18, 0x1C, 0x20, 0x24, 0x4C, 0x5C], t.readRegister o = s.readRegister o) ∧
    (∀ (q : Nat) (hq : q < 4), q ≠ k.toNat → t.ctx[q] = s.ctx[q]) ∧
    (match i with
      | .wbit _ _ | .wbits _ _ _ | .twrite _ => t.ctx[k.toNat] = { s.ctx[k.toNat] with w := t.ctx[k.toNat].w }
      | .wbind _ | .wseek _ _ _ => t.mem = s.mem ∧ t.ctx[k.toNat] = { s.ctx[k.toNat] with w := t.ctx[k.toNat].w }
      | .rbind _ | .rseek _ _ _ | .rbit _ | .rbyte _ =>
        t.mem = s.mem ∧ t.ctx[k.toNat] = { s.ctx[k.toNat] with r := t.ctx[k.toNat].r }
      | .tcreate _ => t.mem = s.mem ∧ t.ctx[k.toNat] = { s.ctx[k.toNat] with
          tree := t.ctx[k.toNat].tree, lut := t.ctx[k.toNat].lut, tc := t.ctx[k.toNat].tc }
      | .tread _ => t.mem = s.mem ∧ t.ctx[k.toNat].w = s.ctx[k.toNat].w
      | .tlookup _ => t.mem = s.mem ∧ t.ctx[k.toNat] = { s.ctx[k.toNat] with lut := t.ctx[k.toNat].lut }
      | .tcroot _ | .tcleft _ | .tcright _ =>
        t.mem = s.mem ∧ t.ctx[k.toNat] = { s.ctx[k.toNat] with tc := t.ctx[k.toNat].tc }
      | .wtell _ | .rtell _ | .tbitcount _ | .tcisleaf _ | .tcvalue _ => t.mem = s.mem ∧ t.ctx = s.ctx
      | .prepc | .compress | .prepd | .decompress | .linit _ | .lacq | .lrel | .analyze _ | .encode _ | .decode _ =>
        False)

/-- What the other commands leave alone: the contexts and the argument registers always; MEM, but for COMPRESS, ENCODE
and DECODE; PLAN and CONTROLLER while a micro-operation runs; the jobs a micro-operation is not of (20 R71, 42, 43). -/
def Obligations.OrchestrationFrame : Prop :=
  ∀ (i : Instr) (s t : State), i.context? = none → exec i s = .next t →
    t.ctx = s.ctx ∧ t.params = s.params ∧ t.inputs = s.inputs ∧ t.sched = s.sched ∧ t.draws = s.draws ∧
    t.hostRead = s.hostRead ∧ t.turn = s.turn ∧
    (∀ o ∈ [0x00, 0x04, 0x10, 0x14, 0x18, 0x1C, 0x20, 0x24, 0x4C, 0x5C], t.readRegister o = s.readRegister o) ∧
    (t.mem = s.mem ∨ i = .compress ∨ (∃ b, i = .encode b) ∨ (∃ b, i = .decode b)) ∧
    (i.isMicroOp = true → s.turn ≠ .host → t.regs = s.regs ∧ t.plan = s.plan ∧ t.controller = s.controller) ∧
    (∀ b, s.turn = .job b → (i = .lacq ∨ i = .lrel) → ∀ b', b' ≠ b → t.job? b' = s.job? b') ∧
    (∀ b, (i = .analyze b ∨ i = .encode b ∨ i = .decode b) → ∀ b', b' ≠ b.toNat → t.job? b' = s.job? b') ∧
    (∀ b, (i = .analyze b ∨ i = .encode b ∨ i = .decode b) → s.turn ≠ .host → t.limiter = s.limiter)

/-- 10 R26, whole: RESULT0..3 change only by the seven commands it names, a faulting command, the join and every host
register write leave them alone, and reset leaves them 0. -/
def Obligations.ResultRegistersWrittenByTheirCommands : Prop :=
  (∀ (i : Instr) (s t : State), exec i s = .next t → t.regs.results ≠ s.regs.results →
    t.regs.fault = none ∧ ∃ k, i = .wtell k ∨ i = .rtell k ∨ i = .rbit k ∨ i = .rbyte k ∨ i = .tbitcount k ∨
      i = .tcisleaf k ∨ i = .tcvalue k) ∧
  (∀ s t : State, s.join = .next t → t.regs.results = s.regs.results) ∧
  (∀ (r : Regs) (offset : Nat) (v : Word), (r.write offset v).results = r.results) ∧
  (∀ p : Params, (State.resetWith p).regs.results = [0#32, 0#32, 0#32, 0#32]) ∧
  (∀ s t : State, s.hostStep .reset = .next t → t.regs.results = [0#32, 0#32, 0#32, 0#32])

/-! ## Trees (41) -/

/-- TCREATE (41 R143): its three faults in their order; else T is BuildTree of the source bytes, LUT is cleared and TC
invalid, all else as it was. -/
def Obligations.TcreateBuildsTree : Prop :=
  ∀ (k : BitVec 4) (s : State) (h : k.toNat < 4),
    let last := s.regs.srcBase.toNat + s.regs.srcSize.toNat
    (s.regs.srcSize = 0#32 → exec (.tcreate k) s = .next (s.failedOnly .emptyInput 0xFFFFFFFF#32)) ∧
    (s.regs.srcSize ≠ 0#32 → 4294967296 < last →
      exec (.tcreate k) s = .next (s.failedOnly .sizeOverflow 0xFFFFFFFF#32)) ∧
    (s.regs.srcSize ≠ 0#32 → last ≤ 4294967296 → s.params.memSize < last →
      exec (.tcreate k) s = .next (s.failedOnly .busError 0xFFFFFFFF#32)) ∧
    (s.regs.srcSize ≠ 0#32 → last ≤ 4294967296 → last ≤ s.params.memSize →
      exec (.tcreate k) s = .next { s with
        regs := s.regs.succeeded
        ctx := s.ctx.set k.toNat { s.ctx[k.toNat] with
          tree := buildTree ((List.range s.regs.srcSize.toNat).map
            (fun j => Memory.read s.mem (s.regs.srcBase.toNat + j)))
          lut := { generated := false, entry := Vector.replicate 256 { pattern := 0#32, length := 0, weight := 0#32 } }
          tc := { valid := false, node := 0 } } })

/-- BuildTree of a non-empty sequence (41 R141, R142; 10 R33): a sound arena of 2·leaves − 1 nodes, one leaf for each
value that occurs with its count as weight, every branch weighing as much as its children, the root as the sequence. -/
def Obligations.BuildTreeIsSound : Prop :=
  ∀ bytes : List Byte, bytes ≠ [] → bytes.length < 4294967296 →
    (buildTree bytes).built = true ∧ (buildTree bytes).wf = true ∧
    ∃ sh, (buildTree bytes).shape = some sh ∧ sh.summed = true ∧ sh.weight.toNat = bytes.length ∧
      sh.values.Nodup ∧ (∀ v, v ∈ sh.values ↔ v ∈ bytes) ∧
      (buildTree bytes).nodes.length + 1 = 2 * sh.values.length ∧
      (∀ v w, Node.leaf v w ∈ (buildTree bytes).nodes → w.toNat = bytes.count v)

/-- 41 R156, whole, for the tree of a non-empty sequence with depth at most 32: every leaf value has its LUT entry with
its weight, lengths are 1 to 32 when there are two leaves or more, no code is a prefix of another, and Walk over the
bits of a code returns its value after exactly its length. -/
def Obligations.BuildTreePrefixCode : Prop :=
  ∀ (bytes : List Byte) (sh : Shape), bytes ≠ [] → bytes.length < 4294967296 →
    (buildTree bytes).shape = some sh → sh.depth ≤ 32 →
    (∀ v ∈ sh.values, (sh.lookup.entryOf v).weight.toNat = bytes.count v ∧
      Node.leaf v (sh.lookup.entryOf v).weight ∈ (buildTree bytes).nodes) ∧
    (2 ≤ sh.values.length → ∀ v ∈ sh.values,
      1 ≤ (sh.lookup.entryOf v).length ∧ (sh.lookup.entryOf v).length ≤ 32) ∧
    (∀ v ∈ sh.values, ∀ v' ∈ sh.values, v ≠ v' →
      ¬ (sh.lookup.entryOf v).code <+: (sh.lookup.entryOf v').code) ∧
    (∀ v ∈ sh.values, ∀ (memSize : Nat) (m : Memory) (c : Cursor),
      let code := (sh.lookup.entryOf v).code
      c.fits code.length = true → c.memOk memSize code.length = true →
      (∀ j, j < code.length → some (memBit m c.base.toNat (c.pos + j)) = code[j]?) →
      code.length = (sh.lookup.entryOf v).length ∧ sh.walk memSize m c = (c.advance code.length, .ok v))

/-- 41 R148: data_bits is the sum over the leaves of code length times weight, which for a built tree is the number of
bits its bytes take under its lookup table; tree_bits is 1 for each branch and 9 for each leaf, at most 2559. -/
def Obligations.DataBitsIsEncodedLength : Prop :=
  ∀ (bytes : List Byte) (sh : Shape), bytes ≠ [] → bytes.length < 4294967296 →
    (buildTree bytes).shape = some sh →
    sh.dataBits 0 = (bytes.map (fun b => (sh.lookup.entryOf b).length)).sum ∧
    (buildTree bytes).treeBits = 10 * sh.values.length - 1 ∧ (buildTree bytes).treeBits ≤ 2559

/-- 41 R158: BuildTree depends on the histogram alone, and its list is sorted by (weight, arena index) after any number
of merges. -/
def Obligations.BuildTreeDeterminedByHistogram : Prop :=
  (∀ bytes bytes' : List Byte, (∀ v, bytes.count v = bytes'.count v) → buildTree bytes = buildTree bytes') ∧
  (∀ (bytes : List Byte) (merges : Nat), bytes.length < 4294967296 →
    let leaves := leavesOf bytes
    let r := mergeLoop merges leaves (sortByWeight leaves (List.range leaves.length))
    r.2.Pairwise (fun a b => weightAt r.1 a < weightAt r.1 b ∨ (weightAt r.1 a = weightAt r.1 b ∧ a < b)))

/-- 41 R157, whole: Serialize then Parse from the same start gives the shape and values back with all weights 0, the
reader moved on by exactly TreeBits bits, and the same (pattern, length) for every value. `Tree.wf` is 10 R33 with the
node count of R157 and what R144 says of TreeBits: serialization visits the arena's nodes once each. -/
def Obligations.SerializeThenParse : Prop :=
  ∀ (t : Tree) (sh : Shape) (memSize : Nat) (m : Memory) (c : Cursor),
    t.built = true → t.wf = true → t.shape = some sh → Memory.wf m = true →
    c.fits t.treeBits = true → c.memOk memSize t.treeBits = true →
    ∃ t', parseTree memSize (sh.serialize m c).1 c = (c.advance t.treeBits, .ok t') ∧
      (c.advance t.treeBits).pos = c.pos + t.treeBits ∧ (sh.serialize m c).2 = c.advance t.treeBits ∧
      t'.wf = true ∧ t'.built = true ∧ t'.shape = some sh.unweighted ∧ (∀ n ∈ t'.nodes, n.weight = 0#32) ∧
      ∀ v, (sh.unweighted.lookup.entryOf v).pattern = (sh.lookup.entryOf v).pattern ∧
        (sh.unweighted.lookup.entryOf v).length = (sh.lookup.entryOf v).length

/-- Every tree Parse gives is sound, of weight 0 and at most 511 nodes, and the reader stands just after its last bit;
a parse that gives none ended in TruncatedInput, CorruptTree or BusError (41 R146). -/
def Obligations.ParsedTreesAreSound : Prop :=
  ∀ (memSize : Nat) (m : Memory) (c c' : Cursor),
    (∀ t, parseTree memSize m c = (c', .ok t) →
      t.built = true ∧ t.wf = true ∧ (∀ n ∈ t.nodes, n.weight = 0#32) ∧ t.nodes.length ≤ 511 ∧
      c.pos + t.treeBits ≤ 8 * c.len.toNat ∧ c' = c.advance t.treeBits) ∧
    (∀ e, parseTree memSize m c = (c', .error e) → e = .truncatedInput ∨ e = .corruptTree ∨ e = .busError)

/-- TWRITE (41 R144, R145): its three faults in their order; else the next TreeBits bits are the preorder of the tree,
every other bit of MEM stays, the writer moves on by TreeBits, all else as it was. Needs the tree sound (10 R33). -/
def Obligations.TwriteWritesThePreorder : Prop :=
  ∀ (k : BitVec 4) (s : State) (h : k.toNat < 4), Memory.wf s.mem = true → s.ctx[k.toNat].tree.wf = true →
    let tr := s.ctx[k.toNat].tree
    let c := s.ctx[k.toNat].w
    let p := 8 * c.byteOff.toNat + c.bitOff.toNat
    let outside := 8 * c.len.toNat < p + tr.treeBits
    let absent := s.params.memSize ≤ c.base.toNat + (p + tr.treeBits - 1) / 8
    (tr.built = false → exec (.twrite k) s = .next (s.failedOnly .notReady 0xFFFFFFFF#32)) ∧
    (tr.built = true → outside → exec (.twrite k) s = .next (s.failedOnly .writeOutOfBounds 0xFFFFFFFF#32)) ∧
    (tr.built = true → ¬ outside → absent → exec (.twrite k) s = .next (s.failedOnly .busError 0xFFFFFFFF#32)) ∧
    (tr.built = true → ¬ outside → ¬ absent →
      ∃ sh m, tr.shape = some sh ∧ sh.preorder.length = tr.treeBits ∧
        exec (.twrite k) s = .next { s with
          regs := s.regs.succeeded
          mem := m
          ctx := s.ctx.set k.toNat { s.ctx[k.toNat] with w := { c with
            byteOff := BitVec.ofNat 32 ((p + tr.treeBits) / 8), bitOff := BitVec.ofNat 3 ((p + tr.treeBits) % 8) } } } ∧
        (∀ j, j < tr.treeBits → some (memBit m c.base.toNat (p + j)) = sh.preorder[j]?) ∧
        (∀ x b, b < 8 → ¬ isTarget c.base.toNat p tr.treeBits x b →
          (Memory.read m x).getLsbD b = (Memory.read s.mem x).getLsbD b))

/-- TREAD (41 R146): the first fault of the parse changes nothing but STATUS and ERRINFO; else T is the tree parsed and
the reader stands behind it, LUT is cleared and TC invalid, all else as it was. -/
def Obligations.TreadReplacesTheTree : Prop :=
  ∀ (k : BitVec 4) (s : State) (h : k.toNat < 4) (c : Cursor),
    (∀ e, parseTree s.params.memSize s.mem s.ctx[k.toNat].r = (c, .error e) →
      exec (.tread k) s = .next (s.failedOnly e 0xFFFFFFFF#32)) ∧
    (∀ t, parseTree s.params.memSize s.mem s.ctx[k.toNat].r = (c, .ok t) →
      exec (.tread k) s = .next { s with
        regs := s.regs.succeeded
        ctx := s.ctx.set k.toNat { s.ctx[k.toNat] with
          r := c
          tree := t
          lut := { generated := false, entry := Vector.replicate 256 { pattern := 0#32, length := 0, weight := 0#32 } }
          tc := { valid := false, node := 0 } } })

/-- TLOOKUP and TBITCOUNT (41 R147, R149): NotReady, for TLOOKUP CodeTooLong; else LUT is GenerateLookup of the tree, and
RESULT0..3 are the bit counts; all else as it was. Needs the tree sound (10 R33). -/
def Obligations.TlookupAndBitCount : Prop :=
  ∀ (k : BitVec 4) (s : State) (h : k.toNat < 4),
    let tr := s.ctx[k.toNat].tree
    (tr.built = false → exec (.tlookup k) s = .next (s.failedOnly .notReady 0xFFFFFFFF#32) ∧
      exec (.tbitcount k) s = .next (s.failedOnly .notReady 0xFFFFFFFF#32)) ∧
    (tr.built = true → tr.wf = true → ∃ sh, tr.shape = some sh ∧
      (32 < sh.depth → exec (.tlookup k) s = .next (s.failedOnly .codeTooLong 0xFFFFFFFF#32)) ∧
      (sh.depth ≤ 32 → exec (.tlookup k) s = .next { s with
        regs := s.regs.succeeded
        ctx := s.ctx.set k.toNat { s.ctx[k.toNat] with lut := sh.lookup } }) ∧
      exec (.tbitcount k) s = .next { s with
        regs := { s.regs.succeeded with
          result0 := BitVec.ofNat 32 tr.treeBits
          result1 := BitVec.ofNat 32 (sh.dataBits 0)
          result2 := BitVec.ofNat 32 (sh.dataBits 0 / 4294967296)
          result3 := BitVec.ofNat 32 ((tr.treeBits + sh.dataBits 0 + 7) / 8) } })

/-- TCROOT, TCISLEAF, TCVALUE, TCLEFT and TCRIGHT (41 R150 to R154): NotReady, the fault of the wrong kind of node, and
the effect at a leaf and at a branch; all else as it was. -/
def Obligations.TraversalCommands : Prop :=
  ∀ (k : BitVec 4) (s : State) (h : k.toNat < 4),
    let tr := s.ctx[k.toNat].tree
    let tc := s.ctx[k.toNat].tc
    let fails := fun e => Host.Outcome.next (φ := Fault) (ρ := Refusal) (s.failedOnly e 0xFFFFFFFF#32)
    let answers := fun v => Host.Outcome.next (φ := Fault) (ρ := Refusal)
      { s with regs := { s.regs.succeeded with result0 := v } }
    let moves := fun n => Host.Outcome.next (φ := Fault) (ρ := Refusal) { s with
      regs := s.regs.succeeded
      ctx := s.ctx.set k.toNat { s.ctx[k.toNat] with tc := { valid := true, node := n } } }
    (tr.built = false → exec (.tcroot k) s = fails .notReady) ∧
    (tr.built = true → exec (.tcroot k) s = moves tr.root) ∧
    (tc.valid = false → exec (.tcisleaf k) s = fails .notReady ∧ exec (.tcvalue k) s = fails .notReady ∧
      exec (.tcleft k) s = fails .notReady ∧ exec (.tcright k) s = fails .notReady) ∧
    (∀ v w, tc.valid = true → tr.nodes[tc.node]? = some (.leaf v w) →
      exec (.tcisleaf k) s = answers 1#32 ∧ exec (.tcvalue k) s = answers (v.setWidth 32) ∧
      exec (.tcleft k) s = fails .traversalAtLeaf ∧ exec (.tcright k) s = fails .traversalAtLeaf) ∧
    (∀ w l r, tc.valid = true → tr.nodes[tc.node]? = some (.branch w l r) →
      exec (.tcisleaf k) s = answers 0#32 ∧ exec (.tcvalue k) s = fails .valueAtBranch ∧
      exec (.tcleft k) s = moves l ∧ exec (.tcright k) s = moves r)

/-! ## The limiter and the jobs (42) -/

/-- LINIT, LACQ and LREL (42 R170 to R172), whole states. A LACQ without a permit changes nothing: its job waits
(log 11). A LINIT in a job's program advances the job (log 14). -/
def Obligations.LimiterMicroOperations : Prop :=
  (∀ (s : State) (p : Word), s.turn = .controller →
    exec (.linit p) s = .next { s with limiter := { capacity := p, permits := p } }) ∧
  (∀ (s : State) (p : Word) (b : Nat), s.turn = .job b →
    exec (.linit p) s = .next { s with
      limiter := { capacity := p, permits := p }
      jobs := s.jobs.map (fun j => if j.block = b then { j with pc := j.pc + 1 } else j) }) ∧
  (∀ (s : State) (b : Nat) (j : Job), s.turn = .job b → s.job? b = some j →
    (0 < s.limiter.permits.toNat → exec .lacq s = .next { s with
      limiter := { s.limiter with permits := s.limiter.permits - 1#32 }
      jobs := s.jobs.map (fun j => if j.block = b then { j with holds := true, pc := 1 } else j) }) ∧
    (s.limiter.permits = 0#32 → exec .lacq s = .next s) ∧
    (s.limiter.permits.toNat + 1 ≤ s.limiter.capacity.toNat → exec .lrel s = .next { s with
      limiter := { s.limiter with permits := s.limiter.permits + 1#32 }
      jobs := s.jobs.map (fun j => if j.block = b then { j with holds := false, pc := 3 } else j) }) ∧
    (s.limiter.capacity.toNat < s.limiter.permits.toNat + 1 → exec .lrel s = .next { s with
      jobs := s.jobs.map (fun j => if j.block = b then { j with
        err := if j.err.isNone then some .limiterOverRelease else j.err, holds := false, pc := 3 } else j) }))

/-- ANALYZE (42 R175): the four outcomes in their order; MEM is not written and all else is as it was. -/
def Obligations.AnalyzeResultOfBlock : Prop :=
  ∀ (s : State) (block : Word) (j : Job), s.turn ≠ .host → s.job? block.toNat = some j →
    let i := block.toNat
    let start := s.plan.srcBase.toNat + i * s.plan.blockSize.toNat
    let dsize := min s.plan.blockSize.toNat (s.plan.inSize.toNat - i * s.plan.blockSize.toNat)
    let bytes := (List.range dsize).map (fun a => Memory.read s.mem (start + a))
    let t := buildTree bytes
    let leaves := fun f : Job → Job => exec (.analyze block) s =
      .next { s with jobs := s.jobs.map (fun j => if j.block = i then f j else j) }
    0 < dsize →
    (s.params.memSize < start + dsize → leaves (fun j => { j with err := some .busError, pc := 2 })) ∧
    (start + dsize ≤ s.params.memSize → ∃ sh, t.shape = some sh ∧
      let cs := (t.treeBits + sh.dataBits 0 + 7) / 8
      (32 < sh.depth → leaves (fun j => { j with err := some .codeTooLong, pc := 2 })) ∧
      (sh.depth ≤ 32 → 4294967296 ≤ cs → leaves (fun j => { j with err := some .sizeOverflow, pc := 2 })) ∧
      (sh.depth ≤ 32 → cs < 4294967296 →
        leaves (fun j => { j with
          res := some { dsize := BitVec.ofNat 32 dsize, csize := BitVec.ofNat 32 cs, tree := t }, pc := 2 })))

/-- ENCODE completes and writes only its region (42 R176, 20 R71): no register, plan, limiter or controller changes, of
the jobs only its own, and of that only W, T, LUT, err and pc. The first failed check is the fault recorded: with no
room for the tree MEM is as it was; else, with the source apart from the region, the bits of the tree and of the codes
before that check are in MEM, and the bits behind them are as they were. -/
def Obligations.EncodeWritesOnlyItsRegion : Prop :=
  ∀ (s : State) (block : Word) (j : Job) (d : Desc) (tr : Tree), s.turn ≠ .host → Memory.wf s.mem = true →
    s.job? block.toNat = some j → s.plan.desc[block.toNat]? = some d → d.tree = some tr → tr.built = true →
    tr.wf = true →
    let region := s.controller.dstBase.toNat + s.plan.headerSize.toNat + d.offset.toNat
    region + d.csize.toNat ≤ 4294967296 →
    ∃ t j', exec (.encode block) s = .next t ∧ t = { s with mem := t.mem, jobs := t.jobs } ∧
      (∀ b, b ≠ block.toNat → t.job? b = s.job? b) ∧ t.job? block.toNat = some j' ∧
      j' = { j with w := j'.w, tree := tr, lut := j'.lut, err := j'.err, pc := 2 } ∧
      j'.w.base = BitVec.ofNat 32 region ∧ j'.w.len = d.csize ∧
      (∀ a, ¬ (region ≤ a ∧ a < region + d.csize.toNat) → Memory.read t.mem a = Memory.read s.mem a) ∧
      let outside := 8 * d.csize.toNat < tr.treeBits
      let absent := s.params.memSize ≤ region + (tr.treeBits - 1) / 8
      let start := s.plan.srcBase.toNat + block.toNat * s.plan.blockSize.toNat
      (outside → j'.err = some .writeOutOfBounds ∧ t.mem = s.mem ∧ j'.w.pos = 0 ∧ j'.lut = j.lut) ∧
      (¬ outside → absent → j'.err = some .busError ∧ t.mem = s.mem ∧ j'.w.pos = 0 ∧ j'.lut = j.lut) ∧
      (¬ outside → ¬ absent → (start + d.dsize.toNat ≤ region ∨ region + d.csize.toNat ≤ start) →
        ∃ sh, tr.shape = some sh ∧ j'.lut = sh.lookup ∧
          let run := encodedBits s.params.memSize s.mem sh.lookup region d.csize.toNat d.dsize.toNat start tr.treeBits
          let bits := sh.preorder ++ run.1
          j'.err = (if run.2.isSome then run.2 else j.err) ∧ j'.w.pos = bits.length ∧
          (∀ p, p < bits.length → some (memBit t.mem region p) = bits[p]?) ∧
          (∀ p, bits.length ≤ p → memBit t.mem region p = memBit s.mem region p))

/-- ENCODE of the descriptor PREPC makes (42 R176, 43 R197, 20 R81): with the source apart from the region it does not
fail, and the region holds the serialized tree, the codes of the block's bytes in order with no gap, and then the bits
that were there. -/
def Obligations.EncodeWritesTreeThenCodes : Prop :=
  ∀ (s : State) (block : Word) (j : Job) (d : Desc) (bytes : List Byte) (sh : Shape), s.turn ≠ .host →
    Memory.wf s.mem = true → s.job? block.toNat = some j → j.err = none →
    s.plan.desc[block.toNat]? = some d → d.tree = some (buildTree bytes) →
    let start := s.plan.srcBase.toNat + block.toNat * s.plan.blockSize.toNat
    let region := s.controller.dstBase.toNat + s.plan.headerSize.toNat + d.offset.toNat
    let bits := sh.preorder ++ bytes.flatMap (fun b => (sh.lookup.entryOf b).code)
    bytes = (List.range d.dsize.toNat).map (fun a => Memory.read s.mem (start + a)) → bytes ≠ [] →
    (buildTree bytes).shape = some sh → sh.depth ≤ 32 →
    d.csize.toNat = ((buildTree bytes).treeBits + sh.dataBits 0 + 7) / 8 →
    region + d.csize.toNat ≤ 4294967296 → region + d.csize.toNat ≤ s.params.memSize →
    start + d.dsize.toNat ≤ s.params.memSize →
    (start + d.dsize.toNat ≤ region ∨ region + d.csize.toNat ≤ start) →
    ∃ t j', exec (.encode block) s = .next t ∧ t.job? block.toNat = some j' ∧ j'.err = none ∧
      j'.w.pos = bits.length ∧ bits.length = (buildTree bytes).treeBits + sh.dataBits 0 ∧
      (∀ p, p < bits.length → some (memBit t.mem region p) = bits[p]?) ∧
      (∀ p, bits.length ≤ p → memBit t.mem region p = memBit s.mem region p)

/-- DECODE completes and writes only its output range (42 R177, 20 R71): no register, plan, limiter or controller
changes, of the jobs only its own, and of that only R, T, err and pc. A fault of Parse is recorded with MEM as it was;
else, with the output apart from the region, byte k of the output is the value of the k-th Walk up to the first failed
check, which is recorded, and nothing behind that prefix is written. -/
def Obligations.DecodeWritesOnlyItsRange : Prop :=
  ∀ (s : State) (block : Word) (j : Job) (d : Desc), s.turn ≠ .host → s.job? block.toNat = some j →
    s.plan.desc[block.toNat]? = some d →
    let out := s.controller.dstBase.toNat + d.doff.toNat
    ∃ t j', exec (.decode block) s = .next t ∧ t = { s with mem := t.mem, jobs := t.jobs } ∧
      (∀ b, b ≠ block.toNat → t.job? b = s.job? b) ∧ t.job? block.toNat = some j' ∧
      j' = { j with r := j'.r, tree := j'.tree, err := j'.err, pc := 2 } ∧
      (∀ a, ¬ (out ≤ a ∧ a < out + d.dsize.toNat) → Memory.read t.mem a = Memory.read s.mem a) ∧
      let region := s.plan.srcBase.toNat + s.plan.headerSize.toNat + d.offset.toNat
      let r : Cursor := { base := BitVec.ofNat 32 region, len := d.csize, byteOff := 0#32, bitOff := 0#3 }
      ∀ c : Cursor,
        (∀ e, parseTree s.params.memSize s.mem r = (c, .error e) →
          j'.err = some e ∧ j'.tree = j.tree ∧ t.mem = s.mem) ∧
        (∀ tr, parseTree s.params.memSize s.mem r = (c, .ok tr) → j'.tree = tr ∧
          (Memory.wf s.mem = true → region + d.csize.toNat ≤ 4294967296 →
            (out + d.dsize.toNat ≤ region ∨ region + d.csize.toNat ≤ out) →
            ∃ sh, tr.shape = some sh ∧
              let run := decodedBytes s.params.memSize s.mem sh d.dsize.toNat out c
              j'.err = (if run.2.isSome then run.2 else j.err) ∧ (run.2 = none → run.1.length = d.dsize.toNat) ∧
              (∀ k, k < run.1.length → some (Memory.read t.mem (out + k)) = run.1[k]?) ∧
              (∀ a, out + run.1.length ≤ a → Memory.read t.mem a = Memory.read s.mem a)))

/-- One block's round trip (43 R205): a region written by ENCODE from the descriptor PREPC makes is decoded by DECODE to
the block's bytes. `u` is any later state that holds the region and a descriptor of the same sizes. -/
def Obligations.EncodeThenDecodeBlock : Prop :=
  ∀ (s t u : State) (block block' : Word) (j j' : Job) (d d' : Desc) (bytes : List Byte) (sh : Shape),
    s.turn ≠ .host → Memory.wf s.mem = true → s.job? block.toNat = some j →
    s.plan.desc[block.toNat]? = some d → d.tree = some (buildTree bytes) →
    let start := s.plan.srcBase.toNat + block.toNat * s.plan.blockSize.toNat
    let region := s.controller.dstBase.toNat + s.plan.headerSize.toNat + d.offset.toNat
    bytes = (List.range d.dsize.toNat).map (fun a => Memory.read s.mem (start + a)) → bytes ≠ [] →
    (buildTree bytes).shape = some sh → sh.depth ≤ 32 →
    d.csize.toNat = ((buildTree bytes).treeBits + sh.dataBits 0 + 7) / 8 →
    region + d.csize.toNat ≤ 4294967296 → region + d.csize.toNat ≤ s.params.memSize →
    start + d.dsize.toNat ≤ s.params.memSize →
    (start + d.dsize.toNat ≤ region ∨ region + d.csize.toNat ≤ start) →
    exec (.encode block) s = .next t →
    u.turn ≠ .host → Memory.wf u.mem = true → u.params = s.params → u.job? block'.toNat = some j' → j'.err = none →
    u.plan.desc[block'.toNat]? = some d' → d'.dsize = d.dsize → d'.csize = d.csize →
    u.plan.srcBase.toNat + u.plan.headerSize.toNat + d'.offset.toNat = region →
    (∀ a, region ≤ a → a < region + d.csize.toNat → Memory.read u.mem a = Memory.read t.mem a) →
    let out := u.controller.dstBase.toNat + d'.doff.toNat
    out + d.dsize.toNat ≤ u.params.memSize →
    (out + d.dsize.toNat ≤ region ∨ region + d.csize.toNat ≤ out) →
    ∃ v jv, exec (.decode block') u = .next v ∧ v.job? block'.toNat = some jv ∧ jv.err = none ∧
      (List.range d.dsize.toNat).map (fun a => Memory.read v.mem (out + a)) = bytes

/-- 42 R180, in every state with the control invariant: the permits and their holders add up, no more jobs than permits
are inside their body, all permits are back when the join is enabled; and a launched phase starts with all p of them. -/
def Obligations.LimiterBound : Prop :=
  (∀ s : State, s.controlOk = true → s.controller.phase ≠ .idle →
    s.limiter.capacity.toNat - s.limiter.permits.toNat = (s.jobs.filter (fun j => j.holds)).length ∧
    s.limiter.permits.toNat ≤ s.limiter.capacity.toNat ∧
    (s.jobs.filter (fun j => j.pc == 1)).length ≤ s.limiter.capacity.toNat ∧
    (s.joinReady = true → s.limiter.permits = s.limiter.capacity)) ∧
  (∀ (i : Instr) (s t : State), (i = .prepc ∨ i = .compress ∨ i = .decompress) → exec i s = .next t →
    t.regs.busy = true →
    let p := if s.regs.nThreads = 0#32 then s.params.hwParallelism else s.regs.nThreads
    t.limiter = { capacity := p, permits := p } ∧ t.jobs.all (fun j => !j.holds && j.pc == 0) = true) ∧
  (∀ s t : State, s.controlOk = true → s.controller.phase ≠ .idle → step s = .next t → t.controller.phase ≠ .idle →
    t.limiter.capacity = s.limiter.capacity)

/-- STATUS, CONTROLLER, JOBS and LIMITER keep their invariant at every step (10 R39 to R42, 42 R173, R180). -/
def Obligations.ControlInvariantKept : Prop :=
  ∀ s t : State, s.controlOk = true → step s = .next t → t.controlOk = true

/-- The join (42 R179, R182; 43 R192, R194, R201): a failing phase reports the lowest failing block whatever the others
did, a phase without a failure completes; COMPRESS and DECOMPRESS discard the plan either way. PREPC's join with every
job's result installs the whole plan, or is SizeOverflow and installs none: no plan is held while a phase runs. What the
descriptors of a plan not held are after a fault is the model's (logs 18, 30). -/
def Obligations.JoinReportsLowestFailure : Prop :=
  ∀ s : State, s.controller.phase ≠ .idle →
    let rest : State := { s with
      jobs := []
      controller := { s.controller with phase := .idle }
      plan := if s.controller.phase = .analyze then s.plan else {} }
    (∀ (j : Job) (e : FaultCode), (s.jobs.map (·.block)).Nodup → j ∈ s.jobs → j.err = some e →
      (∀ j' ∈ s.jobs, j'.err ≠ none → j.block ≤ j'.block) →
      s.join = .next { rest with regs := s.regs.failed e (BitVec.ofNat 32 j.block) }) ∧
    ((∀ j ∈ s.jobs, j.err = none) → s.controller.phase ≠ .analyze →
      s.join = .next { rest with regs := { s.regs with busy := false, done := true } }) ∧
    (∀ results : List AnalyzeResult, s.controller.phase = .analyze → (∀ j ∈ s.jobs, j.err = none) →
      s.jobs.map (·.res) = results.map some →
      let hs := 16 + 12 * s.plan.blockCount.toNat
      let sum := fun i => ((results.take i).map (fun r => r.csize.toNat)).sum
      let out := hs + sum results.length
      (out < 4294967296 → s.join = .next { rest with
        regs := { s.regs with busy := false, done := true }
        plan := { s.plan with
          valid := true
          headerSize := BitVec.ofNat 32 hs
          outSize := BitVec.ofNat 32 out
          desc := results.mapIdx (fun i r =>
            { dsize := r.dsize, csize := r.csize, offset := BitVec.ofNat 32 (sum i), doff := 0#32, tree := some r.tree }) } }) ∧
      (4294967296 ≤ out → s.join = .next { rest with regs := s.regs.failed .sizeOverflow 0xFFFFFFFF#32 })) ∧
    (s.controlOk = true → s.plan.valid = false)

/-! ## Orchestration (43) -/

/-- PREPC, the issue step (43 R192): its three faults in their order, each dropping the plan; else the plan, the limiter
and the jobs of the analyze phase; MEM is not written, all else as it was. The model's own are: the
other fields of a dropped plan stay (log 24), the new plan has no descriptors yet (log 30), and a launched job has tree
root 0, table entries (0, 0, 0) and its program as words (logs 29, 16). -/
def Obligations.PrepcIssue : Prop :=
  ∀ s : State,
    let last := s.regs.srcBase.toNat + s.regs.srcSize.toNat
    let dropped := { s.plan with valid := false }
    let bc := (s.regs.srcSize.toNat + s.regs.blockSize.toNat - 1) / s.regs.blockSize.toNat
    let p := if s.regs.nThreads = 0#32 then s.params.hwParallelism else s.regs.nThreads
    (s.regs.blockSize = 0#32 →
      exec .prepc s = .next { s.failedOnly .invalidBlockSize 0xFFFFFFFF#32 with plan := dropped }) ∧
    (s.regs.blockSize ≠ 0#32 → 4294967296 < last →
      exec .prepc s = .next { s.failedOnly .sizeOverflow 0xFFFFFFFF#32 with plan := dropped }) ∧
    (s.regs.blockSize ≠ 0#32 → last ≤ 4294967296 → s.params.memSize < last →
      exec .prepc s = .next { s.failedOnly .busError 0xFFFFFFFF#32 with plan := dropped }) ∧
    (s.regs.blockSize ≠ 0#32 → last ≤ 4294967296 → last ≤ s.params.memSize →
      exec .prepc s = .next { s with
        regs := { s.regs with busy := true, done := false, fault := none, errInfo := 0#32 }
        plan := { valid := false, kind := .c, srcBase := s.regs.srcBase, srcSize := s.regs.srcSize,
                  inSize := s.regs.srcSize, outSize := 0#32, blockSize := s.regs.blockSize,
                  blockCount := BitVec.ofNat 32 bc, headerSize := 0#32, desc := [] }
        limiter := { capacity := p, permits := p }
        controller := { s.controller with phase := .analyze }
        jobs := (List.range bc).map (phaseJob (fun b => .analyze b)) })

/-- COMPRESS, the issue step (43 R194, R196): its five faults in their order, each keeping the plan and MEM; else the
header is written, the plan is consumed and the encode phase starts; all else as it was. 42 R173 gives a launched job no
tree built and no table generated: tree root 0 and table entries (0, 0, 0) are the model's choice (log 29), as is its
program held as words (log 16). -/
def Obligations.CompressIssue : Prop :=
  ∀ s : State,
    let out := s.plan.outSize.toNat
    let dst := s.regs.dstBase.toNat
    let p := if s.regs.nThreads = 0#32 then s.params.hwParallelism else s.regs.nThreads
    let held := s.plan.valid = true ∧ s.plan.kind = .c
    let fits := out ≤ s.regs.dstSize.toNat
    let legal := dst + out ≤ 4294967296
    let meets := ∃ a, (s.plan.srcBase.toNat ≤ a ∧ a < s.plan.srcBase.toNat + s.plan.inSize.toNat) ∧
      dst ≤ a ∧ a < dst + out
    (¬ held → exec .compress s = .next (s.failedOnly .noPlan 0xFFFFFFFF#32)) ∧
    (held → ¬ fits → exec .compress s = .next (s.failedOnly .dstTooSmall 0xFFFFFFFF#32)) ∧
    (held → fits → ¬ legal → exec .compress s = .next (s.failedOnly .sizeOverflow 0xFFFFFFFF#32)) ∧
    (held → fits → legal → meets → exec .compress s = .next (s.failedOnly .bufferOverlap 0xFFFFFFFF#32)) ∧
    (held → fits → legal → ¬ meets → s.params.memSize < dst + out →
      exec .compress s = .next (s.failedOnly .busError 0xFFFFFFFF#32)) ∧
    (held → fits → legal → ¬ meets → dst + out ≤ s.params.memSize →
      exec .compress s = .next { s with
        regs := { s.regs with busy := true, done := false, fault := none, errInfo := 0#32 }
        mem := writeHeader s.mem dst s.plan
        plan := { s.plan with valid := false }
        limiter := { capacity := p, permits := p }
        controller := { phase := .encode, dstBase := s.regs.dstBase, dstSize := s.regs.dstSize }
        jobs := (List.range s.plan.blockCount.toNat).map (phaseJob (fun b => .encode b)) })

/-- DECOMPRESS, the issue step (43 R201, R204): its five faults in their order, each keeping the plan; else the plan is
consumed and the decode phase starts; MEM is not written, all else as it was. 42 R173 gives a launched job no tree built
and no table generated: tree root 0 and table entries (0, 0, 0) are the model's choice (log 29), as is its program held
as words (log 16). -/
def Obligations.DecompressIssue : Prop :=
  ∀ s : State,
    let out := s.plan.outSize.toNat
    let dst := s.regs.dstBase.toNat
    let p := if s.regs.nThreads = 0#32 then s.params.hwParallelism else s.regs.nThreads
    let held := s.plan.valid = true ∧ s.plan.kind = .d
    let fits := out ≤ s.regs.dstSize.toNat
    let legal := dst + out ≤ 4294967296
    let meets := ∃ a, (s.plan.srcBase.toNat ≤ a ∧ a < s.plan.srcBase.toNat + s.plan.srcSize.toNat) ∧
      dst ≤ a ∧ a < dst + out
    (¬ held → exec .decompress s = .next (s.failedOnly .noPlan 0xFFFFFFFF#32)) ∧
    (held → ¬ fits → exec .decompress s = .next (s.failedOnly .dstTooSmall 0xFFFFFFFF#32)) ∧
    (held → fits → ¬ legal → exec .decompress s = .next (s.failedOnly .sizeOverflow 0xFFFFFFFF#32)) ∧
    (held → fits → legal → meets → exec .decompress s = .next (s.failedOnly .bufferOverlap 0xFFFFFFFF#32)) ∧
    (held → fits → legal → ¬ meets → s.params.memSize < dst + out →
      exec .decompress s = .next (s.failedOnly .busError 0xFFFFFFFF#32)) ∧
    (held → fits → legal → ¬ meets → dst + out ≤ s.params.memSize →
      exec .decompress s = .next { s with
        regs := { s.regs with busy := true, done := false, fault := none, errInfo := 0#32 }
        plan := { s.plan with valid := false }
        limiter := { capacity := p, permits := p }
        controller := { phase := .decode, dstBase := s.regs.dstBase, dstSize := s.regs.dstSize }
        jobs := (List.range s.plan.blockCount.toNat).map (phaseJob (fun b => .decode b)) })

/-- PREPD (43 R198 to R200, R209): the header faults in their order, the first directory entry outside the container
with its index, the sum that does not fit; else the plan of kind D. MEM is not written, all else as it was. That the
other fields of a dropped plan stay is the model's (log 24). -/
def Obligations.PrepdReadsTheContainer : Prop :=
  ∀ s : State,
    let b := s.regs.srcBase.toNat
    let n := s.regs.srcSize.toNat
    let rd := fun a => Memory.read32LE s.mem a
    let bc := (rd (b + 4)).toNat
    let hs := (rd (b + 12)).toNat
    let inside := fun i => hs + (rd (b + 16 + 12 * i + 8)).toNat + (rd (b + 16 + 12 * i + 4)).toNat ≤ n
    let sizes := fun i => ((List.range i).map (fun q => (rd (b + 16 + 12 * q)).toNat)).sum
    let fails := fun e info => exec .prepd s =
      .next { s.failedOnly e info with plan := { s.plan with valid := false } }
    (4294967296 < b + n → fails .sizeOverflow 0xFFFFFFFF#32) ∧
    (b + n ≤ 4294967296 → n < 16 → fails .truncatedInput 0xFFFFFFFF#32) ∧
    (b + n ≤ 4294967296 → 16 ≤ n → s.params.memSize < b + n → fails .busError 0xFFFFFFFF#32) ∧
    (b + n ≤ 4294967296 → 16 ≤ n → b + n ≤ s.params.memSize →
      (rd b ≠ 0x1234#32 → fails .invalidMagic 0xFFFFFFFF#32) ∧
      (rd b = 0x1234#32 → hs ≠ 16 + 12 * bc → fails .headerSizeMismatch 0xFFFFFFFF#32) ∧
      (rd b = 0x1234#32 → hs = 16 + 12 * bc → n < hs → fails .truncatedInput 0xFFFFFFFF#32) ∧
      (rd b = 0x1234#32 → hs = 16 + 12 * bc → hs ≤ n →
        (∀ i, i < bc → (∀ q, q < i → inside q) → ¬ inside i → fails .truncatedInput (BitVec.ofNat 32 i)) ∧
        ((∀ i, i < bc → inside i) → 4294967296 ≤ sizes bc → fails .sizeOverflow 0xFFFFFFFF#32) ∧
        ((∀ i, i < bc → inside i) → sizes bc < 4294967296 →
          exec .prepd s = .next { s with
            regs := s.regs.succeeded
            plan := { valid := true, kind := .d, srcBase := s.regs.srcBase, srcSize := s.regs.srcSize,
                      inSize := s.regs.srcSize, outSize := BitVec.ofNat 32 (sizes bc), blockSize := rd (b + 8),
                      blockCount := rd (b + 4), headerSize := rd (b + 12),
                      desc := (List.range bc).map (fun i => {
                        dsize := rd (b + 16 + 12 * i), csize := rd (b + 16 + 12 * i + 4),
                        offset := rd (b + 16 + 12 * i + 8), doff := BitVec.ofNat 32 (sizes i), tree := none }) } })))

/-- 43 R193 and R206, for the plan a successful PREPC installs, in every state the invariant allows. -/
def Obligations.PrepcPlanOffsets : Prop :=
  ∀ s t : State, s.Inv → s.controller.phase = .analyze → s.join = .next t → t.plan.valid = true →
    t.plan.kind = .c ∧ t.plan.headerSize.toNat = 16 + 12 * t.plan.blockCount.toNat ∧
    t.plan.desc.length = t.plan.blockCount.toNat ∧
    (t.plan.desc.map (fun d => d.dsize.toNat)).sum = t.plan.inSize.toNat ∧
    (∀ i d d', t.plan.desc[i]? = some d → t.plan.desc[i + 1]? = some d' →
      d.offset.toNat + d.csize.toNat = d'.offset.toNat) ∧
    (∀ d, t.plan.desc[0]? = some d → d.offset = 0#32) ∧
    (∀ d, t.plan.desc[t.plan.blockCount.toNat - 1]? = some d →
      t.plan.headerSize.toNat + d.offset.toNat + d.csize.toNat = t.plan.outSize.toNat) ∧
    (∀ (i : Nat) (j : Job) (r : AnalyzeResult), s.jobs[i]? = some j → j.res = some r → ∃ d : Desc, t.plan.desc[i]? = some d ∧
      d.dsize = r.dsize ∧ d.csize = r.csize ∧ d.tree = some r.tree)

/-- COMPRESS writes the header and the directory of 20 R79 and R80 little-endian at DST_BASE (43 R195), and no other
byte in its issue step. -/
def Obligations.CompressWritesTheHeader : Prop :=
  ∀ s t : State, s.Inv → s.regs.busy = false → exec .compress s = .next t → t.regs.busy = true →
    let dst := s.regs.dstBase.toNat
    let rd := fun a => Memory.read32LE t.mem (dst + a)
    (List.range 4).map (fun a => Memory.read t.mem (dst + a)) = [0x34#8, 0x12#8, 0x00#8, 0x00#8] ∧
    rd 4 = s.plan.blockCount ∧ rd 8 = s.plan.blockSize ∧ rd 12 = s.plan.headerSize ∧
    (rd 12).toNat = 16 + 12 * s.plan.blockCount.toNat ∧
    (∀ i d, s.plan.desc[i]? = some d →
      rd (16 + 12 * i) = d.dsize ∧ rd (16 + 12 * i + 4) = d.csize ∧ rd (16 + 12 * i + 8) = d.offset) ∧
    (∀ a, ¬ (dst ≤ a ∧ a < dst + s.plan.headerSize.toNat) → Memory.read t.mem a = Memory.read s.mem a)

/-- PREPD of the container COMPRESS writes succeeds, with the descriptors of the compression plan and the size of the
original input as its output size (43 R195, R199, R200, R205). `u` is any later state that holds the header. -/
def Obligations.PrepdReadsTheWrittenHeader : Prop :=
  ∀ s t u : State, s.Inv → s.regs.busy = false → exec .compress s = .next t → t.regs.busy = true →
    u.params = s.params → u.regs.srcBase = s.regs.dstBase → u.regs.srcSize = s.plan.outSize →
    (∀ a, s.regs.dstBase.toNat ≤ a → a < s.regs.dstBase.toNat + s.plan.headerSize.toNat →
      Memory.read u.mem a = Memory.read t.mem a) →
    ∃ v, exec .prepd u = .next v ∧ v.regs.fault = none ∧ v.plan.valid = true ∧ v.plan.kind = .d ∧
      v.plan.outSize = s.plan.inSize ∧ v.plan.blockCount = s.plan.blockCount ∧
      v.plan.headerSize = s.plan.headerSize ∧
      v.plan.desc.map (fun d => (d.dsize, d.csize, d.offset)) =
        s.plan.desc.map (fun d => (d.dsize, d.csize, d.offset)) ∧
      ∀ i d, v.plan.desc[i]? = some d → d.doff.toNat = i * s.plan.blockSize.toNat

/-! ## The whole machine -/

/-- Every step keeps MEM in its canonical form (the model's own form of MEM, 20 R60). -/
def Obligations.MemoryCanonicalKept : Prop :=
  ∀ s t : State, Memory.wf s.mem = true → step s = .next t → Memory.wf t.mem = true

/-- The invariant holds after reset, in every instantiation whose parameters are in range (70 R250, 00 R7), and in the
model's own (log 4). -/
def Obligations.InvariantAtReset : Prop :=
  (∀ p : Params, p.wf = true → (State.resetWith p).Inv) ∧ State.reset.Inv

/-- Every step keeps the invariant: parameters, MEM, control, contexts (10 R31 to R35, 20 R69) and plan (10 R37, 43). -/
def Obligations.InvariantKept : Prop := ∀ s t : State, s.Inv → step s = .next t → t.Inv

/-- From a state with the invariant the machine stops only where the host asks for an address that does not exist or
breaks a duty of 70 R256: no command and no job ever stops it (60 R225; logs 8, 9, 12, 13). -/
def Obligations.OnlyTheHostStopsTheMachine : Prop := ∀ s : State, s.Inv → hostStopOnly (step s)

/-- No step changes MEM_SIZE or HW_PARALLELISM, and CAPS and VERSION read as constants in every state (10 R20, R36,
70 R250). -/
def Obligations.ParametersNeverChange : Prop :=
  (∀ s t : State, step s = .next t → t.params = s.params ∧ t.readRegister 0x70 = s.readRegister 0x70) ∧
  (∀ s : State, s.readRegister 0x6C = 0x2004#32 ∧ s.readRegister 0x7C = 1#32 ∧
    s.readRegister 0x70 = s.params.hwParallelism)

/-- A running command completes (70 R257, 42 R178): with no host step to come, each step brings the phase nearer its
join, whatever the schedule, and after exactly the steps that are left BUSY is 0 and DONE is 1. -/
def Obligations.RunningCommandCompletes : Prop :=
  ∀ s : State, s.Inv → s.regs.busy = true → (s.inputs = [] ∨ ∃ rest, s.inputs = .await :: rest) →
    ∃ t : State, Host.Core.run Sys2Proof.core ((s.jobs.map (fun j => 3 - j.pc.val)).sum + 1) s = .next t ∧
      t.regs.busy = false ∧ t.regs.done = true ∧ t.controller.phase = .idle ∧ t.inputs = s.inputs

/-- 20 R76 and 43 R208: MEM, the plan, the contexts and the registers at the completion of a command are the same for
every schedule and for every number of permits, NTHREADS and HW_PARALLELISM: the two start states may differ in all of
these. The limiter ends with all its permits. The source and destination ranges are apart, as 43 R196 and R204 check at
issue. -/
def Obligations.ScheduleDoesNotMatter : Prop :=
  ∀ s s' t t' : State, s.Inv → s'.Inv → s.regs.busy = true → s.inputs = [] →
    s' = { s with
      sched := s'.sched, draws := s'.draws, limiter := s'.limiter,
      regs := { s.regs with nThreads := s'.regs.nThreads },
      params := { s.params with hwParallelism := s'.params.hwParallelism } } →
    (∀ a, s.plan.srcBase.toNat ≤ a → a < s.plan.srcBase.toNat + s.plan.srcSize.toNat →
      ¬ (s.controller.dstBase.toNat ≤ a ∧ a < s.controller.dstBase.toNat + s.plan.outSize.toNat)) →
    let n := (s.jobs.map (fun j => 3 - j.pc.val)).sum + 1
    Host.Core.run Sys2Proof.core n s = .next t → Host.Core.run Sys2Proof.core n s' = .next t' →
    t'.mem = t.mem ∧ t'.plan = t.plan ∧ t'.ctx = t.ctx ∧
    t'.regs = { t.regs with nThreads := s'.regs.nThreads } ∧
    t.limiter = { capacity := s.limiter.capacity, permits := s.limiter.capacity } ∧
    t'.limiter = { capacity := s'.limiter.capacity, permits := s'.limiter.capacity }

/-- What reset leaves (70 R250, R252): every register at the value of the table, every piece of core state at its reset
value, MEM as it was but for the destination range of an aborted COMPRESS or DECOMPRESS. The root of the tree not built is the model's choice (log 29). -/
def Obligations.ResetValues : Prop :=
  ∀ s : State, Memory.wf s.mem = true →
    ∃ t, s.hostStep .reset = .next t ∧
      (∀ offset, t.readRegister offset = if offset = 0x6C then 0x2004#32
        else if offset = 0x70 then s.params.hwParallelism else if offset = 0x7C then 1#32 else 0#32) ∧
      t.regs = {} ∧ t.plan = {} ∧ t.limiter = { capacity := 0#32, permits := 0#32 } ∧
      t.controller = { phase := .idle, dstBase := 0#32, dstSize := 0#32 } ∧ t.jobs = [] ∧ t.params = s.params ∧
      (∀ (k : Nat) (h : k < 4), t.ctx[k].w = { base := 0#32, len := 0#32, byteOff := 0#32, bitOff := 0#3 } ∧
        t.ctx[k].r = { base := 0#32, len := 0#32, byteOff := 0#32, bitOff := 0#3 } ∧
        t.ctx[k].tree = { built := false, nodes := [], root := 0 } ∧ t.ctx[k].lut.generated = false ∧
        (∀ v, t.ctx[k].lut.entryOf v = { pattern := 0#32, length := 0, weight := 0#32 }) ∧
        t.ctx[k].tc = { valid := false, node := 0 }) ∧
      (∀ a, ¬ ((s.controller.phase = .encode ∨ s.controller.phase = .decode) ∧
          s.controller.dstBase.toNat ≤ a ∧ a < s.controller.dstBase.toNat + s.plan.outSize.toNat) →
        Memory.read t.mem a = Memory.read s.mem a)

end
end

