-- ==== Sys2Proof/Laws/Memory.lean ====
section
/-! SUPPORT. The laws of MEM: the canonical form is kept by every operation, a read returns the last write (20 R60), and a write leaves every other byte alone. -/

namespace Sys2Proof.Machine

/-- A lower bound may be lowered. -/
theorem Memory.wfFrom_le {m : Memory} {lo lo' : Nat} (h : Memory.wfFrom lo m = true) (hl : lo' ≤ lo) :
    Memory.wfFrom lo' m = true := by
  cases m with
  | nil => rfl
  | cons c m =>
    simp only [Memory.wfFrom, Bool.and_eq_true, decide_eq_true_eq] at h ⊢
    exact ⟨⟨Nat.le_trans hl h.1.1, h.1.2⟩, h.2⟩

/-- A write at or above the bound keeps the canonical form from that bound on. -/
theorem Memory.wfFrom_write {m : Memory} {lo a : Nat} (v : Byte) (h : Memory.wfFrom lo m = true) (ha : lo ≤ a) :
    Memory.wfFrom lo (Memory.write m a v) = true := by
  induction m generalizing lo with
  | nil =>
    by_cases hv : v = Config.unlistedByte
    · simp [Memory.write, hv, Memory.wfFrom]
    · simp [Memory.write, hv, Memory.wfFrom, ha]
  | cons c m ih =>
    obtain ⟨b, x⟩ := c
    have h0 := h
    simp only [Memory.wfFrom, Bool.and_eq_true, decide_eq_true_eq, bne_iff_ne, ne_eq] at h
    obtain ⟨⟨hb, hx⟩, hm⟩ := h
    by_cases hab : a < b
    · by_cases hv : v = Config.unlistedByte
      · simpa [Memory.write, hab, hv] using h0
      · have hb' : Memory.wfFrom (a + 1) ((b, x) :: m) = true := by
          simp only [Memory.wfFrom, Bool.and_eq_true, decide_eq_true_eq, bne_iff_ne, ne_eq]
          exact ⟨⟨hab, hx⟩, hm⟩
        simp only [Memory.write, hab, hv, if_true, if_false]
        unfold Memory.wfFrom
        simp [ha, hv, hb']
    · by_cases he : a = b
      · subst he
        by_cases hv : v = Config.unlistedByte
        · simpa [Memory.write, hv] using Memory.wfFrom_le hm (Nat.le_succ_of_le ha)
        · simp [Memory.write, hv, Memory.wfFrom, ha, hm]
      · have hlt : b + 1 ≤ a := by omega
        simp [Memory.write, hab, he, Memory.wfFrom, hb, hx, ih hm hlt]

/-- A write keeps the canonical form. -/
theorem Memory.wf_write {m : Memory} (a : Nat) (v : Byte) (h : Memory.wf m = true) :
    Memory.wf (Memory.write m a v) = true :=
  Memory.wfFrom_write v h (Nat.zero_le a)

/-- Below the bound nothing is listed. -/
theorem Memory.read_below {m : Memory} {lo a : Nat} (h : Memory.wfFrom lo m = true) (ha : a < lo) :
    Memory.read m a = Config.unlistedByte := by
  induction m generalizing lo with
  | nil => rfl
  | cons c m ih =>
    simp only [Memory.wfFrom, Bool.and_eq_true, decide_eq_true_eq] at h
    have hne : a ≠ c.1 := by omega
    simp only [Memory.read, hne, if_false]
    exact ih h.2 (by omega)

/-- "a read returns the last byte written there" (20 R60), from a bound on. -/
theorem Memory.read_write_from {m : Memory} {lo a : Nat} (v : Byte) (h : Memory.wfFrom lo m = true) :
    Memory.read (Memory.write m a v) a = v := by
  induction m generalizing lo with
  | nil =>
    by_cases hv : v = Config.unlistedByte
    · simp [Memory.write, Memory.read, hv]
    · simp [Memory.write, Memory.read, hv]
  | cons c m ih =>
    obtain ⟨b, x⟩ := c
    simp only [Memory.wfFrom, Bool.and_eq_true, decide_eq_true_eq] at h
    by_cases hab : a < b
    · by_cases hv : v = Config.unlistedByte
      · have hne : a ≠ b := by omega
        simp [Memory.write, Memory.read, hab, hv, hne, Memory.read_below h.2 (show a < b + 1 by omega)]
      · simp [Memory.write, Memory.read, hab, hv]
    · by_cases he : a = b
      · subst he
        by_cases hv : v = Config.unlistedByte
        · simp [Memory.write, hv, Memory.read_below h.2 (Nat.lt_succ_self a)]
        · simp [Memory.write, Memory.read, hv]
      · simp [Memory.write, Memory.read, hab, he, ih h.2]

/-- "a read returns the last byte written there" (20 R60). -/
theorem Memory.read_write_same {m : Memory} (a : Nat) (v : Byte) (h : Memory.wf m = true) :
    Memory.read (Memory.write m a v) a = v :=
  Memory.read_write_from v h

/-- A write leaves every other byte alone. -/
theorem Memory.read_write_other (m : Memory) {a b : Nat} (v : Byte) (h : b ≠ a) :
    Memory.read (Memory.write m a v) b = Memory.read m b := by
  induction m with
  | nil =>
    by_cases hv : v = Config.unlistedByte
    · simp [Memory.write, hv]
    · simp [Memory.write, Memory.read, hv, h]
  | cons c m ih =>
    obtain ⟨d, x⟩ := c
    by_cases had : a < d
    · by_cases hv : v = Config.unlistedByte
      · simp [Memory.write, had, hv]
      · simp [Memory.write, Memory.read, had, hv, h]
    · by_cases he : a = d
      · subst he
        by_cases hv : v = Config.unlistedByte
        · simp [Memory.write, Memory.read, hv, h]
        · simp [Memory.write, Memory.read, hv, h]
      · by_cases hbd : b = d
        · simp [Memory.write, Memory.read, had, he, hbd]
        · simp [Memory.write, Memory.read, had, he, hbd, ih]

/-- Two canonical memories that read alike everywhere are the same list. -/
theorem Memory.ext_of_read {m n : Memory} {lo : Nat} (hm : Memory.wfFrom lo m = true) (hn : Memory.wfFrom lo n = true)
    (h : ∀ a, Memory.read m a = Memory.read n a) : m = n := by
  induction m generalizing n lo with
  | nil =>
    cases n with
    | nil => rfl
    | cons d n =>
      have := h d.1
      simp only [Memory.wfFrom, Bool.and_eq_true, decide_eq_true_eq, bne_iff_ne, ne_eq] at hn
      exact absurd (by simpa [Memory.read] using this.symm) hn.1.2
  | cons c m ih =>
    cases n with
    | nil =>
      have := h c.1
      simp only [Memory.wfFrom, Bool.and_eq_true, decide_eq_true_eq, bne_iff_ne, ne_eq] at hm
      exact absurd (by simpa [Memory.read] using this) hm.1.2
    | cons d n =>
      obtain ⟨a, x⟩ := c
      obtain ⟨b, y⟩ := d
      simp only [Memory.wfFrom, Bool.and_eq_true, decide_eq_true_eq, bne_iff_ne, ne_eq] at hm hn
      have hab : a = b := by
        rcases Nat.lt_trichotomy a b with hlt | heq | hgt
        · have ha := h a
          have hne : a ≠ b := by omega
          simp only [Memory.read, if_true, hne, if_false] at ha
          rw [Memory.read_below hn.2 (by omega)] at ha
          exact absurd ha hm.1.2
        · exact heq
        · have hb := h b
          have hne : b ≠ a := by omega
          simp only [Memory.read, if_true, hne, if_false] at hb
          rw [Memory.read_below hm.2 (by omega)] at hb
          exact absurd hb.symm hn.1.2
      subst hab
      have hxy : x = y := by simpa [Memory.read] using h a
      subst hxy
      have htail : m = n := by
        refine ih hm.2 hn.2 fun e => ?_
        by_cases he : e = a
        · subst he
          rw [Memory.read_below hm.2 (by omega), Memory.read_below hn.2 (by omega)]
        · simpa [Memory.read, he] using h e
      rw [htail]

/-- Bytes written keep the canonical form. -/
theorem Memory.wf_writeBytes {m : Memory} (a : Nat) (vs : List Byte) (h : Memory.wf m = true) :
    Memory.wf (Memory.writeBytes m a vs) = true := by
  induction vs generalizing m a with
  | nil => exact h
  | cons v vs ih => exact ih _ (Memory.wf_write a v h)

/-- A u32 written keeps the canonical form. -/
theorem Memory.wf_write32LE {m : Memory} (a : Nat) (v : Word) (h : Memory.wf m = true) :
    Memory.wf (Memory.write32LE m a v) = true :=
  Memory.wf_writeBytes a _ h

/-- Drawn bytes keep the canonical form. -/
theorem Memory.wf_draw {m : Memory} (a d n : Nat) (h : Memory.wf m = true) :
    Memory.wf (Memory.draw m a d n) = true :=
  Memory.wf_writeBytes a _ h

/-- Bytes written leave every byte outside their range alone. -/
theorem Memory.read_writeBytes_other (m : Memory) (a b : Nat) (vs : List Byte) (h : b < a ∨ a + vs.length ≤ b) :
    Memory.read (Memory.writeBytes m a vs) b = Memory.read m b := by
  induction vs generalizing m a with
  | nil => rfl
  | cons v vs ih =>
    simp only [List.length_cons] at h
    have hba : b ≠ a := by omega
    have := ih (Memory.write m a v) (a + 1) (by omega)
    simpa [Memory.writeBytes, Memory.read_write_other m v hba] using this

/-- Bytes written are read back. -/
theorem Memory.read_writeBytes {m : Memory} (a : Nat) (vs : List Byte) (h : Memory.wf m = true) (j : Nat)
    (hj : j < vs.length) : Memory.read (Memory.writeBytes m a vs) (a + j) = vs[j] := by
  induction vs generalizing m a j with
  | nil => simp at hj
  | cons v vs ih =>
    cases j with
    | zero =>
      simp only [Memory.writeBytes, Nat.add_zero, List.getElem_cons_zero]
      rw [Memory.read_writeBytes_other _ _ _ _ (by omega)]
      exact Memory.read_write_same a v h
    | succ j =>
      have := ih (a + 1) (Memory.wf_write a v h) j (by simpa using hj)
      simpa [Memory.writeBytes, Nat.add_assoc, Nat.add_comm 1 j] using this

/-- A u32 written is read back (20 R63). -/
theorem Memory.read32LE_write32LE {m : Memory} (a : Nat) (v : Word) (h : Memory.wf m = true) :
    Memory.read32LE (Memory.write32LE m a v) a = v := by
  have h0 := Memory.read_writeBytes a (bytesLE v) h 0 (by simp [bytesLE])
  have h1 := Memory.read_writeBytes a (bytesLE v) h 1 (by simp [bytesLE])
  have h2 := Memory.read_writeBytes a (bytesLE v) h 2 (by simp [bytesLE])
  have h3 := Memory.read_writeBytes a (bytesLE v) h 3 (by simp [bytesLE])
  simp only [Nat.add_zero] at h0
  simp only [Memory.read32LE, Memory.write32LE, h0, h1, h2, h3]
  simp only [bytesLE, List.getElem_cons_zero, List.getElem_cons_succ]
  ext i hi
  simp only [BitVec.getElem_append, BitVec.getElem_extractLsb']
  split
  · simp [BitVec.getElem_eq_testBit_toNat, BitVec.getLsbD]
  · split
    · rw [BitVec.getElem_eq_testBit_toNat, BitVec.getLsbD]; congr 1; omega
    · split
      · rw [BitVec.getElem_eq_testBit_toNat, BitVec.getLsbD]; congr 1; omega
      · rw [BitVec.getElem_eq_testBit_toNat, BitVec.getLsbD]; congr 1; omega

/-- A u32 written leaves every byte outside its four alone. -/
theorem Memory.read_write32LE_other (m : Memory) (a b : Nat) (v : Word) (h : b < a ∨ a + 4 ≤ b) :
    Memory.read (Memory.write32LE m a v) b = Memory.read m b :=
  Memory.read_writeBytes_other m a b (bytesLE v) (by simpa [bytesLE] using h)

end Sys2Proof.Machine
end

