-- ==== Sys2Proof/Laws/Cursor.lean ====
section
/-! SUPPORT. What the cursor primitives do: the binding never changes, a position advances by the bits taken, and every operation that writes MEM keeps its canonical form. -/

namespace Sys2Proof.Machine

/-! ### Cursors -/

@[simp] theorem Cursor.advance_base (c : Cursor) (k : Nat) : (c.advance k).base = c.base := rfl
@[simp] theorem Cursor.advance_len (c : Cursor) (k : Nat) : (c.advance k).len = c.len := rfl
@[simp] theorem Cursor.seek_base (c : Cursor) (b : Word) (o : BitVec 3) : (c.seek b o).base = c.base := rfl
@[simp] theorem Cursor.seek_len (c : Cursor) (b : Word) (o : BitVec 3) : (c.seek b o).len = c.len := rfl

/-- The bit offset is below 8. -/
theorem Cursor.bitOff_lt (c : Cursor) : c.bitOff.toNat < 8 := c.bitOff.isLt

/-- The position tells the byte and bit offsets (00 R9). -/
theorem Cursor.pos_div (c : Cursor) : c.pos / 8 = c.byteOff.toNat := by
  have := c.bitOff_lt
  simp only [Cursor.pos]; omega

theorem Cursor.pos_mod (c : Cursor) : c.pos % 8 = c.bitOff.toNat := by
  have := c.bitOff_lt
  simp only [Cursor.pos]; omega

/-- A position whose byte offset is a u32 is the position moved to. -/
theorem Cursor.moveTo_pos (c : Cursor) {p : Nat} (h : p < 8 * u32Limit) : (c.moveTo p).pos = p := by
  simp only [u32Limit] at h
  have h1 : p / 8 % 2 ^ 32 = p / 8 := Nat.mod_eq_of_lt (by omega)
  simp only [Cursor.moveTo, Cursor.pos, u32, BitVec.toNat_ofNat, h1]
  omega

/-- Advancing by `k` bits adds `k` to the position (40 R119), as long as it stays a u32 byte offset. -/
theorem Cursor.advance_pos (c : Cursor) {k : Nat} (h : c.pos + k < 8 * u32Limit) : (c.advance k).pos = c.pos + k :=
  Cursor.moveTo_pos c h

/-- Bits that fit end inside the buffer, so the position after them is a u32 byte offset. -/
theorem Cursor.fits_bound {c : Cursor} {n : Nat} (h : c.fits n = true) (hn : n ≠ 0) : c.pos + n < 8 * u32Limit := by
  have hl := c.len.isLt
  simp only [Cursor.fits, Bool.or_eq_true, beq_iff_eq, hn, decide_eq_true_eq, false_or] at h
  simp only [u32Limit]; omega

/-- Two advances are one. -/
theorem Cursor.advance_advance (c : Cursor) {j k : Nat} (h : c.pos + j < 8 * u32Limit) :
    (c.advance j).advance k = c.advance (j + k) := by
  have := Cursor.advance_pos c h
  simp only [Cursor.advance] at this ⊢
  simp only [this, Nat.add_assoc]
  rfl

@[simp] theorem getBit_snd (m : Memory) (c : Cursor) : (getBit m c).2 = c.advance 1 := rfl
@[simp] theorem putBit_snd (m : Memory) (c : Cursor) (v : Bool) : (putBit m c v).2 = c.advance 1 := rfl

/-! ### The binding of a cursor outlives every primitive -/

theorem putChunks_binding (v : Word) (fuel r : Nat) (m : Memory) (c : Cursor) :
    (putChunks v fuel r m c).2.base = c.base ∧ (putChunks v fuel r m c).2.len = c.len := by
  induction fuel generalizing r m c with
  | zero => exact ⟨rfl, rfl⟩
  | succ fuel ih =>
    unfold putChunks
    split
    · exact ⟨rfl, rfl⟩
    · exact ih _ _ _

theorem getBits_binding (m : Memory) (n : Nat) (v : Byte) (c : Cursor) :
    (getBits m n v c).2.base = c.base ∧ (getBits m n v c).2.len = c.len := by
  induction n generalizing v c with
  | zero => exact ⟨rfl, rfl⟩
  | succ n ih => exact ih _ _

/-! ### The canonical form of MEM -/

theorem wf_putBit {m : Memory} (c : Cursor) (v : Bool) (h : Memory.wf m = true) :
    Memory.wf (putBit m c v).1 = true :=
  Memory.wf_write _ _ h

theorem wf_putChunks {m : Memory} (v : Word) (fuel r : Nat) (c : Cursor) (h : Memory.wf m = true) :
    Memory.wf (putChunks v fuel r m c).1 = true := by
  induction fuel generalizing r m c with
  | zero => exact h
  | succ fuel ih =>
    unfold putChunks
    split
    · exact h
    · exact ih _ _ (Memory.wf_write _ _ h)

theorem wf_putBits {m : Memory} (c : Cursor) (v : Word) (n : Nat) (h : Memory.wf m = true) :
    Memory.wf (putBits m c v n).1 = true :=
  wf_putChunks v n n c h

theorem wf_serialize (sh : Shape) {m : Memory} (c : Cursor) (h : Memory.wf m = true) :
    Memory.wf (sh.serialize m c).1 = true := by
  induction sh generalizing m c with
  | leaf v w => exact wf_putBits _ _ _ (wf_putBit c false h)
  | branch w l r ihl ihr => exact ihr _ (ihl _ (wf_putBit c true h))

theorem wf_encodeBytes (ms : Nat) (lut : LookupTable) (n src : Nat) {m : Memory} (c : Cursor)
    (h : Memory.wf m = true) : Memory.wf (encodeBytes ms lut n src m c).mem = true := by
  induction n generalizing src m c with
  | zero => exact h
  | succ n ih =>
    unfold encodeBytes
    split
    · exact h
    · dsimp only
      split
      · exact h
      · split
        · exact h
        · exact ih _ _ (wf_putBits c _ _ h)

theorem wf_decodeBytes (ms : Nat) (sh : Shape) (n out : Nat) {m : Memory} (c : Cursor)
    (h : Memory.wf m = true) : Memory.wf (decodeBytes ms sh n out m c).mem = true := by
  induction n generalizing out m c with
  | zero => exact h
  | succ n ih =>
    unfold decodeBytes
    split
    · exact h
    · split
      · exact h
      · exact ih _ _ (Memory.wf_write _ _ h)

theorem wf_writeDirectory {m : Memory} (a : Nat) (ds : List Desc) (h : Memory.wf m = true) :
    Memory.wf (writeDirectory m a ds) = true := by
  induction ds generalizing m a with
  | nil => exact h
  | cons d ds ih => exact ih _ (Memory.wf_write32LE _ _ (Memory.wf_write32LE _ _ (Memory.wf_write32LE _ _ h)))

theorem wf_writeHeader {m : Memory} (a : Nat) (p : Plan) (h : Memory.wf m = true) :
    Memory.wf (writeHeader m a p) = true :=
  wf_writeDirectory _ _ (Memory.wf_write32LE _ _ (Memory.wf_write32LE _ _ (Memory.wf_write32LE _ _
    (Memory.wf_write32LE _ _ h))))

end Sys2Proof.Machine
end

