-- ==== Sys2Proof/Laws/Encoding.lean ====
section
/-! SUPPORT. The command word and its fields (30 R90): putting the fields together and reading them out are inverse. -/

namespace Sys2Proof

/-- A field that lies in the lower part of a concatenation. -/
theorem extract_append_low {n m : Nat} (x : BitVec n) (y : BitVec m) (i k : Nat) (h : i + k ≤ m) :
    (x ++ y).extractLsb' i k = y.extractLsb' i k := by
  ext j hj
  have : i + j < m := by omega
  simp [BitVec.getElem_extractLsb', BitVec.getLsbD_append, this]

/-- A field that lies in the upper part of a concatenation. -/
theorem extract_append_high {n m : Nat} (x : BitVec n) (y : BitVec m) (i k : Nat) (h : m ≤ i) :
    (x ++ y).extractLsb' i k = x.extractLsb' (i - m) k := by
  ext j hj
  have h1 : ¬ i + j < m := by omega
  have h2 : i + j - m = i - m + j := by omega
  simp [BitVec.getElem_extractLsb', BitVec.getLsbD_append, h1, h2]

/-- The fields read out of a word are those it was put together from. -/
theorem fieldsOf_word (f : Fields) : fieldsOf f.word = f := by
  obtain ⟨opc, ctx, rsv15, n, rsv23, bit, rsv31, imm⟩ := f
  simp only [fieldsOf, Fields.word, Fields.mk.injEq]
  refine ⟨?_, ?_, ?_, ?_, ?_, ?_, ?_, ?_⟩
  · rw [extract_append_low _ _ _ _ (by omega)]; exact BitVec.extractLsb'_eq_self
  · iterate 1 rw [extract_append_high _ _ _ _ (by omega)]
    rw [extract_append_low _ _ _ _ (by omega)]; exact BitVec.extractLsb'_eq_self
  · iterate 2 rw [extract_append_high _ _ _ _ (by omega)]
    rw [extract_append_low _ _ _ _ (by omega)]; exact BitVec.extractLsb'_eq_self
  · iterate 3 rw [extract_append_high _ _ _ _ (by omega)]
    rw [extract_append_low _ _ _ _ (by omega)]; exact BitVec.extractLsb'_eq_self
  · iterate 4 rw [extract_append_high _ _ _ _ (by omega)]
    rw [extract_append_low _ _ _ _ (by omega)]; exact BitVec.extractLsb'_eq_self
  · iterate 5 rw [extract_append_high _ _ _ _ (by omega)]
    rw [extract_append_low _ _ _ _ (by omega)]; exact BitVec.extractLsb'_eq_self
  · iterate 6 rw [extract_append_high _ _ _ _ (by omega)]
    rw [extract_append_low _ _ _ _ (by omega)]; exact BitVec.extractLsb'_eq_self
  · iterate 7 rw [extract_append_high _ _ _ _ (by omega)]
    exact BitVec.extractLsb'_eq_self

/-- Putting the fields of a word together gives the word back. -/
theorem word_fieldsOf (w : Cmd) : (fieldsOf w).word = w := by
  apply BitVec.eq_of_getLsbD_eq
  intro i hi
  simp only [fieldsOf, Fields.word, BitVec.getLsbD_append, BitVec.getLsbD_extractLsb']
  repeat' split
  all_goals (rw [show (decide _ = true) from by rw [decide_eq_true_eq]; omega, Bool.true_and]; congr 1; omega)

/-- Two words with the same fields are the same word. -/
theorem fieldsOf_injective {v w : Cmd} (h : fieldsOf v = fieldsOf w) : v = w := by
  rw [← word_fieldsOf v, ← word_fieldsOf w, h]

/-- What the decoder makes of a word put together from fields: the row of its opcode, then the checks of
30 R96 in turn. -/
theorem decode_word (f : Fields) :
    decode f.word =
      match opcodeRows.find? (fun r => r.opc == f.opc) with
      | none => .error .unassignedOpcode
      | some r =>
        if !f.reservedZero then .error .reservedField
        else if !f.unusedZero r.used then .error .unusedField
        else if r.used.ctx && !ctxExists f.ctx then .error .noSuchContext
        else .ok (r.build f) := by
  show (match opcodeRows.find? (fun r => r.opc == (fieldsOf f.word).opc) with | none => _ | some r => _) = _
  rw [fieldsOf_word]

end Sys2Proof
end

