-- ==== Sys2Proof/Laws/State.lean ====
section
/-! SUPPORT. One lemma per field per named update of State, true by rfl, so that no proof unfolds a record update. -/

namespace Sys2Proof.Machine

variable (s : State)

section
variable (x : Regs)
@[simp] theorem State.setRegs_regs : (s.setRegs x).regs = x := rfl
@[simp] theorem State.setRegs_ctx : (s.setRegs x).ctx = s.ctx := rfl
@[simp] theorem State.setRegs_plan : (s.setRegs x).plan = s.plan := rfl
@[simp] theorem State.setRegs_limiter : (s.setRegs x).limiter = s.limiter := rfl
@[simp] theorem State.setRegs_controller : (s.setRegs x).controller = s.controller := rfl
@[simp] theorem State.setRegs_jobs : (s.setRegs x).jobs = s.jobs := rfl
@[simp] theorem State.setRegs_mem : (s.setRegs x).mem = s.mem := rfl
@[simp] theorem State.setRegs_params : (s.setRegs x).params = s.params := rfl
@[simp] theorem State.setRegs_inputs : (s.setRegs x).inputs = s.inputs := rfl
@[simp] theorem State.setRegs_sched : (s.setRegs x).sched = s.sched := rfl
@[simp] theorem State.setRegs_draws : (s.setRegs x).draws = s.draws := rfl
@[simp] theorem State.setRegs_hostRead : (s.setRegs x).hostRead = s.hostRead := rfl
@[simp] theorem State.setRegs_turn : (s.setRegs x).turn = s.turn := rfl
end

section
variable (x : Vector Context 4)
@[simp] theorem State.setCtxs_regs : (s.setCtxs x).regs = s.regs := rfl
@[simp] theorem State.setCtxs_ctx : (s.setCtxs x).ctx = x := rfl
@[simp] theorem State.setCtxs_plan : (s.setCtxs x).plan = s.plan := rfl
@[simp] theorem State.setCtxs_limiter : (s.setCtxs x).limiter = s.limiter := rfl
@[simp] theorem State.setCtxs_controller : (s.setCtxs x).controller = s.controller := rfl
@[simp] theorem State.setCtxs_jobs : (s.setCtxs x).jobs = s.jobs := rfl
@[simp] theorem State.setCtxs_mem : (s.setCtxs x).mem = s.mem := rfl
@[simp] theorem State.setCtxs_params : (s.setCtxs x).params = s.params := rfl
@[simp] theorem State.setCtxs_inputs : (s.setCtxs x).inputs = s.inputs := rfl
@[simp] theorem State.setCtxs_sched : (s.setCtxs x).sched = s.sched := rfl
@[simp] theorem State.setCtxs_draws : (s.setCtxs x).draws = s.draws := rfl
@[simp] theorem State.setCtxs_hostRead : (s.setCtxs x).hostRead = s.hostRead := rfl
@[simp] theorem State.setCtxs_turn : (s.setCtxs x).turn = s.turn := rfl
end

section
variable (x : Plan)
@[simp] theorem State.setPlan_regs : (s.setPlan x).regs = s.regs := rfl
@[simp] theorem State.setPlan_ctx : (s.setPlan x).ctx = s.ctx := rfl
@[simp] theorem State.setPlan_plan : (s.setPlan x).plan = x := rfl
@[simp] theorem State.setPlan_limiter : (s.setPlan x).limiter = s.limiter := rfl
@[simp] theorem State.setPlan_controller : (s.setPlan x).controller = s.controller := rfl
@[simp] theorem State.setPlan_jobs : (s.setPlan x).jobs = s.jobs := rfl
@[simp] theorem State.setPlan_mem : (s.setPlan x).mem = s.mem := rfl
@[simp] theorem State.setPlan_params : (s.setPlan x).params = s.params := rfl
@[simp] theorem State.setPlan_inputs : (s.setPlan x).inputs = s.inputs := rfl
@[simp] theorem State.setPlan_sched : (s.setPlan x).sched = s.sched := rfl
@[simp] theorem State.setPlan_draws : (s.setPlan x).draws = s.draws := rfl
@[simp] theorem State.setPlan_hostRead : (s.setPlan x).hostRead = s.hostRead := rfl
@[simp] theorem State.setPlan_turn : (s.setPlan x).turn = s.turn := rfl
end

section
variable (x : Limiter)
@[simp] theorem State.setLimiter_regs : (s.setLimiter x).regs = s.regs := rfl
@[simp] theorem State.setLimiter_ctx : (s.setLimiter x).ctx = s.ctx := rfl
@[simp] theorem State.setLimiter_plan : (s.setLimiter x).plan = s.plan := rfl
@[simp] theorem State.setLimiter_limiter : (s.setLimiter x).limiter = x := rfl
@[simp] theorem State.setLimiter_controller : (s.setLimiter x).controller = s.controller := rfl
@[simp] theorem State.setLimiter_jobs : (s.setLimiter x).jobs = s.jobs := rfl
@[simp] theorem State.setLimiter_mem : (s.setLimiter x).mem = s.mem := rfl
@[simp] theorem State.setLimiter_params : (s.setLimiter x).params = s.params := rfl
@[simp] theorem State.setLimiter_inputs : (s.setLimiter x).inputs = s.inputs := rfl
@[simp] theorem State.setLimiter_sched : (s.setLimiter x).sched = s.sched := rfl
@[simp] theorem State.setLimiter_draws : (s.setLimiter x).draws = s.draws := rfl
@[simp] theorem State.setLimiter_hostRead : (s.setLimiter x).hostRead = s.hostRead := rfl
@[simp] theorem State.setLimiter_turn : (s.setLimiter x).turn = s.turn := rfl
end

section
variable (x : Controller)
@[simp] theorem State.setController_regs : (s.setController x).regs = s.regs := rfl
@[simp] theorem State.setController_ctx : (s.setController x).ctx = s.ctx := rfl
@[simp] theorem State.setController_plan : (s.setController x).plan = s.plan := rfl
@[simp] theorem State.setController_limiter : (s.setController x).limiter = s.limiter := rfl
@[simp] theorem State.setController_controller : (s.setController x).controller = x := rfl
@[simp] theorem State.setController_jobs : (s.setController x).jobs = s.jobs := rfl
@[simp] theorem State.setController_mem : (s.setController x).mem = s.mem := rfl
@[simp] theorem State.setController_params : (s.setController x).params = s.params := rfl
@[simp] theorem State.setController_inputs : (s.setController x).inputs = s.inputs := rfl
@[simp] theorem State.setController_sched : (s.setController x).sched = s.sched := rfl
@[simp] theorem State.setController_draws : (s.setController x).draws = s.draws := rfl
@[simp] theorem State.setController_hostRead : (s.setController x).hostRead = s.hostRead := rfl
@[simp] theorem State.setController_turn : (s.setController x).turn = s.turn := rfl
end

section
variable (x : List Job)
@[simp] theorem State.setJobs_regs : (s.setJobs x).regs = s.regs := rfl
@[simp] theorem State.setJobs_ctx : (s.setJobs x).ctx = s.ctx := rfl
@[simp] theorem State.setJobs_plan : (s.setJobs x).plan = s.plan := rfl
@[simp] theorem State.setJobs_limiter : (s.setJobs x).limiter = s.limiter := rfl
@[simp] theorem State.setJobs_controller : (s.setJobs x).controller = s.controller := rfl
@[simp] theorem State.setJobs_jobs : (s.setJobs x).jobs = x := rfl
@[simp] theorem State.setJobs_mem : (s.setJobs x).mem = s.mem := rfl
@[simp] theorem State.setJobs_params : (s.setJobs x).params = s.params := rfl
@[simp] theorem State.setJobs_inputs : (s.setJobs x).inputs = s.inputs := rfl
@[simp] theorem State.setJobs_sched : (s.setJobs x).sched = s.sched := rfl
@[simp] theorem State.setJobs_draws : (s.setJobs x).draws = s.draws := rfl
@[simp] theorem State.setJobs_hostRead : (s.setJobs x).hostRead = s.hostRead := rfl
@[simp] theorem State.setJobs_turn : (s.setJobs x).turn = s.turn := rfl
end

section
variable (x : Memory)
@[simp] theorem State.setMem_regs : (s.setMem x).regs = s.regs := rfl
@[simp] theorem State.setMem_ctx : (s.setMem x).ctx = s.ctx := rfl
@[simp] theorem State.setMem_plan : (s.setMem x).plan = s.plan := rfl
@[simp] theorem State.setMem_limiter : (s.setMem x).limiter = s.limiter := rfl
@[simp] theorem State.setMem_controller : (s.setMem x).controller = s.controller := rfl
@[simp] theorem State.setMem_jobs : (s.setMem x).jobs = s.jobs := rfl
@[simp] theorem State.setMem_mem : (s.setMem x).mem = x := rfl
@[simp] theorem State.setMem_params : (s.setMem x).params = s.params := rfl
@[simp] theorem State.setMem_inputs : (s.setMem x).inputs = s.inputs := rfl
@[simp] theorem State.setMem_sched : (s.setMem x).sched = s.sched := rfl
@[simp] theorem State.setMem_draws : (s.setMem x).draws = s.draws := rfl
@[simp] theorem State.setMem_hostRead : (s.setMem x).hostRead = s.hostRead := rfl
@[simp] theorem State.setMem_turn : (s.setMem x).turn = s.turn := rfl
end

section
variable (x : List HostStep)
@[simp] theorem State.setInputs_regs : (s.setInputs x).regs = s.regs := rfl
@[simp] theorem State.setInputs_ctx : (s.setInputs x).ctx = s.ctx := rfl
@[simp] theorem State.setInputs_plan : (s.setInputs x).plan = s.plan := rfl
@[simp] theorem State.setInputs_limiter : (s.setInputs x).limiter = s.limiter := rfl
@[simp] theorem State.setInputs_controller : (s.setInputs x).controller = s.controller := rfl
@[simp] theorem State.setInputs_jobs : (s.setInputs x).jobs = s.jobs := rfl
@[simp] theorem State.setInputs_mem : (s.setInputs x).mem = s.mem := rfl
@[simp] theorem State.setInputs_params : (s.setInputs x).params = s.params := rfl
@[simp] theorem State.setInputs_inputs : (s.setInputs x).inputs = x := rfl
@[simp] theorem State.setInputs_sched : (s.setInputs x).sched = s.sched := rfl
@[simp] theorem State.setInputs_draws : (s.setInputs x).draws = s.draws := rfl
@[simp] theorem State.setInputs_hostRead : (s.setInputs x).hostRead = s.hostRead := rfl
@[simp] theorem State.setInputs_turn : (s.setInputs x).turn = s.turn := rfl
end

section
variable (x : List Nat)
@[simp] theorem State.setSched_regs : (s.setSched x).regs = s.regs := rfl
@[simp] theorem State.setSched_ctx : (s.setSched x).ctx = s.ctx := rfl
@[simp] theorem State.setSched_plan : (s.setSched x).plan = s.plan := rfl
@[simp] theorem State.setSched_limiter : (s.setSched x).limiter = s.limiter := rfl
@[simp] theorem State.setSched_controller : (s.setSched x).controller = s.controller := rfl
@[simp] theorem State.setSched_jobs : (s.setSched x).jobs = s.jobs := rfl
@[simp] theorem State.setSched_mem : (s.setSched x).mem = s.mem := rfl
@[simp] theorem State.setSched_params : (s.setSched x).params = s.params := rfl
@[simp] theorem State.setSched_inputs : (s.setSched x).inputs = s.inputs := rfl
@[simp] theorem State.setSched_sched : (s.setSched x).sched = x := rfl
@[simp] theorem State.setSched_draws : (s.setSched x).draws = s.draws := rfl
@[simp] theorem State.setSched_hostRead : (s.setSched x).hostRead = s.hostRead := rfl
@[simp] theorem State.setSched_turn : (s.setSched x).turn = s.turn := rfl
end

section
variable (x : Nat)
@[simp] theorem State.setDraws_regs : (s.setDraws x).regs = s.regs := rfl
@[simp] theorem State.setDraws_ctx : (s.setDraws x).ctx = s.ctx := rfl
@[simp] theorem State.setDraws_plan : (s.setDraws x).plan = s.plan := rfl
@[simp] theorem State.setDraws_limiter : (s.setDraws x).limiter = s.limiter := rfl
@[simp] theorem State.setDraws_controller : (s.setDraws x).controller = s.controller := rfl
@[simp] theorem State.setDraws_jobs : (s.setDraws x).jobs = s.jobs := rfl
@[simp] theorem State.setDraws_mem : (s.setDraws x).mem = s.mem := rfl
@[simp] theorem State.setDraws_params : (s.setDraws x).params = s.params := rfl
@[simp] theorem State.setDraws_inputs : (s.setDraws x).inputs = s.inputs := rfl
@[simp] theorem State.setDraws_sched : (s.setDraws x).sched = s.sched := rfl
@[simp] theorem State.setDraws_draws : (s.setDraws x).draws = x := rfl
@[simp] theorem State.setDraws_hostRead : (s.setDraws x).hostRead = s.hostRead := rfl
@[simp] theorem State.setDraws_turn : (s.setDraws x).turn = s.turn := rfl
end

section
variable (x : Word)
@[simp] theorem State.setHostRead_regs : (s.setHostRead x).regs = s.regs := rfl
@[simp] theorem State.setHostRead_ctx : (s.setHostRead x).ctx = s.ctx := rfl
@[simp] theorem State.setHostRead_plan : (s.setHostRead x).plan = s.plan := rfl
@[simp] theorem State.setHostRead_limiter : (s.setHostRead x).limiter = s.limiter := rfl
@[simp] theorem State.setHostRead_controller : (s.setHostRead x).controller = s.controller := rfl
@[simp] theorem State.setHostRead_jobs : (s.setHostRead x).jobs = s.jobs := rfl
@[simp] theorem State.setHostRead_mem : (s.setHostRead x).mem = s.mem := rfl
@[simp] theorem State.setHostRead_params : (s.setHostRead x).params = s.params := rfl
@[simp] theorem State.setHostRead_inputs : (s.setHostRead x).inputs = s.inputs := rfl
@[simp] theorem State.setHostRead_sched : (s.setHostRead x).sched = s.sched := rfl
@[simp] theorem State.setHostRead_draws : (s.setHostRead x).draws = s.draws := rfl
@[simp] theorem State.setHostRead_hostRead : (s.setHostRead x).hostRead = x := rfl
@[simp] theorem State.setHostRead_turn : (s.setHostRead x).turn = s.turn := rfl
end

section
variable (x : Agent)
@[simp] theorem State.setTurn_regs : (s.setTurn x).regs = s.regs := rfl
@[simp] theorem State.setTurn_ctx : (s.setTurn x).ctx = s.ctx := rfl
@[simp] theorem State.setTurn_plan : (s.setTurn x).plan = s.plan := rfl
@[simp] theorem State.setTurn_limiter : (s.setTurn x).limiter = s.limiter := rfl
@[simp] theorem State.setTurn_controller : (s.setTurn x).controller = s.controller := rfl
@[simp] theorem State.setTurn_jobs : (s.setTurn x).jobs = s.jobs := rfl
@[simp] theorem State.setTurn_mem : (s.setTurn x).mem = s.mem := rfl
@[simp] theorem State.setTurn_params : (s.setTurn x).params = s.params := rfl
@[simp] theorem State.setTurn_inputs : (s.setTurn x).inputs = s.inputs := rfl
@[simp] theorem State.setTurn_sched : (s.setTurn x).sched = s.sched := rfl
@[simp] theorem State.setTurn_draws : (s.setTurn x).draws = s.draws := rfl
@[simp] theorem State.setTurn_hostRead : (s.setTurn x).hostRead = s.hostRead := rfl
@[simp] theorem State.setTurn_turn : (s.setTurn x).turn = x := rfl
end

/-! ### The flag operations, field by field -/

@[simp] theorem State.begin_regs : (s.begin).regs = s.regs.issue := rfl
@[simp] theorem State.begin_ctx : (s.begin).ctx = s.ctx := rfl
@[simp] theorem State.begin_plan : (s.begin).plan = s.plan := rfl
@[simp] theorem State.begin_limiter : (s.begin).limiter = s.limiter := rfl
@[simp] theorem State.begin_controller : (s.begin).controller = s.controller := rfl
@[simp] theorem State.begin_jobs : (s.begin).jobs = s.jobs := rfl
@[simp] theorem State.begin_mem : (s.begin).mem = s.mem := rfl
@[simp] theorem State.begin_params : (s.begin).params = s.params := rfl
@[simp] theorem State.begin_inputs : (s.begin).inputs = s.inputs := rfl
@[simp] theorem State.begin_sched : (s.begin).sched = s.sched := rfl
@[simp] theorem State.begin_draws : (s.begin).draws = s.draws := rfl
@[simp] theorem State.begin_hostRead : (s.begin).hostRead = s.hostRead := rfl
@[simp] theorem State.begin_turn : (s.begin).turn = s.turn := rfl

@[simp] theorem State.complete_regs : (s.complete).regs = s.regs.complete := rfl
@[simp] theorem State.complete_ctx : (s.complete).ctx = s.ctx := rfl
@[simp] theorem State.complete_plan : (s.complete).plan = s.plan := rfl
@[simp] theorem State.complete_limiter : (s.complete).limiter = s.limiter := rfl
@[simp] theorem State.complete_controller : (s.complete).controller = s.controller := rfl
@[simp] theorem State.complete_jobs : (s.complete).jobs = s.jobs := rfl
@[simp] theorem State.complete_mem : (s.complete).mem = s.mem := rfl
@[simp] theorem State.complete_params : (s.complete).params = s.params := rfl
@[simp] theorem State.complete_inputs : (s.complete).inputs = s.inputs := rfl
@[simp] theorem State.complete_sched : (s.complete).sched = s.sched := rfl
@[simp] theorem State.complete_draws : (s.complete).draws = s.draws := rfl
@[simp] theorem State.complete_hostRead : (s.complete).hostRead = s.hostRead := rfl
@[simp] theorem State.complete_turn : (s.complete).turn = s.turn := rfl

@[simp] theorem State.raise_regs (e : FaultCode) (i : Word) : (s.raise e i).regs = s.regs.completeFault e i := rfl
@[simp] theorem State.raise_ctx (e : FaultCode) (i : Word) : (s.raise e i).ctx = s.ctx := rfl
@[simp] theorem State.raise_plan (e : FaultCode) (i : Word) : (s.raise e i).plan = s.plan := rfl
@[simp] theorem State.raise_limiter (e : FaultCode) (i : Word) : (s.raise e i).limiter = s.limiter := rfl
@[simp] theorem State.raise_controller (e : FaultCode) (i : Word) : (s.raise e i).controller = s.controller := rfl
@[simp] theorem State.raise_jobs (e : FaultCode) (i : Word) : (s.raise e i).jobs = s.jobs := rfl
@[simp] theorem State.raise_mem (e : FaultCode) (i : Word) : (s.raise e i).mem = s.mem := rfl
@[simp] theorem State.raise_params (e : FaultCode) (i : Word) : (s.raise e i).params = s.params := rfl
@[simp] theorem State.raise_inputs (e : FaultCode) (i : Word) : (s.raise e i).inputs = s.inputs := rfl
@[simp] theorem State.raise_sched (e : FaultCode) (i : Word) : (s.raise e i).sched = s.sched := rfl
@[simp] theorem State.raise_draws (e : FaultCode) (i : Word) : (s.raise e i).draws = s.draws := rfl
@[simp] theorem State.raise_hostRead (e : FaultCode) (i : Word) : (s.raise e i).hostRead = s.hostRead := rfl
@[simp] theorem State.raise_turn (e : FaultCode) (i : Word) : (s.raise e i).turn = s.turn := rfl

@[simp] theorem State.illegalCommand_regs : (s.illegalCommand).regs = s.regs.issue.completeFault .illegalCommand noBlock := rfl
@[simp] theorem State.illegalCommand_ctx : (s.illegalCommand).ctx = s.ctx := rfl
@[simp] theorem State.illegalCommand_plan : (s.illegalCommand).plan = s.plan := rfl
@[simp] theorem State.illegalCommand_limiter : (s.illegalCommand).limiter = s.limiter := rfl
@[simp] theorem State.illegalCommand_controller : (s.illegalCommand).controller = s.controller := rfl
@[simp] theorem State.illegalCommand_jobs : (s.illegalCommand).jobs = s.jobs := rfl
@[simp] theorem State.illegalCommand_mem : (s.illegalCommand).mem = s.mem := rfl
@[simp] theorem State.illegalCommand_params : (s.illegalCommand).params = s.params := rfl
@[simp] theorem State.illegalCommand_inputs : (s.illegalCommand).inputs = s.inputs := rfl
@[simp] theorem State.illegalCommand_sched : (s.illegalCommand).sched = s.sched := rfl
@[simp] theorem State.illegalCommand_draws : (s.illegalCommand).draws = s.draws := rfl
@[simp] theorem State.illegalCommand_hostRead : (s.illegalCommand).hostRead = s.hostRead := rfl
@[simp] theorem State.illegalCommand_turn : (s.illegalCommand).turn = s.turn := rfl

/-! ### The plan dropped, a context replaced, a job updated -/

@[simp] theorem State.dropPlan_regs : s.dropPlan.regs = s.regs := rfl
@[simp] theorem State.dropPlan_ctx : s.dropPlan.ctx = s.ctx := rfl
@[simp] theorem State.dropPlan_plan : s.dropPlan.plan = { s.plan with valid := false } := rfl
@[simp] theorem State.dropPlan_limiter : s.dropPlan.limiter = s.limiter := rfl
@[simp] theorem State.dropPlan_controller : s.dropPlan.controller = s.controller := rfl
@[simp] theorem State.dropPlan_jobs : s.dropPlan.jobs = s.jobs := rfl
@[simp] theorem State.dropPlan_mem : s.dropPlan.mem = s.mem := rfl
@[simp] theorem State.dropPlan_params : s.dropPlan.params = s.params := rfl
@[simp] theorem State.dropPlan_inputs : s.dropPlan.inputs = s.inputs := rfl
@[simp] theorem State.dropPlan_sched : s.dropPlan.sched = s.sched := rfl
@[simp] theorem State.dropPlan_draws : s.dropPlan.draws = s.draws := rfl
@[simp] theorem State.dropPlan_hostRead : s.dropPlan.hostRead = s.hostRead := rfl
@[simp] theorem State.dropPlan_turn : s.dropPlan.turn = s.turn := rfl

@[simp] theorem State.setCtx_regs (k : Fin 4) (x : Context) : (s.setCtx k x).regs = s.regs := rfl
@[simp] theorem State.setCtx_ctx (k : Fin 4) (x : Context) : (s.setCtx k x).ctx = s.ctx.set k x := rfl
@[simp] theorem State.setCtx_plan (k : Fin 4) (x : Context) : (s.setCtx k x).plan = s.plan := rfl
@[simp] theorem State.setCtx_limiter (k : Fin 4) (x : Context) : (s.setCtx k x).limiter = s.limiter := rfl
@[simp] theorem State.setCtx_controller (k : Fin 4) (x : Context) : (s.setCtx k x).controller = s.controller := rfl
@[simp] theorem State.setCtx_jobs (k : Fin 4) (x : Context) : (s.setCtx k x).jobs = s.jobs := rfl
@[simp] theorem State.setCtx_mem (k : Fin 4) (x : Context) : (s.setCtx k x).mem = s.mem := rfl
@[simp] theorem State.setCtx_params (k : Fin 4) (x : Context) : (s.setCtx k x).params = s.params := rfl
@[simp] theorem State.setCtx_inputs (k : Fin 4) (x : Context) : (s.setCtx k x).inputs = s.inputs := rfl
@[simp] theorem State.setCtx_sched (k : Fin 4) (x : Context) : (s.setCtx k x).sched = s.sched := rfl
@[simp] theorem State.setCtx_draws (k : Fin 4) (x : Context) : (s.setCtx k x).draws = s.draws := rfl
@[simp] theorem State.setCtx_hostRead (k : Fin 4) (x : Context) : (s.setCtx k x).hostRead = s.hostRead := rfl
@[simp] theorem State.setCtx_turn (k : Fin 4) (x : Context) : (s.setCtx k x).turn = s.turn := rfl

@[simp] theorem State.updateJob_regs (i : Nat) (f : Job → Job) : (s.updateJob i f).regs = s.regs := rfl
@[simp] theorem State.updateJob_ctx (i : Nat) (f : Job → Job) : (s.updateJob i f).ctx = s.ctx := rfl
@[simp] theorem State.updateJob_plan (i : Nat) (f : Job → Job) : (s.updateJob i f).plan = s.plan := rfl
@[simp] theorem State.updateJob_limiter (i : Nat) (f : Job → Job) : (s.updateJob i f).limiter = s.limiter := rfl
@[simp] theorem State.updateJob_controller (i : Nat) (f : Job → Job) : (s.updateJob i f).controller = s.controller := rfl
@[simp] theorem State.updateJob_jobs (i : Nat) (f : Job → Job) : (s.updateJob i f).jobs = s.jobs.map (fun j => if j.block = i then f j else j) := rfl
@[simp] theorem State.updateJob_mem (i : Nat) (f : Job → Job) : (s.updateJob i f).mem = s.mem := rfl
@[simp] theorem State.updateJob_params (i : Nat) (f : Job → Job) : (s.updateJob i f).params = s.params := rfl
@[simp] theorem State.updateJob_inputs (i : Nat) (f : Job → Job) : (s.updateJob i f).inputs = s.inputs := rfl
@[simp] theorem State.updateJob_sched (i : Nat) (f : Job → Job) : (s.updateJob i f).sched = s.sched := rfl
@[simp] theorem State.updateJob_draws (i : Nat) (f : Job → Job) : (s.updateJob i f).draws = s.draws := rfl
@[simp] theorem State.updateJob_hostRead (i : Nat) (f : Job → Job) : (s.updateJob i f).hostRead = s.hostRead := rfl
@[simp] theorem State.updateJob_turn (i : Nat) (f : Job → Job) : (s.updateJob i f).turn = s.turn := rfl

@[simp] theorem State.initLimiter_regs (p : Word) : (s.initLimiter p).regs = s.regs := rfl
@[simp] theorem State.initLimiter_ctx (p : Word) : (s.initLimiter p).ctx = s.ctx := rfl
@[simp] theorem State.initLimiter_plan (p : Word) : (s.initLimiter p).plan = s.plan := rfl
@[simp] theorem State.initLimiter_limiter (p : Word) : (s.initLimiter p).limiter = ⟨p, p⟩ := rfl
@[simp] theorem State.initLimiter_controller (p : Word) : (s.initLimiter p).controller = s.controller := rfl
@[simp] theorem State.initLimiter_jobs (p : Word) : (s.initLimiter p).jobs = s.jobs := rfl
@[simp] theorem State.initLimiter_mem (p : Word) : (s.initLimiter p).mem = s.mem := rfl
@[simp] theorem State.initLimiter_params (p : Word) : (s.initLimiter p).params = s.params := rfl
@[simp] theorem State.initLimiter_inputs (p : Word) : (s.initLimiter p).inputs = s.inputs := rfl
@[simp] theorem State.initLimiter_sched (p : Word) : (s.initLimiter p).sched = s.sched := rfl
@[simp] theorem State.initLimiter_draws (p : Word) : (s.initLimiter p).draws = s.draws := rfl
@[simp] theorem State.initLimiter_hostRead (p : Word) : (s.initLimiter p).hostRead = s.hostRead := rfl
@[simp] theorem State.initLimiter_turn (p : Word) : (s.initLimiter p).turn = s.turn := rfl

/-- Reading back a context just written. -/
@[simp] theorem State.setCtx_getElem_same (k : Fin 4) (x : Context) : (s.setCtx k x).ctx[k] = x := by
  simp [State.setCtx, State.setCtxs]

/-- The other contexts stay as they were. -/
theorem State.setCtx_getElem_other {k l : Fin 4} (x : Context) (h : l ≠ k) :
    (s.setCtx k x).ctx[l] = s.ctx[l] := by
  have : k.val ≠ l.val := fun e => h (Fin.ext e.symm)
  simp [State.setCtx, State.setCtxs, this]

/-! ### What issue and completion make of the flags (60 R224) -/

/-- Issue then completion without a fault leaves the registers as a successful command does. -/
theorem Regs.issue_complete (r : Regs) :
    r.issue.complete = { r with busy := false, done := true, fault := none, errInfo := 0#32 } := rfl

/-- Issue then a fault leaves the registers as a faulted command does. -/
theorem Regs.issue_completeFault (r : Regs) (e : FaultCode) (i : Word) :
    r.issue.completeFault e i = { r with busy := false, done := true, fault := some e, errInfo := i } := rfl

end Sys2Proof.Machine
end

