-- ==== Sys2Proof/Laws/Ops.lean ====
section
/-! SUPPORT. For each shared operation, once, everything it can do; the step's inversion over the three agents. -/

namespace Sys2Proof.Machine

/-! ### Ordered checks (60 R222) -/

/-- No check failed exactly when all hold. -/
theorem firstFailure_none {cs : List Check} : firstFailure cs = none ↔ ∀ c ∈ cs, c.holds = true := by
  induction cs with
  | nil => simp [firstFailure]
  | cons c cs ih =>
    by_cases h : c.holds = true
    · simp [firstFailure, h, ih]
    · simp [firstFailure, h]

/-- The fault reported is that of a check that fails while every one before it holds. -/
theorem firstFailure_some {cs : List Check} {e : FaultCode} (h : firstFailure cs = some e) :
    ∃ pre c post, cs = pre ++ c :: post ∧ (∀ d ∈ pre, d.holds = true) ∧ c.holds = false ∧ c.code = e := by
  induction cs with
  | nil => simp [firstFailure] at h
  | cons c cs ih =>
    by_cases hc : c.holds = true
    · simp only [firstFailure, hc, if_true] at h
      obtain ⟨pre, d, post, rfl, hp, hd, he⟩ := ih h
      exact ⟨c :: pre, d, post, rfl, by simpa [hc] using hp, hd, he⟩
    · simp only [firstFailure, hc] at h
      exact ⟨[], c, cs, rfl, by simp, by simpa using hc, by simpa using h⟩

/-! ### Host commands -/

/-- A host primitive command that goes on has either faulted and changed nothing but STATUS and ERRINFO,
or passed every check, had its effect and completed (60 R223, R224). -/
theorem State.primitive_next {s t : State} {cs : List Check} {f : State → Result State}
    (h : s.primitive cs f = .next t) :
    (∃ e, firstFailure cs = some e ∧ t = s.begin.raise e noBlock) ∨
    (firstFailure cs = none ∧ ∃ u, f s.begin = .next u ∧ t = u.complete) := by
  simp only [State.primitive] at h
  split at h
  · next e he => exact .inl ⟨e, he, by cases h; rfl⟩
  · next he =>
    split at h
    · next u hu => exact .inr ⟨he, u, hu, by cases h; rfl⟩
    · cases h
    · cases h

/-- With every check passed, a primitive command is its effect, completed. -/
theorem State.primitive_pass {s u : State} {cs : List Check} {f : State → Result State}
    (hc : firstFailure cs = none) (hf : f s.begin = .next u) : s.primitive cs f = .next u.complete := by
  simp only [State.primitive, hc, hf]

/-- With a failed check, a primitive command changes only the flags. -/
theorem State.primitive_fail {s : State} {cs : List Check} {f : State → Result State} {e : FaultCode}
    (hc : firstFailure cs = some e) : s.primitive cs f = .next (s.begin.raise e noBlock) := by
  simp only [State.primitive, hc]

/-- A context command names an existing context, or it is IllegalCommand (30 R93, R95). -/
theorem State.withContext_next {s t : State} {k : BitVec 4} {f : Fin 4 → Result State}
    (h : s.withContext k f = .next t) :
    (∃ hk : k.toNat < 4, f ⟨k.toNat, hk⟩ = .next t) ∨ (¬ k.toNat < 4 ∧ t = s.illegalCommand) := by
  simp only [State.withContext] at h
  split at h
  · next hk => exact .inl ⟨hk, h⟩
  · next hk => exact .inr ⟨hk, by cases h; rfl⟩

/-- An orchestration command's issue step: a failed check, or the command's own changes (43 R190). -/
theorem State.issueChecked_next {s t : State} {cs : List Check} {f : State → State}
    (h : s.issueChecked cs f = .next t) :
    (∃ e, firstFailure cs = some e ∧ t = s.raise e noBlock) ∨ (firstFailure cs = none ∧ t = f s) := by
  simp only [State.issueChecked] at h
  split at h
  · next e he => exact .inl ⟨e, he, by cases h; rfl⟩
  · next he => exact .inr ⟨he, by cases h; rfl⟩

/-! ### Micro-operations -/

/-- From the host a micro-operation is IllegalCommand (60 R221). -/
theorem State.microOp_host {s : State} {f : Result State} (h : s.turn = .host) :
    s.microOp f = .next s.illegalCommand := by
  simp only [State.microOp, h]

/-- From the controller or a job it has its own effect. -/
theorem State.microOp_core {s : State} {f : Result State} (h : s.turn ≠ .host) : s.microOp f = f := by
  cases ht : s.turn with
  | host => exact absurd ht h
  | controller => simp only [State.microOp, ht]
  | job i => simp only [State.microOp, ht]

/-- LACQ and LREL of job `i`, whose turn it is. -/
theorem State.currentJob_job {s : State} {i : Nat} {j : Job} {f : Nat → Job → Result State} (h : s.turn = .job i)
    (hj : s.job? i = some j) : s.currentJob f = f i j := by
  simp only [State.currentJob, State.microOp, h, hj]

/-- A body of job `i`. -/
theorem State.bodyJob_job {s : State} {i : Nat} {j : Job} {f : Job → Result State} (h : s.turn ≠ .host)
    (hj : s.job? i = some j) : s.bodyJob i f = f j := by
  simp only [State.bodyJob, State.microOp_core h, hj]

/-- A job found by its index has that index and is in JOBS. -/
theorem State.job?_some {s : State} {i : Nat} {j : Job} (h : s.job? i = some j) : j ∈ s.jobs ∧ j.block = i := by
  simp only [State.job?] at h
  exact ⟨List.mem_of_find?_eq_some h, by simpa using List.find?_some h⟩

/-! ### The scheduler (42 R174) -/

/-- A choice leaves the core as it is: only the schedule and the draw counter move. -/
theorem State.choose_snd (s : State) (k : Nat) :
    ∃ sc d, (s.choose k).2 = (s.setSched sc).setDraws d := by
  simp only [State.choose]
  split
  · next c rest _ => exact ⟨rest, s.draws, rfl⟩
  · split
    · exact ⟨s.sched, s.draws, rfl⟩
    · exact ⟨s.sched, s.draws + 1, rfl⟩

/-- What the scheduler picks is enabled. -/
theorem State.pick_some {s t : State} {a : Agent} (h : s.pick = some (a, t)) :
    a ∈ s.enabled ∧ ∃ sc d, t = (s.setSched sc).setDraws d := by
  simp only [State.pick] at h
  split at h
  · cases h
  · next b as heq =>
    simp only [Option.some.injEq, Prod.mk.injEq] at h
    obtain ⟨ha, ht⟩ := h
    refine ⟨?_, ?_⟩
    · rw [heq, ← ha]
      by_cases hn : (s.choose (as.length + 1)).1 < (b :: as).length
      · rw [List.getD_eq_getElem?_getD, List.getElem?_eq_getElem hn]
        exact List.getElem_mem hn
      · rw [List.getD_eq_getElem?_getD, List.getElem?_eq_none (by omega)]
        exact List.mem_cons_self
    · obtain ⟨sc, d, hs⟩ := s.choose_snd (as.length + 1)
      exact ⟨sc, d, by rw [← ht, hs]⟩

/-- A step that goes on is idle, or is one of the host's, the controller's or a job's. -/
theorem step_next {s t : State} (h : step s = .next t) :
    (s.pick = none ∧ t = s) ∨
    ∃ u, (s.pick = some (.host, u) ∧ (u.setTurn .host).runHost = .next t) ∨
      (s.pick = some (.controller, u) ∧ (u.setTurn .controller).join = .next t) ∨
      ∃ i, s.pick = some (.job i, u) ∧ (u.setTurn (.job i)).runJob i = .next t := by
  simp only [step] at h
  split at h
  · next hp => exact .inl ⟨hp, by cases h; rfl⟩
  · next a u hp =>
    refine .inr ⟨u, ?_⟩
    cases a with
    | host => exact .inl ⟨hp, h⟩
    | controller => exact .inr (.inl ⟨hp, h⟩)
    | job i => exact .inr (.inr ⟨i, hp, h⟩)

/-- A job that goes on has finished and waits for the join, or ran the micro-operation of its program. -/
theorem State.runJob_next {s t : State} {i : Nat} (h : s.runJob i = .next t) :
    ∃ j, s.job? i = some j ∧
      ((j.word? = none ∧ t = s) ∨
        ∃ w op, j.word? = some w ∧ decode w = .ok op ∧ op.isMicroOp = true ∧ exec op s = .next t) := by
  simp only [State.runJob] at h
  split at h
  · cases h
  · next j hj =>
    refine ⟨j, hj, ?_⟩
    split at h
    · next hw => exact .inl ⟨hw, by cases h; rfl⟩
    · next w hw =>
      split at h
      · cases h
      · next op hop =>
        split at h
        · next hm => exact .inr ⟨w, op, hw, hop, hm, h⟩
        · cases h

/-- With no live source range no command is a store to one: nothing is refused for 20 R75 then. -/
@[simp] theorem State.storesToLiveSource_not_live {s : State} (i : Instr) (h : s.sourceLive = false) :
    s.storesToLiveSource i = false := by simp [State.storesToLiveSource, h]

/-- The commands that can be a store to a live source: WBIT, WBITS and TWRITE of an existing context (20 R75). -/
theorem State.storesToLiveSource_cases {s : State} {i : Instr} (h : s.storesToLiveSource i = true) :
    s.sourceLive = true ∧
      ∃ k : BitVec 4, k.toNat < 4 ∧ ((∃ v, i = .wbit k v) ∨ (∃ v n, i = .wbits k v n) ∨ i = .twrite k) := by
  simp only [State.storesToLiveSource, Bool.and_eq_true] at h
  refine ⟨h.1, ?_⟩
  cases i with
  | wbit k v => exact ⟨k, Decidable.of_not_not fun hk => by simp [hk] at h, .inl ⟨v, rfl⟩⟩
  | wbits k v n => exact ⟨k, Decidable.of_not_not fun hk => by simp [hk] at h, .inr (.inl ⟨v, n, rfl⟩)⟩
  | twrite k => exact ⟨k, Decidable.of_not_not fun hk => by simp [hk] at h, .inr (.inr rfl)⟩
  | _ => simp at h

/-- A store to the source, when its checks pass, has a byte of the source among those it touches (40 R119). -/
theorem State.storesToSource_iff {s : State} {cs : List Check} {c : Cursor} {n : Nat} :
    s.storesToSource cs c n = true ↔ firstFailure cs = none ∧ n ≠ 0 ∧
      ∃ a, c.touches n a = true ∧ inRange a s.plan.srcBase.toNat s.plan.srcSize.toNat = true := by
  simp only [State.storesToSource, Cursor.touches, inRange, overlap, Bool.and_eq_true, bne_iff_ne, beq_iff_eq,
    decide_eq_true_eq, and_assoc]
  refine and_congr_right fun _ => and_congr_right fun hn => ?_
  have : c.addrOf 0 ≤ c.addrOf (n - 1) := by simp only [Cursor.addrOf]; omega
  constructor
  · rintro ⟨_, _, _, _⟩
    exact ⟨max (c.addrOf 0) s.plan.srcBase.toNat, hn, by omega, by omega, by omega, by omega⟩
  · rintro ⟨a, _, _, _, _, _⟩
    omega

/-- An issued word is IllegalCommand or runs its command, which stores to no live source (30 R95, 20 R75). -/
theorem State.issue_next {s t : State} (h : s.issue = .next t) :
    (∃ e, decode (commandWord s.regs.cmdHi s.regs.cmdLo) = .error e ∧ t = s.illegalCommand) ∨
    ∃ i, decode (commandWord s.regs.cmdHi s.regs.cmdLo) = .ok i ∧ s.storesToLiveSource i = false ∧
      exec i s = .next t := by
  simp only [State.issue] at h
  split at h
  · next e he => exact .inl ⟨e, he, by cases h; rfl⟩
  · next i hi =>
    split at h
    · cases h
    · next hl => exact .inr ⟨i, hi, by simpa using hl, h⟩

end Sys2Proof.Machine
end

