-- ==== Sys2Proof/Laws/PerInstr.lean ====
section
/-! SUPPORT. The per-instruction lemmas: decoding the encoding of a well-formed command gives it back (30 R90, R92, R94, R98). -/

namespace Sys2Proof.Laws.RoundTrip

/-- The round trip of one command. -/
def Statement (i : Instr) : Prop := i.wf = true → Sys2Proof.decode (Sys2Proof.encode i) = .ok i

theorem wbind (k : BitVec 4) : Statement (.wbind k) := by
  intro h
  simp only [Instr.wf, Instr.context?] at h
  simp [Sys2Proof.encode, decode_word, opcodeRows, cursorRows, Fields.reservedZero, Fields.unusedZero, h]

theorem wseek (k : BitVec 4) (b : Word) (x : BitVec 3) : Statement (.wseek k b x) := by
  intro h
  simp only [Instr.wf, Instr.context?] at h
  simp [Sys2Proof.encode, decode_word, opcodeRows, cursorRows, Fields.reservedZero, Fields.unusedZero, h, immAll]

theorem wtell (k : BitVec 4) : Statement (.wtell k) := by
  intro h
  simp only [Instr.wf, Instr.context?] at h
  simp [Sys2Proof.encode, decode_word, opcodeRows, cursorRows, Fields.reservedZero, Fields.unusedZero, h]

theorem wbit (k : BitVec 4) (v : Bool) : Statement (.wbit k v) := by
  intro h
  simp only [Instr.wf, Instr.context?] at h
  cases v <;>
    simp [Sys2Proof.encode, decode_word, opcodeRows, cursorRows, Fields.reservedZero, Fields.unusedZero, h]

theorem wbits (k : BitVec 4) (v : Word) (n : BitVec 6) : Statement (.wbits k v n) := by
  intro h
  simp only [Instr.wf, Instr.context?] at h
  simp [Sys2Proof.encode, decode_word, opcodeRows, cursorRows, Fields.reservedZero, Fields.unusedZero, h, immAll]

theorem rbind (k : BitVec 4) : Statement (.rbind k) := by
  intro h
  simp only [Instr.wf, Instr.context?] at h
  simp [Sys2Proof.encode, decode_word, opcodeRows, cursorRows, Fields.reservedZero, Fields.unusedZero, h]

theorem rseek (k : BitVec 4) (b : Word) (x : BitVec 3) : Statement (.rseek k b x) := by
  intro h
  simp only [Instr.wf, Instr.context?] at h
  simp [Sys2Proof.encode, decode_word, opcodeRows, cursorRows, Fields.reservedZero, Fields.unusedZero, h, immAll]

theorem rtell (k : BitVec 4) : Statement (.rtell k) := by
  intro h
  simp only [Instr.wf, Instr.context?] at h
  simp [Sys2Proof.encode, decode_word, opcodeRows, cursorRows, Fields.reservedZero, Fields.unusedZero, h]

theorem rbit (k : BitVec 4) : Statement (.rbit k) := by
  intro h
  simp only [Instr.wf, Instr.context?] at h
  simp [Sys2Proof.encode, decode_word, opcodeRows, cursorRows, Fields.reservedZero, Fields.unusedZero, h]

theorem rbyte (k : BitVec 4) : Statement (.rbyte k) := by
  intro h
  simp only [Instr.wf, Instr.context?] at h
  simp [Sys2Proof.encode, decode_word, opcodeRows, cursorRows, Fields.reservedZero, Fields.unusedZero, h]

theorem tcreate (k : BitVec 4) : Statement (.tcreate k) := by
  intro h
  simp only [Instr.wf, Instr.context?] at h
  simp [Sys2Proof.encode, decode_word, opcodeRows, cursorRows, treeRows, Fields.reservedZero, Fields.unusedZero, h]

theorem twrite (k : BitVec 4) : Statement (.twrite k) := by
  intro h
  simp only [Instr.wf, Instr.context?] at h
  simp [Sys2Proof.encode, decode_word, opcodeRows, cursorRows, treeRows, Fields.reservedZero, Fields.unusedZero, h]

theorem tread (k : BitVec 4) : Statement (.tread k) := by
  intro h
  simp only [Instr.wf, Instr.context?] at h
  simp [Sys2Proof.encode, decode_word, opcodeRows, cursorRows, treeRows, Fields.reservedZero, Fields.unusedZero, h]

theorem tlookup (k : BitVec 4) : Statement (.tlookup k) := by
  intro h
  simp only [Instr.wf, Instr.context?] at h
  simp [Sys2Proof.encode, decode_word, opcodeRows, cursorRows, treeRows, Fields.reservedZero, Fields.unusedZero, h]

theorem tbitcount (k : BitVec 4) : Statement (.tbitcount k) := by
  intro h
  simp only [Instr.wf, Instr.context?] at h
  simp [Sys2Proof.encode, decode_word, opcodeRows, cursorRows, treeRows, Fields.reservedZero, Fields.unusedZero, h]

theorem tcroot (k : BitVec 4) : Statement (.tcroot k) := by
  intro h
  simp only [Instr.wf, Instr.context?] at h
  simp [Sys2Proof.encode, decode_word, opcodeRows, cursorRows, treeRows, Fields.reservedZero, Fields.unusedZero, h]

theorem tcisleaf (k : BitVec 4) : Statement (.tcisleaf k) := by
  intro h
  simp only [Instr.wf, Instr.context?] at h
  simp [Sys2Proof.encode, decode_word, opcodeRows, cursorRows, treeRows, Fields.reservedZero, Fields.unusedZero, h]

theorem tcvalue (k : BitVec 4) : Statement (.tcvalue k) := by
  intro h
  simp only [Instr.wf, Instr.context?] at h
  simp [Sys2Proof.encode, decode_word, opcodeRows, cursorRows, treeRows, Fields.reservedZero, Fields.unusedZero, h]

theorem tcleft (k : BitVec 4) : Statement (.tcleft k) := by
  intro h
  simp only [Instr.wf, Instr.context?] at h
  simp [Sys2Proof.encode, decode_word, opcodeRows, cursorRows, treeRows, Fields.reservedZero, Fields.unusedZero, h]

theorem tcright (k : BitVec 4) : Statement (.tcright k) := by
  intro h
  simp only [Instr.wf, Instr.context?] at h
  simp [Sys2Proof.encode, decode_word, opcodeRows, cursorRows, treeRows, Fields.reservedZero, Fields.unusedZero, h]

theorem prepc : Statement .prepc := by
  intro _
  simp [Sys2Proof.encode, decode_word, opcodeRows, cursorRows, treeRows, orchestrationRows, Fields.reservedZero, Fields.unusedZero]

theorem compress : Statement .compress := by
  intro _
  simp [Sys2Proof.encode, decode_word, opcodeRows, cursorRows, treeRows, orchestrationRows, Fields.reservedZero, Fields.unusedZero]

theorem prepd : Statement .prepd := by
  intro _
  simp [Sys2Proof.encode, decode_word, opcodeRows, cursorRows, treeRows, orchestrationRows, Fields.reservedZero, Fields.unusedZero]

theorem decompress : Statement .decompress := by
  intro _
  simp [Sys2Proof.encode, decode_word, opcodeRows, cursorRows, treeRows, orchestrationRows, Fields.reservedZero, Fields.unusedZero]

theorem linit (p : Word) : Statement (.linit p) := by
  intro _
  simp [Sys2Proof.encode, decode_word, opcodeRows, cursorRows, treeRows, orchestrationRows, microRows, Fields.reservedZero, Fields.unusedZero, immAll]

theorem lacq : Statement .lacq := by
  intro _
  simp [Sys2Proof.encode, decode_word, opcodeRows, cursorRows, treeRows, orchestrationRows, microRows, Fields.reservedZero, Fields.unusedZero]

theorem lrel : Statement .lrel := by
  intro _
  simp [Sys2Proof.encode, decode_word, opcodeRows, cursorRows, treeRows, orchestrationRows, microRows, Fields.reservedZero, Fields.unusedZero]

theorem analyze (i : Word) : Statement (.analyze i) := by
  intro _
  simp [Sys2Proof.encode, decode_word, opcodeRows, cursorRows, treeRows, orchestrationRows, microRows, Fields.reservedZero, Fields.unusedZero, immAll]

theorem encode (i : Word) : Statement (.encode i) := by
  intro _
  simp [Sys2Proof.encode, decode_word, opcodeRows, cursorRows, treeRows, orchestrationRows, microRows, Fields.reservedZero, Fields.unusedZero, immAll]

theorem decode (i : Word) : Statement (.decode i) := by
  intro _
  simp [Sys2Proof.encode, decode_word, opcodeRows, cursorRows, treeRows, orchestrationRows, microRows, Fields.reservedZero, Fields.unusedZero, immAll]

end Sys2Proof.Laws.RoundTrip
end

