-- ==== Sys2Proof/Laws/Tree.lean ====
section
/-! SUPPORT. Small laws of the tree algorithms (41): the ordered list of the merge loop, the shape of an arena, and what a serialization takes. -/

namespace Sys2Proof.Machine

/-! ### The ordered list (41 R142) -/

/-- An insertion adds one element. -/
@[simp] theorem insertByWeight_length (nodes : List Node) (n : Nat) (l : List Nat) :
    (insertByWeight nodes n l).length = l.length + 1 := by
  induction l with
  | nil => rfl
  | cons e l ih =>
    simp only [insertByWeight]
    split
    · rfl
    · simp [ih]

/-- What an insertion holds. -/
@[simp] theorem mem_insertByWeight (nodes : List Node) (n : Nat) (l : List Nat) (x : Nat) :
    x ∈ insertByWeight nodes n l ↔ x = n ∨ x ∈ l := by
  induction l with
  | nil => simp [insertByWeight]
  | cons e l ih =>
    simp only [insertByWeight]
    split
    · simp
    · simp only [List.mem_cons, ih]
      constructor
      · rintro (h | h | h) <;> simp [h]
      · rintro (h | h | h) <;> simp [h]

/-- An insertion permutes the list with its new element in front. -/
theorem insertByWeight_perm (nodes : List Node) (n : Nat) (l : List Nat) :
    (insertByWeight nodes n l).Perm (n :: l) := by
  induction l with
  | nil => exact .refl _
  | cons e l ih =>
    simp only [insertByWeight]
    split
    · exact .refl _
    · exact (ih.cons e).trans (.swap n e l)

/-! ### Shapes (41 R140) -/

/-- More fuel gives the same shape. -/
theorem shapeAt_succ {nodes : List Node} {fuel i : Nat} {sh : Shape} (h : shapeAt nodes fuel i = some sh) :
    shapeAt nodes (fuel + 1) i = some sh := by
  induction fuel generalizing i sh with
  | zero => simp [shapeAt] at h
  | succ fuel ih =>
    rw [shapeAt] at h ⊢
    split at h
    · cases h
    · next v w hn => simpa [hn] using h
    · next w l r hn =>
      split at h
      · next sl sr hl hr => simpa [hn, ih hl, ih hr] using h
      · cases h

/-- Nodes appended to an arena leave the shapes in it alone. -/
theorem shapeAt_append {nodes more : List Node} {fuel i : Nat} {sh : Shape} (h : shapeAt nodes fuel i = some sh) :
    shapeAt (nodes ++ more) fuel i = some sh := by
  induction fuel generalizing i sh with
  | zero => simp [shapeAt] at h
  | succ fuel ih =>
    rw [shapeAt] at h ⊢
    split at h
    · cases h
    · next v w hn => simpa [List.getElem?_append_left (List.getElem?_eq_some_iff.mp hn).1, hn] using h
    · next w l r hn =>
      split at h
      · next sl sr hl hr =>
        simpa [List.getElem?_append_left (List.getElem?_eq_some_iff.mp hn).1, hn, ih hl, ih hr] using h
      · cases h

/-! ### Serialization (41 R144, R157) -/

/-- The preorder has as many bits as TreeBits counts. -/
@[simp] theorem Shape.preorder_length (sh : Shape) : sh.preorder.length = sh.bits := by
  induction sh with
  | leaf v w => rfl
  | branch w l r hl hr => simp [Shape.preorder, Shape.bits, hl, hr]; omega

/-- Losing the weights changes no bit of a serialization. -/
@[simp] theorem Shape.unweighted_preorder (sh : Shape) : sh.unweighted.preorder = sh.preorder := by
  induction sh with
  | leaf v w => rfl
  | branch w l r hl hr => simp [Shape.unweighted, Shape.preorder, hl, hr]

/-- Losing the weights changes no depth. -/
@[simp] theorem Shape.unweighted_depth (sh : Shape) : sh.unweighted.depth = sh.depth := by
  induction sh with
  | leaf v w => rfl
  | branch w l r hl hr => simp [Shape.unweighted, Shape.depth, hl, hr]

/-- Losing the weights changes no size. -/
@[simp] theorem Shape.unweighted_size (sh : Shape) : sh.unweighted.size = sh.size := by
  induction sh with
  | leaf v w => rfl
  | branch w l r hl hr => simp [Shape.unweighted, Shape.size, hl, hr]

/-- A tree has at least one leaf value. -/
theorem Shape.values_ne_nil (sh : Shape) : sh.values ≠ [] := by
  induction sh with
  | leaf v w => simp [Shape.values]
  | branch w l r hl hr => simp [Shape.values, hl]

end Sys2Proof.Machine
end

