-- ==== Sys2Proof/Tests/Slice0.lean ====
section
/-! SUPPORT. Tests: the well-formedness smoke, words written out from 30 R90 and R94, single steps with results from the spec's vectors (95), and for every statement with hypotheses a state that meets them. -/

namespace Sys2Proof.Tests

open Sys2Proof Sys2Proof.Machine

/-! ## Small states -/

/-- The core after reset with 64 bytes of MEM and two hardware threads. -/
def base : State := State.resetWith { memSize := 64, hwParallelism := 2#32 }

/-- `base` with bytes from address 0 on. -/
def bytesAt0 (bs : List Byte) : State := { base with mem := Memory.writeBytes [] 0 bs }

/-- Bytes at 0 and both cursors of context 0 bound to the first `len` of them, at (b, o). -/
def cursorAt (bs : List Byte) (len : Nat) (b : Nat) (o : Nat) : State :=
  let c : Cursor := { base := 0#32, len := u32 len, byteOff := u32 b, bitOff := BitVec.ofNat 3 o }
  let s := bytesAt0 bs
  { s with ctx := s.ctx.set 0 { w := c, r := c } }

/-- A tree in context 0, with the traversal cursor at node `n` when `v`. -/
def treeAt (t : Tree) (v : Bool) (n : Nat) : State :=
  { base with ctx := base.ctx.set 0 { tree := t, tc := { valid := v, node := n } } }

/-- The tree of "AAB": leaves A (2) and B (1), the branch of weight 3 at index 2 with B on the left (41 R142). -/
def treeAAB : Tree := { built := true, nodes := [.leaf 0x41#8 2#32, .leaf 0x42#8 1#32, .branch 3#32 1 0], root := 2 }

/-- The tree of "A". -/
def treeA : Tree := { built := true, nodes := [.leaf 0x41#8 1#32], root := 0 }

/-- A step that goes on to a state with the property. -/
def goesTo (r : Result State) (p : State → Bool) : Bool :=
  match r with
  | .next t => p t
  | .fault _ => false
  | .refused _ => false

/-- The next state, or `base`. -/
def nextOf (r : Result State) : State :=
  match r with
  | .next t => t
  | .fault _ => base
  | .refused _ => base

/-- "A" at 0 as the input, [8, 64) as the destination, blocks of one byte. -/
def inputA : State :=
  let s := bytesAt0 [0x41#8]
  { s with regs := { s.regs with srcSize := 1#32, blockSize := 1#32, dstBase := 8#32, dstSize := 40#32 } }

/-- The plan of "A" with one-byte blocks: header 28, region 2, container 30 (43 R192). -/
def planA : Plan where
  valid := true
  kind := .c
  srcSize := 1#32
  inSize := 1#32
  outSize := 30#32
  blockSize := 1#32
  blockCount := 1#32
  headerSize := 28#32
  desc := [{ dsize := 1#32, csize := 2#32, offset := 0#32, tree := some treeA }]

/-- The plan of the container of "A" at 8 (43 R200). -/
def planD : Plan where
  valid := true
  kind := .d
  srcBase := 8#32
  srcSize := 30#32
  inSize := 30#32
  outSize := 1#32
  blockSize := 1#32
  blockCount := 1#32
  headerSize := 28#32
  desc := [{ dsize := 1#32, csize := 2#32, offset := 0#32 }]

/-- `inputA` with the compression plan held. -/
def planned : State := { inputA with plan := planA }

/-- After PREPC's issue: the analyze phase with one job. -/
def analyzing : State := nextOf (exec .prepc inputA)

/-- After COMPRESS's issue: the encode phase with one job. -/
def encoding : State := nextOf (exec .compress planned)

/-- The container of "A" at 8: header, one entry, the region 20 80 (20 R79 to R81). -/
def container : State :=
  { base with mem := Memory.writeBytes [] 8 [0x34#8, 0x12#8, 0#8, 0#8, 1#8, 0#8, 0#8, 0#8, 1#8, 0#8, 0#8, 0#8, 28#8, 0#8,
      0#8, 0#8, 1#8, 0#8, 0#8, 0#8, 2#8, 0#8, 0#8, 0#8, 0#8, 0#8, 0#8, 0#8, 0x20#8, 0x80#8] }

/-- `container` with the decompression plan held and [40, 64) as the destination. -/
def plannedD : State :=
  { container with plan := planD, regs := { container.regs with dstBase := 40#32, dstSize := 24#32 } }

/-- After DECOMPRESS's issue: the decode phase with one job. -/
def decoding : State := nextOf (exec .decompress plannedD)

/-- The only job of a phase at `pc`, holding a permit inside the program, with the turn its own. -/
def jobAt (s : State) (pc : Fin 4) (err : Option FaultCode) : State :=
  let held := pc == 1 || pc == 2
  { s with
    turn := .job 0
    limiter := { s.limiter with permits := if held then s.limiter.permits - 1#32 else s.limiter.permits }
    jobs := s.jobs.map (fun j => { j with pc := pc, holds := held, err := err }) }

/-- The analyze job with its result, ready for the join. -/
def analyzed : State :=
  { analyzing with jobs := analyzing.jobs.map (fun j =>
      { j with pc := 3, res := some { dsize := 1#32, csize := 2#32, tree := treeA } }) }

/-- A host command word in the command registers. -/
def withWord (w : Cmd) : State :=
  { base with regs := { base.regs with cmdHi := w.extractLsb' 32 32, cmdLo := w.extractLsb' 0 32 } }

/-! ## Well-formedness (30 R93) -/

theorem test_wf_context_three : (Instr.tcright 3#4).wf = true := by decide
theorem test_illformed_context_four : (Instr.wbind 4#4).wf = false := by decide
theorem test_illformed_context_fifteen : (Instr.wbits 15#4 0#32 1#6).wf = false := by decide
theorem test_wf_count_above_32 : (Instr.wbits 0#4 0#32 33#6).wf = true := by decide

/-! ## Decoding: words written out bit by bit, imm 00000bbb 00nnnnnn 0000cccc oooooooo (30 R90, R94; 95 section 2.1) -/

theorem test_decode_cursor_words :
    decode 0b0000000000000000000000000000000000000000000000000000000000000001#64 = .ok (.wbind 0#4) ∧
    decode 0b0000000000000000000000000000000000000101000000000000000000000010#64 = .ok (.wseek 0#4 0#32 5#3) ∧
    decode 0b0000000000000000000000000000000000000000000000000000000100000011#64 = .ok (.wtell 1#4) ∧
    decode 0b0000000000000000000000000000000100000000000000000000000000000100#64 = .ok (.wbit 0#4 true) ∧
    decode 0b0000000000000000000000000000010100000000000000110000000000000101#64 = .ok (.wbits 0#4 5#32 3#6) ∧
    decode 0b0000000000000000000000000000000000000000000000000000000100001001#64 = .ok (.rbind 1#4) ∧
    decode 0b0000000000000000000000000000011100000010000000000000001000001010#64 = .ok (.rseek 2#4 7#32 2#3) ∧
    decode 0b0000000000000000000000000000000000000000000000000000001000001011#64 = .ok (.rtell 2#4) ∧
    decode 0b0000000000000000000000000000000000000000000000000000001100001100#64 = .ok (.rbit 3#4) ∧
    decode 0b0000000000000000000000000000000000000000000000000000000000001101#64 = .ok (.rbyte 0#4) := by
  and_intros <;> rfl

theorem test_decode_tree_words :
    decode 0x0000000000000010#64 = .ok (.tcreate 0#4) ∧ decode 0x0000000000000011#64 = .ok (.twrite 0#4) ∧
    decode 0b0000000000000000000000000000000000000000000000000000000100010010#64 = .ok (.tread 1#4) ∧
    decode 0x0000000000000013#64 = .ok (.tlookup 0#4) ∧ decode 0x0000000000000014#64 = .ok (.tbitcount 0#4) ∧
    decode 0x0000000000000018#64 = .ok (.tcroot 0#4) ∧ decode 0x0000000000000119#64 = .ok (.tcisleaf 1#4) ∧
    decode 0x000000000000001A#64 = .ok (.tcvalue 0#4) ∧ decode 0x000000000000021B#64 = .ok (.tcleft 2#4) ∧
    decode 0b0000000000000000000000000000000000000000000000000000001100011100#64 = .ok (.tcright 3#4) := by
  and_intros <;> rfl

theorem test_decode_orchestration_words :
    decode 0b0000000000000000000000000000000000000000000000000000000000100000#64 = .ok .prepc ∧
    decode 0x0000000000000021#64 = .ok .compress ∧ decode 0x0000000000000022#64 = .ok .prepd ∧
    decode 0x0000000000000023#64 = .ok .decompress := by
  and_intros <;> rfl

theorem test_decode_micro_words :
    decode 0x0000000400000030#64 = .ok (.linit 4#32) ∧ decode 0x0000000000000031#64 = .ok .lacq ∧
    decode 0x0000000000000032#64 = .ok .lrel ∧
    decode 0b0000000000000000000000000000000100000000000000000000000000110011#64 = .ok (.analyze 1#32) ∧
    decode 0x0000000200000034#64 = .ok (.encode 2#32) ∧ decode 0x0000000300000035#64 = .ok (.decode 3#32) := by
  and_intros <;> rfl

theorem test_decode_rejects :
    decode 0x0000000200000004#64 = .error .unusedField ∧ decode 0x0000000008000002#64 = .error .reservedField ∧
    decode 0x0000000000211005#64 = .error .reservedField ∧ decode 0x0000000000000120#64 = .error .unusedField ∧
    decode 0x0000000000000401#64 = .error .noSuchContext ∧ decode 0x0000000000000006#64 = .error .unassignedOpcode := by
  and_intros <;> rfl

theorem test_encode_is_the_form_of_R90 : encode (.wseek 2#4 7#32 5#3) = formWord 0x02#8 2#4 0#6 5#3 7#32 := by decide

theorem test_table_masks : opcodeRows.map (fun r => (r.mnemonic, r.matchWord, r.mask)) = commandMasks := by decide

/-! ## Bit cursor commands (95 sections 2.2 and 2.3) -/

theorem test_wbind_example : goesTo (exec (.wbind 0#4) { base with regs := { dstBase := 0x100#32, dstSize := 4#32 } })
    (fun t => t.ctx[0].w == ⟨0x100#32, 4#32, 0#32, 0#3⟩ && statusWord t.regs t.plan == 2#32) = true := by decide
theorem test_wbind_past_the_top : goesTo
    (exec (.wbind 0#4) { base with regs := { dstBase := 0xFFFFFFF0#32, dstSize := 0x20#32 } })
    (fun t => statusWord t.regs t.plan == 0x1806#32) = true := by decide
theorem test_wseek_then_write_V17 : goesTo (exec (.wbit 0#4 true) (cursorAt [0#8] 1 9 3))
    (fun t => t.regs.fault == some .writeOutOfBounds && t.ctx[0].w.byteOff == 9#32) = true := by decide
theorem test_wseek : goesTo (exec (.wseek 0#4 9#32 3#3) (cursorAt [0#8] 1 0 0))
    (fun t => t.ctx[0].w == ⟨0#32, 1#32, 9#32, 3#3⟩) = true := by decide
theorem test_wtell_V18 : goesTo (exec (.wtell 0#4) (cursorAt [0#8] 1 2 1))
    (fun t => t.regs.results == [2#32, 1#32, 0#32, 0#32]) = true := by decide
theorem test_wbit_V2 : goesTo (exec (.wbit 0#4 false) (cursorAt [0xFF#8] 1 0 0))
    (fun t => Memory.read t.mem 0 == 0x7F#8 && t.ctx[0].w.pos == 1) = true := by decide
theorem test_wbit_V3 : goesTo (exec (.wbit 0#4 true) (cursorAt [0#8, 0#8] 2 0 7))
    (fun t => Memory.readBytes t.mem 0 2 == [1#8, 0#8] && t.ctx[0].w.byteOff == 1#32) = true := by decide
theorem test_wbits_V8 : goesTo
    (exec (.wbits 0#4 0x12345678#32 32#6) (cursorAt [0xFF#8, 0xFF#8, 0xFF#8, 0xFF#8, 0xFF#8] 5 0 3))
    (fun t => Memory.readBytes t.mem 0 5 == [0xE2#8, 0x46#8, 0x8A#8, 0xCF#8, 0x1F#8] && t.ctx[0].w.pos == 35) = true := by
  decide
theorem test_wbits_V14 : goesTo (exec (.wbits 0#4 0xF#32 4#6) (cursorAt [0#8] 1 0 5))
    (fun t => statusWord t.regs t.plan == 0x1206#32 && t.mem == [] && t.ctx[0].w.pos == 5) = true := by decide
theorem test_rbind : goesTo (exec (.rbind 3#4) { base with regs := { srcBase := 0x100#32, srcSize := 8#32 } })
    (fun t => t.ctx[3].r == ⟨0x100#32, 8#32, 0#32, 0#3⟩) = true := by decide
theorem test_rseek : goesTo (exec (.rseek 0#4 7#32 2#3) (cursorAt [0#8] 1 0 0))
    (fun t => t.ctx[0].r.byteOff == 7#32 && t.ctx[0].r.bitOff == 2#3 && t.ctx[0].w.byteOff == 0#32) = true := by decide
theorem test_rtell_R9 : goesTo (exec (.rtell 0#4) (cursorAt [0#8] 1 7 2))
    (fun t => t.regs.results == [7#32, 2#32, 0#32, 0#32]) = true := by decide
theorem test_rbit_R6 : goesTo (exec (.rbit 0#4) (cursorAt [0x90#8, 0x64#8] 2 2 0))
    (fun t => t.regs.fault == some .truncatedInput) = true := by decide
theorem test_rbit_R1 : goesTo (exec (.rbit 0#4) (cursorAt [0x90#8, 0x64#8] 2 0 0))
    (fun t => t.regs.result0 == 1#32 && t.ctx[0].r.pos == 1) = true := by decide
theorem test_rbyte_R4 : goesTo (exec (.rbyte 0#4) (cursorAt [0x90#8, 0x64#8] 2 0 7))
    (fun t => t.regs.result0 == 0x32#32 && t.ctx[0].r.pos == 15) = true := by decide
theorem test_rbyte_R5 : goesTo (exec (.rbyte 0#4) (cursorAt [0x90#8, 0x64#8] 2 1 1))
    (fun t => t.regs.fault == some .truncatedInput && t.ctx[0].r.pos == 9) = true := by decide

/-! ## Trees and traversal (41 test vectors, 95 sections 2.4 and 2.5) -/

/-- "ABCC": the leaf C of weight 2 stays in front of the merged node of weight 2. -/
theorem test_tcreate_ABCC : goesTo
    (exec (.tcreate 0#4) (let s := bytesAt0 [0x41#8, 0x42#8, 0x43#8, 0x43#8]; { s with regs := { srcSize := 4#32 } }))
    (fun t => t.ctx[0].tree == { built := true, root := 4, nodes := [.leaf 0x41#8 1#32, .leaf 0x42#8 1#32,
      .leaf 0x43#8 2#32, .branch 2#32 0 1, .branch 4#32 2 3] }) = true := by decide +kernel
theorem test_tcreate_empty : goesTo (exec (.tcreate 0#4) base)
    (fun t => statusWord t.regs t.plan == 0x1506#32) = true := by decide
/-- The tree of one leaf 'A' writes 001000001. -/
theorem test_twrite_A : goesTo
    (exec (.twrite 0#4) { base with ctx := base.ctx.set 0 { w := { len := 2#32 }, tree := treeA } })
    (fun t => Memory.readBytes t.mem 0 2 == [0x20#8, 0x80#8] && t.ctx[0].w.pos == 9) = true := by decide
theorem test_tread_duplicate_leaves : goesTo (exec (.tread 0#4) (cursorAt [0x90#8, 0x48#8, 0x20#8] 3 0 0))
    (fun t => t.ctx[0].tree == { built := true, root := 0, nodes := [.branch 0#32 1 2, .leaf 0x41#8 0#32,
      .leaf 0x41#8 0#32] } && t.ctx[0].r.pos == 19) = true := by decide +kernel
theorem test_tread_truncated : goesTo (exec (.tread 0#4) (cursorAt [0x80#8] 1 0 0))
    (fun t => t.regs.fault == some .truncatedInput && t.ctx[0].r.pos == 0) = true := by decide +kernel
theorem test_tlookup_AAB : goesTo (exec (.tlookup 0#4) (treeAt treeAAB false 0))
    (fun t => t.ctx[0].lut.entryOf 0x41#8 == ⟨1#32, 1, 2#32⟩ && t.ctx[0].lut.entryOf 0x42#8 == ⟨0#32, 1, 1#32⟩ &&
      t.ctx[0].lut.entryOf 0x5A#8 == ⟨0#32, 0, 0#32⟩) = true := by decide +kernel
theorem test_tbitcount_A : goesTo (exec (.tbitcount 0#4) (treeAt treeA false 0))
    (fun t => t.regs.results == [9#32, 0#32, 0#32, 2#32]) = true := by decide
theorem test_tcroot_not_ready : goesTo (exec (.tcroot 0#4) base) (fun t => t.regs.fault == some .notReady) = true := by
  decide
theorem test_tcroot : goesTo (exec (.tcroot 0#4) (treeAt treeAAB false 0)) (fun t => t.ctx[0].tc == ⟨true, 2⟩) = true := by
  decide
theorem test_tcisleaf : goesTo (exec (.tcisleaf 0#4) (treeAt treeAAB true 0)) (fun t => t.regs.result0 == 1#32) = true := by
  decide
theorem test_tcvalue : goesTo (exec (.tcvalue 0#4) (treeAt treeAAB true 1)) (fun t => t.regs.result0 == 0x42#32) = true := by
  decide
theorem test_tcvalue_at_branch : goesTo (exec (.tcvalue 0#4) (treeAt treeAAB true 2))
    (fun t => t.regs.fault == some .valueAtBranch) = true := by decide
theorem test_tcleft : goesTo (exec (.tcleft 0#4) (treeAt treeAAB true 2)) (fun t => t.ctx[0].tc == ⟨true, 1⟩) = true := by
  decide
theorem test_tcright : goesTo (exec (.tcright 0#4) (treeAt treeAAB true 2)) (fun t => t.ctx[0].tc == ⟨true, 0⟩) = true := by
  decide
theorem test_tcright_at_leaf : goesTo (exec (.tcright 0#4) (treeAt treeAAB true 0))
    (fun t => t.regs.fault == some .traversalAtLeaf && t.ctx[0].tc == ⟨true, 0⟩) = true := by decide

/-! ## Limiter, jobs and orchestration (42, 43, 95 sections 2.6 to 2.8) -/

theorem test_linit : goesTo (exec (.linit 4#32) { base with turn := .controller })
    (fun t => t.limiter == ⟨4#32, 4#32⟩) = true := by decide
theorem test_lacq : goesTo (exec .lacq (jobAt analyzing 0 none))
    (fun t => t.limiter == ⟨2#32, 1#32⟩ && t.jobs.all (fun j => j.pc == 1 && j.holds)) = true := by decide +kernel
theorem test_lacq_from_the_host : goesTo (exec .lacq base)
    (fun t => statusWord t.regs t.plan == 0x1006#32) = true := by decide
theorem test_lrel : goesTo (exec .lrel (jobAt analyzing 2 none))
    (fun t => t.limiter == ⟨2#32, 2#32⟩ && t.jobs.all (fun j => j.pc == 3 && !j.holds)) = true := by decide +kernel
theorem test_analyze_A : goesTo (exec (.analyze 0#32) (jobAt analyzing 1 none))
    (fun t => t.jobs.all (fun j => j.res == some ⟨1#32, 2#32, treeA⟩ && j.pc == 2)) = true := by decide +kernel
theorem test_encode_A : goesTo (exec (.encode 0#32) (jobAt encoding 1 none))
    (fun t => Memory.readBytes t.mem 36 2 == [0x20#8, 0x80#8] && t.jobs.all (fun j => j.err == none)) = true := by
  decide +kernel
theorem test_decode_A : goesTo (exec (.decode 0#32) (jobAt decoding 1 none))
    (fun t => Memory.read t.mem 40 == 0x41#8 && t.jobs.all (fun j => j.err == none)) = true := by decide +kernel
theorem test_prepc_no_block_size : goesTo (exec .prepc base) (fun t => statusWord t.regs t.plan == 0x1906#32) = true := by
  decide
theorem test_prepc_join : goesTo analyzed.join
    (fun t => statusWord t.regs t.plan == 0x00010002#32 && t.plan == planA) = true := by decide +kernel
theorem test_compress_no_plan : goesTo (exec .compress base) (fun t => statusWord t.regs t.plan == 0x1A06#32) = true := by
  decide
theorem test_compress_header : goesTo (exec .compress planned)
    (fun t => Memory.readBytes t.mem 8 28 == Memory.readBytes container.mem 8 28 && t.regs.busy) = true := by
  decide +kernel
theorem test_prepd : goesTo (exec .prepd { container with regs := { srcBase := 8#32, srcSize := 30#32 } })
    (fun t => statusWord t.regs t.plan == 0x00030002#32 && t.plan == planD) = true := by decide +kernel
theorem test_prepd_invalid_magic : goesTo (exec .prepd { container with regs := { srcBase := 9#32, srcSize := 30#32 } })
    (fun t => statusWord t.regs t.plan == 0x106#32 && t.regs.errInfo == 0xFFFFFFFF#32) = true := by decide +kernel
theorem test_decompress_overlap : goesTo
    (exec .decompress { plannedD with regs := { plannedD.regs with dstBase := 37#32 } })
    (fun t => statusWord t.regs t.plan == 0x00031C06#32 && t.plan == planD) = true := by decide +kernel
theorem test_reset_registers : State.reset.readRegister 0x6C = 0x2004#32 ∧ State.reset.readRegister 0x08 = 0#32 := by
  decide

/-- The name a step is refused under, if it is refused. -/
def refusedAs (r : Result State) : Option Refusal :=
  match r with
  | .refused e => some e
  | .next _ => none
  | .fault _ => none

/-- `planned` with the writer of context 0 over the bytes `[a, a + 1)` and the low word of a command in CMD_LO. -/
def storing (a lo : Word) : State :=
  { planned with ctx := base.ctx.set 0 { w := { base := a, len := 1#32 } }, regs := { planned.regs with cmdLo := lo } }

/-- WBIT is a host write: into the source of the held plan it is no step of the host, beside it, it is (20 R75). -/
theorem test_wbit_into_a_held_source :
    refusedAs ((storing 0#32 4#32).hostRegWrite 0x04 32 1#32) = some .hostWriteToLiveRange ∧
    goesTo ((storing 1#32 4#32).hostRegWrite 0x04 32 1#32) (fun t => Memory.read t.mem 1 == 0x80#8) = true := by
  decide +kernel

/-- A WBITS that faults stores nothing, and so is issued (60 R223). -/
theorem test_faulting_wbits_at_a_held_source : goesTo ((storing 0#32 0x210005#32).hostRegWrite 0x04 32 1#32)
    (fun t => t.regs.fault == some .bitCountRange && t.mem == planned.mem) = true := by decide +kernel

/-! ## Witnesses: for each statement with hypotheses, states and operands that meet them, one for each clause -/

theorem witness_DecodeOfEncode : (Instr.wbits 3#4 0xDEADBEEF#32 32#6).wf = true := by decide

theorem witness_EncodeOfDecode : decode 0xDEADBEEF00200305#64 = .ok (.wbits 3#4 0xDEADBEEF#32 32#6) := rfl

theorem witness_DecoderFollowsTheTable : ∃ r ∈ opcodeRows,
    (0x0000000005000302#64 &&& r.mask = r.matchWord) ∧ (r.used.ctx = true → (0x302#64 : Cmd).extractLsb' 8 4 = 3#4) := by
  decide

theorem witness_IllegalWordsFault : base.turn = .host ∧
    (0x36 ≤ ((0xFF#64 : Cmd).extractLsb' 0 8).toNat) ∧ (0x30 ≤ ((0x35#64 : Cmd).extractLsb' 0 8).toNat) ∧
    (0x8000000000000001#64 : Cmd).extractLsb' 27 5 = 0#5 ∧ (0x8000#64 ||| 1#64 : Cmd).extractLsb' 12 4 ≠ 0#4 ∧
    (∃ e ∈ commandMasks, (0x200000004#64 : Cmd).extractLsb' 0 8 = e.2.1.extractLsb' 0 8 ∧
      0x200000004#64 &&& e.2.2 ≠ e.2.1) ∧
    (∃ e ∈ contextMasks, 0x401#64 &&& e.2.2 = e.2.1) ∧ 4 ≤ ((0x401#64 : Cmd).extractLsb' 8 4).toNat ∧
    (0x210005#64 : Cmd) = formWord 0x05#8 0#4 33#6 0#3 0#32 ∧
    commandWord (withWord 0x210005#64).regs.cmdHi (withWord 0x210005#64).regs.cmdLo = 0x210005#64 := by decide

theorem witness_CommandRegisters : encoding.regs.busy = true ∧ base.regs.busy = false ∧
    goesTo ({ base with regs := { cmdLo := 3#32 } }.hostRegWrite 0x04 32 0#32) (fun t => t.regs.done) = true := by
  decide +kernel
theorem witness_CommandRegisters_words :
    decode (0#32 ++ 3#32) = .ok (.wtell 0#4) ∧ decode (1#32 ++ 3#32) = .error .unusedField ∧
    decode (1#32 ++ (storing 0#32 4#32).regs.cmdLo) = .ok (.wbit 0#4 true) ∧ (storing 0#32 4#32).regs.busy = false ∧
    (storing 0#32 4#32).storesToLiveSource (.wbit 0#4 true) = true ∧
    (storing 1#32 4#32).storesToLiveSource (.wbit 0#4 true) = false := ⟨rfl, rfl, rfl, rfl, by decide, by decide⟩

/-- A host about to write CMD_HI. -/
def issuing (lo : Word) : State := { base with regs := { cmdLo := lo }, inputs := [.regWrite 0x04 32 0#32] }

theorem witness_StepRunsIssuedCommand : (issuing 3#32).pick = some (.host, issuing 3#32) ∧
    (issuing 3#32).regs.busy = false ∧ decode (0#32 ++ 3#32) = .ok (.wtell 0#4) ∧
    (issuing 3#32).storesToLiveSource (.wtell 0#4) = false ∧
    (issuing 6#32).pick = some (.host, issuing 6#32) ∧ decode (0#32 ++ 6#32) = .error .unassignedOpcode :=
  ⟨rfl, rfl, rfl, rfl, rfl, rfl⟩

/-- `base` with one coming step of the host. -/
def coming (h : HostStep) : State := { base with inputs := [h] }

/-- Each kind of host step is picked somewhere; WAIT not while BUSY = 1; and a store to a held source is picked. -/
theorem witness_StepRunsIssuedCommand_host_steps :
    (coming (.regWrite 0x10 32 1#32)).pick = some (.host, coming (.regWrite 0x10 32 1#32)) ∧
    (coming (.regRead 0x6C 32)).pick = some (.host, coming (.regRead 0x6C 32)) ∧
    (coming (.memWrite 63#32 1#8)).pick = some (.host, coming (.memWrite 63#32 1#8)) ∧
    (coming (.memRead 64#32)).pick = some (.host, coming (.memRead 64#32)) ∧
    (coming .await).pick = some (.host, coming .await) ∧ (coming .reset).pick = some (.host, coming .reset) ∧
    ({ encoding with inputs := [.await] } : State).hostReady = false ∧
    ({ storing 0#32 4#32 with inputs := [.regWrite 0x04 32 1#32] } : State).pick =
      some (.host, { storing 0#32 4#32 with inputs := [.regWrite 0x04 32 1#32] }) :=
  ⟨rfl, rfl, rfl, rfl, rfl, rfl, rfl, rfl⟩

theorem test_step_is_the_host_step : goesTo (step (coming (.regRead 0x6C 32)))
      (fun t => t.hostRead == 0x2004#32 && t.inputs == []) = true ∧
    goesTo (step (coming (.memWrite 63#32 1#8))) (fun t => Memory.read t.mem 63 == 1#8) = true := by decide

theorem witness_StepRunsJobMicroOperation : analyzing.pick = some (.job 0, analyzing) ∧
    analyzing.job? 0 = some (phaseJob .analyze 0) ∧ (phaseJob .analyze 0).pc.val < 3 ∧
    decode ((phaseJob .analyze 0).prog[0]) = .ok .lacq ∧
    analyzed.pick = some (.controller, analyzed) ∧ base.pick = none :=
  ⟨rfl, rfl, by decide, rfl, rfl, rfl⟩

theorem witness_SchedulerChoosesFreely : Agent.job 0 ∈ analyzing.enabled ∧ analyzing.pick.isSome = true ∧
    (base.pick.isNone = true) := by decide +kernel

theorem witness_FaultedCommandChangesOnlyFlags : (Instr.rbit 0#4).context?.isSome = true ∧
    goesTo (exec (.rbit 0#4) base) (fun t => t.regs.fault.isSome) = true ∧
    goesTo (exec .compress base) (fun t => t.regs.fault.isSome) = true ∧
    goesTo (exec .decompress planned) (fun t => t.regs.fault.isSome) = true ∧
    goesTo (exec .prepc base) (fun t => t.regs.fault.isSome) = true ∧
    goesTo (exec .prepd base) (fun t => t.regs.fault.isSome) = true := by decide

theorem witness_CompletionProtocol : goesTo (exec (.wtell 0#4) base) (fun _ => true) = true ∧
    goesTo (exec .prepc inputA) (fun t => t.regs.busy) = true ∧ analyzed.controller.phase ≠ .idle ∧
    goesTo analyzed.join (fun _ => true) = true := by decide +kernel

theorem witness_MissingContextIsIllegal : (Instr.rbyte 4#4).context? = some 4#4 ∧ 4 ≤ (4#4 : BitVec 4).toNat ∧
    Instr.lrel.isMicroOp = true ∧ base.turn = .host := by decide

theorem witness_HostMemoryDuty : base.params.memSize ≤ 64 ∧ 0 < base.params.memSize ∧
    (encoding.regs.busy = true ∧ encoding.controller.dstBase.toNat ≤ 37 ∧
      37 < encoding.controller.dstBase.toNat + encoding.plan.outSize.toNat ∧
      ¬ 38 < encoding.controller.dstBase.toNat + encoding.plan.outSize.toNat) ∧
    (planned.plan.valid = true ∧ planned.plan.kind = .c ∧ planned.plan.srcBase.toNat ≤ 0 ∧
      0 < planned.plan.srcBase.toNat + planned.plan.srcSize.toNat) := by decide +kernel

/-- Stores of each of the three commands to the first and to the last byte of a live source, and just past it. -/
theorem witness_HostMemoryDuty_commands :
    let treeWriter : State := { planned with ctx := base.ctx.set 0 { w := { len := 2#32 }, tree := treeA } }
    (storing 0#32 0#32).storesToLiveSource (.wbit 0#4 true) = true ∧
    (storing 0#32 0#32).storesToLiveSource (.wbits 0#4 0#32 8#6) = true ∧
    (storing 0#32 0#32).storesToLiveSource (.wbits 0#4 0#32 0#6) = false ∧
    (storing 0#32 0#32).storesToLiveSource (.wbits 0#4 0#32 9#6) = false ∧
    treeWriter.storesToLiveSource (.twrite 0#4) = true ∧
    (storing 1#32 0#32).storesToLiveSource (.wbit 0#4 true) = false ∧
    (storing 64#32 0#32).storesToLiveSource (.wbit 0#4 true) = false := by decide +kernel

theorem witness_HostMemoryDuty_held_source : planned.Inv ∧ planned.plan.valid = true ∧ planned.plan.kind = .c ∧
    goesTo (step { planned with inputs := [.memWrite 1#32 7#8] }) (fun t => Memory.read t.mem 0 == 0x41#8) = true :=
  ⟨⟨by decide, by decide, by decide, by decide +kernel, by decide +kernel⟩, rfl, rfl, by decide +kernel⟩

theorem witness_RegisterAccessRules : (31 ≠ 32 ∨ 5 % 4 ≠ 0) ∧ (0x80 % 4 = 0 ∧ 0x80 ≤ 0x80) ∧
    encoding.regs.busy = true ∧ planned.regs.busy = false ∧ 0x7C < 0x80 ∧
    (planned.plan.valid = true ∧ planned.regs.descSel.toNat < planned.plan.blockCount.toNat ∧
      planned.plan.desc[planned.regs.descSel.toNat]?.isSome = true) ∧
    ¬ (base.plan.valid = true ∧ base.regs.descSel.toNat < base.plan.blockCount.toNat) ∧
    (base.regs.lutSel.extractLsb' 8 4).toNat < 4 ∧ 4 ≤ ((0x441#12).extractLsb' 8 4).toNat := by decide +kernel

/-- `base` with the source and the destination registers both set to (b, n). -/
def buffers (b n : Word) : State :=
  { base with regs := { srcBase := b, srcSize := n, dstBase := b, dstSize := n, blockSize := 1#32 } }

theorem witness_BindCommands : (3#4 : BitVec 4).toNat < 4 ∧
    (let r := (buffers 0xFFFFFFF0#32 0x10#32).regs
     r.dstBase.toNat + r.dstSize.toNat ≤ 4294967296 ∧ r.srcBase.toNat + r.srcSize.toNat ≤ 4294967296) ∧
    (let r := (buffers 0xFFFFFFF0#32 0x11#32).regs
     4294967296 < r.dstBase.toNat + r.dstSize.toNat ∧ 4294967296 < r.srcBase.toNat + r.srcSize.toNat) := by decide

theorem witness_SeekAndTellCommands : (3#4 : BitVec 4).toNat < 4 := by decide

theorem witness_WbitWritesOneBit :
    (Memory.wf (cursorAt [0xFF#8] 1 1 0).mem = true ∧ (cursorAt [0xFF#8] 1 1 0).ctx[0].w.len.toNat ≤
      (cursorAt [0xFF#8] 1 1 0).ctx[0].w.byteOff.toNat) ∧
    (let c := (cursorAt [] 65 64 7).ctx[0].w; c.byteOff.toNat < c.len.toNat ∧
      (cursorAt [] 65 64 7).params.memSize ≤ c.base.toNat + c.byteOff.toNat) ∧
    (let c := (cursorAt [] 64 63 7).ctx[0].w; c.byteOff.toNat < c.len.toNat ∧
      c.base.toNat + c.byteOff.toNat < (cursorAt [] 64 63 7).params.memSize) := by decide

theorem witness_WbitsWritesTheLowBits : Memory.wf (cursorAt [1#8] 5 0 1).mem = true ∧ 33 ≤ (33#6 : BitVec 6).toNat ∧
    (let c := (cursorAt [1#8] 5 1 1).ctx[0].w; 8 * c.len.toNat < 8 * c.byteOff.toNat + c.bitOff.toNat + 32) ∧
    (let c := (cursorAt [] 65 64 0).ctx[0].w; 8 * c.byteOff.toNat + c.bitOff.toNat + 8 ≤ 8 * c.len.toNat ∧
      64 ≤ c.base.toNat + (8 * c.byteOff.toNat + c.bitOff.toNat + 8 - 1) / 8) ∧
    (let c := (cursorAt [1#8] 5 1 0).ctx[0].w; 8 * c.byteOff.toNat + c.bitOff.toNat + 32 ≤ 8 * c.len.toNat ∧
      c.base.toNat + (8 * c.byteOff.toNat + c.bitOff.toNat + 32 - 1) / 8 < 64) := by decide

theorem witness_PutBitsIsBitByBit : Memory.wf [(0, 1#8)] = true ∧ 32 ≤ 32 := by decide

theorem witness_BitCursorInverse : Memory.wf (cursorAt [] 5 0 7).mem = true ∧
    (cursorAt [] 5 0 7).ctx[0].r = (cursorAt [] 5 0 7).ctx[0].w ∧
    (let c := (cursorAt [] 5 0 7).ctx[0].w; 8 * c.byteOff.toNat + c.bitOff.toNat + 32 ≤ 8 * c.len.toNat ∧
      c.base.toNat + (8 * c.byteOff.toNat + c.bitOff.toNat + 32 - 1) / 8 < (cursorAt [] 5 0 7).params.memSize) := by decide

theorem witness_RbitAndRbyteRead :
    (let c := (cursorAt [] 2 2 0).ctx[0].r; c.len.toNat ≤ c.byteOff.toNat) ∧
    (let c := (cursorAt [] 65 64 0).ctx[0].r; c.byteOff.toNat < c.len.toNat ∧ 64 ≤ c.base.toNat + c.byteOff.toNat) ∧
    (let c := (cursorAt [] 2 1 1).ctx[0].r; 8 * c.len.toNat < 8 * c.byteOff.toNat + c.bitOff.toNat + 8) ∧
    (let c := (cursorAt [] 66 63 1).ctx[0].r; ¬ 8 * c.len.toNat < 8 * c.byteOff.toNat + c.bitOff.toNat + 8 ∧
      c.bitOff.toNat ≠ 0 ∧ 64 ≤ c.base.toNat + c.byteOff.toNat + 1) ∧
    (let c := (cursorAt [] 64 63 0).ctx[0].r; ¬ 8 * c.len.toNat < 8 * c.byteOff.toNat + c.bitOff.toNat + 8 ∧
      c.bitOff.toNat = 0 ∧ c.base.toNat + c.byteOff.toNat < 64) := by decide

theorem witness_PrimitiveFrame : (Instr.wbit 0#4 true).context? = some 0#4 ∧
    goesTo (exec (.wbit 0#4 true) (cursorAt [] 1 0 0)) (fun t => t.regs.fault.isNone) = true ∧
    goesTo (exec (.rbit 0#4) (cursorAt [] 1 0 0)) (fun t => t.regs.fault.isNone) = true ∧
    goesTo (exec (.tcroot 0#4) (treeAt treeA false 0)) (fun t => t.regs.fault.isNone) = true := by decide

theorem witness_OrchestrationFrame : Instr.lacq.context? = none ∧ Instr.lacq.isMicroOp = true ∧
    (jobAt analyzing 0 none).turn = .job 0 ∧ goesTo (exec .lacq (jobAt analyzing 0 none)) (fun _ => true) = true ∧
    goesTo (exec (.encode 0#32) (jobAt encoding 1 none)) (fun _ => true) = true ∧
    goesTo (exec .compress planned) (fun _ => true) = true := by decide +kernel

theorem witness_ResultRegistersWrittenByTheirCommands :
    goesTo (exec (.wtell 0#4) (cursorAt [] 1 2 1)) (fun t => t.regs.results != base.regs.results) = true ∧
    goesTo analyzed.join (fun _ => true) = true ∧ goesTo (base.hostStep .reset) (fun _ => true) = true := by
  decide +kernel

theorem witness_TcreateBuildsTree : base.regs.srcSize = 0#32 ∧
    (let s := buffers 0xFFFFFFFF#32 2#32
     s.regs.srcSize ≠ 0#32 ∧ 4294967296 < s.regs.srcBase.toNat + s.regs.srcSize.toNat) ∧
    (let s := buffers 64#32 1#32
     s.regs.srcSize ≠ 0#32 ∧ s.regs.srcBase.toNat + s.regs.srcSize.toNat ≤ 4294967296 ∧
       s.params.memSize < s.regs.srcBase.toNat + s.regs.srcSize.toNat) ∧
    (let s := buffers 63#32 1#32
     s.regs.srcSize ≠ 0#32 ∧ s.regs.srcBase.toNat + s.regs.srcSize.toNat ≤ s.params.memSize) := by decide

theorem witness_BuildTree_statements : [0x41#8] ≠ [] ∧ [0x41#8].length < 4294967296 ∧
    (buildTree [0x41#8, 0x41#8, 0x42#8]).shape = some (.branch 3#32 (.leaf 0x42#8 1#32) (.leaf 0x41#8 2#32)) ∧
    (Shape.branch 3#32 (.leaf 0x42#8 1#32) (.leaf 0x41#8 2#32)).depth ≤ 32 ∧
    2 ≤ (Shape.branch 3#32 (.leaf 0x42#8 1#32) (.leaf 0x41#8 2#32)).values.length := by decide +kernel

theorem witness_BuildTreePrefixCode_walk :
    let sh := Shape.branch 3#32 (.leaf 0x42#8 1#32) (.leaf 0x41#8 2#32)
    let c : Cursor := { len := 1#32 }
    let code := (sh.lookup.entryOf 0x41#8).code
    0x41#8 ∈ sh.values ∧ c.fits code.length = true ∧ c.memOk 64 code.length = true ∧
    ∀ j, j < code.length → some (memBit [(0, 0x80#8)] c.base.toNat (c.pos + j)) = code[j]? := by decide +kernel

theorem witness_BuildTreeDeterminedByHistogram :
    ∀ v, [0x41#8, 0x42#8, 0x41#8].count v = [0x42#8, 0x41#8, 0x41#8].count v := by decide +kernel

theorem witness_SerializeThenParse : treeAAB.built = true ∧ treeAAB.wf = true ∧ treeAAB.shape.isSome = true ∧
    Memory.wf [(0, 0xFF#8)] = true ∧ ({ len := 4#32, bitOff := 7#3 } : Cursor).fits treeAAB.treeBits = true ∧
    ({ len := 4#32, bitOff := 7#3 } : Cursor).memOk 64 treeAAB.treeBits = true := by decide

/-- What a parse ends in: none for a tree. -/
def parseFault (bs : List Byte) : Option FaultCode :=
  match (parseTree 64 (bytesAt0 bs).mem { len := u32 bs.length }).2 with
  | .error e => some e
  | .ok _ => none

theorem witness_ParsedTreesAreSound_and_TreadReplacesTheTree :
    parseFault [0x20#8, 0x80#8] = none ∧ parseFault [0x80#8] = some .truncatedInput := by decide +kernel

/-- The tree of "AAB" in context 0 with a writer over the first `len` bytes. -/
def writerAndTree (len : Nat) (o : Nat) : State :=
  { base with ctx := base.ctx.set 0 { w := { len := u32 len, bitOff := BitVec.ofNat 3 o }, tree := treeAAB } }

theorem witness_TwriteWritesThePreorder : Memory.wf base.mem = true ∧
    (base.ctx[0].tree.wf = true ∧ base.ctx[0].tree.built = false) ∧
    ((writerAndTree 2 0).ctx[0].tree.wf = true ∧ (writerAndTree 2 0).ctx[0].tree.built = true ∧
      8 * 2 < 0 + treeAAB.treeBits) ∧
    (8 * 100 ≥ 8 * 63 + treeAAB.treeBits ∧ base.params.memSize ≤ 0 + (8 * 63 + treeAAB.treeBits - 1) / 8) ∧
    (8 * 3 ≥ 5 + treeAAB.treeBits ∧ 0 + (5 + treeAAB.treeBits - 1) / 8 < base.params.memSize) := by decide

theorem witness_TlookupAndBitCount : (treeAt treeAAB false 0).ctx[0].tree.built = true ∧
    (treeAt treeAAB false 0).ctx[0].tree.wf = true ∧ treeAAB.depth ≤ 32 ∧ base.ctx[0].tree.built = false := by decide

/-- A comb of `n` branches: each left child is a leaf, each right child the next branch. -/
def comb (n : Nat) : Tree :=
  { built := true, root := 0,
    nodes := (List.range n).flatMap (fun i => [Node.branch 0#32 (2 * i + 1) (2 * i + 2), Node.leaf 0#8 0#32]) ++
      [Node.leaf 0#8 0#32] }

theorem witness_TlookupAndBitCount_too_deep : (comb 33).wf = true ∧ 32 < (comb 33).depth := by decide +kernel

theorem witness_TraversalCommands : base.ctx[0].tree.built = false ∧ (treeAt treeAAB true 0).ctx[0].tree.built = true ∧
    base.ctx[0].tc.valid = false ∧ (treeAt treeAAB true 0).ctx[0].tc.valid = true ∧
    treeAAB.nodes[0]? = some (.leaf 0x41#8 2#32) ∧ treeAAB.nodes[2]? = some (.branch 3#32 1 0) := by decide

theorem witness_LimiterMicroOperations : ({ base with turn := .controller } : State).turn = .controller ∧
    (jobAt analyzing 0 none).turn = .job 0 ∧ ((jobAt analyzing 0 none).job? 0).isSome = true ∧
    0 < (jobAt analyzing 0 none).limiter.permits.toNat ∧
    (jobAt analyzing 2 none).limiter.permits.toNat + 1 ≤ (jobAt analyzing 2 none).limiter.capacity.toNat ∧
    (jobAt analyzing 0 none).limiter.capacity.toNat < (jobAt analyzing 0 none).limiter.permits.toNat + 1 := by
  decide +kernel

theorem witness_AnalyzeResultOfBlock : (jobAt analyzing 1 none).turn ≠ .host ∧
    ((jobAt analyzing 1 none).job? 0).isSome = true ∧
    0 < min analyzing.plan.blockSize.toNat (analyzing.plan.inSize.toNat - 0) ∧
    0 + min analyzing.plan.blockSize.toNat (analyzing.plan.inSize.toNat - 0) ≤ analyzing.params.memSize ∧
    (let s := { analyzing with plan := { analyzing.plan with srcBase := 64#32 } }
     s.params.memSize < s.plan.srcBase.toNat + min s.plan.blockSize.toNat (s.plan.inSize.toNat - 0)) := by decide +kernel

theorem witness_Encode_statements : (jobAt encoding 1 none).turn ≠ .host ∧ Memory.wf encoding.mem = true ∧
    ((jobAt encoding 1 none).job? 0).isSome = true ∧ encoding.plan.desc[0]? = planA.desc[0]? ∧
    (planA.desc[0]?.bind (·.tree)) = some treeA ∧ treeA.built = true ∧ treeA.wf = true ∧
    buildTree [0x41#8] = treeA ∧ Memory.read encoding.mem 0 = 0x41#8 ∧ treeA.shape = some (.leaf 0x41#8 1#32) ∧
    2 = (treeA.treeBits + (Shape.leaf 0x41#8 1#32).dataBits 0 + 7) / 8 ∧
    encoding.controller.dstBase.toNat + encoding.plan.headerSize.toNat + 0 = 36 ∧ 36 + 2 ≤ encoding.params.memSize ∧
    0 + 1 ≤ 36 := by decide +kernel

theorem witness_Decode_statements : (jobAt decoding 1 none).turn ≠ .host ∧ Memory.wf decoding.mem = true ∧
    ((jobAt decoding 1 none).job? 0).isSome = true ∧ decoding.plan.desc[0]? = planD.desc[0]? ∧
    decoding.plan.srcBase.toNat + decoding.plan.headerSize.toNat + 0 = 36 ∧
    decoding.controller.dstBase.toNat + 0 = 40 ∧ 40 + 1 ≤ decoding.params.memSize ∧ 36 + 2 ≤ 40 := by decide +kernel

/-- The fault clauses of ENCODE: a region too small for the tree, one past MEM_SIZE, and codes that stop to fit after the
fifth of six (19 bits of tree and 5 codes of one bit fill three bytes). -/
theorem witness_EncodeWritesOnlyItsRegion_faults : 8 * 1 < treeA.treeBits ∧
    (¬ 8 * 2 < treeA.treeBits ∧ encoding.params.memSize ≤ 63 + (treeA.treeBits - 1) / 8) ∧
    (let m := Memory.writeBytes [] 0 (List.replicate 6 0x41#8)
     let lut := ((treeAAB.shape.map Shape.lookup).getD {})
     encodedBits 64 m lut 36 3 6 0 19 = ([true, true, true, true, true], some .writeOutOfBounds)) := by decide +kernel

theorem test_encode_without_room_for_the_tree : goesTo
    (exec (.encode 0#32) { jobAt encoding 1 none with
      plan := { planA with desc := [{ dsize := 1#32, csize := 1#32, tree := some treeA }] } })
    (fun t => t.jobs.all (fun j => j.err == some .writeOutOfBounds && j.pc == 2) && t.mem == encoding.mem) = true := by
  decide +kernel

/-- The fault clauses of DECODE: the region cut to one byte ends the parse; eight codes of one bit, then no more input. -/
theorem witness_DecodeWritesOnlyItsRange_faults :
    parseFault [0x20#8] = some .truncatedInput ∧ parseFault [0x20#8, 0x80#8] = none ∧
    (let sh := treeAAB.shape.getD (.leaf 0#8 0#32)
     decodedBytes 64 (Memory.writeBytes [] 0 [0xA0#8]) sh 9 40 { len := 1#32 } =
       ([0x41#8, 0x42#8, 0x41#8, 0x42#8, 0x42#8, 0x42#8, 0x42#8, 0x42#8], some .truncatedInput)) := by decide +kernel

theorem test_decode_of_a_truncated_region : goesTo
    (exec (.decode 0#32) { jobAt decoding 1 none with
      plan := { planD with desc := [{ dsize := 1#32, csize := 1#32 }] } })
    (fun t => t.jobs.all (fun j => j.err == some .truncatedInput && j.pc == 2) && t.mem == decoding.mem) = true := by
  decide +kernel

/-- What ENCODE leaves at the region is what the DECODE witness state holds there. -/
theorem witness_EncodeThenDecodeBlock : goesTo (exec (.encode 0#32) (jobAt encoding 1 none)) (fun t =>
    Memory.readBytes t.mem 36 2 == Memory.readBytes decoding.mem 36 2) = true ∧
    decoding.params = encoding.params := by decide +kernel

theorem witness_control_statements : (jobAt analyzing 1 none).controlOk = true ∧ analyzed.controlOk = true ∧
    (jobAt analyzing 1 none).controller.phase ≠ .idle ∧ analyzed.joinReady = true ∧
    goesTo (step (jobAt analyzing 0 none)) (fun t => t.controller.phase != .idle) = true ∧
    goesTo (exec .prepc inputA) (fun t => t.regs.busy) = true := by decide +kernel

theorem witness_JoinReportsLowestFailure : (jobAt encoding 3 (some .writeOutOfBounds)).controller.phase ≠ .idle ∧
    ((jobAt encoding 3 (some .writeOutOfBounds)).jobs.map (·.block)).Nodup ∧
    (jobAt encoding 3 (some .writeOutOfBounds)).jobs.all (fun j => j.err == some .writeOutOfBounds) = true ∧
    (jobAt encoding 3 none).jobs.all (fun j => j.err == none) = true ∧
    (jobAt encoding 3 none).controller.phase ≠ .analyze := by decide +kernel

/-- PREPC's join with a result for each block: one whose container fits a u32, one whose does not. -/
theorem witness_JoinReportsLowestFailure_analyze :
    let huge : State := { analyzed with jobs := analyzed.jobs.map (fun j =>
      { j with res := some { dsize := 1#32, csize := 0xFFFFFFE4#32, tree := treeA } }) }
    analyzed.controller.phase = .analyze ∧ analyzed.jobs.all (fun j => j.err == none) = true ∧
    analyzed.jobs.map (·.res) = [AnalyzeResult.mk 1#32 2#32 treeA].map some ∧ analyzed.controlOk = true ∧
    16 + 12 * analyzed.plan.blockCount.toNat + 2 < 4294967296 ∧
    huge.jobs.map (·.res) = [AnalyzeResult.mk 1#32 0xFFFFFFE4#32 treeA].map some ∧
    huge.jobs.all (fun j => j.err == none) = true ∧
    4294967296 ≤ 16 + 12 * huge.plan.blockCount.toNat + 0xFFFFFFE4 := by decide +kernel

theorem test_prepc_join_overflow : goesTo
    (State.join { analyzed with jobs := analyzed.jobs.map (fun j =>
      { j with res := some { dsize := 1#32, csize := 0xFFFFFFE4#32, tree := treeA } }) })
    (fun t => statusWord t.regs t.plan == 0x1806#32 && t.regs.errInfo == 0xFFFFFFFF#32) = true := by decide +kernel

theorem witness_PrepcIssue : base.regs.blockSize = 0#32 ∧
    (let s := buffers 0xFFFFFFFF#32 2#32
     s.regs.blockSize ≠ 0#32 ∧ 4294967296 < s.regs.srcBase.toNat + s.regs.srcSize.toNat) ∧
    (let s := buffers 64#32 1#32
     s.regs.blockSize ≠ 0#32 ∧ s.regs.srcBase.toNat + s.regs.srcSize.toNat ≤ 4294967296 ∧
       s.params.memSize < s.regs.srcBase.toNat + s.regs.srcSize.toNat) ∧
    (let s := buffers 63#32 1#32
     s.regs.blockSize ≠ 0#32 ∧ s.regs.srcBase.toNat + s.regs.srcSize.toNat ≤ s.params.memSize) := by decide

theorem witness_CompressIssue : ¬ (base.plan.valid = true) ∧ (planned.plan.valid = true ∧ planned.plan.kind = .c) ∧
    ¬ planned.plan.outSize.toNat ≤ 29 ∧ planned.plan.outSize.toNat ≤ planned.regs.dstSize.toNat ∧
    ¬ 0xFFFFFFE3 + planned.plan.outSize.toNat ≤ 4294967296 ∧
    (planned.plan.srcBase.toNat ≤ 0 ∧ 0 < planned.plan.srcBase.toNat + planned.plan.inSize.toNat) ∧
    planned.params.memSize < 35 + planned.plan.outSize.toNat ∧
    planned.regs.dstBase.toNat + planned.plan.outSize.toNat ≤ planned.params.memSize ∧
    ¬ planned.regs.dstBase.toNat < planned.plan.srcBase.toNat + planned.plan.inSize.toNat := by decide

theorem witness_DecompressIssue : ¬ (base.plan.valid = true) ∧ (plannedD.plan.valid = true ∧ plannedD.plan.kind = .d) ∧
    ¬ plannedD.plan.outSize.toNat ≤ 0 ∧ plannedD.plan.outSize.toNat ≤ plannedD.regs.dstSize.toNat ∧
    0xFFFFFFFF + plannedD.plan.outSize.toNat ≤ 4294967296 ∧
    (let s : State := { plannedD with
       plan := { planD with outSize := 2#32 }, regs := { plannedD.regs with dstBase := 0xFFFFFFFF#32 } }
     s.plan.valid = true ∧ s.plan.kind = .d ∧ s.plan.outSize.toNat ≤ s.regs.dstSize.toNat ∧
       ¬ s.regs.dstBase.toNat + s.plan.outSize.toNat ≤ 4294967296) ∧
    (plannedD.plan.srcBase.toNat ≤ 37 ∧ 37 < plannedD.plan.srcBase.toNat + plannedD.plan.srcSize.toNat) ∧
    plannedD.params.memSize < 64 + plannedD.plan.outSize.toNat ∧
    plannedD.regs.dstBase.toNat + plannedD.plan.outSize.toNat ≤ plannedD.params.memSize ∧
    ¬ plannedD.regs.dstBase.toNat < plannedD.plan.srcBase.toNat + plannedD.plan.srcSize.toNat := by decide +kernel

/-- The header clauses of PREPD, at the container of "A". -/
theorem witness_PrepdReadsTheContainer : 8 + 30 ≤ container.params.memSize ∧
    Memory.read32LE container.mem 8 = 0x1234#32 ∧ Memory.read32LE container.mem 9 ≠ 0x1234#32 ∧
    (Memory.read32LE container.mem 20).toNat = 16 + 12 * (Memory.read32LE container.mem 12).toNat ∧
    (Memory.read32LE container.mem 20).toNat ≤ 30 ∧
    (28 + (Memory.read32LE container.mem 32).toNat + (Memory.read32LE container.mem 28).toNat ≤ 30) ∧
    ¬ (28 + (Memory.read32LE container.mem 32).toNat + (Memory.read32LE container.mem 28).toNat ≤ 29) ∧
    (Memory.read32LE container.mem 24).toNat < 4294967296 := by decide +kernel

theorem reset_inv : State.reset.Inv := ⟨by decide, by decide, by decide, by decide +kernel, by decide⟩

theorem witness_inv_planned : planned.Inv := ⟨by decide, by decide, by decide, by decide +kernel, by decide +kernel⟩

theorem witness_inv_analyzed : analyzed.Inv :=
  ⟨by decide +kernel, by decide +kernel, by decide +kernel, by decide +kernel, by decide +kernel⟩

theorem witness_inv_encoding : (jobAt encoding 1 none).Inv :=
  ⟨by decide +kernel, by decide +kernel, by decide +kernel, by decide +kernel, by decide +kernel⟩

theorem witness_inv_decoding : (jobAt decoding 2 none).Inv :=
  ⟨by decide +kernel, by decide +kernel, by decide +kernel, by decide +kernel, by decide +kernel⟩

theorem witness_PrepcPlanOffsets : analyzed.controller.phase = .analyze ∧
    goesTo analyzed.join (fun t => t.plan.valid) = true := by decide +kernel

theorem witness_Compress_header_statements : planned.regs.busy = false ∧
    goesTo (exec .compress planned) (fun t => t.regs.busy) = true ∧
    ({ container with regs := { srcBase := 8#32, srcSize := 30#32 } } : State).regs.srcBase = planned.regs.dstBase ∧
    ({ container with regs := { srcBase := 8#32, srcSize := 30#32 } } : State).regs.srcSize = planned.plan.outSize ∧
    container.params = planned.params ∧
    Memory.readBytes container.mem 8 28 = Memory.readBytes (nextOf (exec .compress planned)).mem 8 28 := by decide +kernel

theorem witness_step_statements : Memory.wf encoding.mem = true ∧ goesTo (step encoding) (fun _ => true) = true ∧
    Params.wf { memSize := 4294967296, hwParallelism := 1#32 } = true := by decide +kernel

theorem witness_running_command_statements : (jobAt encoding 1 none).regs.busy = true ∧
    (jobAt encoding 1 none).inputs = [] ∧
    (∀ a, a < 64 → encoding.plan.srcBase.toNat ≤ a → a < encoding.plan.srcBase.toNat + encoding.plan.srcSize.toNat →
      ¬ (encoding.controller.dstBase.toNat ≤ a ∧
        a < encoding.controller.dstBase.toNat + encoding.plan.outSize.toNat)) ∧
    goesTo (Host.Core.run Sys2Proof.core 1 { jobAt encoding 3 none with sched := [5] }) (fun t => t.regs.done) = true ∧
    goesTo (Host.Core.run Sys2Proof.core 1 (jobAt encoding 3 none)) (fun t => t.regs.done) = true := by decide +kernel

/-- The encode phase at the same point with eight permits, NTHREADS 8 and another parameter and schedule. -/
def encodingEight : State :=
  let s := jobAt encoding 1 none
  { s with
    sched := [5, 3]
    draws := 9
    limiter := { capacity := 8#32, permits := 7#32 }
    regs := { s.regs with nThreads := 8#32 }
    params := { s.params with hwParallelism := 16#32 } }

theorem witness_ScheduleDoesNotMatter : encodingEight.Inv ∧
    encodingEight = { jobAt encoding 1 none with
      sched := encodingEight.sched, draws := encodingEight.draws, limiter := encodingEight.limiter,
      regs := { (jobAt encoding 1 none).regs with nThreads := encodingEight.regs.nThreads },
      params := { (jobAt encoding 1 none).params with hwParallelism := encodingEight.params.hwParallelism } } ∧
    ((jobAt encoding 1 none).jobs.map (fun j => 3 - j.pc.val)).sum + 1 = 3 ∧
    goesTo (Host.Core.run Sys2Proof.core 3 (jobAt encoding 1 none)) (fun t =>
      goesTo (Host.Core.run Sys2Proof.core 3 encodingEight) (fun t' => t.regs.done && t'.mem == t.mem)) = true :=
  ⟨⟨by decide +kernel, by decide +kernel, by decide +kernel, by decide +kernel, by decide +kernel⟩, rfl,
    by decide +kernel, by decide +kernel⟩

theorem witness_ResetValues : Memory.wf encoding.mem = true ∧ encoding.controller.phase = .encode := by decide +kernel

end Sys2Proof.Tests
end

section
/-! PROOF. The trees the core makes have a shape (41 R140, R142, R146): in an arena whose branches point to nodes of a lower rank no path is longer than the rank of its first node. BuildTree points down to earlier nodes, Parse up to later ones. -/

namespace Sys2Proof.Machine

/-! ### Arenas without a cycle (10 R33) -/

/-- Each branch points to nodes of the arena, and their rank is below its own. -/
def rankedBy (rank : Nat → Nat) (nodes : List Node) : Prop :=
  ∀ i w l r, nodes[i]? = some (.branch w l r) →
    (l < nodes.length ∧ rank l < rank i) ∧ (r < nodes.length ∧ rank r < rank i)

/-- In a ranked arena every node of a rank below the fuel has a shape. -/
theorem shapeAt_isSome_of_rankedBy {rank : Nat → Nat} {nodes : List Node} (h : rankedBy rank nodes) {fuel i : Nat}
    (hi : i < nodes.length) (hr : rank i < fuel) : (shapeAt nodes fuel i).isSome = true := by
  induction fuel generalizing i with
  | zero => omega
  | succ fuel ih =>
    have hn := List.getElem?_eq_getElem hi
    cases hx : nodes[i] with
    | leaf v w => simp [shapeAt, hn, hx]
    | branch w l r =>
      obtain ⟨⟨hl, hlr⟩, hr', hrr⟩ := h i w l r (hx ▸ hn)
      obtain ⟨sl, hsl⟩ := Option.isSome_iff_exists.mp (ih hl (by omega))
      obtain ⟨sr, hsr⟩ := Option.isSome_iff_exists.mp (ih hr' (by omega))
      simp [shapeAt, hn, hx, hsl, hsr]

/-! ### BuildTree (41 R142) -/

/-- The leaves a build starts from hold no branch. -/
theorem leavesOf_rankedBy (rank : Nat → Nat) (bytes : List Byte) : rankedBy rank (leavesOf bytes) := by
  intro i w l r hi
  have hm := List.mem_of_getElem? hi
  simp only [leavesOf, List.mem_filterMap] at hm
  obtain ⟨v, -, hv⟩ := hm
  split at hv <;> cases hv

/-- A byte that occurs has a leaf. -/
theorem leavesOf_ne_nil {bytes : List Byte} (h : bytes ≠ []) : leavesOf bytes ≠ [] := by
  obtain ⟨b, hb⟩ := List.exists_mem_of_ne_nil bytes h
  have hc : bytes.count b ≠ 0 := Nat.ne_of_gt (List.count_pos_iff.mpr hb)
  refine List.ne_nil_of_mem (a := .leaf b (u32 (bytes.count b))) (List.mem_filterMap.mpr ⟨b.toNat, ?_, ?_⟩)
  · exact List.mem_range.mpr b.isLt
  · simp [hc]

/-- A branch appended over two earlier nodes points down. -/
theorem rankedBy_append_branch {nodes : List Node} (h : rankedBy id nodes) (w : Word) {a b : Nat}
    (ha : a < nodes.length) (hb : b < nodes.length) : rankedBy id (nodes ++ [.branch w a b]) := by
  intro i w' l r hi
  rw [List.length_append]
  rcases Nat.lt_or_ge i nodes.length with hlt | hge
  · rw [List.getElem?_append_left hlt] at hi
    obtain ⟨⟨_, hl⟩, _, hr⟩ := h i w' l r hi
    exact ⟨⟨by omega, hl⟩, by omega, hr⟩
  · rw [List.getElem?_append_right hge, List.getElem?_singleton] at hi
    split at hi
    · cases hi
      exact ⟨⟨by omega, by simp only [id]; omega⟩, by omega, by simp only [id]; omega⟩
    · cases hi

/-- The merge loop only appends branches over the nodes of its list, which stay in the arena. -/
theorem mergeLoop_rankedBy {fuel : Nat} {nodes : List Node} {is : List Nat} (h : rankedBy id nodes)
    (his : ∀ i ∈ is, i < nodes.length) :
    rankedBy id (mergeLoop fuel nodes is).1 ∧ nodes.length ≤ (mergeLoop fuel nodes is).1.length ∧
      ∀ i ∈ (mergeLoop fuel nodes is).2, i < (mergeLoop fuel nodes is).1.length := by
  induction fuel generalizing nodes is with
  | zero => exact ⟨h, Nat.le_refl _, his⟩
  | succ fuel ih =>
    match is, his with
    | [], his => exact ⟨h, Nat.le_refl _, his⟩
    | [a], his => exact ⟨h, Nat.le_refl _, his⟩
    | a :: b :: is, his =>
      have hab := rankedBy_append_branch h (u32 (weightAt nodes a + weightAt nodes b)) (his a (by simp)) (his b (by simp))
      obtain ⟨hr, hl, hm⟩ := ih (is := insertByWeight _ nodes.length is) hab (by
        intro i hi
        rw [List.length_append]
        rcases (mem_insertByWeight ..).mp hi with rfl | hi
        · simp
        · have := his i (by simp [hi])
          omega)
      rw [List.length_append] at hl
      exact ⟨hr, by simp only [mergeLoop]; omega, hm⟩

/-- Sorting adds no index. -/
theorem mem_of_mem_sortByWeight {nodes : List Node} {is : List Nat} {i : Nat} (h : i ∈ sortByWeight nodes is) :
    i ∈ is := by
  have hfold : ∀ acc : List Nat, i ∈ is.foldl (fun l i => insertByWeight nodes i l) acc → i ∈ acc ∨ i ∈ is := by
    clear h
    induction is with
    | nil => exact fun acc h => .inl h
    | cons a is ih =>
      intro acc h
      rcases ih _ h with h | h
      · rcases (mem_insertByWeight ..).mp h with rfl | h
        · exact .inr List.mem_cons_self
        · exact .inl h
      · exact .inr (List.mem_cons_of_mem _ h)
  simpa using hfold [] h

/-- A tree built from at least one byte has a shape: no command that builds a tree meets log 12. -/
theorem buildTree_shape_isSome {bytes : List Byte} (h : bytes ≠ []) : (buildTree bytes).shape.isSome = true := by
  have hpos := List.length_pos_iff.mpr (leavesOf_ne_nil h)
  obtain ⟨hr, hl, hm⟩ := mergeLoop_rankedBy (fuel := (leavesOf bytes).length) (leavesOf_rankedBy id bytes)
    (is := sortByWeight (leavesOf bytes) (List.range (leavesOf bytes).length))
    (fun i hi => List.mem_range.mp (mem_of_mem_sortByWeight hi))
  have hroot : (buildTree bytes).root < (buildTree bytes).nodes.length := by
    simp only [buildTree]
    generalize mergeLoop _ _ _ = p at hl hm
    obtain ⟨nodes, is⟩ := p
    cases is with
    | nil => exact Nat.lt_of_lt_of_le hpos hl
    | cons i is => exact hm i List.mem_cons_self
  exact shapeAt_isSome_of_rankedBy hr hroot hroot

/-! ### Parse (41 R146) -/

/-- Each branch points up, to later nodes of the arena. -/
def pointsUp (nodes : List Node) : Prop :=
  ∀ i w l r, nodes[i]? = some (.branch w l r) → (i < l ∧ l < nodes.length) ∧ (i < r ∧ r < nodes.length)

/-- An arena that points up is ranked by the distance to its end. -/
theorem pointsUp.rankedBy {nodes : List Node} (h : pointsUp nodes) : rankedBy (nodes.length - 1 - ·) nodes := by
  intro i w l r hi
  obtain ⟨⟨_, _⟩, _, _⟩ := h i w l r hi
  dsimp only
  omega

/-- A leaf appended points nowhere. -/
theorem pointsUp.append_leaf {nodes : List Node} (h : pointsUp nodes) (v : Byte) (w : Word) :
    pointsUp (nodes ++ [.leaf v w]) := by
  intro i w' l r hi
  rw [List.length_append]
  rcases Nat.lt_or_ge i nodes.length with hlt | hge
  · rw [List.getElem?_append_left hlt] at hi
    obtain ⟨⟨_, _⟩, _, _⟩ := h i w' l r hi
    exact ⟨⟨by omega, by omega⟩, by omega, by omega⟩
  · rw [List.getElem?_append_right hge, List.getElem?_singleton] at hi
    split at hi <;> cases hi

/-- A node may be made a branch over two later nodes. -/
theorem pointsUp.set_branch {nodes : List Node} (h : pointsUp nodes) (w : Word) {i l r : Nat} (hl : i < l)
    (hl' : l < nodes.length) (hr : i < r) (hr' : r < nodes.length) : pointsUp (nodes.set i (.branch w l r)) := by
  intro k w' l' r' hk
  rw [List.length_set]
  by_cases hik : i = k
  · subst hik
    rw [List.getElem?_set_self (by omega)] at hk
    cases hk
    exact ⟨⟨hl, hl'⟩, hr, hr'⟩
  · rw [List.getElem?_set_ne hik] at hk
    exact h k w' l' r' hk

/-- A parsed node is the next of the arena; it is a leaf, or a branch over the two nodes parsed after it. -/
theorem parseNode_out_ok {ms : Nat} {m : Memory} {fuel : Nat} {c : Cursor} {nodes : List Node} {i : Nat}
    (h : (parseNode ms m (fuel + 1) c nodes).out = .ok i) :
    i = nodes.length ∧
      ((∃ v, (parseNode ms m (fuel + 1) c nodes).nodes = nodes ++ [.leaf v 0#32]) ∨
        ∃ c1 c2 nodes2 li ri,
          (parseNode ms m fuel c1 (nodes ++ [.leaf 0#8 0#32])).out = .ok li ∧
          (parseNode ms m fuel c1 (nodes ++ [.leaf 0#8 0#32])).nodes = nodes2 ∧
          (parseNode ms m fuel c2 nodes2).out = .ok ri ∧
          (parseNode ms m (fuel + 1) c nodes).nodes =
            (parseNode ms m fuel c2 nodes2).nodes.set nodes.length (.branch 0#32 li ri)) := by
  generalize hp : parseNode ms m (fuel + 1) c nodes = p at h ⊢
  simp only [parseNode] at hp
  split at hp
  · subst hp; cases h
  split at hp
  · subst hp; cases h
  split at hp
  · subst hp; cases h
  split at hp
  · split at hp
    · subst hp; cases h
    next li hl =>
    split at hp
    · subst hp; cases h
    next ri hr =>
    subst hp; cases h
    exact ⟨rfl, .inr ⟨_, _, _, li, ri, hl, rfl, hr, rfl⟩⟩
  · split at hp
    · subst hp; cases h
    split at hp
    · subst hp; cases h
    subst hp; cases h
    exact ⟨rfl, .inl ⟨(getByte m (getBit m c).2).1, by simp⟩⟩

/-- A parsed node makes the arena longer and keeps it pointing up. -/
theorem parseNode_pointsUp {ms : Nat} {m : Memory} {fuel : Nat} {c : Cursor} {nodes : List Node} {i : Nat}
    (hn : pointsUp nodes) (h : (parseNode ms m fuel c nodes).out = .ok i) :
    i = nodes.length ∧ nodes.length < (parseNode ms m fuel c nodes).nodes.length ∧
      pointsUp (parseNode ms m fuel c nodes).nodes := by
  induction fuel generalizing c nodes i with
  | zero => cases h
  | succ fuel ih =>
    obtain ⟨hi, ⟨v, hv⟩ | ⟨c1, c2, nodes2, li, ri, hl, hnodes, hr, hb⟩⟩ := parseNode_out_ok h
    · rw [hv]
      exact ⟨hi, by simp, hn.append_leaf v 0#32⟩
    · obtain ⟨hli, hlen, hup⟩ := ih (hn.append_leaf 0#8 0#32) hl
      rw [hnodes] at hlen hup
      obtain ⟨hri, hlen', hup'⟩ := ih hup hr
      rw [List.length_append, List.length_singleton] at hli hlen
      rw [hb, List.length_set]
      exact ⟨hi, by omega, hup'.set_branch _ (by omega) (by omega) (by omega) (by omega)⟩

/-- A parsed tree has a shape. -/
theorem parseTree_shape_isSome {ms : Nat} {m : Memory} {c c' : Cursor} {t : Tree}
    (h : parseTree ms m c = (c', .ok t)) : t.shape.isSome = true := by
  simp only [parseTree] at h
  split at h
  · cases h
  · next i hi =>
    cases h
    obtain ⟨hroot, hlen, hup⟩ := parseNode_pointsUp (nodes := []) (by simp [pointsUp]) hi
    rw [List.length_nil] at hroot hlen
    refine shapeAt_isSome_of_rankedBy hup.rankedBy ?_ ?_ <;> simp only <;> omega

/-- A built tree of an existing arena has a shape (10 R33). -/
theorem Tree.shape_isSome_of_wf {t : Tree} (h : t.wf = true) (hb : t.built = true) : t.shape.isSome = true := by
  cases hs : t.shape with
  | some sh => rfl
  | none => simp [Tree.wf, hb, hs] at h

end Sys2Proof.Machine
end

section
/-! PROOF. What the invariant says of the parts of the state that a command, a job body or the join reads. -/

namespace Sys2Proof.Machine

/-! ### Contexts -/

theorem Context.tree_wf {c : Context} (h : c.wf = true) : c.tree.wf = true := by
  simp only [Context.wf, Bool.and_eq_true] at h
  obtain ⟨⟨⟨-, htree⟩, -⟩, -⟩ := h
  exact htree

/-- A valid traversal cursor stands on a node (10 R35). -/
theorem Context.node_of_tcValid {c : Context} (h : c.wf = true) (hv : c.tc.valid = true) :
    ∃ n, c.tree.nodes[c.tc.node]? = some n := by
  simp only [Context.wf, hv, Bool.and_eq_true, Bool.not_true, Bool.false_or, decide_eq_true_eq] at h
  obtain ⟨-, -, hnode⟩ := h
  exact ⟨_, List.getElem?_eq_getElem hnode⟩

/-! ### Jobs -/

/-- While there is a job a phase runs, the jobs are those of its blocks and each is a job of the phase (10 R41). -/
theorem State.jobs_of_controlOk {s : State} {j : Job} (h : s.controlOk = true) (hj : j ∈ s.jobs) :
    j.block < s.plan.blockCount.toNat ∧ j.controlOk s.controller.phase = true := by
  simp only [State.controlOk, State.jobsOk, Bool.and_eq_true] at h
  obtain ⟨⟨⟨-, hjobs⟩, -⟩, -⟩ := h
  split at hjobs
  · rw [List.isEmpty_iff.mp hjobs] at hj
    cases hj
  · simp only [Bool.and_eq_true, beq_iff_eq, List.all_eq_true] at hjobs
    exact ⟨List.mem_range.mp (hjobs.1 ▸ List.mem_map_of_mem hj), hjobs.2 j hj⟩

/-- The program of a job is that of its phase's body (10 R42). -/
theorem Job.prog_of_controlOk {phase : Phase} {j : Job} (h : j.controlOk phase = true) :
    ∃ body, phase.body? j.block = some body ∧ j.prog = jobProgram body := by
  simp only [Job.controlOk, Bool.and_eq_true, beq_iff_eq] at h
  obtain ⟨⟨hprog, -⟩, -⟩ := h
  obtain ⟨body, hb, hp⟩ := Option.map_eq_some_iff.mp hprog.symm
  exact ⟨body, hb, hp.symm⟩

/-- A job runs LACQ, its body, LREL, and then nothing (10 R42). -/
theorem Job.word?_of_prog {j : Job} {body : Instr} (h : j.prog = jobProgram body) :
    j.word? = none ∨ ∃ op, j.word? = some (encode op) ∧ (op = .lacq ∨ op = body ∨ op = .lrel) := by
  simp only [Job.word?, h]
  match j.pc with
  | 0 => exact .inr ⟨_, rfl, .inl rfl⟩
  | 1 => exact .inr ⟨_, rfl, .inr (.inl rfl)⟩
  | 2 => exact .inr ⟨_, rfl, .inr (.inr rfl)⟩
  | 3 => exact .inl rfl

/-- A block index fits the IMM field of a body (30 R92). -/
theorem u32_toNat_of_lt {i : Nat} {w : Word} (h : i < w.toNat) : (u32 i).toNat = i :=
  (BitVec.toNat_ofNat ..).trans (Nat.mod_eq_of_lt (Nat.lt_trans h w.isLt))

/-! ### Plans -/

/-- A block of the partition is never empty (43 R191). -/
theorem Plan.blockLen_ne_zero {p : Plan} {ms i : Nat} (h : p.partitioned ms = true) (hi : i < p.blockCount.toNat) :
    p.blockLen i ≠ 0 := by
  simp only [Plan.partitioned, blockCountOf, Bool.and_eq_true, bne_iff_ne, beq_iff_eq] at h
  obtain ⟨⟨-, hbs⟩, hbc⟩ := h
  have hpos : 0 < p.blockSize.toNat := Nat.pos_of_ne_zero fun h0 => hbs (BitVec.eq_of_toNat_eq h0)
  have hle := (Nat.le_div_iff_mul_le hpos).mp (hbc ▸ hi : i + 1 ≤ _)
  rw [Nat.add_one_mul] at hle
  simp only [Plan.blockLen]
  omega

/-- Each descriptor of a compression plan holds a sound built tree (10 R38). -/
theorem Plan.tree_of_chainC {p : Plan} {ds : List Desc} {i off x : Nat} {d : Desc} (h : p.chainC i off ds = some x)
    (hd : d ∈ ds) : ∃ t, d.tree = some t ∧ t.built = true ∧ t.wf = true := by
  induction ds generalizing i off with
  | nil => cases hd
  | cons e ds ih =>
    simp only [Plan.chainC] at h
    split at h
    · next he =>
      rcases List.mem_cons.mp hd with rfl | hd
      · simp only [Bool.and_eq_true, beq_iff_eq] at he
        obtain ⟨t, ht, hw⟩ := Option.map_eq_some_iff.mp he.2
        exact ⟨t, ht, by simpa using hw⟩
      · exact ih h hd
    · cases h

/-- A block of a held compression plan has a descriptor with a tree that has a shape. -/
theorem Plan.desc_of_compressionOk {p : Plan} {ms i : Nat} (h : p.compressionOk ms = true)
    (hi : i < p.blockCount.toNat) :
    ∃ d t, p.desc[i]? = some d ∧ d.tree = some t ∧ t.shape.isSome = true := by
  simp only [Plan.compressionOk, Bool.and_eq_true, decide_eq_true_eq, beq_iff_eq] at h
  obtain ⟨⟨⟨-, hlen⟩, -⟩, hchain⟩ := h
  obtain ⟨x, hx, -⟩ := Option.map_eq_some_iff.mp hchain
  have hi' : i < p.desc.length := hlen ▸ hi
  obtain ⟨t, ht, hb, hw⟩ := Plan.tree_of_chainC hx (List.getElem_mem hi')
  exact ⟨_, t, List.getElem?_eq_getElem hi', ht, Tree.shape_isSome_of_wf hw hb⟩

/-- A block of a held decompression plan has a descriptor. -/
theorem Plan.desc_of_decompressionOk {p : Plan} {ms i : Nat} (h : p.decompressionOk ms = true)
    (hi : i < p.blockCount.toNat) : ∃ d, p.desc[i]? = some d := by
  simp only [Plan.decompressionOk, Bool.and_eq_true, decide_eq_true_eq] at h
  obtain ⟨⟨⟨-, hlen⟩, -⟩, -⟩ := h
  exact ⟨_, List.getElem?_eq_getElem (hlen ▸ hi)⟩

namespace State.Inv

variable {s : State} (h : s.Inv)
include h

/-- The plan of a running PREPC and the results of its jobs (43 R192). -/
theorem plan_of_analyze (hp : s.controller.phase = .analyze) :
    s.plan.partitioned s.params.memSize = true ∧ ∀ j ∈ s.jobs, s.plan.analyzed j = true := by
  have hplan := h.plan
  simp only [State.planOk, hp, Bool.and_eq_true, List.all_eq_true] at hplan
  exact hplan.1

/-- The plan of a running COMPRESS (43 R194). -/
theorem plan_of_encode (hp : s.controller.phase = .encode) : s.plan.compressionOk s.params.memSize = true := by
  have hplan := h.plan
  simp only [State.planOk, hp, Bool.and_eq_true] at hplan
  exact hplan.1.1

/-- The plan of a running DECOMPRESS (43 R201). -/
theorem plan_of_decode (hp : s.controller.phase = .decode) : s.plan.decompressionOk s.params.memSize = true := by
  have hplan := h.plan
  simp only [State.planOk, hp, Bool.and_eq_true] at hplan
  exact hplan.1.1

/-- Picking an agent touches nothing the invariant speaks of (42 R174). -/
theorem picked (sc : List Nat) (d : Nat) (a : Agent) : (((s.setSched sc).setDraws d).setTurn a).Inv :=
  ⟨h.params, h.memory, h.control, h.contexts, h.plan⟩

end State.Inv

end Sys2Proof.Machine
end

section
/-! PROOF. The invariant after reset. -/

namespace Sys2Proof.Machine

/-- A table that holds no code is sound. -/
theorem LookupTable.wf_default : ({} : LookupTable).wf = true := by
  rw [LookupTable.wf, Vector.toList_replicate, List.all_eq_true]
  intro e he
  rw [List.eq_of_mem_replicate he]
  rfl

/-- A context after reset is sound. -/
theorem Context.wf_default : ({} : Context).wf = true := by
  rw [Context.wf, LookupTable.wf_default]
  rfl

theorem State.resetWith_inv {p : Params} (h : p.wf = true) : (State.resetWith p).Inv where
  params := h
  memory := rfl
  control := by
    simp only [Params.wf, Bool.and_eq_true] at h
    exact h.2
  contexts k := by
    have hk : (State.resetWith p).ctx[k] = {} := by simp [State.resetWith]
    rw [hk, Context.wf_default]
  plan := rfl

/-- Settles O54: reset gives every part of the state the invariant speaks of an empty value, and the parameters are those
of the instantiation. -/
theorem invariantAtReset : Obligations.InvariantAtReset :=
  ⟨fun _ hp => State.resetWith_inv hp, State.resetWith_inv (by decide)⟩

end Sys2Proof.Machine
end

section
/-! PROOF. From a state with the invariant every command, job and join goes on; the machine stops only at a step of the host's own (00 R12, 60 R225, 70 R256). -/

namespace Sys2Proof.Machine

/-! ### The shared operations go on when their parts do -/

/-- The step has a next state: it is neither a fault nor a refusal of the model. -/
def goesOn (r : Result State) : Prop := ∃ t, r = .next t

@[simp] theorem goesOn_next (t : State) : goesOn (.next t) := ⟨t, rfl⟩

theorem goesOn.hostStopOnly {r : Result State} (h : goesOn r) : hostStopOnly r := by
  obtain ⟨t, rfl⟩ := h
  exact trivial

theorem State.primitive_goesOn {s : State} {cs : List Check} {f : State → Result State}
    (h : firstFailure cs = none → goesOn (f s.begin)) : goesOn (s.primitive cs f) := by
  cases hc : firstFailure cs with
  | some e => exact ⟨_, State.primitive_fail hc⟩
  | none =>
    obtain ⟨u, hu⟩ := h hc
    exact ⟨_, State.primitive_pass hc hu⟩

theorem State.withContext_goesOn {s : State} {k : BitVec 4} {f : Fin 4 → Result State} (h : ∀ k, goesOn (f k)) :
    goesOn (s.withContext k f) := by
  rw [State.withContext]
  split
  · exact h _
  · exact goesOn_next _

/-- A command whose effect is a next state in every case. -/
theorem State.withContext_primitive_goesOn (s : State) (k : BitVec 4) (cs : Fin 4 → List Check)
    (g : Fin 4 → State → State) : goesOn (s.withContext k fun k => s.primitive (cs k) fun t => .next (g k t)) :=
  State.withContext_goesOn fun _ => State.primitive_goesOn fun _ => goesOn_next _

theorem State.issueChecked_goesOn (s : State) (cs : List Check) (f : State → State) : goesOn (s.issueChecked cs f) := by
  rw [State.issueChecked]
  split <;> exact goesOn_next _

theorem Tree.withShape_goesOn {t : Tree} {f : Shape → Result State} (ht : t.shape.isSome = true)
    (h : ∀ sh, goesOn (f sh)) : goesOn (t.withShape f) := by
  obtain ⟨sh, hsh⟩ := Option.isSome_iff_exists.mp ht
  rw [Tree.withShape, hsh]
  exact h sh

/-! ### Host commands (40, 41, 43) -/

section
variable {s : State} (h : ∀ k : Fin 4, s.ctx[k].wf = true)
include h

/-- A command that checks for a built tree first finds its shape. -/
theorem State.primitive_withShape_goesOn (k : Fin 4) {cs : List Check} {f : State → Shape → Result State}
    (hf : ∀ sh, goesOn (f s.begin sh)) :
    goesOn (s.primitive (⟨(s.tree k).built, .notReady⟩ :: cs) fun s' => (s.tree k).withShape (f s')) :=
  State.primitive_goesOn fun hc =>
    have hb := firstFailure_none.mp hc _ List.mem_cons_self
    Tree.withShape_goesOn (Tree.shape_isSome_of_wf (Context.tree_wf (h k)) hb) hf

/-- A command that checks for a valid traversal cursor first finds its node. -/
theorem State.primitive_atNode_goesOn (k : Fin 4) {cs : List Check} {f : State → Result State}
    (hf : ∀ n, s.begin.node? k = some n → firstFailure cs = none → goesOn (f s.begin)) :
    goesOn (s.primitive (s.tcReady k :: cs) f) :=
  State.primitive_goesOn fun hc => by
    have hall := firstFailure_none.mp hc
    obtain ⟨n, hn⟩ := Context.node_of_tcValid (h k) (hall _ List.mem_cons_self)
    exact hf n hn (firstFailure_none.mpr fun c hcs => hall c (List.mem_cons_of_mem _ hcs))

theorem execTwrite_goesOn (k : BitVec 4) : goesOn (execTwrite k s) :=
  State.withContext_goesOn fun k => State.primitive_withShape_goesOn h k fun _ => goesOn_next _

theorem execTlookup_goesOn (k : BitVec 4) : goesOn (execTlookup k s) :=
  State.withContext_goesOn fun k => State.primitive_withShape_goesOn h k fun _ => goesOn_next _

theorem execTbitcount_goesOn (k : BitVec 4) : goesOn (execTbitcount k s) :=
  State.withContext_goesOn fun k => State.primitive_withShape_goesOn h k fun _ => goesOn_next _

theorem execTcisleaf_goesOn (k : BitVec 4) : goesOn (execTcisleaf k s) :=
  State.withContext_goesOn fun k => State.primitive_atNode_goesOn h k fun n hn _ => by
    simp only [hn, goesOn_next]

/-- At a branch TCVALUE has failed its check (41 R152). -/
theorem execTcvalue_goesOn (k : BitVec 4) : goesOn (execTcvalue k s) :=
  State.withContext_goesOn fun k => State.primitive_atNode_goesOn h k fun n hn hc => by
    cases n with
    | leaf v w => simp only [hn, goesOn_next]
    | branch w l r =>
      rw [show s.node? k = some (.branch w l r) from hn] at hc
      cases hc

/-- At a leaf TCLEFT and TCRIGHT have failed their check (41 R153, R154). -/
theorem State.primitive_atBranch_goesOn (k : Fin 4) {f : State → Result State}
    (hf : ∀ w l r, s.begin.node? k = some (.branch w l r) → goesOn (f s.begin)) :
    goesOn (s.primitive [s.tcReady k, branchCheck (s.node? k)] f) :=
  State.primitive_atNode_goesOn h k fun n hn hc => by
    cases n with
    | leaf v w =>
      rw [show s.node? k = some (.leaf v w) from hn] at hc
      cases hc
    | branch w l r => exact hf w l r hn

theorem execTcleft_goesOn (k : BitVec 4) : goesOn (execTcleft k s) :=
  State.withContext_goesOn fun k => State.primitive_atBranch_goesOn h k fun w l r hn => by
    simp only [hn, goesOn_next]

theorem execTcright_goesOn (k : BitVec 4) : goesOn (execTcright k s) :=
  State.withContext_goesOn fun k => State.primitive_atBranch_goesOn h k fun w l r hn => by
    simp only [hn, goesOn_next]

omit h in
theorem execTread_goesOn (k : BitVec 4) (s : State) : goesOn (execTread k s) :=
  State.withContext_goesOn fun k => by
    split <;> exact State.primitive_goesOn fun _ => goesOn_next _

omit h in
theorem execPrepd_goesOn (s : State) : goesOn (execPrepd s) := by
  rw [execPrepd]
  split <;> exact goesOn_next _

/-- Every command the host issues goes on: it completes, with or without a fault of 60 R220, or starts a phase. -/
theorem exec_goesOn_of_host (ht : s.turn = .host) (i : Instr) : goesOn (exec i s) := by
  cases i with
  | wbind _ | wseek _ _ _ | wtell _ | wbit _ _ | wbits _ _ _ | rbind _ | rseek _ _ _ | rtell _ | rbit _ | rbyte _
  | tcreate _ | tcroot _ =>
    rw [exec]
    exact State.withContext_primitive_goesOn ..
  | twrite k => exact execTwrite_goesOn h k
  | tread k => exact execTread_goesOn k s
  | tlookup k => exact execTlookup_goesOn h k
  | tbitcount k => exact execTbitcount_goesOn h k
  | tcisleaf k => exact execTcisleaf_goesOn h k
  | tcvalue k => exact execTcvalue_goesOn h k
  | tcleft k => exact execTcleft_goesOn h k
  | tcright k => exact execTcright_goesOn h k
  | prepc | compress | decompress =>
    rw [exec]
    exact State.issueChecked_goesOn ..
  | prepd => exact execPrepd_goesOn s
  | linit _ | lacq | lrel | analyze _ | encode _ | decode _ => exact ⟨_, State.microOp_host ht⟩

/-- A word written to CMD_HI goes on, or would store to a live source (20 R75). -/
theorem State.issue_hostStopOnly (ht : s.turn = .host) : hostStopOnly s.issue := by
  rw [State.issue]
  split
  · exact trivial
  · split
    · exact .inr (.inr rfl)
    · exact (exec_goesOn_of_host h ht _).hostStopOnly

/-- A step of the host stops only for an address that does not exist or a duty broken (20 R60, R61, R75; 10 R22). -/
theorem State.hostStep_hostStopOnly (ht : s.turn = .host) (x : HostStep) : hostStopOnly (s.hostStep x) := by
  cases x with
  | regWrite offset width v =>
    simp only [State.hostStep, State.hostRegWrite]
    split
    · exact .inr (.inl rfl)
    split
    · split
      · exact .inl rfl
      · exact State.issue_hostStopOnly h ht
    · exact trivial
  | regRead offset width =>
    simp only [State.hostStep, State.hostRegRead]
    split
    · exact .inr (.inl rfl)
    · split <;> exact trivial
  | memWrite a v =>
    simp only [State.hostStep, State.hostMemWrite]
    split
    · exact rfl
    split
    · exact .inr (.inr rfl)
    · exact trivial
  | memRead a =>
    simp only [State.hostStep, State.hostMemRead]
    split
    · exact rfl
    · split <;> exact trivial
  | await => exact trivial
  | reset => exact trivial

theorem State.runHost_hostStopOnly (ht : s.turn = .host) : hostStopOnly s.runHost := by
  rw [State.runHost]
  split
  · exact trivial
  · next x rest _ => exact State.hostStep_hostStopOnly (s := s.setInputs rest) h ht x

end

/-! ### Jobs (42) -/

section
variable {s : State} {i : Nat} {j : Job}

theorem execLacq_goesOn (ht : s.turn = .job i) (hj : s.job? i = some j) : goesOn (execLacq s) := by
  rw [execLacq, State.currentJob_job ht hj]
  split <;> exact goesOn_next _

theorem execLrel_goesOn (ht : s.turn = .job i) (hj : s.job? i = some j) : goesOn (execLrel s) := by
  rw [execLrel, State.currentJob_job ht hj]
  split <;> exact goesOn_next _

section
variable {block : Word} (ht : s.turn ≠ .host) (hj : s.job? block.toNat = some j)
include ht hj

/-- ANALYZE of a block that is not empty goes on: BuildTree makes an arena with a shape. -/
theorem execAnalyze_goesOn (hl : s.plan.blockLen block.toNat ≠ 0) : goesOn (execAnalyze block s) := by
  simp only [execAnalyze, State.bodyJob_job ht hj, if_neg hl]
  split
  · exact goesOn_next _
  · refine Tree.withShape_goesOn (buildTree_shape_isSome ?_) fun sh => ?_
    · simpa [Memory.readBytes] using hl
    · split <;> exact goesOn_next _

/-- ENCODE of a block whose descriptor holds a tree with a shape goes on. -/
theorem execEncode_goesOn {d : Desc} {t : Tree} (hd : s.plan.desc[block.toNat]? = some d) (htree : d.tree = some t)
    (hsh : t.shape.isSome = true) : goesOn (execEncode block s) := by
  simp only [execEncode, State.bodyJob_job ht hj, hd, htree]
  split
  · exact goesOn_next _
  split
  · exact goesOn_next _
  · exact Tree.withShape_goesOn hsh fun _ => goesOn_next _

/-- DECODE of a block with a descriptor goes on: Parse makes an arena with a shape, or ends in a fault of the job. -/
theorem execDecode_goesOn {d : Desc} (hd : s.plan.desc[block.toNat]? = some d) : goesOn (execDecode block s) := by
  simp only [execDecode, State.bodyJob_job ht hj, hd]
  split
  · exact goesOn_next _
  · next hp => exact Tree.withShape_goesOn (parseTree_shape_isSome hp) fun _ => goesOn_next _

end

/-- A job runs the micro-operation its program holds. -/
theorem State.runJob_of_word {op : Instr} (hj : s.job? i = some j) (hw : j.word? = some (encode op))
    (hwf : decode (encode op) = .ok op) (hm : op.isMicroOp = true) : s.runJob i = exec op s := by
  simp only [State.runJob, hj, hw, hwf, hm, if_true]

/-- The body of a job's program is a micro-operation that decodes from its word (30 R98). -/
theorem decode_body {phase : Phase} {body : Instr} (h : phase.body? i = some body) :
    decode (encode body) = .ok body ∧ body.isMicroOp = true := by
  cases phase <;> cases h
  · exact ⟨Laws.RoundTrip.analyze _ rfl, rfl⟩
  · exact ⟨Laws.RoundTrip.encode _ rfl, rfl⟩
  · exact ⟨Laws.RoundTrip.decode _ rfl, rfl⟩

/-- The body of the running phase goes on for every block of the plan. -/
theorem exec_body_goesOn {body : Instr} (h : s.Inv) (ht : s.turn = .job i) (hj : s.job? i = some j)
    (hi : i < s.plan.blockCount.toNat) (hb : s.controller.phase.body? i = some body) : goesOn (exec body s) := by
  have ht' : s.turn ≠ .host := by rw [ht]; exact Agent.noConfusion
  have hu := u32_toNat_of_lt hi
  rw [← hu] at hj
  cases hp : s.controller.phase <;> rw [hp] at hb <;> cases hb
  case analyze =>
    refine execAnalyze_goesOn ht' hj ?_
    rw [hu]
    exact Plan.blockLen_ne_zero (h.plan_of_analyze hp).1 hi
  case encode =>
    obtain ⟨d, t, hd, htree, hsh⟩ := Plan.desc_of_compressionOk (h.plan_of_encode hp) hi
    exact execEncode_goesOn ht' hj (hu.symm ▸ hd) htree hsh
  case decode =>
    obtain ⟨d, hd⟩ := Plan.desc_of_decompressionOk (h.plan_of_decode hp) hi
    exact execDecode_goesOn ht' hj (hu.symm ▸ hd)

/-- A job of JOBS goes on: it is past its program, or at LACQ, its body or LREL (42 R171 to R177). -/
theorem State.runJob_goesOn (h : s.Inv) (ht : s.turn = .job i) (hj : s.job? i = some j) : goesOn (s.runJob i) := by
  obtain ⟨hmem, rfl⟩ := State.job?_some hj
  obtain ⟨hi, hok⟩ := State.jobs_of_controlOk h.control hmem
  obtain ⟨body, hb, hprog⟩ := Job.prog_of_controlOk hok
  rcases Job.word?_of_prog hprog with hw | ⟨op, hw, rfl | rfl | rfl⟩
  · exact ⟨s, by simp only [State.runJob, hj, hw]⟩
  · rw [State.runJob_of_word hj hw (Laws.RoundTrip.lacq rfl) rfl]
    exact execLacq_goesOn ht hj
  · obtain ⟨hdec, hmicro⟩ := decode_body hb
    rw [State.runJob_of_word hj hw hdec hmicro]
    exact exec_body_goesOn h ht hj hi hb
  · rw [State.runJob_of_word hj hw (Laws.RoundTrip.lrel rfl) rfl]
    exact execLrel_goesOn ht hj

end

/-! ### The join (42 R179, 43 R190) -/

/-- No block is reported exactly when no job has a fault. -/
theorem lowestFailure_eq_none {js : List Job} : lowestFailure js = none ↔ ∀ j ∈ js, j.err = none := by
  induction js with
  | nil => simp [lowestFailure]
  | cons j js ih =>
    rw [lowestFailure, List.forall_mem_cons, ← ih]
    cases j.err with
    | none => simp
    | some e =>
      cases lowestFailure js with
      | none => simp
      | some f =>
        dsimp only
        split <;> simp

/-- The results are there when each job has one. -/
theorem analyzeResults_isSome {js : List Job} (h : ∀ j ∈ js, j.res.isSome = true) :
    (analyzeResults js).isSome = true := by
  induction js with
  | nil => rfl
  | cons j js ih =>
    obtain ⟨hj, hjs⟩ := List.forall_mem_cons.mp h
    obtain ⟨r, hr⟩ := Option.isSome_iff_exists.mp hj
    obtain ⟨rs, hrs⟩ := Option.isSome_iff_exists.mp (ih hjs)
    simp [analyzeResults, hr, hrs]

/-- A job that has finished its ANALYZE without a fault has a result (42 R175). -/
theorem Plan.res_of_analyzed {p : Plan} {j : Job} (h : p.analyzed j = true) (hpc : j.pc = 3) (he : j.err = none) :
    j.res.isSome = true := by
  cases hr : j.res with
  | some r => rfl
  | none =>
    rw [Plan.analyzed, hr, hpc, he] at h
    cases h

/-- An enabled join goes on: after an analyze phase every block has a result or a fault (43 R192). -/
theorem State.join_goesOn {s : State} (h : s.Inv) (hr : s.joinReady = true) : goesOn s.join := by
  simp only [State.joinReady, Bool.and_eq_true, List.all_eq_true, beq_iff_eq] at hr
  rw [State.join]
  cases hp : s.controller.phase with
  | idle => exact goesOn_next _
  | encode => exact goesOn_next _
  | decode => exact goesOn_next _
  | analyze =>
    cases hf : lowestFailure s.jobs with
    | some f => exact goesOn_next _
    | none =>
      obtain ⟨rs, hrs⟩ := Option.isSome_iff_exists.mp (analyzeResults_isSome fun j hj =>
        Plan.res_of_analyzed ((h.plan_of_analyze hp).2 j hj) (hr.2 j hj) (lowestFailure_eq_none.mp hf j hj))
      simp only [hrs, goesOn_next]

/-! ### The step -/

/-- An enabled job is in JOBS. -/
theorem State.job?_of_enabled {s : State} {i : Nat} (h : .job i ∈ s.enabled) : ∃ j, s.job? i = some j := by
  obtain ⟨j, hj, rfl⟩ : ∃ j ∈ s.jobs, j.block = i := by
    simp only [State.enabled, List.mem_append, List.mem_map, List.mem_filter] at h
    rcases h with (h | h) | ⟨j, ⟨hj, -⟩, hb⟩
    · split at h <;> simp at h
    · split at h <;> simp at h
    · exact ⟨j, hj, Agent.job.inj hb⟩
  exact Option.isSome_iff_exists.mp (List.find?_isSome.mpr ⟨j, hj, beq_self_eq_true _⟩)

/-- The controller is enabled for a join alone. -/
theorem State.joinReady_of_enabled {s : State} (h : .controller ∈ s.enabled) : s.joinReady = true := by
  simp only [State.enabled, List.mem_append, List.mem_map] at h
  rcases h with (h | h) | ⟨j, -, hb⟩
  · split at h <;> simp at h
  · split at h
    · assumption
    · cases h
  · cases hb

/-- The step of an agent that is enabled. -/
theorem State.runAgent_hostStopOnly {s : State} {a : Agent} (h : s.Inv) (ha : a ∈ s.enabled) (sc : List Nat) (d : Nat) :
    hostStopOnly (((s.setSched sc).setDraws d).runAgent a) := by
  have hp := h.picked sc d a
  cases a with
  | host => exact State.runHost_hostStopOnly hp.contexts rfl
  | controller => exact (State.join_goesOn hp (State.joinReady_of_enabled ha)).hostStopOnly
  | job i =>
    obtain ⟨j, hj⟩ := State.job?_of_enabled ha
    exact (State.runJob_goesOn hp rfl hj).hostStopOnly

/-- Settles O56, by the agent whose step is picked: the host's own accesses and issues can stop, a job and the join
always go on. -/
theorem onlyTheHostStopsTheMachine : Obligations.OnlyTheHostStopsTheMachine := by
  intro s h
  rw [step]
  split
  · exact trivial
  · next a t hp =>
    obtain ⟨ha, sc, d, rfl⟩ := State.pick_some hp
    exact State.runAgent_hostStopOnly h ha sc d

end Sys2Proof.Machine
end

section
/-! PROOF. The encoding (30 R90 to R98): a word decodes to a command exactly when it matches a row of the opcode table, and the encoder gives that word back. -/

namespace Sys2Proof

/-! ### The rows of the table -/

theorem eq_of_nodup_map {α β : Type} {f : α → β} {l : List α} (h : (l.map f).Nodup) {a b : α} (ha : a ∈ l)
    (hb : b ∈ l) (hab : f a = f b) : a = b := by
  obtain ⟨i, hi, rfl⟩ := List.getElem_of_mem ha
  obtain ⟨j, hj, rfl⟩ := List.getElem_of_mem hb
  have hmap : (l.map f)[i]'(by simpa using hi) = (l.map f)[j]'(by simpa using hj) := by
    simpa only [List.getElem_map] using hab
  simp only [(List.getElem_inj h).mp hmap]

/-- No two rows have one opcode (30 R94). -/
theorem opcodes_nodup : (opcodeRows.map Row.opc).Nodup := by decide

theorem Row.eq_of_opc_eq {r r' : Row} (hr : r ∈ opcodeRows) (hr' : r' ∈ opcodeRows) (h : r.opc = r'.opc) : r = r' :=
  eq_of_nodup_map opcodes_nodup hr hr' h

/-- The fields a row uses, the others zero: what its command says of a word (30 R94). -/
def Row.kept (r : Row) (f : Fields) : Fields where
  opc := r.opc
  ctx := if r.used.ctx then f.ctx else 0#4
  n := if r.used.n then f.n else 0#6
  bit := if r.used.bit then f.bit else 0#3
  imm := f.imm &&& r.used.imm

/-- A mask of ones keeps a field. -/
theorem and_ones {n : Nat} (x : BitVec n) {m : BitVec n} (hm : m = BitVec.allOnes n) : x &&& m = x := by
  rw [hm, BitVec.and_allOnes]

/-- IMM[0] alone is the operand of WBIT. -/
theorem ite_getElem_zero_eq_and_one (x : Word) : (if x[0] then 1#32 else 0#32) = x &&& 1#32 := by
  rw [BitVec.and_one_eq_setWidth_ofBool_getLsbD, BitVec.getLsbD_eq_getElem (by omega)]
  cases x[0] <;> rfl

/-- The encoder writes the opcode of a row and the fields the row uses. -/
theorem Row.encode_build {r : Row} (hr : r ∈ opcodeRows) (f : Fields) : encode (r.build f) = (r.kept f).word := by
  have himm : f.imm &&& immAll = f.imm := and_ones _ rfl
  revert r
  simp [opcodeRows, cursorRows, treeRows, orchestrationRows, microRows, encode, Row.kept, himm,
    ite_getElem_zero_eq_and_one]

/-- A row's command names a context exactly when the row uses CTX (30 R93). -/
theorem Row.context?_build {r : Row} (hr : r ∈ opcodeRows) (f : Fields) :
    (r.build f).context? = if r.used.ctx then some f.ctx else none := by
  revert r
  simp [opcodeRows, cursorRows, treeRows, orchestrationRows, microRows, Instr.context?]

/-! ### Match and mask (30 R94) -/

/-- A field the row does not use is masked whole, one it uses not at all. -/
theorem and_unless_used {n : Nat} (x : BitVec n) (used : Bool) {m : BitVec n} (hm : m = BitVec.allOnes n) :
    x &&& (if used then 0#n else m) = 0#n ↔ used = true ∨ x = 0#n := by
  cases used <;> simp [and_ones x hm]

/-- A mask applies field by field. -/
theorem fieldsOf_and (v w : Cmd) : fieldsOf (v &&& w) =
    { opc := (fieldsOf v).opc &&& (fieldsOf w).opc, ctx := (fieldsOf v).ctx &&& (fieldsOf w).ctx
      rsv15 := (fieldsOf v).rsv15 &&& (fieldsOf w).rsv15, n := (fieldsOf v).n &&& (fieldsOf w).n
      rsv23 := (fieldsOf v).rsv23 &&& (fieldsOf w).rsv23, bit := (fieldsOf v).bit &&& (fieldsOf w).bit
      rsv31 := (fieldsOf v).rsv31 &&& (fieldsOf w).rsv31, imm := (fieldsOf v).imm &&& (fieldsOf w).imm } := by
  simp only [fieldsOf, BitVec.extractLsb'_and]

/-- A word matches a row when its opcode is the row's and every bit outside the fields used is zero. -/
theorem Row.matches_iff (r : Row) (w : Cmd) :
    w &&& r.mask = r.matchWord ↔
      (fieldsOf w).opc = r.opc ∧ (fieldsOf w).reservedZero = true ∧ (fieldsOf w).unusedZero r.used = true := by
  rw [← Function.Injective.eq_iff (f := fieldsOf) fun _ _ h => fieldsOf_injective h, fieldsOf_and, Row.mask, Row.matchWord,
    fieldsOf_word, fieldsOf_word]
  obtain ⟨opc, ctx, rsv15, n, rsv23, bit, rsv31, imm⟩ := fieldsOf w
  simp (disch := decide) only [Fields.mk.injEq, Fields.reservedZero, Fields.unusedZero, Bool.and_eq_true, Bool.or_eq_true,
    beq_iff_eq, and_ones, and_unless_used]
  constructor
  · rintro ⟨hopc, hctx, h15, hn, h23, hbit, h31, himm⟩
    exact ⟨hopc, ⟨⟨h15, h23⟩, h31⟩, ⟨⟨hctx, hn⟩, hbit⟩, himm⟩
  · rintro ⟨hopc, ⟨⟨h15, h23⟩, h31⟩, ⟨⟨hctx, hn⟩, hbit⟩, himm⟩
    exact ⟨hopc, hctx, h15, hn, h23, hbit, h31, himm⟩

theorem and_eq_self_of_and_not_eq_zero {n : Nat} {x m : BitVec n} (h : x &&& ~~~m = 0#n) : x &&& m = x := by
  ext j hj
  have hj' := congrArg (·[j]) h
  simp only [BitVec.getElem_and, BitVec.getElem_not, BitVec.getElem_zero] at hj' ⊢
  cases hm : m[j] <;> simp_all

theorem ite_eq_self_of_used {n : Nat} {x : BitVec n} {used : Bool} (h : used = true ∨ x = 0#n) :
    (if used then x else 0#n) = x := by
  cases used <;> simp_all

/-- A word that matches a row has nothing but the fields the row uses. -/
theorem Row.kept_eq_self {r : Row} {f : Fields} (hopc : f.opc = r.opc) (hreserved : f.reservedZero = true)
    (hunused : f.unusedZero r.used = true) : r.kept f = f := by
  obtain ⟨opc, ctx, rsv15, n, rsv23, bit, rsv31, imm⟩ := f
  simp only [Fields.reservedZero, Fields.unusedZero, Bool.and_eq_true, Bool.or_eq_true, beq_iff_eq] at hreserved hunused
  obtain ⟨⟨h15, h23⟩, h31⟩ := hreserved
  obtain ⟨⟨⟨hctx, hn⟩, hbit⟩, himm⟩ := hunused
  rw [Row.kept, Fields.mk.injEq]
  exact ⟨hopc.symm, ite_eq_self_of_used hctx, h15.symm, ite_eq_self_of_used hn, h23.symm, ite_eq_self_of_used hbit,
    h31.symm, and_eq_self_of_and_not_eq_zero himm⟩

theorem Row.opc_of_matches {r : Row} {w : Cmd} (h : w &&& r.mask = r.matchWord) : w.extractLsb' 0 8 = r.opc := by
  obtain ⟨hopc, -⟩ := (r.matches_iff w).mp h
  exact hopc

/-- Only one row matches a word (30 R94). -/
theorem Row.eq_of_matches {r r' : Row} {w : Cmd} (hr : r ∈ opcodeRows) (hr' : r' ∈ opcodeRows)
    (h : w &&& r.mask = r.matchWord) (h' : w &&& r'.mask = r'.matchWord) : r = r' :=
  Row.eq_of_opc_eq hr hr' ((Row.opc_of_matches h).symm.trans (Row.opc_of_matches h'))

/-! ### The decoder (30 R95) -/

/-- The row of an opcode is the one the decoder finds. -/
theorem find?_opcodeRows_iff {r : Row} {opc : BitVec 8} :
    opcodeRows.find? (fun r => r.opc == opc) = some r ↔ r ∈ opcodeRows ∧ r.opc = opc := by
  constructor
  · intro h
    exact ⟨List.mem_of_find?_eq_some h, by simpa using List.find?_some h⟩
  · rintro ⟨hr, rfl⟩
    cases h : opcodeRows.find? (fun r' => r'.opc == r.opc) with
    | none => exact absurd (List.find?_eq_none.mp h r hr) (by simp)
    | some r' =>
      have hopc : r'.opc = r.opc := by simpa using List.find?_some h
      rw [Row.eq_of_opc_eq (List.mem_of_find?_eq_some h) hr hopc]

/-- The decoder takes the words that match a row, with an existing context where the row uses CTX. -/
theorem decode_eq_ok_iff {w : Cmd} {i : Instr} :
    decode w = .ok i ↔ ∃ r ∈ opcodeRows, w &&& r.mask = r.matchWord ∧
      (r.used.ctx = true → ctxExists (fieldsOf w).ctx = true) ∧ i = r.build (fieldsOf w) := by
  have hrow : decode w = .ok i ↔ ∃ r, opcodeRows.find? (fun r => r.opc == (fieldsOf w).opc) = some r ∧
      (fieldsOf w).reservedZero = true ∧ (fieldsOf w).unusedZero r.used = true ∧
      (r.used.ctx = true → ctxExists (fieldsOf w).ctx = true) ∧ i = r.build (fieldsOf w) := by
    simp only [decode]
    cases opcodeRows.find? (fun r => r.opc == (fieldsOf w).opc) with
    | none => simp
    | some r =>
      simp only [Option.some.injEq, exists_eq_left', @eq_comm _ i]
      split
      · simp_all
      split
      · simp_all
      split <;> simp_all
  rw [hrow]
  refine exists_congr fun r => ?_
  rw [find?_opcodeRows_iff, Row.matches_iff]
  constructor
  · rintro ⟨⟨hr, hopc⟩, hreserved, hunused, hrest⟩
    exact ⟨hr, ⟨hopc.symm, hreserved, hunused⟩, hrest⟩
  · rintro ⟨hr, ⟨hopc, hreserved, hunused⟩, hrest⟩
    exact ⟨⟨hr, hopc.symm⟩, hreserved, hunused, hrest⟩

/-! ### The statements -/

/-- Settles O1: the round trip of each command, one by one. -/
theorem decodeOfEncode : Obligations.DecodeOfEncode := fun i =>
  match i with
  | .wbind k => Laws.RoundTrip.wbind k
  | .wseek k b x => Laws.RoundTrip.wseek k b x
  | .wtell k => Laws.RoundTrip.wtell k
  | .wbit k v => Laws.RoundTrip.wbit k v
  | .wbits k v n => Laws.RoundTrip.wbits k v n
  | .rbind k => Laws.RoundTrip.rbind k
  | .rseek k b x => Laws.RoundTrip.rseek k b x
  | .rtell k => Laws.RoundTrip.rtell k
  | .rbit k => Laws.RoundTrip.rbit k
  | .rbyte k => Laws.RoundTrip.rbyte k
  | .tcreate k => Laws.RoundTrip.tcreate k
  | .twrite k => Laws.RoundTrip.twrite k
  | .tread k => Laws.RoundTrip.tread k
  | .tlookup k => Laws.RoundTrip.tlookup k
  | .tbitcount k => Laws.RoundTrip.tbitcount k
  | .tcroot k => Laws.RoundTrip.tcroot k
  | .tcisleaf k => Laws.RoundTrip.tcisleaf k
  | .tcvalue k => Laws.RoundTrip.tcvalue k
  | .tcleft k => Laws.RoundTrip.tcleft k
  | .tcright k => Laws.RoundTrip.tcright k
  | .prepc => Laws.RoundTrip.prepc
  | .compress => Laws.RoundTrip.compress
  | .prepd => Laws.RoundTrip.prepd
  | .decompress => Laws.RoundTrip.decompress
  | .linit p => Laws.RoundTrip.linit p
  | .lacq => Laws.RoundTrip.lacq
  | .lrel => Laws.RoundTrip.lrel
  | .analyze b => Laws.RoundTrip.analyze b
  | .encode b => Laws.RoundTrip.encode b
  | .decode b => Laws.RoundTrip.decode b

/-- Settles O2: the encoder writes the fields the row uses, and a word that matches the row has no others. -/
theorem encodeOfDecode : Obligations.EncodeOfDecode := by
  intro w i h
  obtain ⟨r, hr, hmatch, hctx, rfl⟩ := decode_eq_ok_iff.mp h
  obtain ⟨hopc, hreserved, hunused⟩ := (r.matches_iff w).mp hmatch
  constructor
  · rw [Instr.wf, Row.context?_build hr]
    cases hu : r.used.ctx with
    | false => rfl
    | true => exact hctx hu
  · rw [Row.encode_build hr, Row.kept_eq_self hopc hreserved hunused, word_fieldsOf]

/-- The model's rows have the match words and masks of 30 R94. -/
theorem opcodeRows_masks : opcodeRows.map (fun r => (r.mnemonic, r.matchWord, r.mask)) = Machine.commandMasks := by decide

/-- Settles O3: the masks are compared row by row, and a word that matches two rows has the opcode of both. -/
theorem decoderFollowsTheTable : Obligations.DecoderFollowsTheTable := by
  refine ⟨opcodeRows_masks, fun w i => ?_, fun w r r' hr hr' h h' => by rw [Row.eq_of_matches hr hr' h h']⟩
  simp only [decode_eq_ok_iff, ctxExists, decide_eq_true_eq]
  rfl

/-- Settles O5: the decoder computes on each word. -/
theorem specWordsDecode : Obligations.SpecWordsDecode := ⟨rfl, rfl, rfl, rfl, rfl, rfl, rfl, rfl⟩

end Sys2Proof
end

section
/-! PROOF. Words that are no command, contexts that do not exist and micro-operations from the host (30 R93, R95, R96; 60 R221). -/

namespace Sys2Proof.Machine

/-! ### IllegalCommand -/

/-- IllegalCommand changes only STATUS and ERRINFO (60 R223). -/
theorem State.illegalCommand_eq (s : State) : s.illegalCommand = s.failedOnly .illegalCommand 0xFFFFFFFF#32 := rfl

/-- A primitive command whose first failed check is `e` changes only STATUS and ERRINFO (60 R222, R223). -/
theorem State.primitive_eq_failedOnly {s : State} {cs : List Check} {f : State → Result State} {e : FaultCode}
    (h : firstFailure cs = some e) : s.primitive cs f = .next (s.failedOnly e 0xFFFFFFFF#32) :=
  State.primitive_fail h

theorem State.withContext_of_lt {s : State} {k : BitVec 4} {f : Fin 4 → Result State} (h : k.toNat < 4) :
    s.withContext k f = f ⟨k.toNat, h⟩ :=
  dif_pos h

theorem State.withContext_of_le {s : State} {k : BitVec 4} {f : Fin 4 → Result State} (h : 4 ≤ k.toNat) :
    s.withContext k f = .next (s.failedOnly .illegalCommand 0xFFFFFFFF#32) :=
  dif_neg (Nat.not_lt.mpr h)

/-- A context command looks up its context before all else (30 R95, 60 R222). -/
theorem exec_of_missing_context {i : Instr} {k : BitVec 4} (h : i.context? = some k) (hk : 4 ≤ k.toNat) (s : State) :
    exec i s = .next (s.failedOnly .illegalCommand 0xFFFFFFFF#32) := by
  cases i <;> cases h <;> rw [exec] <;> exact State.withContext_of_le hk

/-- A micro-operation looks at its issuer before all else: from the host it is IllegalCommand (30 R95, 60 R221). -/
theorem exec_microOp_of_host {i : Instr} {s : State} (h : i.isMicroOp = true) (ht : s.turn = .host) :
    exec i s = .next (s.failedOnly .illegalCommand 0xFFFFFFFF#32) := by
  cases i <;> cases h <;> exact State.microOp_host ht

/-- Settles O12: the context and the issuer are looked at before all else. -/
theorem missingContextIsIllegal : Obligations.MissingContextIsIllegal :=
  ⟨fun _ _ s hi hk => exec_of_missing_context hi hk s, fun _ _ hi ht => exec_microOp_of_host hi ht⟩

/-! ### Words the host may not issue (30 R96) -/

/-- A micro-operation stores to no live source (20 R75). -/
theorem State.storesToLiveSource_of_isMicroOp {s : State} {i : Instr} (h : i.isMicroOp = true) :
    s.storesToLiveSource i = false := by
  rw [Bool.eq_false_iff]
  intro hs
  obtain ⟨-, k, -, ⟨v, rfl⟩ | ⟨v, n, rfl⟩ | rfl⟩ := State.storesToLiveSource_cases hs <;> cases h

/-- The opcodes the table leaves unassigned (30 R96). -/
theorem opc_assigned {r : Row} (hr : r ∈ opcodeRows) :
    ¬ (r.opc.toNat = 0x00 ∨ (0x06 ≤ r.opc.toNat ∧ r.opc.toNat ≤ 0x08) ∨ (0x0E ≤ r.opc.toNat ∧ r.opc.toNat ≤ 0x0F) ∨
      (0x15 ≤ r.opc.toNat ∧ r.opc.toNat ≤ 0x17) ∨ (0x1D ≤ r.opc.toNat ∧ r.opc.toNat ≤ 0x1F) ∨
      (0x24 ≤ r.opc.toNat ∧ r.opc.toNat ≤ 0x2F) ∨ 0x36 ≤ r.opc.toNat) := by
  revert r
  decide

/-- The rows from 0x30 on are the micro-operations (30 R94). -/
theorem isMicroOp_build {r : Row} (hr : r ∈ opcodeRows) (h : 0x30 ≤ r.opc.toNat) (f : Fields) :
    (r.build f).isMicroOp = true := by
  revert r
  simp [opcodeRows, cursorRows, treeRows, orchestrationRows, microRows, Instr.isMicroOp]

/-- A host word is IllegalCommand when every row that takes it is a micro-operation's (30 R95, R96). -/
theorem State.issue_eq_illegal {s : State} (ht : s.turn = .host)
    (h : ∀ r ∈ opcodeRows, commandWord s.regs.cmdHi s.regs.cmdLo &&& r.mask = r.matchWord →
      (r.used.ctx = true → ctxExists (fieldsOf (commandWord s.regs.cmdHi s.regs.cmdLo)).ctx = true) →
      0x30 ≤ r.opc.toNat) :
    s.issue = .next (s.failedOnly .illegalCommand 0xFFFFFFFF#32) := by
  rw [State.issue]
  split
  · exact congrArg _ s.illegalCommand_eq
  · next i hi =>
    obtain ⟨r, hr, hmatch, hctx, rfl⟩ := decode_eq_ok_iff.mp hi
    have hmicro := isMicroOp_build hr (h r hr hmatch hctx) (fieldsOf (commandWord s.regs.cmdHi s.regs.cmdLo))
    rw [State.storesToLiveSource_of_isMicroOp hmicro]
    exact exec_microOp_of_host hmicro ht

/-- A pair of match and mask of 30 R94 is that of a row. -/
theorem row_of_mem_commandMasks {e : String × Cmd × Cmd} (h : e ∈ commandMasks) :
    ∃ r ∈ opcodeRows, (r.mnemonic, r.matchWord, r.mask) = e :=
  List.mem_map.mp (opcodeRows_masks ▸ h)

/-- The context commands are the rows that use CTX (30 R93, R94). -/
theorem row_of_mem_contextMasks {e : String × Cmd × Cmd} (h : e ∈ contextMasks) :
    ∃ r ∈ opcodeRows, r.used.ctx = true ∧ (r.mnemonic, r.matchWord, r.mask) = e := by
  have hrows : (opcodeRows.filter (·.used.ctx)).map (fun r => (r.mnemonic, r.matchWord, r.mask)) = contextMasks := by
    decide
  obtain ⟨r, hr, he⟩ := List.mem_map.mp (hrows ▸ h)
  obtain ⟨hr, hctx⟩ := List.mem_filter.mp hr
  exact ⟨r, hr, hctx, he⟩

/-- The opcode stands in the low byte of a row's match word (30 R90). -/
theorem Row.matchWord_opc (r : Row) : r.matchWord.extractLsb' 0 8 = r.opc :=
  congrArg Fields.opc (fieldsOf_word { opc := r.opc })

/-- A word of an opcode and its fields, the reserved ones zero (30 R90). -/
theorem formWord_eq_word (opc : BitVec 8) (k : BitVec 4) (n : BitVec 6) (bit : BitVec 3) (imm : Word) :
    formWord opc k n bit imm = Fields.word { opc := opc, ctx := k, n := n, bit := bit, imm := imm } := by
  apply BitVec.eq_of_getLsbD_eq
  intro i hi
  simp only [formWord, Fields.word, BitVec.getLsbD_append, BitVec.getLsbD_or, BitVec.getLsbD_shiftLeft,
    BitVec.getLsbD_setWidth, BitVec.getLsbD_zero]
  repeat' split
  all_goals simp (disch := omega) only [BitVec.getLsbD_of_ge, Nat.sub_sub, decide_eq_true, decide_eq_false, Bool.or_false,
    Bool.false_or, Bool.and_true, Bool.and_false, Bool.false_and, Bool.true_and, Bool.not_true, Bool.not_false]

/-- A WBITS of more than 32 bits ends in BitCountRange (30 R96, 40 R125). -/
theorem exec_wbits_of_gt {k : BitVec 4} {n : BitVec 6} (hk : k.toNat < 4) (hn : 33 ≤ n.toNat) (v : Word) (s : State) :
    exec (.wbits k v n) s = .next (s.failedOnly .bitCountRange 0xFFFFFFFF#32) := by
  have hn' : ¬ n.toNat ≤ 32 := by omega
  rw [exec, execWbits, State.withContext_of_lt hk]
  exact State.primitive_eq_failedOnly (by simp [State.wbitsChecks, firstFailure, hn'])

/-- A WBITS of more than 32 bits stores nothing (60 R223). -/
theorem State.storesToLiveSource_wbits_of_gt {s : State} {n : BitVec 6} (hn : 33 ≤ n.toNat) (k : BitVec 4) (v : Word) :
    s.storesToLiveSource (.wbits k v n) = false := by
  have hn' : ¬ n.toNat ≤ 32 := by omega
  simp [State.storesToLiveSource, State.storesToSource, State.wbitsChecks, firstFailure, hn']

/-- Settles O4: a row that takes a word of the first five kinds is a micro-operation's, if there is one at all. -/
theorem illegalWordsFault : Obligations.IllegalWordsFault := by
  intro s ht w opc illegal
  refine ⟨fun h => ?_, fun h => ?_, fun h => ?_, ?_, ?_, ?_⟩
  · exact State.issue_eq_illegal ht fun r hr hmatch _ => absurd (Row.opc_of_matches hmatch ▸ h) (opc_assigned hr)
  · exact State.issue_eq_illegal ht fun r _ hmatch _ => Row.opc_of_matches hmatch ▸ h.1
  · refine State.issue_eq_illegal ht fun r _ hmatch _ => ?_
    obtain ⟨-, hreserved, -⟩ := (r.matches_iff _).mp hmatch
    simp only [Fields.reservedZero, fieldsOf, Bool.and_eq_true, beq_iff_eq] at hreserved
    obtain ⟨⟨h15, h23⟩, h31⟩ := hreserved
    rcases h with h | h | h <;> contradiction
  · rintro ⟨e, he, hopc, hne⟩
    obtain ⟨r', hr', rfl⟩ := row_of_mem_commandMasks he
    refine State.issue_eq_illegal ht fun r hr hmatch _ => ?_
    rw [Row.matchWord_opc] at hopc
    rw [Row.eq_of_opc_eq hr hr' ((Row.opc_of_matches hmatch).symm.trans hopc)] at hmatch
    exact absurd hmatch hne
  · rintro ⟨e, he, hmatch'⟩ hk
    obtain ⟨r', hr', hused, rfl⟩ := row_of_mem_contextMasks he
    refine State.issue_eq_illegal ht fun r hr hmatch hctx => ?_
    rw [Row.eq_of_matches hr hr' hmatch hmatch'] at hctx
    exact absurd (of_decide_eq_true (hctx hused)) (Nat.not_lt.mpr hk)
  · intro k v n hw hk hn
    have hdecode : decode w = .ok (.wbits k v n) := by
      rw [hw, formWord_eq_word]
      exact Laws.RoundTrip.wbits k v n (decide_eq_true hk)
    refine ⟨hdecode, ?_⟩
    rw [State.issue, hdecode]
    simp only [State.storesToLiveSource_wbits_of_gt hn, Bool.false_eq_true, if_false, exec_wbits_of_gt hk hn]

end Sys2Proof.Machine
end

section
/-! PROOF. The whole next states of the seeks and tells (40 R121 to R129), of TLOOKUP and TBITCOUNT (41 R147, R149) and of the limiter's micro-operations (42 R170 to R172). -/

namespace Sys2Proof.Machine

/-- Settles O17: on an existing context the four commands have no check to fail. -/
theorem seekAndTellCommands : Obligations.SeekAndTellCommands := by
  intro k s h
  refine ⟨fun byteOffset bit => ?_, fun byteOffset bit => ?_, ?_, ?_⟩
  · rw [exec, execWseek, State.withContext_of_lt h]; rfl
  · rw [exec, execRseek, State.withContext_of_lt h]; rfl
  · rw [exec, execWtell, State.withContext_of_lt h]; rfl
  · rw [exec, execRtell, State.withContext_of_lt h]; rfl

/-! ### TLOOKUP and TBITCOUNT (41 R147, R149) -/

theorem Tree.withShape_of_shape {t : Tree} {sh : Shape} (h : t.shape = some sh) (f : Shape → Result State) :
    t.withShape f = f sh := by
  rw [Tree.withShape, h]

theorem Tree.depth_of_shape {t : Tree} {sh : Shape} (h : t.shape = some sh) : t.depth = sh.depth := by
  rw [Tree.depth, h]

section
variable {k : BitVec 4} {s : State} {sh : Shape} (h : k.toNat < 4)
include h

/-- Neither command goes past its first check without a tree. -/
theorem exec_tlookup_tbitcount_of_not_built (hb : s.ctx[k.toNat].tree.built = false) :
    exec (.tlookup k) s = .next (s.failedOnly .notReady 0xFFFFFFFF#32) ∧
      exec (.tbitcount k) s = .next (s.failedOnly .notReady 0xFFFFFFFF#32) := by
  have hb' : (s.tree ⟨k.toNat, h⟩).built = false := hb
  constructor
  · rw [exec, execTlookup, State.withContext_of_lt h]
    exact State.primitive_eq_failedOnly (by simp [firstFailure, hb'])
  · rw [exec, execTbitcount, State.withContext_of_lt h]
    exact State.primitive_eq_failedOnly (by simp [firstFailure, hb'])

variable (hb : s.ctx[k.toNat].tree.built = true) (hsh : s.ctx[k.toNat].tree.shape = some sh)
include hb hsh

/-- A tree too deep for codes of 32 bits has no lookup table (41 R147). -/
theorem exec_tlookup_of_too_deep (hd : 32 < sh.depth) :
    exec (.tlookup k) s = .next (s.failedOnly .codeTooLong 0xFFFFFFFF#32) := by
  have hb' : (s.tree ⟨k.toNat, h⟩).built = true := hb
  have hdepth : (s.tree ⟨k.toNat, h⟩).depth = sh.depth := Tree.depth_of_shape hsh
  rw [exec, execTlookup, State.withContext_of_lt h]
  exact State.primitive_eq_failedOnly (by simp [firstFailure, hb', hdepth, Config.maxCodeLen, hd])

/-- TLOOKUP replaces the lookup table by that of the tree (41 R147). -/
theorem exec_tlookup_of_shape (hd : sh.depth ≤ 32) :
    exec (.tlookup k) s = .next { s with
      regs := s.regs.succeeded
      ctx := s.ctx.set k.toNat { s.ctx[k.toNat] with lut := sh.lookup } } := by
  have hb' : (s.tree ⟨k.toNat, h⟩).built = true := hb
  have hdepth : (s.tree ⟨k.toNat, h⟩).depth = sh.depth := Tree.depth_of_shape hsh
  rw [exec, execTlookup, State.withContext_of_lt h]
  refine (State.primitive_pass ?_ (Tree.withShape_of_shape hsh _)).trans rfl
  simp [firstFailure, hb', hdepth, Config.maxCodeLen, hd]

/-- TBITCOUNT writes the bit counts of the tree (41 R149). -/
theorem exec_tbitcount_of_shape :
    exec (.tbitcount k) s = .next { s with
      regs := { s.regs.succeeded with
        result0 := u32 s.ctx[k.toNat].tree.treeBits
        result1 := u32 (sh.dataBits 0)
        result2 := u32 (sh.dataBits 0 / u32Limit)
        result3 := u32 (bytesFor (s.ctx[k.toNat].tree.treeBits + sh.dataBits 0)) } } := by
  have hb' : (s.tree ⟨k.toNat, h⟩).built = true := hb
  rw [exec, execTbitcount, State.withContext_of_lt h]
  refine (State.primitive_pass ?_ (Tree.withShape_of_shape hsh _)).trans rfl
  simp [firstFailure, hb']

end

/-- Settles O35: a sound tree that is built has a shape, which both commands read. -/
theorem tlookupAndBitCount : Obligations.TlookupAndBitCount := by
  intro k s h tr
  refine ⟨exec_tlookup_tbitcount_of_not_built h, fun hb hwf => ?_⟩
  obtain ⟨sh, hsh⟩ := Option.isSome_iff_exists.mp (Tree.shape_isSome_of_wf hwf hb)
  exact ⟨sh, hsh, exec_tlookup_of_too_deep h hb hsh, exec_tlookup_of_shape h hb hsh, exec_tbitcount_of_shape h hb hsh⟩

/-! ### LINIT, LACQ and LREL (42 R170 to R172) -/

/-- LREL keeps the error a job holds (42 R172). -/
theorem orElse_some_eq_ite {α : Type} (o : Option α) (x : α) :
    (o.orElse fun _ => some x) = if o.isNone then some x else o := by
  cases o <;> rfl

theorem execLinit_of_core {s : State} (ht : s.turn ≠ .host) (p : Word) :
    exec (.linit p) s = .next (s.initLimiter p).advanceTurn := by
  rw [exec, execLinit, State.microOp_core ht]

theorem State.advanceTurn_of_controller {s : State} (h : s.turn = .controller) : s.advanceTurn = s := by
  simp only [State.advanceTurn, h]

/-- A LINIT in the program of a job advances the job (10 R42). -/
theorem State.advanceTurn_of_job {s : State} {i : Nat} (h : s.turn = .job i) :
    s.advanceTurn = s.updateJob i (fun j => { j with pc := j.pc + 1 }) := by
  simp only [State.advanceTurn, h]

/-- Settles O37: whose turn it is and the permits left decide the arm, and each arm is the state written out. -/
theorem limiterMicroOperations : Obligations.LimiterMicroOperations := by
  refine ⟨fun s p ht => ?_, fun s p b ht => ?_, fun s b j ht hj =>
    ⟨fun hp => ?_, fun hp => ?_, fun hc => ?_, fun hc => ?_⟩⟩
  · rw [execLinit_of_core (by simp [ht]), State.advanceTurn_of_controller (s := s.initLimiter p) ht]
    rfl
  · rw [execLinit_of_core (by simp [ht]), State.advanceTurn_of_job (s := s.initLimiter p) ht]
    rfl
  · have hp' : s.limiter.permits ≠ 0#32 := fun h0 => by simp [h0] at hp
    rw [exec, execLacq, State.currentJob_job ht hj, if_neg hp']
    rfl
  · rw [exec, execLacq, State.currentJob_job ht hj, if_pos hp]
  · rw [exec, execLrel, State.currentJob_job ht hj, if_neg (Nat.not_lt.mpr hc)]
    rfl
  · rw [exec, execLrel, State.currentJob_job ht hj, if_pos hc]
    simp only [orElse_some_eq_ite]
    rfl

end Sys2Proof.Machine
end

section
/-! PROOF. Bits written and read through a cursor (40 R119 to R133): each primitive is told by the bits of MEM it writes or reads, so that the chunks of PutBits, bits written one by one and bits read back compare bit for bit. -/

namespace Sys2Proof.Machine

/-! ### Positions (40 R119) -/

/-- Where an advance leads, the byte offset as a u32. -/
theorem Cursor.advance_eq (c : Cursor) (k : Nat) :
    c.advance k = { c with
      byteOff := c.byteOff + u32 ((c.bitOff.toNat + k) / 8), bitOff := c.bitOff + BitVec.ofNat 3 k } := by
  have hbyte : u32 ((c.pos + k) / 8) = c.byteOff + u32 ((c.bitOff.toNat + k) / 8) := by
    have hdiv : (c.pos + k) / 8 = c.byteOff.toNat + (c.bitOff.toNat + k) / 8 := by simp only [Cursor.pos]; omega
    apply BitVec.eq_of_toNat_eq
    simp [hdiv, u32]
  have hbit : BitVec.ofNat 3 ((c.pos + k) % 8) = c.bitOff + BitVec.ofNat 3 k := by
    have hmod : (c.pos + k) % 8 = (c.bitOff.toNat + k) % 8 := by simp only [Cursor.pos]; omega
    apply BitVec.eq_of_toNat_eq
    simp [hmod]
  simp only [Cursor.advance, Cursor.moveTo, hbyte, hbit]

@[simp] theorem Cursor.advance_zero (c : Cursor) : c.advance 0 = c := by
  have hdiv : c.bitOff.toNat / 8 = 0 := Nat.div_eq_of_lt c.bitOff_lt
  simp [Cursor.advance_eq, hdiv, u32]

/-- One bit further is in the next byte after bit 7. -/
theorem Cursor.advance_one (c : Cursor) :
    c.advance 1 = { c with
      byteOff := if c.bitOff = 7#3 then c.byteOff + 1#32 else c.byteOff, bitOff := c.bitOff + 1#3 } := by
  have hlt := c.bitOff_lt
  by_cases h : c.bitOff = 7#3
  · simp [Cursor.advance_eq, h, u32]
  · have hne : c.bitOff.toNat ≠ 7 := fun e => h (BitVec.eq_of_toNat_eq e)
    have hdiv : (c.bitOff.toNat + 1) / 8 = 0 := by omega
    simp [Cursor.advance_eq, h, hdiv, u32]

theorem Cursor.advance_eight (c : Cursor) : c.advance 8 = { c with byteOff := c.byteOff + 1#32 } := by
  have hdiv : (c.bitOff.toNat + 8) / 8 = 1 := by have := c.bitOff_lt; omega
  simp [Cursor.advance_eq, hdiv, u32]

/-- Advancing within a byte leaves the byte offset and adds to the bit offset. -/
theorem Cursor.advance_within (c : Cursor) {k : Nat} (h : c.bitOff.toNat + k < 8) :
    (c.advance k).byteOff = c.byteOff ∧ (c.advance k).bitOff.toNat = c.bitOff.toNat + k := by
  have hdiv : (c.bitOff.toNat + k) / 8 = 0 := by omega
  rw [Cursor.advance_eq]
  refine ⟨by simp [hdiv, u32], ?_⟩
  simp only [BitVec.toNat_add, BitVec.toNat_ofNat]
  omega

theorem Cursor.pos_lt (c : Cursor) : c.pos < 8 * u32Limit := by
  have hbyte := c.byteOff.isLt
  have hbit := c.bitOff_lt
  simp only [Cursor.pos, u32Limit]; omega

theorem Cursor.fits_iff {c : Cursor} {n : Nat} : c.fits n = true ↔ (n ≠ 0 → c.pos + n ≤ 8 * c.len.toNat) := by
  simp only [Cursor.fits, Bool.or_eq_true, beq_iff_eq, decide_eq_true_eq, Decidable.or_iff_not_imp_left, ne_eq]

theorem Cursor.memOk_iff {c : Cursor} {ms n : Nat} :
    c.memOk ms n = true ↔ (n ≠ 0 → c.base.toNat + (c.pos + n - 1) / 8 < ms) := by
  simp only [Cursor.memOk, Bool.or_eq_true, beq_iff_eq, decide_eq_true_eq, Decidable.or_iff_not_imp_left, ne_eq]
  refine imp_congr_right fun hn => ?_
  rw [Cursor.addrOf, Nat.add_sub_assoc (Nat.one_le_iff_ne_zero.mpr hn)]

/-- After bits that fit, and after none, the position is still a u32 byte offset. -/
theorem Cursor.pos_add_lt_of_fits {c : Cursor} {n : Nat} (h : c.fits n = true) : c.pos + n < 8 * u32Limit := by
  by_cases hn : n = 0
  · rw [hn]; exact c.pos_lt
  · exact Cursor.fits_bound h hn

theorem Cursor.advance_pos_of_fits {c : Cursor} {n : Nat} (h : c.fits n = true) : (c.advance n).pos = c.pos + n :=
  Cursor.advance_pos c (Cursor.pos_add_lt_of_fits h)

/-- Of `n + 1` bits that fit and exist the first does, and so do the `n` after it. -/
theorem Cursor.fits_succ {c : Cursor} {n : Nat} (h : c.fits (n + 1) = true) :
    c.fits 1 = true ∧ (c.advance 1).fits n = true := by
  have hle : c.pos + (n + 1) ≤ 8 * c.len.toNat := Cursor.fits_iff.mp h (by omega)
  have hone : c.fits 1 = true := Cursor.fits_iff.mpr fun _ => by omega
  refine ⟨hone, Cursor.fits_iff.mpr fun _ => ?_⟩
  rw [Cursor.advance_pos_of_fits hone, Cursor.advance_len]; omega

theorem Cursor.memOk_succ {c : Cursor} {ms n : Nat} (hfits : c.fits 1 = true) (h : c.memOk ms (n + 1) = true) :
    c.memOk ms 1 = true ∧ (c.advance 1).memOk ms n = true := by
  have hlt : c.base.toNat + (c.pos + (n + 1) - 1) / 8 < ms := Cursor.memOk_iff.mp h (by omega)
  refine ⟨Cursor.memOk_iff.mpr fun _ => by omega, Cursor.memOk_iff.mpr fun _ => ?_⟩
  rw [Cursor.advance_pos_of_fits hfits, Cursor.advance_base]; omega

/-! ### The bits a store replaces (20 R66) -/

/-- Canonical memories with the same bits are the same. -/
theorem Memory.ext_of_getLsbD {m n : Memory} (hm : Memory.wf m = true) (hn : Memory.wf n = true)
    (h : ∀ x b, b < 8 → (Memory.read m x).getLsbD b = (Memory.read n x).getLsbD b) : m = n :=
  Memory.ext_of_read hm hn fun x => BitVec.eq_of_getLsbD_eq fun b hb => h x b hb

theorem replaceBits_getLsbD (x mask bits : Byte) (b : Nat) :
    (replaceBits x mask bits).getLsbD b = if mask.getLsbD b then bits.getLsbD b else x.getLsbD b := by
  by_cases hb : b < 8
  · simp only [replaceBits, BitVec.getLsbD_or, BitVec.getLsbD_and, BitVec.getLsbD_not, hb]
    cases mask.getLsbD b <;> simp
  · simp only [BitVec.getLsbD_of_ge _ b (Nat.not_lt.mp hb), if_false, Bool.false_eq_true]

/-- A masked store replaces the bits of its mask in its byte, and no other bit of MEM. -/
theorem Memory.write_replaceBits_getLsbD {m : Memory} (h : Memory.wf m = true) (a : Nat) (mask bits : Byte) (x b : Nat) :
    (Memory.read (Memory.write m a (replaceBits (Memory.read m a) mask bits)) x).getLsbD b =
      if x = a ∧ mask.getLsbD b = true then bits.getLsbD b else (Memory.read m x).getLsbD b := by
  by_cases hx : x = a
  · simp only [hx, Memory.read_write_same a _ h, replaceBits_getLsbD, true_and]
  · simp [hx, Memory.read_write_other m _ hx]

/-- PutBit replaces one bit of MEM. -/
theorem putBit_getLsbD {m : Memory} (h : Memory.wf m = true) (c : Cursor) (v : Bool) (x : Nat) {b : Nat} (hb : b < 8) :
    (Memory.read (putBit m c v).1 x).getLsbD b =
      if x = c.base.toNat + c.byteOff.toNat ∧ b = 7 - c.bitOff.toNat then v else (Memory.read m x).getLsbD b := by
  have hmask : (1#8 <<< (7 - c.bitOff.toNat)).getLsbD b = decide (b = 7 - c.bitOff.toNat) := by
    rw [BitVec.getLsbD_shiftLeft, BitVec.getLsbD_one, Bool.eq_iff_iff]
    simp only [Bool.and_eq_true, Bool.not_eq_true', decide_eq_true_eq, decide_eq_false_iff_not]
    omega
  simp only [putBit, Memory.write_replaceBits_getLsbD h, hmask, decide_eq_true_eq]
  by_cases hat : x = c.base.toNat + c.byteOff.toNat ∧ b = 7 - c.bitOff.toNat
  · rw [if_pos hat, if_pos hat]
    cases v
    · exact BitVec.getLsbD_zero
    · exact hmask.trans (decide_eq_true hat.2)
  · rw [if_neg hat, if_neg hat]

/-! ### The chunks of PutBits (40 R119, R126) -/

/-- MEM after one turn of the chunk loop of PutBits: `k` of the `r` bits left of `v` go into the byte at the cursor. -/
def putChunk (m : Memory) (c : Cursor) (v : Word) (r k : Nat) : Memory :=
  Memory.write m (c.base.toNat + c.byteOff.toNat)
    (replaceBits (Memory.read m (c.base.toNat + c.byteOff.toNat))
      (BitVec.ofNat 8 ((2 ^ k - 1) <<< (8 - c.bitOff.toNat - k)))
      (BitVec.ofNat 8 (((v.toNat >>> (r - k)) % 2 ^ k) <<< (8 - c.bitOff.toNat - k))))

theorem putChunks_succ (v : Word) (fuel : Nat) {r : Nat} (hr : r ≠ 0) (m : Memory) (c : Cursor) :
    putChunks v (fuel + 1) r m c = putChunks v fuel (r - min (8 - c.bitOff.toNat) r)
      (putChunk m c v r (min (8 - c.bitOff.toNat) r)) (c.advance (min (8 - c.bitOff.toNat) r)) := by
  rw [putChunks, if_neg hr]
  rfl

theorem putBitByBit_succ (m : Memory) (c : Cursor) (v : Word) (n : Nat) :
    putBitByBit m c v (n + 1) = putBitByBit (putBit m c (v.getLsbD n)).1 (c.advance 1) v n := rfl

section
variable {m : Memory} (h : Memory.wf m = true) (c : Cursor) (v : Word)
include h

theorem wf_putChunk (r k : Nat) : Memory.wf (putChunk m c v r k) = true := Memory.wf_write _ _ h

/-- A chunk replaces the `k` bits of the byte from the cursor on, most significant first. -/
theorem putChunk_getLsbD (r : Nat) {k : Nat} (hk : c.bitOff.toNat + k ≤ 8) (x : Nat) {b : Nat} (hb : b < 8) :
    (Memory.read (putChunk m c v r k) x).getLsbD b =
      if x = c.base.toNat + c.byteOff.toNat ∧ 8 - c.bitOff.toNat - k ≤ b ∧ b < 8 - c.bitOff.toNat then
        v.getLsbD (r - k + (b - (8 - c.bitOff.toNat - k)))
      else (Memory.read m x).getLsbD b := by
  have hmask : (BitVec.ofNat 8 ((2 ^ k - 1) <<< (8 - c.bitOff.toNat - k))).getLsbD b =
      decide (8 - c.bitOff.toNat - k ≤ b ∧ b < 8 - c.bitOff.toNat) := by
    rw [BitVec.getLsbD_ofNat, Nat.testBit_shiftLeft, Nat.testBit_two_pow_sub_one, Bool.eq_iff_iff]
    simp only [Bool.and_eq_true, decide_eq_true_eq]
    omega
  simp only [putChunk, Memory.write_replaceBits_getLsbD h, hmask, decide_eq_true_eq]
  by_cases hat : x = c.base.toNat + c.byteOff.toNat ∧ 8 - c.bitOff.toNat - k ≤ b ∧ b < 8 - c.bitOff.toNat
  · have ⟨_, hlow, hhigh⟩ := hat
    have hwidth : b - (8 - c.bitOff.toNat - k) < k := by omega
    rw [if_pos hat, if_pos hat, BitVec.getLsbD_ofNat, Nat.testBit_shiftLeft, Nat.testBit_mod_two_pow,
      Nat.testBit_shiftRight]
    simp [hb, hlow, hwidth, BitVec.getLsbD]
  · rw [if_neg hat, if_neg hat]

/-- The last bit of a chunk may be written on its own. -/
theorem putChunk_succ {r k : Nat} (hk : c.bitOff.toNat + (k + 1) ≤ 8) (hr : k + 1 ≤ r) :
    putChunk m c v r (k + 1) = (putBit (putChunk m c v r k) (c.advance k) (v.getLsbD (r - (k + 1)))).1 := by
  have hwf := wf_putChunk h c v r k
  obtain ⟨hbyte, hbit⟩ := c.advance_within (k := k) (by omega)
  refine Memory.ext_of_getLsbD (wf_putChunk h c v r (k + 1)) (wf_putBit _ _ hwf) fun x b hb => ?_
  rw [putChunk_getLsbD h c v r hk x hb, putBit_getLsbD hwf _ _ x hb, putChunk_getLsbD h c v r (by omega) x hb, hbyte,
    hbit, Cursor.advance_base]
  by_cases hx : x = c.base.toNat + c.byteOff.toNat
  · by_cases hlast : b = 7 - (c.bitOff.toNat + k)
    · rw [if_pos ⟨hx, by omega, by omega⟩, if_pos ⟨hx, hlast⟩]
      congr 1; omega
    · rw [if_neg (c := _ ∧ _) (fun e => hlast e.2)]
      refine ite_congr (by simp only [hx, true_and, eq_iff_iff]; omega) (fun _ => ?_) fun _ => rfl
      congr 1; omega
  · simp only [hx, false_and, if_false]

/-- Bits written one by one begin with those of a chunk. -/
theorem putBitByBit_eq_putChunk {r k : Nat} (hk : c.bitOff.toNat + k ≤ 8) (hr : k ≤ r) :
    putBitByBit m c v r = putBitByBit (putChunk m c v r k) (c.advance k) v (r - k) := by
  induction k with
  | zero =>
    have hsame : putChunk m c v r 0 = m := Memory.ext_of_getLsbD (wf_putChunk h c v r 0) h fun x b hb => by
      rw [putChunk_getLsbD h c v r hk x hb, if_neg (by omega)]
    rw [hsame, Cursor.advance_zero, Nat.sub_zero]
  | succ k ih =>
    have hleft : r - k = r - (k + 1) + 1 := by omega
    have hpos : c.pos + k < 8 * u32Limit := by
      have := c.byteOff.isLt
      simp only [Cursor.pos, u32Limit]; omega
    rw [ih (by omega) (by omega), hleft, putBitByBit_succ, Cursor.advance_advance c hpos, putChunk_succ h c v hk hr]

end

/-- The turns of the chunk loop write what the bits one by one write. -/
theorem putChunks_eq_putBitByBit (v : Word) {fuel r : Nat} (hr : r ≤ fuel) {m : Memory} (h : Memory.wf m = true)
    (c : Cursor) : putChunks v fuel r m c = putBitByBit m c v r := by
  induction fuel generalizing r m c with
  | zero => rw [Nat.le_zero.mp hr, putChunks, putBitByBit]
  | succ fuel ih =>
    by_cases h0 : r = 0
    · rw [h0, putChunks, if_pos rfl, putBitByBit]
    · have hlt := c.bitOff_lt
      rw [putChunks_succ v fuel h0, ih (by omega) (wf_putChunk h c v r _)]
      exact (putBitByBit_eq_putChunk h c v (by omega) (Nat.min_le_right _ _)).symm

/-- Settles O20: a turn of the chunk loop writes its bits as single bits would, and so do all turns together. -/
theorem putBitsIsBitByBit : Obligations.PutBitsIsBitByBit :=
  fun _ c v n h _ => putChunks_eq_putBitByBit v (Nat.le_refl n) h c

/-! ### Bits by their position in the buffer (00 R9) -/

/-- The bit at a cursor is the one at its position. -/
theorem bitAt_eq_memBit (m : Memory) (c : Cursor) : bitAt m c = memBit m c.base.toNat c.pos := by
  rw [bitAt, memBit, Cursor.pos_div, Cursor.pos_mod]

theorem putBit_memBit {m : Memory} (h : Memory.wf m = true) (c : Cursor) (v : Bool) (q : Nat) :
    memBit (putBit m c v).1 c.base.toNat q = if q = c.pos then v else memBit m c.base.toNat q := by
  have hlt := c.bitOff_lt
  rw [memBit, putBit_getLsbD h c v _ (by omega)]
  refine ite_congr (propext ?_) (fun _ => rfl) fun _ => rfl
  simp only [Cursor.pos]; omega

/-- Bits written one by one are at the positions from the cursor on, most significant first, and replace no other. -/
theorem putBitByBit_memBit (v : Word) (n : Nat) {m : Memory} (h : Memory.wf m = true) {c : Cursor}
    (hpos : c.pos + n < 8 * u32Limit) (q : Nat) :
    memBit (putBitByBit m c v n).1 c.base.toNat q =
      if c.pos ≤ q ∧ q < c.pos + n then v.getLsbD (c.pos + n - 1 - q) else memBit m c.base.toNat q := by
  induction n generalizing m c with
  | zero => rw [if_neg (by omega), putBitByBit]
  | succ n ih =>
    have hadv : (c.advance 1).pos = c.pos + 1 := Cursor.advance_pos c (by omega)
    have hrest := ih (wf_putBit c (v.getLsbD n) h) (c := c.advance 1) (by omega)
    rw [Cursor.advance_base, hadv, putBit_memBit h] at hrest
    rw [putBitByBit_succ, hrest]
    by_cases hq : q = c.pos
    · rw [if_neg (by omega), if_pos hq, if_pos (by omega)]
      congr 1; omega
    · rw [if_neg hq, Nat.add_right_comm]
      exact ite_congr (propext (by omega)) (fun _ => rfl) fun _ => rfl

theorem putBitByBit_snd (v : Word) (n : Nat) (m : Memory) {c : Cursor} (hpos : c.pos + n < 8 * u32Limit) :
    (putBitByBit m c v n).2 = c.advance n := by
  induction n generalizing m c with
  | zero => rw [putBitByBit, Cursor.advance_zero]
  | succ n ih =>
    have hadv : (c.advance 1).pos = c.pos + 1 := Cursor.advance_pos c (by omega)
    rw [putBitByBit_succ, ih _ (by omega), Cursor.advance_advance c (by omega), Nat.add_comm]

/-! ### Bits read (40 R130, R131) -/

theorem getBits_succ (m : Memory) (n : Nat) (v : Byte) (c : Cursor) :
    getBits m (n + 1) v c = getBits m n ((v <<< 1) ||| (if bitAt m c then 1#8 else 0#8)) (c.advance 1) := rfl

theorem getBits_snd (m : Memory) (n : Nat) (v : Byte) {c : Cursor} (hpos : c.pos + n < 8 * u32Limit) :
    (getBits m n v c).2 = c.advance n := by
  induction n generalizing v c with
  | zero => rw [getBits, Cursor.advance_zero]
  | succ n ih =>
    have hadv : (c.advance 1).pos = c.pos + 1 := Cursor.advance_pos c (by omega)
    rw [getBits_succ, ih _ (by omega), Cursor.advance_advance c (by omega), Nat.add_comm]

theorem shiftLeft_one_or_bit_getLsbD (v : Byte) (x : Bool) {b : Nat} (hb : b < 8) :
    ((v <<< 1) ||| (if x then 1#8 else 0#8)).getLsbD b = if b = 0 then x else v.getLsbD (b - 1) := by
  rw [BitVec.getLsbD_or, BitVec.getLsbD_shiftLeft]
  cases x <;> cases b <;> simp [hb]

/-- Bits read one after another push those read before them up, and end with the last one in bit 0. -/
theorem getBits_getLsbD (m : Memory) (n : Nat) (v : Byte) {c : Cursor} (hpos : c.pos + n < 8 * u32Limit) {b : Nat}
    (hb : b < 8) : (getBits m n v c).1.getLsbD b =
      if b < n then memBit m c.base.toNat (c.pos + n - 1 - b) else v.getLsbD (b - n) := by
  induction n generalizing v c with
  | zero => rw [if_neg (by omega), getBits, Nat.sub_zero]
  | succ n ih =>
    have hadv : (c.advance 1).pos = c.pos + 1 := Cursor.advance_pos c (by omega)
    rw [getBits_succ, ih _ (by omega), hadv, Cursor.advance_base, shiftLeft_one_or_bit_getLsbD _ _ (by omega),
      bitAt_eq_memBit]
    rcases Nat.lt_trichotomy b n with hlt | heq | hgt
    · rw [if_pos hlt, if_pos (by omega), Nat.add_right_comm, Nat.add_assoc]
    · rw [if_neg (by omega), if_pos (by omega), if_pos (by omega)]
      congr 1; omega
    · rw [if_neg (by omega), if_neg (by omega), if_neg (by omega), Nat.sub_sub]

/-- GetByte is the formula of 40 R131 over the two bytes it may touch. -/
theorem getByte_fst (m : Memory) {c : Cursor} (hpos : c.pos + 8 < 8 * u32Limit) :
    (getByte m c).1 = (Memory.read m (c.base.toNat + c.byteOff.toNat) <<< c.bitOff.toNat) |||
      (Memory.read m (c.base.toNat + c.byteOff.toNat + 1) >>> (8 - c.bitOff.toNat)) := by
  have hlt := c.bitOff_lt
  refine BitVec.eq_of_getLsbD_eq fun b hb => ?_
  rw [getByte, getBits_getLsbD m 8 0#8 hpos hb, if_pos hb, memBit, BitVec.getLsbD_or, BitVec.getLsbD_shiftLeft,
    BitVec.getLsbD_ushiftRight]
  by_cases hin : b < c.bitOff.toNat
  · have hbyte : (c.pos + 8 - 1 - b) / 8 = c.byteOff.toNat + 1 := by simp only [Cursor.pos]; omega
    have hbit : 7 - (c.pos + 8 - 1 - b) % 8 = 8 - c.bitOff.toNat + b := by simp only [Cursor.pos]; omega
    rw [hbyte, hbit]
    simp [hin, Nat.add_assoc]
  · have hbyte : (c.pos + 8 - 1 - b) / 8 = c.byteOff.toNat := by simp only [Cursor.pos]; omega
    have hbit : 7 - (c.pos + 8 - 1 - b) % 8 = b - c.bitOff.toNat := by simp only [Cursor.pos]; omega
    have hout : 8 ≤ 8 - c.bitOff.toNat + b := by omega
    rw [hbyte, hbit]
    simp [hin, hb, BitVec.getLsbD_of_ge _ _ hout]

/-! ### RBIT and RBYTE -/

section
variable {s : State} {cs : List Check}

theorem State.primitive_of_first_check {c : Check} {f : State → Result State} (h : ¬ c.holds = true) :
    s.primitive (c :: cs) f = .next (s.failedOnly c.code 0xFFFFFFFF#32) :=
  State.primitive_eq_failedOnly (if_neg h)

theorem State.primitive_of_second_check {c d : Check} {f : State → Result State} (hc : c.holds = true)
    (hd : ¬ d.holds = true) : s.primitive (c :: d :: cs) f = .next (s.failedOnly d.code 0xFFFFFFFF#32) :=
  State.primitive_eq_failedOnly ((if_pos hc).trans (if_neg hd))

theorem State.primitive_of_checks {g : State → State} (h : ∀ c ∈ cs, c.holds = true) :
    s.primitive cs (fun t => .next (g t)) = .next (g s.begin).complete :=
  State.primitive_pass (firstFailure_none.mpr h) rfl

end

section
variable {k : BitVec 4} (h : k.toNat < 4) (s : State)
include h

theorem exec_rbit_eq : exec (.rbit k) s = s.primitive
    [⟨s.ctx[k.toNat].r.fits 1, .truncatedInput⟩, ⟨s.ctx[k.toNat].r.memOk s.params.memSize 1, .busError⟩] fun t =>
      .next ((t.setReader ⟨k.toNat, h⟩ (s.ctx[k.toNat].r.advance 1)).result
        (if bitAt t.mem s.ctx[k.toNat].r then 1#32 else 0#32)) := by
  rw [exec, execRbit, State.withContext_of_lt h]
  rfl

theorem exec_rbyte_eq : exec (.rbyte k) s = s.primitive
    [⟨s.ctx[k.toNat].r.fits 8, .truncatedInput⟩, ⟨s.ctx[k.toNat].r.memOk s.params.memSize 8, .busError⟩] fun t =>
      .next ((t.setReader ⟨k.toNat, h⟩ (getByte t.mem s.ctx[k.toNat].r).2).result
        ((getByte t.mem s.ctx[k.toNat].r).1.setWidth 32)) := by
  rw [exec, execRbyte, State.withContext_of_lt h]
  rfl

/-- RBIT with its bit in the buffer and in MEM (40 R130). -/
theorem exec_rbit_of_fits (hfits : s.ctx[k.toNat].r.fits 1 = true)
    (hmem : s.ctx[k.toNat].r.memOk s.params.memSize 1 = true) :
    exec (.rbit k) s = .next { s with
      regs := { s.regs.succeeded with result0 := if bitAt s.mem s.ctx[k.toNat].r then 1#32 else 0#32 }
      ctx := s.ctx.set k.toNat { s.ctx[k.toNat] with r := s.ctx[k.toNat].r.advance 1 } } := by
  rw [exec_rbit_eq h, State.primitive_of_checks (by simp [hfits, hmem])]
  rfl

/-- RBYTE with its bits in the buffer and in MEM (40 R131). -/
theorem exec_rbyte_of_fits (hfits : s.ctx[k.toNat].r.fits 8 = true)
    (hmem : s.ctx[k.toNat].r.memOk s.params.memSize 8 = true) :
    exec (.rbyte k) s = .next { s with
      regs := { s.regs.succeeded with result0 := (getByte s.mem s.ctx[k.toNat].r).1.setWidth 32 }
      ctx := s.ctx.set k.toNat { s.ctx[k.toNat] with r := (getByte s.mem s.ctx[k.toNat].r).2 } } := by
  rw [exec_rbyte_eq h, State.primitive_of_checks (by simp [hfits, hmem])]
  rfl

end

/-- Settles O22: the checks are the bounds written out, and the bits taken are of the byte at the cursor and the next. -/
theorem rbitAndRbyteRead : Obligations.RbitAndRbyteRead := by
  intro k s h c a o last truncated
  have hlt : o < 8 := c.bitOff_lt
  have hpos : c.pos = 8 * c.byteOff.toNat + o := rfl
  have hfits1 : c.fits 1 = true ↔ c.byteOff.toNat < c.len.toNat := by
    rw [Cursor.fits_iff, hpos]; omega
  have hmem1 : c.memOk s.params.memSize 1 = true ↔ a < s.params.memSize := by
    rw [Cursor.memOk_iff, Nat.add_sub_cancel, Cursor.pos_div]
    exact forall_prop_of_true (by decide)
  have hfits8 : c.fits 8 = true ↔ ¬ truncated := by
    rw [Cursor.fits_iff, hpos]
    simp only [truncated]; omega
  have hmem8 : c.memOk s.params.memSize 8 = true ↔ last < s.params.memSize := by
    have hlast : c.base.toNat + (c.pos + 8 - 1) / 8 = last := by
      simp only [last, a]; split <;> omega
    rw [Cursor.memOk_iff, hlast]
    exact forall_prop_of_true (by decide)
  refine ⟨fun ht => ?_, fun hf hm => ?_, fun hf hm => ?_, fun ht => ?_, fun hf hm => ?_, fun hf hm => ?_⟩
  · exact (exec_rbit_eq h s).trans (State.primitive_of_first_check (mt hfits1.mp (Nat.not_lt.mpr ht)))
  · exact (exec_rbit_eq h s).trans
      (State.primitive_of_second_check (hfits1.mpr hf) (mt hmem1.mp (Nat.not_lt.mpr hm)))
  · rw [exec_rbit_of_fits h s (hfits1.mpr hf) (hmem1.mpr hm), Cursor.advance_one]
    rfl
  · exact (exec_rbyte_eq h s).trans (State.primitive_of_first_check (mt hfits8.mp (not_not_intro ht)))
  · exact (exec_rbyte_eq h s).trans
      (State.primitive_of_second_check (hfits8.mpr hf) (mt hmem8.mp (Nat.not_lt.mpr hm)))
  · have hbound : c.pos + 8 < 8 * u32Limit := Cursor.pos_add_lt_of_fits (hfits8.mpr hf)
    rw [exec_rbyte_of_fits h s (hfits8.mpr hf) (hmem8.mpr hm), getByte_fst s.mem hbound, getByte,
      getBits_snd s.mem 8 _ hbound, Cursor.advance_eight]

/-! ### WBITS, then RBITs (40 R133) -/

/-- A context replaced by one with the same part `f` leaves that part of every context as it was. -/
theorem getElem_set_of_part_eq {α : Type} (f : Context → α) {cs : Vector Context 4} {k : Nat} (hk : k < 4)
    {x : Context} (hx : f x = f cs[k]) (q : Nat) (hq : q < 4) : f (cs.set k x)[q] = f cs[q] := by
  by_cases hkq : k = q
  · subst hkq; rw [Vector.getElem_set_self, hx]
  · rw [Vector.getElem_set_ne _ _ hkq]

/-- WBITS of at most 32 bits that fit and exist (40 R125). -/
theorem exec_wbits_of_fits {k : BitVec 4} (h : k.toNat < 4) {n : BitVec 6} (hn : n.toNat ≤ 32) (v : Word) (s : State)
    (hfits : s.ctx[k.toNat].w.fits n.toNat = true)
    (hmem : s.ctx[k.toNat].w.memOk s.params.memSize n.toNat = true) :
    exec (.wbits k v n) s = .next { s with
      regs := s.regs.succeeded
      mem := (putBits s.mem s.ctx[k.toNat].w v n.toNat).1
      ctx := s.ctx.set k.toNat { s.ctx[k.toNat] with w := (putBits s.mem s.ctx[k.toNat].w v n.toNat).2 } } := by
  rw [exec, execWbits, State.withContext_of_lt h, State.primitive_of_checks]
  · rfl
  · simp [State.wbitsChecks, State.storeChecks, State.writer, hn, hfits, hmem]

/-- WBITS of at most 32 bits that fit and exist writes them one by one (40 R126), and moves the writer and no reader. -/
theorem exec_wbits_bit_by_bit {k : BitVec 4} (h : k.toNat < 4) {n : BitVec 6} (hn : n.toNat ≤ 32) (v : Word) {s : State}
    (hwf : Memory.wf s.mem = true) (hfits : s.ctx[k.toNat].w.fits n.toNat = true)
    (hmem : s.ctx[k.toNat].w.memOk s.params.memSize n.toNat = true) :
    ∃ t, exec (.wbits k v n) s = .next t ∧ t.regs.fault = none ∧ t.params = s.params ∧
      t.mem = (putBitByBit s.mem s.ctx[k.toNat].w v n.toNat).1 ∧
      t.ctx[k.toNat].w = s.ctx[k.toNat].w.advance n.toNat ∧ ∀ (q : Nat) (hq : q < 4), t.ctx[q].r = s.ctx[q].r := by
  refine ⟨_, exec_wbits_of_fits h hn v s hfits hmem, rfl, rfl, ?_, ?_, ?_⟩
  · exact congrArg Prod.fst (putBitsIsBitByBit _ _ v _ hwf hn)
  · dsimp only
    rw [Vector.getElem_set_self, putBitsIsBitByBit _ _ v _ hwf hn,
      putBitByBit_snd v _ _ (Cursor.pos_add_lt_of_fits hfits)]
  · exact getElem_set_of_part_eq Context.r h rfl

theorem readByRbits_succ_of_next {k : BitVec 4} {s t : State} (hnext : exec (.rbit k) s = .next t)
    (hfault : t.regs.fault = none) (n acc : Nat) :
    readByRbits k (n + 1) acc s = readByRbits k n (2 * acc + t.regs.result0.toNat) t := by
  simp only [readByRbits, hnext, hfault, Option.isNone_none, if_true]

/-- The first of several RBITs, its bit in the buffer and in MEM, takes that bit, and moves the reader and no writer. -/
theorem readByRbits_succ_of_fits {k : BitVec 4} (h : k.toNat < 4) (n acc : Nat) {s : State}
    (hfits : s.ctx[k.toNat].r.fits 1 = true) (hmem : s.ctx[k.toNat].r.memOk s.params.memSize 1 = true) :
    ∃ t, readByRbits k (n + 1) acc s = readByRbits k n (2 * acc + (bitAt s.mem s.ctx[k.toNat].r).toNat) t ∧
      t.ctx[k.toNat].r = s.ctx[k.toNat].r.advance 1 ∧ t.mem = s.mem ∧ t.params = s.params ∧
      ∀ (q : Nat) (hq : q < 4), t.ctx[q].w = s.ctx[q].w := by
  have hresult : (if bitAt s.mem s.ctx[k.toNat].r then 1#32 else 0#32).toNat = (bitAt s.mem s.ctx[k.toNat].r).toNat := by
    cases bitAt s.mem s.ctx[k.toNat].r <;> rfl
  refine ⟨_, (readByRbits_succ_of_next (exec_rbit_of_fits h s hfits hmem) rfl n acc).trans
    (congrArg (fun x => readByRbits k n (2 * acc + x) _) hresult), ?_, rfl, rfl, ?_⟩
  · exact congrArg Context.r (Vector.getElem_set_self h)
  · exact getElem_set_of_part_eq Context.w h rfl

/-- RBITs over bits of the buffer that fit, exist and are the low `n` bits of `v` append those bits to the number read
so far and move the reader on, and no writer. -/
theorem readByRbits_eq {k : BitVec 4} (h : k.toNat < 4) (v : Word) (n acc : Nat) {s : State}
    (hfits : s.ctx[k.toNat].r.fits n = true) (hmem : s.ctx[k.toNat].r.memOk s.params.memSize n = true)
    (hbits : ∀ j < n, memBit s.mem s.ctx[k.toNat].r.base.toNat (s.ctx[k.toNat].r.pos + j) = v.getLsbD (n - 1 - j)) :
    ∃ u, readByRbits k n acc s = some (acc * 2 ^ n + v.toNat % 2 ^ n, u) ∧
      u.ctx[k.toNat].r = s.ctx[k.toNat].r.advance n ∧ ∀ (q : Nat) (hq : q < 4), u.ctx[q].w = s.ctx[q].w := by
  induction n generalizing acc s with
  | zero => exact ⟨s, by simp [readByRbits, Nat.mod_one], (Cursor.advance_zero _).symm, fun _ _ => rfl⟩
  | succ n ih =>
    obtain ⟨hfits1, hfitsn⟩ := Cursor.fits_succ hfits
    obtain ⟨hmem1, hmemn⟩ := Cursor.memOk_succ hfits1 hmem
    have hadv := Cursor.advance_pos_of_fits hfits1
    have hfirst : bitAt s.mem s.ctx[k.toNat].r = v.getLsbD n :=
      (bitAt_eq_memBit _ _).trans (hbits 0 (by omega))
    obtain ⟨t, hread, htr, htm, htp, htw⟩ := readByRbits_succ_of_fits h n acc hfits1 hmem1
    obtain ⟨u, hrest, hur, huw⟩ := ih (2 * acc + (v.getLsbD n).toNat) (s := t) (by rwa [htr]) (by rwa [htr, htp])
      fun j hj => by
        rw [htr, htm, Cursor.advance_base, hadv, Nat.add_assoc, hbits (1 + j) (by omega)]
        congr 1; omega
    refine ⟨u, ?_, ?_, fun q hq => (huw q hq).trans (htw q hq)⟩
    · rw [hread, hfirst, hrest, Nat.mod_pow_succ, BitVec.getLsbD, Nat.toNat_testBit, Nat.pow_succ]
      congr 2
      rw [Nat.add_mul]; ac_rfl
    · rw [hur, htr, Cursor.advance_advance _ (Cursor.pos_add_lt_of_fits hfits1), Nat.add_comm]

/-- Settles O21: the bits WBITS leaves at the writer's positions are those the RBITs find at the reader's. -/
theorem bitCursorInverse : Obligations.BitCursorInverse := by
  intro s k k' v n h h' hwf hn c p hr hin
  have hfits : c.fits n.toNat = true := Cursor.fits_iff.mpr fun h0 => (hin h0).1
  have hmem : c.memOk s.params.memSize n.toNat = true := Cursor.memOk_iff.mpr fun h0 => (hin h0).2
  have hend : (c.advance n.toNat).pos = p + n.toNat := Cursor.advance_pos_of_fits hfits
  obtain ⟨t, hwrite, hfault, hparams, hmemt, hw, hreaders⟩ := exec_wbits_bit_by_bit h hn v hwf hfits hmem
  have hreader : t.ctx[k'.toNat].r = c := (hreaders _ h').trans hr
  obtain ⟨u, hread, hur, huw⟩ := readByRbits_eq h' v n.toNat 0 (s := t) (by rwa [hreader]) (by rwa [hreader, hparams])
    fun j hj => by
      rw [hreader, hmemt, putBitByBit_memBit v _ hwf (Cursor.pos_add_lt_of_fits hfits), if_pos (by omega)]
      congr 1; omega
  refine ⟨t, u, hwrite, hfault, by simpa using hread, ?_, ?_⟩
  · rw [huw _ h, hw]; exact hend
  · rw [hur, hreader]; exact hend

end Sys2Proof.Machine
end

section
/-! PROOF. The whole next states of TCREATE and TREAD (41 R143, R146), of the traversal commands (41 R150 to R154) and of ANALYZE (42 R175). -/

namespace Sys2Proof.Machine

/-! ### TCREATE and TREAD (41 R143, R146) -/

theorem Memory.readBytes_length (m : Memory) (a n : Nat) : (Memory.readBytes m a n).length = n := by
  simp [Memory.readBytes]

/-- Settles O26: each of the three checks is the bound written out, and with all of them passed the effect is the state
written out. -/
theorem tcreateBuildsTree : Obligations.TcreateBuildsTree := by
  intro k s h last
  have hpos : decide (0 < s.regs.srcSize.toNat) = true ↔ s.regs.srcSize ≠ 0#32 := by
    rw [decide_eq_true_iff]; bv_omega
  have hlegal : decide (s.regs.srcEnd ≤ u32Limit) = true ↔ last ≤ 4294967296 := decide_eq_true_iff
  have hexists : decide (s.regs.srcEnd ≤ s.params.memSize) = true ↔ last ≤ s.params.memSize := decide_eq_true_iff
  rw [exec, execTcreate, State.withContext_of_lt h]
  refine ⟨fun h0 => ?_, fun h0 h1 => ?_, fun h0 h1 h2 => ?_, fun h0 h1 h2 => ?_⟩
  · exact State.primitive_of_first_check (mt hpos.mp (not_not_intro h0))
  · exact State.primitive_of_second_check (hpos.mpr h0) (mt hlegal.mp (Nat.not_le.mpr h1))
  · exact State.primitive_eq_failedOnly
      ((if_pos (hpos.mpr h0)).trans ((if_pos (hlegal.mpr h1)).trans (if_neg (mt hexists.mp (Nat.not_le.mpr h2)))))
  · rw [State.primitive_of_checks (by simp [hpos.mpr h0, hlegal.mpr h1, hexists.mpr h2])]
    rfl

/-- A context replaced twice is the second one. -/
theorem State.setCtx_setCtx (s : State) (k : Fin 4) (x y : Context) : (s.setCtx k x).setCtx k y = s.setCtx k y := by
  simp [State.setCtx, State.setCtxs]

/-- TREAD replaces the context once, its writer kept (41 R146). -/
theorem State.setReader_setTree (s : State) (k : Fin 4) (c : Cursor) (t : Tree) :
    (s.setReader k c).setTree k t = s.setCtx k { w := s.ctx[k].w, r := c, tree := t, lut := {}, tc := {} } := by
  simp only [State.setReader, State.setTree, State.setCtx_getElem_same, State.setCtx_setCtx]

/-- Settles O34: the outcome of the parse decides the arm, and each arm is the state written out. -/
theorem treadReplacesTheTree : Obligations.TreadReplacesTheTree := by
  intro k s h c
  rw [exec, execTread, State.withContext_of_lt h]
  refine ⟨fun e he => ?_, fun t ht => ?_⟩
  · have he' : parseTree s.params.memSize s.mem (s.reader ⟨k.toNat, h⟩) = (c, .error e) := he
    rw [he']
    exact State.primitive_of_first_check Bool.false_ne_true
  · have ht' : parseTree s.params.memSize s.mem (s.reader ⟨k.toNat, h⟩) = (c, .ok t) := ht
    rw [ht']
    refine (State.primitive_of_checks (by simp)).trans ?_
    rw [State.setReader_setTree]
    rfl

/-! ### The traversal commands (41 R150 to R154) -/

section
variable {k : BitVec 4} {s : State} (h : k.toNat < 4)
include h

/-- TCROOT needs a tree (41 R150). -/
theorem exec_tcroot_of_not_built (hb : s.ctx[k.toNat].tree.built = false) :
    exec (.tcroot k) s = .next (s.failedOnly .notReady 0xFFFFFFFF#32) := by
  rw [exec, execTcroot, State.withContext_of_lt h]
  exact State.primitive_of_first_check (Bool.eq_false_iff.mp hb)

/-- TCROOT of a tree moves to its root (41 R150). -/
theorem exec_tcroot_of_built (hb : s.ctx[k.toNat].tree.built = true) :
    exec (.tcroot k) s = .next { s with
      regs := s.regs.succeeded
      ctx := s.ctx.set k.toNat { s.ctx[k.toNat] with tc := { valid := true, node := s.ctx[k.toNat].tree.root } } } := by
  have hb' : (s.tree ⟨k.toNat, h⟩).built = true := hb
  rw [exec, execTcroot, State.withContext_of_lt h, State.primitive_of_checks (by simp [hb'])]
  rfl

/-- Without a valid cursor the other four fault before they look at the node (41 R151 to R154). -/
theorem exec_traversal_of_not_valid (hv : s.ctx[k.toNat].tc.valid = false) :
    exec (.tcisleaf k) s = .next (s.failedOnly .notReady 0xFFFFFFFF#32) ∧
      exec (.tcvalue k) s = .next (s.failedOnly .notReady 0xFFFFFFFF#32) ∧
      exec (.tcleft k) s = .next (s.failedOnly .notReady 0xFFFFFFFF#32) ∧
      exec (.tcright k) s = .next (s.failedOnly .notReady 0xFFFFFFFF#32) := by
  have hready : ¬ (s.tcReady ⟨k.toNat, h⟩).holds = true := Bool.eq_false_iff.mp hv
  refine ⟨?_, ?_, ?_, ?_⟩
  · rw [exec, execTcisleaf, State.withContext_of_lt h]; exact State.primitive_of_first_check hready
  · rw [exec, execTcvalue, State.withContext_of_lt h]; exact State.primitive_of_first_check hready
  · rw [exec, execTcleft, State.withContext_of_lt h]; exact State.primitive_of_first_check hready
  · rw [exec, execTcright, State.withContext_of_lt h]; exact State.primitive_of_first_check hready

variable (hv : s.ctx[k.toNat].tc.valid = true) {n : Node}
  (hn : s.ctx[k.toNat].tree.nodes[s.ctx[k.toNat].tc.node]? = some n)
include hv hn

/-- TCISLEAF answers the tag of the node (41 R151). -/
theorem exec_tcisleaf_of_node :
    exec (.tcisleaf k) s = .next { s with
      regs := { s.regs.succeeded with result0 := if n.isLeaf then 1#32 else 0#32 } } := by
  have hready : (s.tcReady ⟨k.toNat, h⟩).holds = true := hv
  have hnode : s.begin.node? ⟨k.toNat, h⟩ = some n := hn
  rw [exec, execTcisleaf, State.withContext_of_lt h]
  exact State.primitive_pass (u := s.begin.result (if n.isLeaf then 1#32 else 0#32))
    (firstFailure_none.mpr (by simp [hready])) (by rw [hnode])

/-- TCVALUE faults at a node that is no leaf (41 R152). -/
theorem exec_tcvalue_of_check (hc : ¬ (leafCheck (some n)).holds = true) :
    exec (.tcvalue k) s = .next (s.failedOnly (leafCheck (some n)).code 0xFFFFFFFF#32) := by
  have hnode : s.node? ⟨k.toNat, h⟩ = some n := hn
  rw [exec, execTcvalue, State.withContext_of_lt h, hnode]
  exact State.primitive_of_second_check hv hc

/-- TCLEFT and TCRIGHT fault at a node that is no branch (41 R153, R154). -/
theorem exec_move_of_check (hc : ¬ (branchCheck (some n)).holds = true) :
    exec (.tcleft k) s = .next (s.failedOnly (branchCheck (some n)).code 0xFFFFFFFF#32) ∧
      exec (.tcright k) s = .next (s.failedOnly (branchCheck (some n)).code 0xFFFFFFFF#32) := by
  have hnode : s.node? ⟨k.toNat, h⟩ = some n := hn
  constructor
  · rw [exec, execTcleft, State.withContext_of_lt h, hnode]
    exact State.primitive_of_second_check hv hc
  · rw [exec, execTcright, State.withContext_of_lt h, hnode]
    exact State.primitive_of_second_check hv hc

end

section
variable {k : BitVec 4} {s : State} (h : k.toNat < 4) (hv : s.ctx[k.toNat].tc.valid = true)
include h hv

/-- TCVALUE at a leaf answers its value (41 R152). -/
theorem exec_tcvalue_of_leaf {v : Byte} {w : Word}
    (hn : s.ctx[k.toNat].tree.nodes[s.ctx[k.toNat].tc.node]? = some (.leaf v w)) :
    exec (.tcvalue k) s = .next { s with regs := { s.regs.succeeded with result0 := v.setWidth 32 } } := by
  have hready : (s.tcReady ⟨k.toNat, h⟩).holds = true := hv
  have hnode : s.node? ⟨k.toNat, h⟩ = some (.leaf v w) := hn
  have hbegin : s.begin.node? ⟨k.toNat, h⟩ = some (.leaf v w) := hn
  rw [exec, execTcvalue, State.withContext_of_lt h]
  exact State.primitive_pass (u := s.begin.result (v.setWidth 32))
    (firstFailure_none.mpr (by simp [hready, hnode, leafCheck])) (by rw [hbegin])

/-- TCLEFT and TCRIGHT at a branch move to its child (41 R153, R154). -/
theorem exec_move_of_branch {w : Word} {l r : Nat}
    (hn : s.ctx[k.toNat].tree.nodes[s.ctx[k.toNat].tc.node]? = some (.branch w l r)) :
    exec (.tcleft k) s = .next { s with
        regs := s.regs.succeeded
        ctx := s.ctx.set k.toNat { s.ctx[k.toNat] with tc := { valid := true, node := l } } } ∧
      exec (.tcright k) s = .next { s with
        regs := s.regs.succeeded
        ctx := s.ctx.set k.toNat { s.ctx[k.toNat] with tc := { valid := true, node := r } } } := by
  have hready : (s.tcReady ⟨k.toNat, h⟩).holds = true := hv
  have hnode : s.node? ⟨k.toNat, h⟩ = some (.branch w l r) := hn
  have hbegin : s.begin.node? ⟨k.toNat, h⟩ = some (.branch w l r) := hn
  have hchecks : firstFailure [s.tcReady ⟨k.toNat, h⟩, branchCheck (s.node? ⟨k.toNat, h⟩)] = none :=
    firstFailure_none.mpr (by simp [hready, hnode, branchCheck])
  constructor
  · rw [exec, execTcleft, State.withContext_of_lt h]
    exact State.primitive_pass (u := s.begin.setTc ⟨k.toNat, h⟩ ⟨true, l⟩) hchecks (by rw [hbegin])
  · rw [exec, execTcright, State.withContext_of_lt h]
    exact State.primitive_pass (u := s.begin.setTc ⟨k.toNat, h⟩ ⟨true, r⟩) hchecks (by rw [hbegin])

end

/-- Settles O36: the tree, the cursor and the kind of the node under it decide the arm. -/
theorem traversalCommands : Obligations.TraversalCommands := by
  intro k s h tr tc fails answers moves
  refine ⟨exec_tcroot_of_not_built h, exec_tcroot_of_built h, exec_traversal_of_not_valid h, fun v w hv hn => ?_,
    fun w l r hv hn => ?_⟩
  · obtain ⟨hleft, hright⟩ := exec_move_of_check h hv hn Bool.false_ne_true
    exact ⟨exec_tcisleaf_of_node h hv hn, exec_tcvalue_of_leaf h hv hn, hleft, hright⟩
  · obtain ⟨hleft, hright⟩ := exec_move_of_branch h hv hn
    exact ⟨exec_tcisleaf_of_node h hv hn, exec_tcvalue_of_check h hv hn Bool.false_ne_true, hleft, hright⟩

/-! ### ANALYZE (42 R175) -/

section
variable {s : State} {block : Word} {j : Job} (ht : s.turn ≠ .host) (hj : s.job? block.toNat = some j)
  (hpos : 0 < s.plan.blockLen block.toNat)
include ht hj hpos

/-- A block that does not exist is BusError (42 R175). -/
theorem exec_analyze_of_absent (ha : s.params.memSize < s.plan.blockStart block.toNat + s.plan.blockLen block.toNat) :
    exec (.analyze block) s = .next (s.updateJob block.toNat (fun j => { j with err := some .busError, pc := 2 })) := by
  rw [exec, execAnalyze, State.bodyJob_job ht hj]
  exact (if_neg (Nat.ne_of_gt hpos)).trans (if_pos ha)

section
variable (ha : s.plan.blockStart block.toNat + s.plan.blockLen block.toNat ≤ s.params.memSize) {bytes : List Byte}
  (hbytes : Memory.readBytes s.mem (s.plan.blockStart block.toNat) (s.plan.blockLen block.toNat) = bytes)
  {sh : Shape} (hsh : (buildTree bytes).shape = some sh)
include ha hbytes hsh

/-- ANALYZE of a block that exists records the fault that `analyzeBlock` gives (42 R175). -/
theorem exec_analyze_of_error {e : FaultCode} (he : analyzeBlock bytes sh (buildTree bytes) = .error e) :
    exec (.analyze block) s = .next (s.updateJob block.toNat (fun j => { j with err := some e, pc := 2 })) := by
  subst hbytes
  rw [exec, execAnalyze, State.bodyJob_job ht hj]
  refine (if_neg (Nat.ne_of_gt hpos)).trans ((if_neg (Nat.not_lt.mpr ha)).trans ?_)
  rw [Tree.withShape_of_shape hsh, he]

/-- ANALYZE of a block that exists records the result that `analyzeBlock` gives (42 R175). -/
theorem exec_analyze_of_ok {r : AnalyzeResult} (hr : analyzeBlock bytes sh (buildTree bytes) = .ok r) :
    exec (.analyze block) s = .next (s.updateJob block.toNat (fun j => { j with res := some r, pc := 2 })) := by
  subst hbytes
  rw [exec, execAnalyze, State.bodyJob_job ht hj]
  refine (if_neg (Nat.ne_of_gt hpos)).trans ((if_neg (Nat.not_lt.mpr ha)).trans ?_)
  rw [Tree.withShape_of_shape hsh, hr]

end

end

/-- Settles O38: a block that exists has bytes, so its tree has a shape; depth and bit count decide the outcome. -/
theorem analyzeResultOfBlock : Obligations.AnalyzeResultOfBlock := by
  intro s block j ht hj i start dsize bytes t leaves hpos
  refine ⟨exec_analyze_of_absent ht hj hpos, fun ha => ?_⟩
  have hlen : bytes.length = dsize := Memory.readBytes_length s.mem start dsize
  have hne : bytes ≠ [] := List.ne_nil_of_length_pos (hlen.symm ▸ hpos)
  obtain ⟨sh, hsh⟩ := Option.isSome_iff_exists.mp (buildTree_shape_isSome hne)
  refine ⟨sh, hsh, fun hd => ?_, fun hd hcs => ?_, fun hd hcs => ?_⟩
  · exact exec_analyze_of_error ht hj hpos ha (bytes := bytes) rfl hsh (if_pos hd)
  · exact exec_analyze_of_error ht hj hpos ha (bytes := bytes) rfl hsh ((if_neg (Nat.not_lt.mpr hd)).trans (if_pos hcs))
  · rw [← hlen]
    exact exec_analyze_of_ok ht hj hpos ha (bytes := bytes) rfl hsh
      ((if_neg (Nat.not_lt.mpr hd)).trans (if_neg (Nat.not_le.mpr hcs)))

end Sys2Proof.Machine
end

section
/-! PROOF. What BuildTree makes (41 R141, R142): its list stays sorted, its arena is the leaves and then one branch less, and its root reaches each leaf once (10 R33). -/

namespace Sys2Proof.Machine

/-! ### The histogram (41 R158) -/

@[simp] theorem Node.isLeaf_leaf (v : Byte) (w : Word) : (Node.leaf v w).isLeaf = true := rfl
@[simp] theorem Node.isLeaf_branch (w : Word) (l r : Nat) : (Node.branch w l r).isLeaf = false := rfl

/-- Within a list the default of a lookup plays no part. -/
theorem getD_of_lt_length {α : Type} {l : List α} {i : Nat} (d : α) (h : i < l.length) : l.getD i d = l[i] := by
  rw [List.getD_eq_getElem?_getD, List.getElem?_eq_getElem h, Option.getD_some]

/-- The byte values that occur, in rising order. -/
def occurring (bytes : List Byte) : List Byte :=
  ((List.range Config.alphabet).map (BitVec.ofNat 8)).filter (· ∈ bytes)

/-- There is one leaf for each byte value that occurs (41 R142). -/
theorem leavesOf_eq (bytes : List Byte) :
    leavesOf bytes = (occurring bytes).map (fun v => .leaf v (u32 (bytes.count v))) := by
  have hstep : ∀ l : List Nat,
      l.filterMap (fun v =>
        let n := bytes.count (BitVec.ofNat 8 v)
        if n = 0 then none else some (Node.leaf (BitVec.ofNat 8 v) (u32 n))) =
      ((l.map (BitVec.ofNat 8)).filter (· ∈ bytes)).map (fun v => .leaf v (u32 (bytes.count v))) := by
    intro l
    induction l with
    | nil => rfl
    | cons v l ih =>
      rw [List.map_cons]
      by_cases h : BitVec.ofNat 8 v ∈ bytes
      · have hcount : bytes.count (BitVec.ofNat 8 v) ≠ 0 := Nat.ne_of_gt (List.count_pos_iff.mpr h)
        rw [List.filter_cons, if_pos (decide_eq_true h), List.map_cons, ← ih]
        exact List.filterMap_cons_some (if_neg hcount)
      · have hcount : bytes.count (BitVec.ofNat 8 v) = 0 := List.count_eq_zero.mpr h
        rw [List.filter_cons, if_neg (mt of_decide_eq_true h), ← ih]
        exact List.filterMap_cons_none (if_pos hcount)
  exact hstep _

theorem mem_occurring {bytes : List Byte} {v : Byte} : v ∈ occurring bytes ↔ v ∈ bytes := by
  have hv : v ∈ (List.range Config.alphabet).map (BitVec.ofNat 8) :=
    List.mem_map.mpr ⟨v.toNat, List.mem_range.mpr v.isLt, BitVec.ofNat_toNat 8 v⟩
  rw [occurring, List.mem_filter, decide_eq_true_eq]
  exact and_iff_right hv

theorem occurring_nodup (bytes : List Byte) : (occurring bytes).Nodup := by
  refine List.Pairwise.filter _ (List.pairwise_map.mpr (List.nodup_range.imp_of_mem fun {a b} ha hb hab h => ?_))
  have ha : a < 2 ^ 8 := List.mem_range.mp ha
  have hb : b < 2 ^ 8 := List.mem_range.mp hb
  have := congrArg BitVec.toNat h
  rw [BitVec.toNat_ofNat, BitVec.toNat_ofNat, Nat.mod_eq_of_lt ha, Nat.mod_eq_of_lt hb] at this
  exact hab this

/-- At most the whole alphabet occurs. -/
theorem occurring_length_le (bytes : List Byte) : (occurring bytes).length ≤ 256 := by
  refine Nat.le_trans (List.length_filter_le _ _) (Nat.le_of_eq ?_)
  rw [List.length_map, List.length_range]
  rfl

/-- A leaf weighs what its value counts (10 R33). -/
theorem weight_of_mem_leavesOf {bytes : List Byte} {v : Byte} {w : Word} (h : Node.leaf v w ∈ leavesOf bytes) :
    w = u32 (bytes.count v) := by
  rw [leavesOf_eq] at h
  obtain ⟨v', -, he⟩ := List.mem_map.mp h
  cases he
  rfl

/-! ### The ordered list (41 R142, R158) -/

/-- The order of the list: by weight, then by arena index. -/
def precedes (nodes : List Node) (a b : Nat) : Prop :=
  weightAt nodes a < weightAt nodes b ∨ (weightAt nodes a = weightAt nodes b ∧ a < b)

theorem weightAt_append {nodes : List Node} (more : List Node) {i : Nat} (h : i < nodes.length) :
    weightAt (nodes ++ more) i = weightAt nodes i := by
  rw [weightAt, weightAt, List.getElem?_append_left h]

/-- A node of a higher index than all others is inserted at its place in the order. -/
theorem insertByWeight_sorted {nodes : List Node} {n : Nat} {l : List Nat} (h : l.Pairwise (precedes nodes))
    (hn : ∀ i ∈ l, i < n) : (insertByWeight nodes n l).Pairwise (precedes nodes) := by
  induction l with
  | nil => exact List.pairwise_singleton _ _
  | cons e l ih =>
    obtain ⟨he, hl⟩ := List.pairwise_cons.mp h
    rw [insertByWeight]
    split
    · next hlt =>
      refine List.pairwise_cons.mpr ⟨fun x hx => .inl ?_, h⟩
      rcases List.mem_cons.mp hx with rfl | hx
      · exact hlt
      · rcases he x hx with hx | ⟨hx, -⟩ <;> omega
    · next hge =>
      refine List.pairwise_cons.mpr ⟨fun x hx => ?_, ih hl fun i hi => hn i (List.mem_cons_of_mem _ hi)⟩
      rcases (mem_insertByWeight ..).mp hx with rfl | hx
      · have := hn e List.mem_cons_self
        unfold precedes
        omega
      · exact he x hx

theorem sortByWeight_range_succ (nodes : List Node) (k : Nat) :
    sortByWeight nodes (List.range (k + 1)) = insertByWeight nodes k (sortByWeight nodes (List.range k)) := by
  simp [sortByWeight, List.range_succ]

theorem sortByWeight_range_sorted (nodes : List Node) (k : Nat) :
    (sortByWeight nodes (List.range k)).Pairwise (precedes nodes) := by
  induction k with
  | zero => exact List.Pairwise.nil
  | succ k ih =>
    rw [sortByWeight_range_succ]
    exact insertByWeight_sorted ih fun i hi => List.mem_range.mp (mem_of_mem_sortByWeight hi)

theorem sortByWeight_range_perm (nodes : List Node) (k : Nat) :
    (sortByWeight nodes (List.range k)).Perm (List.range k) := by
  induction k with
  | zero => exact .refl _
  | succ k ih =>
    rw [sortByWeight_range_succ, List.range_succ]
    exact (insertByWeight_perm ..).trans ((ih.cons k).trans (List.perm_append_singleton k _).symm)

/-- One merge (41 R142). -/
theorem mergeLoop_succ (fuel : Nat) (nodes : List Node) (a b : Nat) (l : List Nat) :
    mergeLoop (fuel + 1) nodes (a :: b :: l) =
      mergeLoop fuel (nodes ++ [.branch (u32 (weightAt nodes a + weightAt nodes b)) a b])
        (insertByWeight (nodes ++ [.branch (u32 (weightAt nodes a + weightAt nodes b)) a b]) nodes.length l) := rfl

theorem mergeLoop_sorted (fuel : Nat) {nodes : List Node} {l : List Nat} (h : l.Pairwise (precedes nodes))
    (hl : ∀ i ∈ l, i < nodes.length) :
    (mergeLoop fuel nodes l).2.Pairwise (precedes (mergeLoop fuel nodes l).1) := by
  induction fuel generalizing nodes l with
  | zero => exact h
  | succ fuel ih =>
    match l, h, hl with
    | [], h, _ => exact h
    | [_], h, _ => exact h
    | a :: b :: l, h, hl =>
      have hrest : ∀ i ∈ l, i < nodes.length := fun i hi => hl i (by simp [hi])
      rw [mergeLoop_succ]
      refine ih (insertByWeight_sorted ?_ hrest) fun i hi => ?_
      · refine (List.pairwise_cons.mp (List.pairwise_cons.mp h).2).2.imp_of_mem fun {x y} hx hy hxy => ?_
        rwa [precedes, weightAt_append _ (hrest x hx), weightAt_append _ (hrest y hy)]
      · rw [List.length_append, List.length_singleton]
        rcases (mem_insertByWeight ..).mp hi with rfl | hi
        · exact Nat.lt_succ_self _
        · exact Nat.lt_succ_of_lt (hrest i hi)

/-- Settles O30: the leaves read the counts alone, and a merge inserts a node of the highest index yet. -/
theorem buildTreeDeterminedByHistogram : Obligations.BuildTreeDeterminedByHistogram := by
  refine ⟨fun bytes bytes' h => ?_, fun bytes merges _ => ?_⟩
  · have hleaves : leavesOf bytes = leavesOf bytes' := by simp only [leavesOf, h]
    simp only [buildTree, hleaves]
  · exact mergeLoop_sorted merges (sortByWeight_range_sorted _ _)
      fun i hi => List.mem_range.mp (mem_of_mem_sortByWeight hi)

/-! ### The shape of a node, whatever the fuel (41 R140) -/

/-- The arena holds the shape `sh` below index `i`. -/
def hasShape (nodes : List Node) (i : Nat) (sh : Shape) : Prop := ∃ fuel, shapeAt nodes fuel i = some sh

theorem shapeAt_of_le {nodes : List Node} {fuel fuel' i : Nat} {sh : Shape} (h : shapeAt nodes fuel i = some sh)
    (hle : fuel ≤ fuel') : shapeAt nodes fuel' i = some sh := by
  induction hle with
  | refl => exact h
  | step _ ih => exact shapeAt_succ ih

theorem hasShape.unique {nodes : List Node} {i : Nat} {sh sh' : Shape} (h : hasShape nodes i sh)
    (h' : hasShape nodes i sh') : sh = sh' := by
  obtain ⟨fuel, h⟩ := h
  obtain ⟨fuel', h'⟩ := h'
  exact Option.some.inj ((shapeAt_of_le h (Nat.le_max_left fuel fuel')).symm.trans
    (shapeAt_of_le h' (Nat.le_max_right fuel fuel')))

theorem hasShape.append {nodes : List Node} {i : Nat} {sh : Shape} (h : hasShape nodes i sh) (more : List Node) :
    hasShape (nodes ++ more) i sh := h.imp fun _ => shapeAt_append

theorem hasShape.lt {nodes : List Node} {i : Nat} {sh : Shape} (h : hasShape nodes i sh) : i < nodes.length := by
  obtain ⟨fuel, h⟩ := h
  refine Nat.lt_of_not_le fun hge => ?_
  cases fuel with
  | zero => cases h
  | succ fuel =>
    rw [shapeAt, List.getElem?_eq_none hge] at h
    cases h

theorem shapeAt_leaf {nodes : List Node} {i : Nat} {v : Byte} {w : Word} (h : nodes[i]? = some (.leaf v w))
    (fuel : Nat) :
    shapeAt nodes (fuel + 1) i = some (.leaf v w) := by
  simp [shapeAt, h]

theorem shapeAt_branch {nodes : List Node} {i l r fuel : Nat} {w : Word} {sl sr : Shape}
    (h : nodes[i]? = some (.branch w l r)) (hl : shapeAt nodes fuel l = some sl) (hr : shapeAt nodes fuel r = some sr) :
    shapeAt nodes (fuel + 1) i = some (.branch w sl sr) := by
  simp [shapeAt, h, hl, hr]

theorem hasShape.branch {nodes : List Node} {i l r : Nat} {w : Word} {sl sr : Shape}
    (h : nodes[i]? = some (.branch w l r)) (hl : hasShape nodes l sl) (hr : hasShape nodes r sr) :
    hasShape nodes i (.branch w sl sr) := by
  obtain ⟨fl, hl⟩ := hl
  obtain ⟨fr, hr⟩ := hr
  have hl' := shapeAt_of_le hl (Nat.le_max_left fl fr)
  have hr' := shapeAt_of_le hr (Nat.le_max_right fl fr)
  exact ⟨max fl fr + 1, shapeAt_branch h hl' hr'⟩

/-- The leaves of a shape, from left to right. -/
def Shape.leaves : Shape → List (Byte × Word)
  | .leaf v w => [(v, w)]
  | .branch _ l r => l.leaves ++ r.leaves

/-- The leaves of a shape are leaves of its arena. -/
theorem leaf_mem_of_shapeAt {nodes : List Node} {fuel i : Nat} {sh : Shape} (h : shapeAt nodes fuel i = some sh)
    {v : Byte} {w : Word} (hx : (v, w) ∈ sh.leaves) : Node.leaf v w ∈ nodes := by
  induction fuel generalizing i sh with
  | zero => cases h
  | succ fuel ih =>
    rw [shapeAt] at h
    split at h
    · cases h
    · next hn =>
      cases h
      cases List.mem_singleton.mp hx
      exact List.mem_of_getElem? hn
    · split at h
      · next hl hr =>
        cases h
        rcases List.mem_append.mp hx with hx | hx
        · exact ih hl hx
        · exact ih hr hx
      · cases h

/-- A shape has one branch less than leaves. -/
theorem Shape.size_succ (sh : Shape) : sh.size + 1 = 2 * sh.values.length := by
  induction sh with
  | leaf v w => rfl
  | branch w l r hl hr => simp only [Shape.size, Shape.values, List.length_append]; omega

theorem Shape.bits_succ (sh : Shape) : sh.bits + 1 = 10 * sh.values.length := by
  induction sh with
  | leaf v w => rfl
  | branch w l r hl hr => simp only [Shape.bits, Shape.values, List.length_append]; omega

/-! ### The forest of the merge loop -/

/-- Each index of the list has a shape, and together they have the values `vs` as leaves. -/
def forest (nodes : List Node) (l : List Nat) (vs : List Byte) : Prop :=
  ∃ f : Nat → Shape, (∀ i ∈ l, hasShape nodes i (f i)) ∧ (l.flatMap (fun i => (f i).values)).Perm vs

theorem forest.perm {nodes : List Node} {l l' : List Nat} {vs : List Byte} (h : forest nodes l vs) (hp : l'.Perm l) :
    forest nodes l' vs := by
  obtain ⟨f, hf, hvs⟩ := h
  exact ⟨f, fun i hi => hf i (hp.mem_iff.mp hi), (hp.flatMap_right _).trans hvs⟩

/-- The shapes `f` with `sh` for the node `n`. -/
def shapesWith (f : Nat → Shape) (n : Nat) (sh : Shape) (i : Nat) : Shape := if i = n then sh else f i

theorem shapesWith_self (f : Nat → Shape) (n : Nat) (sh : Shape) : shapesWith f n sh n = sh := if_pos rfl

theorem shapesWith_of_lt (f : Nat → Shape) {n i : Nat} (sh : Shape) (h : i < n) : shapesWith f n sh i = f i :=
  if_neg (Nat.ne_of_lt h)

/-- A merge puts a branch over the first two shapes. -/
theorem forest.merge {nodes : List Node} {a b : Nat} {l : List Nat} {vs : List Byte} (h : forest nodes (a :: b :: l) vs)
    (w : Word) : forest (nodes ++ [.branch w a b]) (nodes.length :: l) vs := by
  obtain ⟨f, hf, hvs⟩ := h
  have ha := hf a List.mem_cons_self
  have hb := hf b (List.mem_cons_of_mem _ List.mem_cons_self)
  have hl : ∀ i ∈ l, hasShape nodes i (f i) := fun i hi => hf i (List.mem_cons_of_mem _ (List.mem_cons_of_mem _ hi))
  refine ⟨shapesWith f nodes.length (.branch w (f a) (f b)), fun i hi => ?_, ?_⟩
  · rcases List.mem_cons.mp hi with rfl | hi
    · rw [shapesWith_self]
      exact .branch List.getElem?_concat_length (ha.append _) (hb.append _)
    · rw [shapesWith_of_lt _ _ (hl i hi).lt]
      exact (hl i hi).append _
  · have hsame : l.map (fun i => (shapesWith f nodes.length (.branch w (f a) (f b)) i).values) =
        l.map (fun i => (f i).values) :=
      List.map_congr_left fun i hi => by rw [shapesWith_of_lt _ _ (hl i hi).lt]
    rw [List.flatMap_cons, List.flatMap_def, hsame, ← List.flatMap_def, shapesWith_self, Shape.values,
      List.append_assoc]
    rwa [List.flatMap_cons, List.flatMap_cons] at hvs

theorem mergeLoop_forest (fuel : Nat) {nodes : List Node} {l : List Nat} {vs : List Byte} (h : forest nodes l vs) :
    forest (mergeLoop fuel nodes l).1 (mergeLoop fuel nodes l).2 vs := by
  induction fuel generalizing nodes l with
  | zero => exact h
  | succ fuel ih =>
    match l, h with
    | [], h => exact h
    | [_], h => exact h
    | a :: b :: l, h =>
      rw [mergeLoop_succ]
      exact ih ((h.merge _).perm (insertByWeight_perm ..))

/-- The loop appends branches, one for each node the list loses. -/
theorem mergeLoop_nodes (fuel : Nat) (nodes : List Node) (l : List Nat) :
    ∃ more, (mergeLoop fuel nodes l).1 = nodes ++ more ∧ (∀ n ∈ more, n.isLeaf = false) ∧
      more.length + (mergeLoop fuel nodes l).2.length = l.length := by
  induction fuel generalizing nodes l with
  | zero => exact ⟨[], by simp [mergeLoop]⟩
  | succ fuel ih =>
    match l with
    | [] => exact ⟨[], by simp [mergeLoop]⟩
    | [_] => exact ⟨[], by simp [mergeLoop]⟩
    | a :: b :: l =>
      rw [mergeLoop_succ]
      generalize hb : Node.branch (u32 (weightAt nodes a + weightAt nodes b)) a b = n
      obtain ⟨more, hnodes, hmore, hlen⟩ := ih (nodes ++ [n]) (insertByWeight (nodes ++ [n]) nodes.length l)
      rw [insertByWeight_length] at hlen
      refine ⟨n :: more, by simp [hnodes], ?_, by simp only [List.length_cons]; omega⟩
      subst hb
      simpa using hmore

/-- With fuel for every merge one node is left of a list that is not empty. -/
theorem mergeLoop_length {fuel : Nat} {nodes : List Node} {l : List Nat} (hne : 0 < l.length)
    (h : l.length ≤ fuel + 1) : (mergeLoop fuel nodes l).2.length = 1 := by
  induction fuel generalizing nodes l with
  | zero => exact Nat.le_antisymm h hne
  | succ fuel ih =>
    match l, hne, h with
    | [_], _, _ => rfl
    | a :: b :: l, _, h =>
      rw [mergeLoop_succ]
      simp only [List.length_cons] at h
      exact ih (by simp) (by rw [insertByWeight_length]; omega)

/-! ### The built tree (41 R142, 10 R33) -/

theorem leavesOf_forest (bytes : List Byte) :
    forest (leavesOf bytes) (List.range (leavesOf bytes).length) (occurring bytes) := by
  refine ⟨fun i => .leaf ((occurring bytes).getD i 0#8) (u32 (bytes.count ((occurring bytes).getD i 0#8))),
    fun i hi => ?_, ?_⟩
  · have hi := List.mem_range.mp hi
    refine ⟨1, shapeAt_leaf ?_ 0⟩
    rw [leavesOf_eq, List.length_map] at hi
    rw [leavesOf_eq, List.getElem?_map, getD_of_lt_length _ hi, List.getElem?_eq_getElem hi]
    rfl
  · have hvalues : (List.range (occurring bytes).length).map (fun i => (occurring bytes).getD i 0#8) =
        occurring bytes := by
      refine List.ext_getElem (by rw [List.length_map, List.length_range]) fun i _ hi => ?_
      rw [List.getElem_map, List.getElem_range, getD_of_lt_length _ hi]
    rw [leavesOf_eq, List.length_map]
    exact (List.Perm.of_eq (List.map_eq_flatMap.symm.trans hvalues))

/-- Nodes of one kind take the same bits each (41 R144). -/
theorem sum_bits_of_isLeaf {nodes : List Node} {b : Bool} (h : ∀ n ∈ nodes, n.isLeaf = b) :
    (nodes.map (fun n => if n.isLeaf then 9 else 1)).sum = nodes.length * if b then 9 else 1 := by
  induction nodes with
  | nil => rw [List.length_nil, Nat.zero_mul]; rfl
  | cons n nodes ih =>
    rw [List.map_cons, List.sum_cons, ih fun n hn => h n (List.mem_cons_of_mem _ hn), h n List.mem_cons_self,
      List.length_cons, Nat.succ_mul, Nat.add_comm]

section
variable {bytes : List Byte} (h : bytes ≠ [])
include h

/-- The arena of a built tree is its leaves, and then branches, one less; the root reaches each leaf once. -/
theorem buildTree_nodes :
    (∃ more, (buildTree bytes).nodes = leavesOf bytes ++ more ∧ (∀ n ∈ more, n.isLeaf = false) ∧
      more.length + 1 = (leavesOf bytes).length) ∧
    forest (buildTree bytes).nodes [(buildTree bytes).root] (occurring bytes) := by
  have hpos := List.length_pos_iff.mpr (leavesOf_ne_nil h)
  have hperm := sortByWeight_range_perm (leavesOf bytes) (leavesOf bytes).length
  have hlen : (sortByWeight (leavesOf bytes) (List.range (leavesOf bytes).length)).length =
      (leavesOf bytes).length := by
    rw [hperm.length_eq, List.length_range]
  have hforest := mergeLoop_forest (leavesOf bytes).length ((leavesOf_forest bytes).perm hperm)
  have hnodes := mergeLoop_nodes (leavesOf bytes).length (leavesOf bytes)
    (sortByWeight (leavesOf bytes) (List.range (leavesOf bytes).length))
  have hone := mergeLoop_length (fuel := (leavesOf bytes).length) (nodes := leavesOf bytes) (hlen ▸ hpos) (by omega)
  rw [hone, hlen] at hnodes
  refine ⟨hnodes, ?_⟩
  simp only [buildTree]
  generalize mergeLoop _ _ _ = p at hforest hone
  obtain ⟨nodes, l⟩ := p
  obtain ⟨root, rfl⟩ := List.length_eq_one_iff.mp hone
  exact hforest

theorem leaf_mem_buildTree {v : Byte} {w : Word} (hx : Node.leaf v w ∈ (buildTree bytes).nodes) :
    Node.leaf v w ∈ leavesOf bytes := by
  obtain ⟨⟨more, hnodes, hmore, -⟩, -⟩ := buildTree_nodes h
  rw [hnodes] at hx
  exact (List.mem_append.mp hx).resolve_right fun hx => Bool.noConfusion (hmore _ hx)

variable {sh : Shape} (hsh : (buildTree bytes).shape = some sh)
include hsh

/-- The leaves of a built tree are the values that occur. -/
theorem buildTree_values_perm : sh.values.Perm (occurring bytes) := by
  obtain ⟨-, f, hf, hvs⟩ := buildTree_nodes h
  have hroot := hf _ (List.mem_singleton_self _)
  rwa [List.flatMap_cons, List.flatMap_nil, List.append_nil, hroot.unique ⟨_, hsh⟩] at hvs

theorem buildTree_values_nodup : sh.values.Nodup := (buildTree_values_perm h hsh).nodup_iff.mpr (occurring_nodup bytes)

theorem buildTree_values_length_le : sh.values.length ≤ 256 :=
  (buildTree_values_perm h hsh).length_eq ▸ occurring_length_le bytes

theorem mem_buildTree_values {v : Byte} : v ∈ sh.values ↔ v ∈ bytes :=
  (buildTree_values_perm h hsh).mem_iff.trans mem_occurring

/-- A leaf of the tree is a leaf of the arena and weighs what its value counts. -/
theorem buildTree_leaf {v : Byte} {w : Word} (hx : (v, w) ∈ sh.leaves) :
    Node.leaf v w ∈ (buildTree bytes).nodes ∧ w = u32 (bytes.count v) :=
  have hmem := leaf_mem_of_shapeAt hsh hx
  ⟨hmem, weight_of_mem_leavesOf (leaf_mem_buildTree h hmem)⟩

/-- The arena holds one branch less than leaves. -/
theorem buildTree_sizes :
    (buildTree bytes).nodes.length + 1 = 2 * sh.values.length ∧
      (buildTree bytes).treeBits + 1 = 10 * sh.values.length := by
  obtain ⟨⟨more, hnodes, hmore, hlen⟩, -⟩ := buildTree_nodes h
  have hvalues : (leavesOf bytes).length = sh.values.length := by
    rw [(buildTree_values_perm h hsh).length_eq, leavesOf_eq, List.length_map]
  have hleaf : ∀ n ∈ leavesOf bytes, n.isLeaf = true := by simp [leavesOf_eq]
  rw [Tree.treeBits, hnodes, List.map_append, List.sum_append, sum_bits_of_isLeaf hleaf,
    sum_bits_of_isLeaf hmore, List.length_append]
  simp only [if_true, Bool.false_eq_true, if_false]
  omega

/-- A built tree is sound (10 R33). -/
theorem buildTree_wf : (buildTree bytes).wf = true := by
  obtain ⟨hnodes, hbits⟩ := buildTree_sizes h hsh
  have hsize := sh.size_succ
  have hshbits := sh.bits_succ
  have hle := buildTree_values_length_le h hsh
  obtain ⟨hranked, -, -⟩ := mergeLoop_rankedBy (fuel := (leavesOf bytes).length) (leavesOf_rankedBy id bytes)
    (is := sortByWeight (leavesOf bytes) (List.range (leavesOf bytes).length))
    (fun i hi => List.mem_range.mp (mem_of_mem_sortByWeight hi))
  have hroot : (buildTree bytes).root < (buildTree bytes).nodes.length := hasShape.lt ⟨_, hsh⟩
  have harena : (buildTree bytes).nodes.all (Node.inArena (buildTree bytes).nodes.length) = true := by
    refine List.all_eq_true.mpr fun n hn => ?_
    cases n with
    | leaf v w => rfl
    | branch w l r =>
      obtain ⟨i, hi⟩ := List.getElem?_of_mem hn
      obtain ⟨⟨hl, -⟩, hr, -⟩ := hranked i w l r hi
      exact Bool.and_eq_true_iff.mpr ⟨decide_eq_true hl, decide_eq_true hr⟩
  have hbuilt : (buildTree bytes).built = true := rfl
  have hmax : (buildTree bytes).nodes.length ≤ Config.maxTreeNodes := by simp only [Config.maxTreeNodes]; omega
  have hsize' : sh.size = (buildTree bytes).nodes.length := by omega
  have hbits' : sh.bits = (buildTree bytes).treeBits := by omega
  simp [Tree.wf, hbuilt, hsh, hsize', hbits', hroot, harena, hmax]

end

end Sys2Proof.Machine
end

section
/-! PROOF. The codes of a tree (41 R147, R148, R155, R156): the code of a leaf is its path from the root, the lookup table holds it, and Walk follows it. -/

namespace Sys2Proof.Machine

/-! ### Paths -/

/-- The path from the root, 0 for left and 1 for right, leads to the leaf of value `v` and weight `w`. -/
inductive Shape.LeafAt : Shape → List Bool → Byte → Word → Prop
  | here (v : Byte) (w : Word) : Shape.LeafAt (.leaf v w) [] v w
  | left {l : Shape} {p : List Bool} {v : Byte} {w : Word} (u : Word) (r : Shape) (h : l.LeafAt p v w) :
    Shape.LeafAt (.branch u l r) (false :: p) v w
  | right {r : Shape} {p : List Bool} {v : Byte} {w : Word} (u : Word) (l : Shape) (h : r.LeafAt p v w) :
    Shape.LeafAt (.branch u l r) (true :: p) v w

theorem Shape.values_eq (sh : Shape) : sh.values = sh.leaves.map Prod.fst := by
  induction sh with
  | leaf v w => rfl
  | branch w l r hl hr => simp only [Shape.values, Shape.leaves, List.map_append, hl, hr]

/-- Each leaf value has a path. -/
theorem Shape.exists_leafAt {sh : Shape} {v : Byte} (h : v ∈ sh.values) : ∃ p w, sh.LeafAt p v w := by
  induction sh with
  | leaf v' w => exact ⟨[], w, List.mem_singleton.mp h ▸ .here v' w⟩
  | branch u l r hl hr =>
    rcases List.mem_append.mp h with h | h
    · obtain ⟨p, w, hp⟩ := hl h
      exact ⟨false :: p, w, hp.left u r⟩
    · obtain ⟨p, w, hp⟩ := hr h
      exact ⟨true :: p, w, hp.right u l⟩

namespace Shape.LeafAt

variable {sh : Shape} {p : List Bool} {v : Byte} {w : Word}

theorem mem_leaves (h : sh.LeafAt p v w) : (v, w) ∈ sh.leaves := by
  induction h with
  | here v w => exact List.mem_singleton_self _
  | left u r _ ih => exact List.mem_append_left _ ih
  | right u l _ ih => exact List.mem_append_right _ ih

theorem mem_values (h : sh.LeafAt p v w) : v ∈ sh.values := by
  rw [Shape.values_eq]
  exact List.mem_map_of_mem h.mem_leaves

theorem length_le_depth (h : sh.LeafAt p v w) : p.length ≤ sh.depth := by
  induction h with
  | here v w => exact Nat.le_refl _
  | left u r _ ih => simp only [List.length_cons, Shape.depth]; omega
  | right u l _ ih => simp only [List.length_cons, Shape.depth]; omega

/-- Only a tree of one leaf has an empty path. -/
theorem length_pos (h : sh.LeafAt p v w) (h2 : 2 ≤ sh.values.length) : 0 < p.length := by
  cases h with
  | here v w => exact absurd h2 (by simp [Shape.values])
  | left u r _ => exact Nat.succ_pos _
  | right u l _ => exact Nat.succ_pos _

/-- A path that goes on from a leaf does not exist: both lead to the same leaf. -/
theorem value_eq_of_isPrefix (h : sh.LeafAt p v w) {p' : List Bool} {v' : Byte} {w' : Word}
    (h' : sh.LeafAt p' v' w') (hp : p <+: p') : v = v' := by
  induction h generalizing p' with
  | here v w => cases h'; rfl
  | left u r _ ih =>
    cases h' with
    | left _ _ h' => exact ih h' (List.cons_prefix_cons.mp hp).2
    | right _ _ h' => exact Bool.noConfusion (List.cons_prefix_cons.mp hp).1
  | right u l _ ih =>
    cases h' with
    | left _ _ h' => exact Bool.noConfusion (List.cons_prefix_cons.mp hp).1
    | right _ _ h' => exact ih h' (List.cons_prefix_cons.mp hp).2

/-- A tree without its weights has the same paths. -/
theorem unweighted (h : sh.LeafAt p v w) : sh.unweighted.LeafAt p v 0#32 := by
  induction h with
  | here v w => exact .here v 0#32
  | left u r _ ih => exact ih.left _ _
  | right u l _ ih => exact ih.right _ _

end Shape.LeafAt

/-! ### The lookup table (41 R147) -/

/-- A path as it grows by one bit: `(path << 1) | b`. -/
def pushBit (path : Word) (b : Bool) : Word := if b then (path <<< 1) ||| 1#32 else path <<< 1

theorem pushBit_getLsbD (path : Word) (b : Bool) {i : Nat} (hi : i < 32) :
    (pushBit path b).getLsbD i = if i = 0 then b else path.getLsbD (i - 1) := by
  cases b <;> cases i <;> simp [pushBit, hi, -BitVec.getLsbD_eq_getElem]

/-- Pushed bits are in the low bits, the last one in bit 0. -/
theorem foldl_pushBit_getLsbD (p : List Bool) (path : Word) {i : Nat} (hi : i < 32) :
    (p.foldl pushBit path).getLsbD i =
      if i < p.length then p.getD (p.length - 1 - i) false else path.getLsbD (i - p.length) := by
  induction p generalizing path with
  | nil => simp
  | cons b p ih =>
    rw [List.foldl_cons, ih, pushBit_getLsbD path b (by omega), List.length_cons, Nat.add_sub_cancel]
    rcases Nat.lt_trichotomy i p.length with hlt | heq | hgt
    · have hsucc : p.length - i = p.length - 1 - i + 1 := by omega
      rw [if_pos hlt, if_pos (by omega), hsucc, List.getD_cons_succ]
    · rw [if_neg (by omega), if_pos (by omega), if_pos (by omega), heq, Nat.sub_self, List.getD_cons_zero]
    · rw [if_neg (by omega), if_neg (by omega), if_neg (by omega), Nat.sub_sub]

/-- The low bits of a path of at most 32 bits are the path (10 R34). -/
theorem LutEntry.code_of_path {p : List Bool} (h : p.length ≤ 32) (w : Word) :
    LutEntry.code { pattern := p.foldl pushBit 0#32, length := p.length, weight := w } = p := by
  refine List.ext_getElem (by simp [LutEntry.code]) fun j _ hj => ?_
  have hback : p.length - 1 - (p.length - 1 - j) = j := by omega
  simp only [LutEntry.code, List.getElem_map, List.getElem_range]
  rw [foldl_pushBit_getLsbD p _ (by omega), if_pos (by omega), hback, getD_of_lt_length _ hj]

/-- The visit of a tree leaves the entries of values it does not have. -/
theorem Shape.visit_of_not_mem {sh : Shape} {v : Byte} (h : v ∉ sh.values) (path : Word) (d : Nat)
    (tab : Vector LutEntry 256) : (sh.visit path d tab)[v.toNat]'v.isLt = tab[v.toNat]'v.isLt := by
  induction sh generalizing path d tab with
  | leaf v' w =>
    have hne : v'.toNat ≠ v.toNat := fun he => h (List.mem_singleton.mpr (BitVec.eq_of_toNat_eq he.symm))
    exact Vector.getElem_set_ne _ _ hne
  | branch w l r hl hr =>
    obtain ⟨hnl, hnr⟩ := not_or.mp (mt List.mem_append.mpr h)
    rw [Shape.visit, hr hnr, hl hnl]

namespace Shape.LeafAt

variable {sh : Shape} {p : List Bool} {v : Byte} {w : Word}

/-- The visit enters the path of a value that only one leaf has. -/
theorem visit (h : sh.LeafAt p v w) (hnd : sh.values.Nodup) (path : Word) (d : Nat) (tab : Vector LutEntry 256) :
    (sh.visit path d tab)[v.toNat]'v.isLt =
      { pattern := p.foldl pushBit path, length := d + p.length, weight := w } := by
  induction h generalizing path d tab with
  | here v w => exact Vector.getElem_set_self _
  | left u r h ih =>
    obtain ⟨hl, -, hdisj⟩ := List.nodup_append.mp hnd
    rw [Shape.visit, Shape.visit_of_not_mem (fun hr => hdisj _ h.mem_values _ hr rfl), ih hl, List.length_cons,
      Nat.add_right_comm, Nat.add_assoc]
    rfl
  | right u l h ih =>
    obtain ⟨-, hr, -⟩ := List.nodup_append.mp hnd
    rw [Shape.visit, ih hr, List.length_cons, Nat.add_right_comm, Nat.add_assoc]
    rfl

theorem entryOf (h : sh.LeafAt p v w) (hnd : sh.values.Nodup) :
    sh.lookup.entryOf v = { pattern := p.foldl pushBit 0#32, length := p.length, weight := w } := by
  rw [LookupTable.entryOf, ← Nat.zero_add p.length]
  exact h.visit hnd 0#32 0 _

/-- The code of a value is its path (41 R156). -/
theorem code (h : sh.LeafAt p v w) (hnd : sh.values.Nodup) (hd : sh.depth ≤ 32) : (sh.lookup.entryOf v).code = p := by
  rw [h.entryOf hnd]
  exact LutEntry.code_of_path (Nat.le_trans h.length_le_depth hd) w

end Shape.LeafAt

/-- The code of a value as its path. -/
theorem Shape.leafAt_code {sh : Shape} {v : Byte} (hv : v ∈ sh.values) (hnd : sh.values.Nodup) (hd : sh.depth ≤ 32) :
    ∃ w, sh.LeafAt (sh.lookup.entryOf v).code v w := by
  obtain ⟨p, w, hp⟩ := Shape.exists_leafAt hv
  exact ⟨w, (hp.code hnd hd).symm ▸ hp⟩

/-- A code has the length of its entry. -/
@[simp] theorem LutEntry.code_length (e : LutEntry) : e.code.length = e.length := by
  simp [LutEntry.code]

/-! ### Walk (41 R155) -/

/-- The buffer at `base` holds `bits` from position `pos` on. -/
def bitsAt (m : Memory) (base pos : Nat) (bits : List Bool) : Prop :=
  ∀ j, j < bits.length → some (memBit m base (pos + j)) = bits[j]?

theorem bitsAt_append {m : Memory} {base pos : Nat} {bits bits' : List Bool} :
    bitsAt m base pos (bits ++ bits') ↔ bitsAt m base pos bits ∧ bitsAt m base (pos + bits.length) bits' := by
  constructor
  · intro h
    refine ⟨fun j hj => ?_, fun j hj => ?_⟩
    · rw [h j (by rw [List.length_append]; omega), List.getElem?_append_left hj]
    · rw [Nat.add_assoc, h _ (by rw [List.length_append]; omega), List.getElem?_append_right (Nat.le_add_right ..),
        Nat.add_sub_cancel_left]
  · rintro ⟨h, h'⟩ j hj
    rw [List.length_append] at hj
    by_cases hlt : j < bits.length
    · rw [h j hlt, List.getElem?_append_left hlt]
    · rw [List.getElem?_append_right (by omega), ← h' _ (by omega), Nat.add_assoc, Nat.add_sub_cancel' (by omega)]

/-- The next `n` bits lie in the buffer and in MEM (40 R119). -/
structure Cursor.HasRoom (ms : Nat) (c : Cursor) (n : Nat) : Prop where
  fits : c.fits n = true
  memOk : c.memOk ms n = true

/-- The next bits of the buffer are `bits`. -/
structure Cursor.Reads (ms : Nat) (m : Memory) (c : Cursor) (bits : List Bool) : Prop extends
    c.HasRoom ms bits.length where
  bits : bitsAt m c.base.toNat c.pos bits

/-- Of `n + k` bits that fit the first `n` do, and so do the `k` after them. -/
theorem Cursor.fits_add {c : Cursor} {n k : Nat} (h : c.fits (n + k) = true) :
    c.fits n = true ∧ (c.advance n).fits k = true := by
  have hle := Cursor.fits_iff.mp h
  have hn : c.fits n = true := Cursor.fits_iff.mpr fun _ => by omega
  refine ⟨hn, Cursor.fits_iff.mpr fun _ => ?_⟩
  rw [Cursor.advance_pos_of_fits hn, Cursor.advance_len]; omega

theorem Cursor.HasRoom.add {c : Cursor} {ms n k : Nat} (h : c.HasRoom ms (n + k)) :
    c.HasRoom ms n ∧ (c.advance n).HasRoom ms k := by
  obtain ⟨hn, hk⟩ := Cursor.fits_add h.fits
  have hlt := Cursor.memOk_iff.mp h.memOk
  refine ⟨⟨hn, Cursor.memOk_iff.mpr fun _ => by omega⟩, hk, Cursor.memOk_iff.mpr fun _ => ?_⟩
  rw [Cursor.advance_pos_of_fits hn, Cursor.advance_base]; omega

/-- Bits that fit may be passed in two parts. -/
theorem Cursor.advance_add {c : Cursor} {n k : Nat} (h : c.fits (n + k) = true) :
    (c.advance n).advance k = c.advance (n + k) :=
  Cursor.advance_advance c (Cursor.pos_add_lt_of_fits (Cursor.fits_add h).1)

/-- Bits are read in two parts. -/
theorem Cursor.Reads.append {ms : Nat} {m : Memory} {c : Cursor} {bits bits' : List Bool}
    (h : c.Reads ms m (bits ++ bits')) : c.Reads ms m bits ∧ (c.advance bits.length).Reads ms m bits' := by
  obtain ⟨hroom, hroom'⟩ := (List.length_append ▸ h.toHasRoom : c.HasRoom ms (bits.length + bits'.length)).add
  obtain ⟨hbits, hbits'⟩ := bitsAt_append.mp h.bits
  exact ⟨⟨hroom, hbits⟩, hroom', by rwa [Cursor.advance_pos_of_fits hroom.fits]⟩

theorem Cursor.Reads.advance_append {ms : Nat} {m : Memory} {c : Cursor} {bits bits' : List Bool}
    (h : c.Reads ms m (bits ++ bits')) :
    (c.advance bits.length).advance bits'.length = c.advance (bits ++ bits').length := by
  rw [List.length_append]
  exact Cursor.advance_add (List.length_append ▸ h.fits)

/-- The first bit read is the one at the cursor. -/
theorem Cursor.Reads.bitAt {ms : Nat} {m : Memory} {c : Cursor} {b : Bool} (h : c.Reads ms m [b]) : bitAt m c = b :=
  (bitAt_eq_memBit m c).trans (Option.some.inj (h.bits 0 Nat.one_pos))

/-- At a branch Walk takes one bit (41 R155). -/
theorem Shape.walk_branch {ms : Nat} {m : Memory} {c : Cursor} {b : Bool} (h : c.Reads ms m [b]) (u : Word)
    (l r : Shape) : (Shape.branch u l r).walk ms m c = (if b then r else l).walk ms m (c.advance 1) := by
  have hfits : c.fits 1 = true := h.fits
  have hmem : c.memOk ms 1 = true := h.memOk
  cases b <;> simp [Shape.walk, getBit, hfits, hmem, h.bitAt]

/-- Walk over the bits of a path ends at its leaf. -/
theorem Shape.LeafAt.walk {sh : Shape} {p : List Bool} {v : Byte} {w : Word} (h : sh.LeafAt p v w) {ms : Nat}
    {m : Memory} {c : Cursor} (hreads : c.Reads ms m p) : sh.walk ms m c = (c.advance p.length, .ok v) := by
  induction h generalizing c with
  | here v w => rw [List.length_nil, Cursor.advance_zero, Shape.walk]
  | left u r _ ih =>
    obtain ⟨hbit, hrest⟩ := hreads.append (bits := [false])
    have hadv := hreads.advance_append (bits := [false])
    exact (Shape.walk_branch hbit u _ r).trans ((ih hrest).trans (congrArg (·, _) hadv))
  | right u l _ ih =>
    obtain ⟨hbit, hrest⟩ := hreads.append (bits := [true])
    have hadv := hreads.advance_append (bits := [true])
    exact (Shape.walk_branch hbit u l _).trans ((ih hrest).trans (congrArg (·, _) hadv))

/-! ### The code of a built tree (41 R156, R148) -/

theorem u32_count_toNat {bytes : List Byte} (h : bytes.length < 4294967296) (v : Byte) :
    (u32 (bytes.count v)).toNat = bytes.count v := by
  rw [u32, BitVec.toNat_ofNat]
  exact Nat.mod_eq_of_lt (Nat.lt_of_le_of_lt List.count_le_length h)

/-- Settles O28: each code is the path of its leaf, so one code that begins another leads to the same leaf, and Walk
over a code follows the path. -/
theorem buildTreePrefixCode : Obligations.BuildTreePrefixCode := by
  intro bytes sh hne hlen hsh hd
  have hnd := buildTree_values_nodup hne hsh
  refine ⟨fun v hv => ?_, fun h2 v hv => ?_, fun v hv v' hv' hvv' hcode => ?_,
    fun v hv ms m c hfits hmem hbits => ⟨LutEntry.code_length _, ?_⟩⟩
  · obtain ⟨p, w, hp⟩ := Shape.exists_leafAt hv
    obtain ⟨hmem, hw⟩ := buildTree_leaf hne hsh hp.mem_leaves
    rw [hp.entryOf hnd]
    exact ⟨hw ▸ u32_count_toNat hlen v, hmem⟩
  · obtain ⟨p, w, hp⟩ := Shape.exists_leafAt hv
    rw [hp.entryOf hnd]
    exact ⟨hp.length_pos h2, Nat.le_trans hp.length_le_depth hd⟩
  · obtain ⟨w, hp⟩ := Shape.leafAt_code hv hnd hd
    obtain ⟨w', hp'⟩ := Shape.leafAt_code hv' hnd hd
    exact hvv' (hp.value_eq_of_isPrefix hp' hcode)
  · obtain ⟨w, hp⟩ := Shape.leafAt_code hv hnd hd
    exact hp.walk ⟨⟨hfits, hmem⟩, hbits⟩

/-- The data bits are the lengths of the paths times the weights of their leaves (41 R148). -/
theorem Shape.dataBits_eq {sh : Shape} {f : Byte → Nat} (d : Nat) (h : ∀ p v w, sh.LeafAt p v w → f v = d + p.length) :
    sh.dataBits d = (sh.leaves.map (fun x => f x.1 * x.2.toNat)).sum := by
  induction sh generalizing d with
  | leaf v w => simp [Shape.dataBits, Shape.leaves, h [] v w (.here v w)]
  | branch u l r hl hr =>
    have hleft : ∀ p v w, l.LeafAt p v w → f v = d + 1 + p.length := fun p v w hp => by
      rw [h _ v w (hp.left u r), List.length_cons]; omega
    have hright : ∀ p v w, r.LeafAt p v w → f v = d + 1 + p.length := fun p v w hp => by
      rw [h _ v w (hp.right u l), List.length_cons]; omega
    rw [Shape.dataBits, hl _ hleft, hr _ hright, Shape.leaves, List.map_append, List.sum_append]

/-- One more byte adds once what its value gives. -/
theorem sum_mul_count_cons {vs : List Byte} (hnd : vs.Nodup) {b : Byte} (hb : b ∈ vs) (bytes : List Byte)
    (f : Byte → Nat) : (vs.map (fun v => f v * (b :: bytes).count v)).sum =
      f b + (vs.map (fun v => f v * bytes.count v)).sum := by
  induction vs with
  | nil => cases hb
  | cons v vs ih =>
    obtain ⟨hv, hnd⟩ := List.nodup_cons.mp hnd
    simp only [List.map_cons, List.sum_cons]
    by_cases hvb : v = b
    · subst hvb
      have hsame : vs.map (fun x => f x * (v :: bytes).count x) = vs.map (fun x => f x * bytes.count x) :=
        List.map_congr_left fun x hx => by
          have hne : v ≠ x := fun he => hv (he.symm ▸ hx)
          rw [List.count_cons_of_ne hne]
      rw [List.count_cons_self, hsame, Nat.mul_add, Nat.mul_one, Nat.add_comm _ (f v), Nat.add_assoc]
    · rw [List.count_cons_of_ne (Ne.symm hvb), ih hnd ((List.mem_cons.mp hb).resolve_left (Ne.symm hvb)),
        Nat.add_left_comm]

/-- A sum over a sequence, by the values that occur in it and their counts. -/
theorem sum_mul_count {bytes vs : List Byte} (hnd : vs.Nodup) (hmem : ∀ v ∈ bytes, v ∈ vs) (f : Byte → Nat) :
    (vs.map (fun v => f v * bytes.count v)).sum = (bytes.map f).sum := by
  induction bytes with
  | nil =>
    clear hnd hmem
    induction vs with
    | nil => rfl
    | cons v vs ih => rw [List.map_cons, List.sum_cons, ih]; rfl
  | cons b bytes ih =>
    rw [sum_mul_count_cons hnd (hmem b List.mem_cons_self), ih fun v hv => hmem v (List.mem_cons_of_mem _ hv),
      List.map_cons, List.sum_cons]

theorem buildTree_dataBits {bytes : List Byte} {sh : Shape} (hne : bytes ≠ []) (hlen : bytes.length < 4294967296)
    (hsh : (buildTree bytes).shape = some sh) :
    sh.dataBits 0 = (bytes.map (fun b => (sh.lookup.entryOf b).length)).sum := by
  have hnd := buildTree_values_nodup hne hsh
  have hleaf : ∀ x ∈ sh.leaves, x.2.toNat = bytes.count x.1 := fun x hx =>
    (congrArg BitVec.toNat (buildTree_leaf hne hsh hx).2).trans (u32_count_toNat hlen x.1)
  calc sh.dataBits 0
      = (sh.leaves.map (fun x => (sh.lookup.entryOf x.1).length * x.2.toNat)).sum :=
        Shape.dataBits_eq (f := fun b => (sh.lookup.entryOf b).length) 0 fun p v w hp => by
          rw [hp.entryOf hnd, Nat.zero_add]
    _ = (sh.leaves.map (fun x => (sh.lookup.entryOf x.1).length * bytes.count x.1)).sum := by
        rw [List.map_congr_left fun x hx => by rw [hleaf x hx]]
    _ = (sh.values.map (fun v => (sh.lookup.entryOf v).length * bytes.count v)).sum := by
        rw [Shape.values_eq, List.map_map]; rfl
    _ = (bytes.map (fun b => (sh.lookup.entryOf b).length)).sum :=
        sum_mul_count hnd (fun _ => (mem_buildTree_values hne hsh).mpr) _

/-- Settles O29: the code lengths sum to the same over the leaves, each times its count, and over the bytes. -/
theorem dataBitsIsEncodedLength : Obligations.DataBitsIsEncodedLength := by
  intro bytes sh hne hlen hsh
  obtain ⟨-, hbits⟩ := buildTree_sizes hne hsh
  have hle := buildTree_values_length_le hne hsh
  exact ⟨buildTree_dataBits hne hlen hsh, by omega, by omega⟩

end Sys2Proof.Machine
end

section
/-! PROOF. Serialize then Parse (41 R144, R146, R157): a serialization writes the preorder bit by bit, and a parse that reads a preorder lays its nodes out in that order. -/

namespace Sys2Proof.Machine

/-! ### Bits written one after another (40 R119) -/

/-- The bits written from the cursor on, one by one. -/
def putAll (m : Memory) (c : Cursor) (bits : List Bool) : Memory × Cursor :=
  bits.foldl (fun mc b => putBit mc.1 mc.2 b) (m, c)

theorem putAll_cons (m : Memory) (c : Cursor) (b : Bool) (bits : List Bool) :
    putAll m c (b :: bits) = putAll (putBit m c b).1 (c.advance 1) bits := rfl

theorem putAll_append (m : Memory) (c : Cursor) (bits bits' : List Bool) :
    putAll m c (bits ++ bits') = putAll (putAll m c bits).1 (putAll m c bits).2 bits' := List.foldl_append

/-- PutBits writes the bits of a code (40 R126, 10 R34). -/
theorem putBits_eq_putAll {m : Memory} (h : Memory.wf m = true) (c : Cursor) (e : LutEntry) :
    putBits m c e.pattern e.length = putAll m c e.code := by
  rw [putBits, putChunks_eq_putBitByBit e.pattern (Nat.le_refl _) h]
  obtain ⟨v, n, w⟩ := e
  clear h
  induction n generalizing m c with
  | zero => rfl
  | succ n ih =>
    have hcode : LutEntry.code ⟨v, n + 1, w⟩ = v.getLsbD n :: LutEntry.code ⟨v, n, w⟩ := by
      simp only [LutEntry.code, List.range_succ_eq_map, List.map_cons, List.map_map, Nat.add_sub_cancel, Nat.sub_zero]
      refine congrArg _ (List.map_congr_left fun j _ => ?_)
      rw [Function.comp, Nat.sub_sub, Nat.add_comm 1]
    rw [hcode, putAll_cons]
    exact ih (c.advance 1)

theorem byteBits_eq_code (v : Byte) : byteBits v = LutEntry.code { pattern := v.setWidth 32, length := 8 } := by
  refine List.map_congr_left fun j _ => ?_
  rw [BitVec.getLsbD_setWidth, decide_eq_true (show 8 - 1 - j < 32 by omega), Bool.true_and]
  rfl

theorem byteBits_length (v : Byte) : (byteBits v).length = 8 := by simp [byteBits]

section
variable {m : Memory} {c : Cursor} {bits : List Bool}

theorem wf_putAll (h : Memory.wf m = true) (c : Cursor) (bits : List Bool) : Memory.wf (putAll m c bits).1 = true := by
  induction bits generalizing m c with
  | nil => exact h
  | cons b bits ih => exact ih (wf_putBit c b h) _

theorem putAll_snd (hfits : c.fits bits.length = true) : (putAll m c bits).2 = c.advance bits.length := by
  induction bits generalizing m c with
  | nil => exact c.advance_zero.symm
  | cons b bits ih =>
    rw [List.length_cons, Nat.add_comm] at hfits ⊢
    rw [putAll_cons, ih (Cursor.fits_add hfits).2, Cursor.advance_add hfits]

/-- The bits written are at the positions from the cursor on, and every other bit of the buffer stays. -/
theorem putAll_memBit (h : Memory.wf m = true) (hfits : c.fits bits.length = true) (q : Nat) :
    memBit (putAll m c bits).1 c.base.toNat q =
      if c.pos ≤ q ∧ q < c.pos + bits.length then bits.getD (q - c.pos) false else memBit m c.base.toNat q := by
  induction bits generalizing m c with
  | nil => rw [if_neg (by rw [List.length_nil]; omega)]; rfl
  | cons b bits ih =>
    rw [List.length_cons, Nat.add_comm] at hfits
    obtain ⟨hf1, hf⟩ := Cursor.fits_add hfits
    have hrest := ih (wf_putBit c b h) hf
    rw [Cursor.advance_base, Cursor.advance_pos_of_fits hf1, putBit_memBit h] at hrest
    rw [putAll_cons, hrest, List.length_cons]
    by_cases hq : q = c.pos
    · rw [if_neg (by omega), if_pos hq, if_pos (by omega), hq, Nat.sub_self, List.getD_cons_zero]
    · rw [if_neg hq]
      refine ite_congr (propext (by omega)) (fun hin => ?_) fun _ => rfl
      have hsucc : q - c.pos = q - (c.pos + 1) + 1 := by omega
      rw [hsucc, List.getD_cons_succ]

theorem putAll_bitsAt (h : Memory.wf m = true) (hfits : c.fits bits.length = true) :
    bitsAt (putAll m c bits).1 c.base.toNat c.pos bits := by
  intro j hj
  rw [putAll_memBit h hfits, if_pos (by omega), Nat.add_sub_cancel_left, getD_of_lt_length _ hj,
    List.getElem?_eq_getElem hj]

/-- Bits that fit leave every byte outside the buffer alone (20 R71). -/
theorem putAll_read_other (hfits : c.fits bits.length = true) {a : Nat}
    (ha : a < c.base.toNat ∨ c.base.toNat + c.len.toNat ≤ a) :
    Memory.read (putAll m c bits).1 a = Memory.read m a := by
  induction bits generalizing m c with
  | nil => rfl
  | cons b bits ih =>
    rw [List.length_cons, Nat.add_comm] at hfits
    obtain ⟨hf1, hf⟩ := Cursor.fits_add hfits
    have hin : c.pos + 1 ≤ 8 * c.len.toNat := Cursor.fits_iff.mp hf1 Nat.one_ne_zero
    have hdiv := c.pos_div
    rw [putAll_cons, ih hf ha]
    exact Memory.read_write_other m _ (by omega)

end

/-- A serialization writes the preorder (41 R144). -/
theorem Shape.serialize_eq (sh : Shape) {m : Memory} (h : Memory.wf m = true) (c : Cursor) :
    sh.serialize m c = putAll m c sh.preorder := by
  induction sh generalizing m c with
  | leaf v w =>
    rw [Shape.preorder, putAll_cons, byteBits_eq_code, ← putBits_eq_putAll (wf_putBit c false h)]
    rfl
  | branch w l r hl hr =>
    have hwf := wf_putBit c true h
    rw [Shape.preorder, putAll_cons, putAll_append, ← hl hwf, ← hr (wf_serialize l _ hwf)]
    rfl

/-! ### The nodes of a parse (41 R146) -/

/-- The nodes of a shape in preorder, without weights, the first at index `i`. -/
def Shape.arena : Shape → Nat → List Node
  | .leaf v _, _ => [.leaf v 0#32]
  | .branch _ l r, i => .branch 0#32 (i + 1) (i + 1 + l.size) :: (l.arena (i + 1) ++ r.arena (i + 1 + l.size))

@[simp] theorem Shape.arena_length (sh : Shape) (i : Nat) : (sh.arena i).length = sh.size := by
  induction sh generalizing i with
  | leaf v w => rfl
  | branch w l r hl hr => simp [Shape.arena, Shape.size, hl, hr]; omega

theorem Shape.arena_bits (sh : Shape) (i : Nat) :
    ((sh.arena i).map (fun n => if n.isLeaf then 9 else 1)).sum = sh.bits := by
  induction sh generalizing i with
  | leaf v w => rfl
  | branch w l r hl hr => simp [Shape.arena, Shape.bits, hl, hr, Nat.add_assoc]

theorem Shape.arena_weight {sh : Shape} {i : Nat} {n : Node} (h : n ∈ sh.arena i) : n.weight = 0#32 := by
  induction sh generalizing i with
  | leaf v w => cases List.mem_singleton.mp h; rfl
  | branch w l r hl hr =>
    rcases List.mem_cons.mp h with rfl | h
    · rfl
    · exact (List.mem_append.mp h).elim hl hr

theorem Shape.size_pos (sh : Shape) : 0 < sh.size := by
  cases sh <;> simp only [Shape.size] <;> omega

theorem Shape.depth_lt_size (sh : Shape) : sh.depth < sh.size := by
  induction sh with
  | leaf v w => exact Nat.one_pos
  | branch w l r hl hr => simp only [Shape.depth, Shape.size]; omega

theorem Shape.arena_inArena {sh : Shape} {i len : Nat} (hle : i + sh.size ≤ len) {n : Node} (h : n ∈ sh.arena i) :
    n.inArena len = true := by
  induction sh generalizing i with
  | leaf v w => cases List.mem_singleton.mp h; rfl
  | branch w l r hl hr =>
    have hpos := r.size_pos
    simp only [Shape.size] at hle
    rcases List.mem_cons.mp h with rfl | h
    · exact Bool.and_eq_true_iff.mpr ⟨decide_eq_true (by have := l.size_pos; omega), decide_eq_true (by omega)⟩
    · exact (List.mem_append.mp h).elim (hl (by omega)) (hr (by omega))

/-- The nodes laid out in an arena have their shape there. -/
theorem Shape.shapeAt_arena (sh : Shape) {fuel : Nat} (hd : sh.depth < fuel) {before : List Node} {i : Nat}
    (hi : before.length = i) (after : List Node) :
    shapeAt (before ++ sh.arena i ++ after) fuel i = some sh.unweighted := by
  induction sh generalizing fuel before i after with
  | leaf v w =>
    obtain ⟨fuel, rfl⟩ := Nat.exists_eq_add_one_of_ne_zero (Nat.ne_of_gt hd)
    exact shapeAt_leaf (by simp [Shape.arena, ← hi]) fuel
  | branch w l r hl hr =>
    obtain ⟨fuel, rfl⟩ := Nat.exists_eq_add_one_of_ne_zero (Nat.ne_of_gt (Nat.zero_lt_of_lt hd))
    simp only [Shape.depth] at hd
    have hleft := hl (fuel := fuel) (by omega) (i := i + 1)
      (before := before ++ [.branch 0#32 (i + 1) (i + 1 + l.size)]) (by simp [hi])
      (r.arena (i + 1 + l.size) ++ after)
    have hright := hr (fuel := fuel) (by omega) (i := i + 1 + l.size)
      (before := before ++ [.branch 0#32 (i + 1) (i + 1 + l.size)] ++ l.arena (i + 1)) (by simp [hi]; omega) after
    simp only [List.append_assoc, List.cons_append, List.nil_append] at hleft hright
    rw [Shape.arena, List.append_assoc, List.cons_append, List.append_assoc]
    exact shapeAt_branch (by simp [← hi]) hleft hright

/-- The tree parsed from the serialization of a shape. -/
def Shape.parsedTree (sh : Shape) : Tree := { built := true, nodes := sh.arena 0, root := 0 }

theorem Shape.parsedTree_shape (sh : Shape) : sh.parsedTree.shape = some sh.unweighted := by
  have h := sh.shapeAt_arena (fuel := sh.size) sh.depth_lt_size (before := []) rfl []
  rw [List.nil_append, List.append_nil] at h
  rwa [Tree.shape, Shape.parsedTree, Shape.arena_length]

theorem Shape.unweighted_bits (sh : Shape) : sh.unweighted.bits = sh.bits := by
  rw [← Shape.preorder_length, Shape.unweighted_preorder, Shape.preorder_length]

theorem Shape.parsedTree_wf {sh : Shape} (h : sh.size ≤ 511) : sh.parsedTree.wf = true := by
  have hlen : sh.parsedTree.nodes.length = sh.size := sh.arena_length 0
  have hbits : sh.parsedTree.treeBits = sh.bits := sh.arena_bits 0
  have harena : sh.parsedTree.nodes.all (Node.inArena sh.size) = true :=
    List.all_eq_true.mpr fun n hn => Shape.arena_inArena (Nat.le_of_eq (Nat.zero_add _)) hn
  have hbuilt : sh.parsedTree.built = true := rfl
  have hroot : sh.parsedTree.root < sh.size := sh.size_pos
  simp [Tree.wf, hbuilt, hlen, hbits, harena, hroot, sh.parsedTree_shape, sh.unweighted_bits, Config.maxTreeNodes, h]

/-! ### The parse of a preorder -/

/-- Eight bits read give their byte (40 R131). -/
theorem getByte_of_reads {ms : Nat} {m : Memory} {c : Cursor} {v : Byte} (h : c.Reads ms m (byteBits v)) :
    getByte m c = (v, c.advance 8) := by
  have hfits : c.fits 8 = true := byteBits_length v ▸ h.fits
  have hpos := Cursor.pos_add_lt_of_fits hfits
  refine Prod.ext (BitVec.eq_of_getLsbD_eq fun b hb => ?_) (getBits_snd m 8 _ hpos)
  have hbit := h.bits (7 - b) (by rw [byteBits_length]; omega)
  have hback : 7 - (7 - b) = b := by omega
  have hindex : c.pos + 8 - 1 - b = c.pos + (7 - b) := by omega
  rw [getByte, getBits_getLsbD m 8 _ hpos hb, if_pos hb, hindex]
  simpa [byteBits, hback, show 7 - b < 8 by omega] using hbit

section
variable {ms : Nat} {m : Memory} {c : Cursor} {nodes : List Node} (hlen : nodes.length < 511)
include hlen

/-- A 0 and a byte are a leaf (41 R146). -/
theorem parseNode_leaf {v : Byte} (hbit : c.Reads ms m [false]) (hbyte : (c.advance 1).Reads ms m (byteBits v))
    (fuel : Nat) : parseNode ms m (fuel + 1) c nodes =
      ⟨(c.advance 1).advance 8, nodes ++ [.leaf v 0#32], .ok nodes.length⟩ := by
  have hf1 : c.fits 1 = true := hbit.fits
  have hm1 : c.memOk ms 1 = true := hbit.memOk
  have hf8 : (c.advance 1).fits 8 = true := byteBits_length v ▸ hbyte.fits
  have hm8 : (c.advance 1).memOk ms 8 = true := byteBits_length v ▸ hbyte.memOk
  simp [parseNode, Config.maxTreeNodes, Nat.not_le.mpr hlen, hf1, hm1, getBit, hbit.bitAt, hf8, hm8,
    getByte_of_reads hbyte]

/-- A 1 and two nodes are a branch over them (41 R146). -/
theorem parseNode_branch {fuel : Nat} {l r : Parsed} {li ri : Nat} (hbit : c.Reads ms m [true])
    (hl : parseNode ms m fuel (c.advance 1) (nodes ++ [.leaf 0#8 0#32]) = l) (hli : l.out = .ok li)
    (hr : parseNode ms m fuel l.cur l.nodes = r) (hri : r.out = .ok ri) :
    parseNode ms m (fuel + 1) c nodes = ⟨r.cur, r.nodes.set nodes.length (.branch 0#32 li ri), .ok nodes.length⟩ := by
  have hf1 : c.fits 1 = true := hbit.fits
  have hm1 : c.memOk ms 1 = true := hbit.memOk
  simp [parseNode, Config.maxTreeNodes, Nat.not_le.mpr hlen, hf1, hm1, getBit, hbit.bitAt, hl, hli, hr, hri]

end

/-- A parse that reads the preorder of a shape lays out its nodes. -/
theorem parseNode_of_reads (sh : Shape) {ms : Nat} {m : Memory} {c : Cursor} {fuel : Nat} {nodes : List Node}
    (hd : sh.depth < fuel) (hlen : nodes.length + sh.size ≤ 511) (h : c.Reads ms m sh.preorder) :
    parseNode ms m fuel c nodes = ⟨c.advance sh.bits, nodes ++ sh.arena nodes.length, .ok nodes.length⟩ := by
  induction sh generalizing fuel c nodes with
  | leaf v w =>
    obtain ⟨fuel, rfl⟩ := Nat.exists_eq_add_one_of_ne_zero (Nat.ne_of_gt hd)
    obtain ⟨hbit, hbyte⟩ := h.append (bits := [false]) (bits' := byteBits v)
    have hadv := h.advance_append (bits := [false]) (bits' := byteBits v)
    rw [List.length_append, byteBits_length] at hadv
    rw [parseNode_leaf hlen hbit hbyte]
    exact congrArg (Parsed.mk · _ _) hadv
  | branch w l r ihl ihr =>
    obtain ⟨fuel, rfl⟩ := Nat.exists_eq_add_one_of_ne_zero (Nat.ne_of_gt (Nat.zero_lt_of_lt hd))
    simp only [Shape.depth] at hd
    simp only [Shape.size] at hlen
    obtain ⟨hbit, hrest⟩ := h.append (bits := [true]) (bits' := l.preorder ++ r.preorder)
    obtain ⟨hl, hr⟩ := hrest.append
    have hleft := ihl (nodes := nodes ++ [.leaf 0#8 0#32]) (by omega : l.depth < fuel)
      (by simp only [List.length_append, List.length_singleton]; omega) hl
    have hright := ihr (nodes := nodes ++ [.leaf 0#8 0#32] ++ l.arena (nodes.length + 1)) (by omega : r.depth < fuel)
      (by simp only [List.length_append, List.length_singleton, Shape.arena_length]; omega) hr
    rw [parseNode_branch (by omega) hbit hleft rfl (by simpa using hright) rfl]
    have hadv : ((c.advance 1).advance l.bits).advance r.bits = c.advance (1 + l.bits + r.bits) := by
      have := hrest.advance_append.trans (h.advance_append (bits := [true]) (bits' := l.preorder ++ r.preorder))
      simpa [Nat.add_assoc, Nat.add_comm, Nat.add_left_comm] using this
    simp [Shape.arena, Shape.bits, hadv, Nat.add_assoc, Nat.add_comm 1]

theorem parseTree_of_reads {sh : Shape} {ms : Nat} {m : Memory} {c : Cursor} (hsize : sh.size ≤ 511)
    (h : c.Reads ms m sh.preorder) : parseTree ms m c = (c.advance sh.bits, .ok sh.parsedTree) := by
  have hd := sh.depth_lt_size
  have hnode := parseNode_of_reads sh (fuel := Config.maxTreeNodes + 1) (nodes := [])
    (by simp only [Config.maxTreeNodes]; omega) (by simpa using hsize) h
  rw [parseTree, hnode]
  rfl

/-! ### The codes of a parsed tree (41 R157) -/

/-- Two entries with the same pattern and length. -/
def sameCode (e e' : LutEntry) : Prop := e.pattern = e'.pattern ∧ e.length = e'.length

theorem Shape.unweighted_visit (sh : Shape) (path : Word) (d : Nat) {tab tab' : Vector LutEntry 256}
    (h : ∀ v : Byte, sameCode (tab[v.toNat]'v.isLt) (tab'[v.toNat]'v.isLt)) (v : Byte) :
    sameCode ((sh.unweighted.visit path d tab)[v.toNat]'v.isLt) ((sh.visit path d tab')[v.toNat]'v.isLt) := by
  induction sh generalizing path d tab tab' v with
  | leaf v' w =>
    simp only [Shape.unweighted, Shape.visit, Vector.getElem_set]
    split
    · exact ⟨rfl, rfl⟩
    · exact h v
  | branch w l r hl hr => exact hr _ _ (hl _ _ h) v

theorem Shape.unweighted_lookup (sh : Shape) (v : Byte) :
    sameCode (sh.unweighted.lookup.entryOf v) (sh.lookup.entryOf v) :=
  sh.unweighted_visit 0#32 0 (fun _ => ⟨rfl, rfl⟩) v

theorem Tree.wf_size {t : Tree} {sh : Shape} (hb : t.built = true) (h : t.wf = true) (hsh : t.shape = some sh) :
    sh.size ≤ 511 ∧ sh.bits = t.treeBits := by
  simp only [Tree.wf, hb, hsh, if_true, Bool.and_eq_true, decide_eq_true_eq, Option.map_some, beq_iff_eq,
    Option.some.injEq] at h
  obtain ⟨⟨⟨⟨hmax, -⟩, -⟩, hsize⟩, hbits⟩ := h
  exact ⟨hsize ▸ hmax, hbits⟩

/-- Settles O31: the bits written are the preorder, and the parse of a preorder is the layout of its shape. -/
theorem serializeThenParse : Obligations.SerializeThenParse := by
  intro t sh ms m c hb hwf hsh hm hfits hmem
  obtain ⟨hsize, hbits⟩ := Tree.wf_size hb hwf hsh
  have hlen : sh.preorder.length = t.treeBits := sh.preorder_length.trans hbits
  have hfits' : c.fits sh.preorder.length = true := hlen.symm ▸ hfits
  have hreads : c.Reads ms (sh.serialize m c).1 sh.preorder :=
    ⟨⟨hfits', hlen.symm ▸ hmem⟩, by rw [sh.serialize_eq hm]; exact putAll_bitsAt hm hfits'⟩
  refine ⟨sh.parsedTree, hbits ▸ parseTree_of_reads hsize hreads, Cursor.advance_pos_of_fits hfits, ?_,
    Shape.parsedTree_wf hsize, rfl, sh.parsedTree_shape, fun n hn => Shape.arena_weight hn, sh.unweighted_lookup⟩
  rw [sh.serialize_eq hm, putAll_snd hfits', hlen]

end Sys2Proof.Machine
end

section
/-! PROOF. One block there and back (42 R176, R177; 43 R205): ENCODE leaves the preorder of the tree and then the codes of the bytes in the region, and DECODE of a region with those bits writes the bytes. -/

namespace Sys2Proof.Machine

/-! ### Ranges of MEM -/

theorem Memory.readBytes_congr {m m' : Memory} {a n : Nat}
    (h : ∀ x, a ≤ x → x < a + n → Memory.read m x = Memory.read m' x) :
    Memory.readBytes m a n = Memory.readBytes m' a n :=
  List.map_congr_left fun _ hj => h _ (Nat.le_add_right ..) (Nat.add_lt_add_left (List.mem_range.mp hj) a)

theorem Memory.readBytes_succ (m : Memory) (a n : Nat) :
    Memory.readBytes m a (n + 1) = Memory.read m a :: Memory.readBytes m (a + 1) n := by
  simp only [Memory.readBytes, List.range_succ_eq_map, List.map_cons, List.map_map, Nat.add_zero]
  exact congrArg _ (List.map_congr_left fun j _ => by rw [Function.comp, Nat.succ_eq_add_one, Nat.add_right_comm]; rfl)

theorem Memory.readBytes_writeBytes {m : Memory} (h : Memory.wf m = true) (a : Nat) (vs : List Byte) :
    Memory.readBytes (Memory.writeBytes m a vs) a vs.length = vs := by
  refine List.ext_getElem (Memory.readBytes_length ..) fun j _ hj => ?_
  simp only [Memory.readBytes, List.getElem_map, List.getElem_range]
  exact Memory.read_writeBytes a vs h j hj

/-- What a cursor reads is in the bytes of its buffer. -/
theorem Cursor.Reads.of_read_eq {ms : Nat} {m m' : Memory} {c : Cursor} {bits : List Bool} (h : c.Reads ms m bits)
    (heq : ∀ a, c.base.toNat ≤ a → a < c.base.toNat + c.len.toNat → Memory.read m' a = Memory.read m a) :
    c.Reads ms m' bits := by
  refine ⟨h.toHasRoom, fun j hj => ?_⟩
  have hin := Cursor.fits_iff.mp h.fits (Nat.ne_of_gt (Nat.zero_lt_of_lt hj))
  rw [← h.bits j hj, memBit, memBit, heq _ (Nat.le_add_right ..) (by omega)]

/-! ### The code loop of ENCODE (42 R176) -/

/-- The codes of a sequence, in order. -/
def LookupTable.codes (lut : LookupTable) (bytes : List Byte) : List Bool :=
  bytes.flatMap (fun b => (lut.entryOf b).code)

theorem LookupTable.codes_cons (lut : LookupTable) (b : Byte) (bytes : List Byte) :
    lut.codes (b :: bytes) = (lut.entryOf b).code ++ lut.codes bytes := List.flatMap_cons

theorem LookupTable.codes_length (lut : LookupTable) (bytes : List Byte) :
    (lut.codes bytes).length = (bytes.map (fun b => (lut.entryOf b).length)).sum := by
  simp [LookupTable.codes, List.length_flatMap]

/-- A turn of the loop whose checks hold writes one code. -/
theorem encodeBytes_succ {ms src : Nat} {m : Memory} {c : Cursor} {e : LutEntry} {lut : LookupTable}
    (hwf : Memory.wf m = true) (hsrc : src < ms) (he : lut.entryOf (Memory.read m src) = e)
    (hroom : c.HasRoom ms e.length) (n : Nat) :
    encodeBytes ms lut (n + 1) src m c =
      encodeBytes ms lut n (src + 1) (putAll m c e.code).1 (putAll m c e.code).2 := by
  rw [← putBits_eq_putAll hwf]
  simp [encodeBytes, Nat.not_le.mpr hsrc, he, hroom.fits, hroom.memOk]

/-- The sequence stands in MEM from `src` on, apart from the buffer of the cursor. -/
structure Cursor.ApartFrom (ms : Nat) (m : Memory) (src : Nat) (bytes : List Byte) (c : Cursor) : Prop where
  read : Memory.readBytes m src bytes.length = bytes
  exist : src + bytes.length ≤ ms
  apart : src + bytes.length ≤ c.base.toNat ∨ c.base.toNat + c.len.toNat ≤ src

/-- Bits written to the buffer leave the sequence where it is. -/
theorem Cursor.ApartFrom.putAll {ms src : Nat} {m : Memory} {bytes : List Byte} {c : Cursor} {bits : List Bool}
    (h : c.ApartFrom ms m src bytes) (hfits : c.fits bits.length = true) :
    (c.advance bits.length).ApartFrom ms (putAll m c bits).1 src bytes := by
  have hapart := h.apart
  refine ⟨?_, h.exist, hapart⟩
  exact (Memory.readBytes_congr fun x hx hx' => putAll_read_other hfits (by omega)).trans h.read

/-- The loop takes the first byte; the rest stands behind it. -/
theorem Cursor.ApartFrom.cons {ms src : Nat} {m : Memory} {b : Byte} {bytes : List Byte} {c : Cursor}
    (h : c.ApartFrom ms m src (b :: bytes)) :
    src < ms ∧ Memory.read m src = b ∧ c.ApartFrom ms m (src + 1) bytes := by
  obtain ⟨hread, hexist, hapart⟩ := h
  rw [List.length_cons] at hread hexist hapart
  rw [Memory.readBytes_succ, List.cons.injEq] at hread
  exact ⟨by omega, hread.1, hread.2, by omega, by omega⟩

/-- With room for all codes the loop writes them all. -/
theorem encodeBytes_eq {ms : Nat} {lut : LookupTable} {bytes : List Byte} {src : Nat} {m : Memory} {c : Cursor}
    (hwf : Memory.wf m = true) (hsrc : c.ApartFrom ms m src bytes) (hroom : c.HasRoom ms (lut.codes bytes).length) :
    encodeBytes ms lut bytes.length src m c =
      ⟨(putAll m c (lut.codes bytes)).1, (putAll m c (lut.codes bytes)).2, none⟩ := by
  induction bytes generalizing src m c with
  | nil => rfl
  | cons b bytes ih =>
    rw [LookupTable.codes_cons, List.length_append] at hroom
    obtain ⟨hlt, hb, hrest⟩ := hsrc.cons
    obtain ⟨hfirst, hroom'⟩ := hroom.add
    rw [List.length_cons, encodeBytes_succ hwf hlt (congrArg _ hb) (LutEntry.code_length _ ▸ hfirst),
      LookupTable.codes_cons, putAll_append, putAll_snd hfirst.fits]
    exact ih (wf_putAll hwf _ _) (hrest.putAll hfirst.fits) hroom'

/-! ### The output loop of DECODE (42 R177) -/

/-- With the codes of the bytes in the buffer and the output apart from it the loop writes the bytes. -/
theorem decodeBytes_eq {ms : Nat} {sh : Shape} {lut : LookupTable} {bytes : List Byte} {out : Nat} {m : Memory}
    {c : Cursor} (hcode : ∀ b ∈ bytes, ∃ w, sh.LeafAt (lut.entryOf b).code b w)
    (hreads : c.Reads ms m (lut.codes bytes)) (hms : out + bytes.length ≤ ms)
    (hapart : out + bytes.length ≤ c.base.toNat ∨ c.base.toNat + c.len.toNat ≤ out) :
    decodeBytes ms sh bytes.length out m c =
      ⟨Memory.writeBytes m out bytes, c.advance (lut.codes bytes).length, none⟩ := by
  induction bytes generalizing out m c with
  | nil => exact congrArg (BodyRun.mk m · none) c.advance_zero.symm
  | cons b bytes ih =>
    rw [List.length_cons] at hms hapart
    rw [LookupTable.codes_cons] at hreads
    obtain ⟨hfirst, hrest⟩ := hreads.append
    obtain ⟨w, hleaf⟩ := hcode b List.mem_cons_self
    have hkeep : (c.advance (lut.entryOf b).code.length).Reads ms (Memory.write m out b) (lut.codes bytes) :=
      hrest.of_read_eq fun a ha ha' => Memory.read_write_other m b (by
        rw [Cursor.advance_base] at ha ha'; rw [Cursor.advance_len] at ha'; omega)
    have hrun := ih (fun b hb => hcode b (List.mem_cons_of_mem _ hb)) hkeep (out := out + 1) (by omega)
      (by rw [Cursor.advance_base, Cursor.advance_len]; omega)
    rw [List.length_cons, decodeBytes, hleaf.walk hfirst, LookupTable.codes_cons, ← hreads.advance_append]
    exact (if_neg (not_not_intro (by omega))).trans hrun

/-! ### The two bodies -/

/-- A job of index `i` updated is found as the update of the job it was. -/
theorem State.job?_updateJob {s : State} {i : Nat} {j : Job} {f : Job → Job} (hj : s.job? i = some j)
    (hf : ∀ j, (f j).block = j.block) : (s.updateJob i f).job? i = some (f j) := by
  have hblock : ((fun j : Job => j.block == i) ∘ fun j => if j.block = i then f j else j) = fun j => j.block == i := by
    funext j
    simp only [Function.comp]
    split <;> simp [hf]
  have hi := (State.job?_some hj).2
  rw [State.job?] at hj ⊢
  rw [State.updateJob_jobs, List.find?_map, hblock, hj, Option.map_some, if_pos hi]

section
variable {s : State} {block : Word} {j : Job} {d : Desc} {sh : Shape}
  (ht : s.turn ≠ .host) (hj : s.job? block.toNat = some j) (hd : s.plan.desc[block.toNat]? = some d)
include ht hj hd

section
variable {tr : Tree} {w : Cursor} (htree : d.tree = some tr) (hsh : tr.shape = some sh)
  (hw : w = { base := u32 (s.controller.dstBase.toNat + s.plan.headerSize.toNat + d.offset.toNat), len := d.csize })
include htree hsh hw

/-- ENCODE with room for the tree serializes it and runs the code loop (42 R176). -/
theorem exec_encode_of_hasRoom (hroom : w.HasRoom s.params.memSize tr.treeBits) :
    ∃ f, exec (.encode block) s = .next ((s.setMem (encodeBytes s.params.memSize sh.lookup d.dsize.toNat
      (s.plan.blockStart block.toNat) (sh.serialize s.mem w).1 (sh.serialize s.mem w).2).mem).updateJob
        block.toNat f) := by
  subst hw
  rw [exec, execEncode, State.bodyJob_job ht hj]
  simp only [hd, htree, hroom.fits, hroom.memOk, Bool.not_true, Bool.false_eq_true, if_false,
    Tree.withShape_of_shape hsh]
  exact ⟨_, rfl⟩

/-- ENCODE with room for the tree and all codes leaves their bits in the region (20 R81). -/
theorem reads_of_exec_encode {t : State} {bytes : List Byte} (hwf : Memory.wf s.mem = true)
    (hbits : sh.bits = tr.treeBits) (hlen : d.dsize.toNat = bytes.length)
    (hsrc : w.ApartFrom s.params.memSize s.mem (s.plan.blockStart block.toNat) bytes)
    (hroom : w.HasRoom s.params.memSize (sh.preorder ++ sh.lookup.codes bytes).length)
    (hexec : exec (.encode block) s = .next t) :
    w.Reads s.params.memSize t.mem (sh.preorder ++ sh.lookup.codes bytes) := by
  have hparts := hroom
  rw [List.length_append] at hparts
  obtain ⟨htreeRoom, hcodesRoom⟩ := hparts.add
  obtain ⟨f, hrun⟩ := exec_encode_of_hasRoom ht hj hd htree hsh hw (hbits ▸ sh.preorder_length ▸ htreeRoom)
  rw [hexec, sh.serialize_eq hwf, putAll_snd htreeRoom.fits, hlen,
    encodeBytes_eq (wf_putAll hwf _ _) (hsrc.putAll htreeRoom.fits) hcodesRoom,
    ← putAll_snd (m := s.mem) htreeRoom.fits, ← putAll_append] at hrun
  cases hrun
  exact ⟨hroom, putAll_bitsAt hwf hroom.fits⟩

end

/-- DECODE of a region that holds the preorder of a tree and the codes of the bytes writes the bytes (42 R177). -/
theorem exec_decode_of_reads {lut : LookupTable} {c : Cursor} {bytes : List Byte} {out : Nat}
    (hc : c = { base := u32 (s.plan.srcBase.toNat + s.plan.headerSize.toNat + d.offset.toNat), len := d.csize })
    (hlen : d.dsize.toNat = bytes.length) (hsize : sh.size ≤ 511)
    (hcode : ∀ b ∈ bytes, ∃ w, sh.LeafAt (lut.entryOf b).code b w)
    (hreads : c.Reads s.params.memSize s.mem (sh.preorder ++ lut.codes bytes))
    (hout : out = s.controller.dstBase.toNat + d.doff.toNat) (hms : out + bytes.length ≤ s.params.memSize)
    (hapart : out + bytes.length ≤ c.base.toNat ∨ c.base.toNat + c.len.toNat ≤ out) :
    ∃ r, exec (.decode block) s = .next ((s.setMem (Memory.writeBytes s.mem out bytes)).updateJob block.toNat
      (fun j => { j with r := r, tree := sh.parsedTree, pc := 2 })) := by
  subst hc hout
  obtain ⟨hpre, hcodes⟩ := hreads.append
  rw [Shape.preorder_length] at hcodes
  have hcode' : ∀ b ∈ bytes, ∃ w, sh.unweighted.LeafAt (lut.entryOf b).code b w := fun b hb =>
    let ⟨_, hleaf⟩ := hcode b hb
    ⟨0#32, hleaf.unweighted⟩
  have hrun := decodeBytes_eq hcode' hcodes hms hapart
  rw [← hlen] at hrun
  rw [exec, execDecode, State.bodyJob_job ht hj]
  simp only [hd, parseTree_of_reads hsize hpre, Tree.withShape_of_shape sh.parsedTree_shape, hrun]
  exact ⟨_, rfl⟩

end

/-! ### The round trip (43 R205) -/

/-- A cursor at the start of a buffer that exists has room for the bits of its bytes. -/
theorem Cursor.hasRoom_of_start {c : Cursor} {ms n : Nat} (hpos : c.pos = 0) (hn : n ≤ 8 * c.len.toNat)
    (hms : c.base.toNat + c.len.toNat ≤ ms) : c.HasRoom ms n :=
  ⟨Cursor.fits_iff.mpr fun _ => by omega, Cursor.memOk_iff.mpr fun _ => by omega⟩

/-- A block takes its tree bits and its data bits (41 R148). -/
theorem buildTree_block_length {bytes : List Byte} {sh : Shape} (hne : bytes ≠ []) (hlen : bytes.length < 4294967296)
    (hsh : (buildTree bytes).shape = some sh) (hbits : sh.bits = (buildTree bytes).treeBits) :
    (sh.preorder ++ sh.lookup.codes bytes).length = (buildTree bytes).treeBits + sh.dataBits 0 := by
  rw [List.length_append, Shape.preorder_length, LookupTable.codes_length, hbits, buildTree_dataBits hne hlen hsh]

/-- Settles O42: the bits ENCODE leaves are those DECODE reads, and the two loops take the codes in the same order. -/
theorem encodeThenDecodeBlock : Obligations.EncodeThenDecodeBlock := by
  intro s t u block block' j j' d d' bytes sh ht hwf hj hd htree start region hbytes hne hsh hdepth hcsize hlegal
    hexists hsrcEnd hapart hexec htu hwfu hparams hju herr hdu hdsize hcsize' hregion hsame out houtEnd houtApart
  have hlen : d.dsize.toNat = bytes.length := by rw [hbytes]; simp
  have hlt : bytes.length < 4294967296 := hlen ▸ d.dsize.isLt
  obtain ⟨hsize, hbits⟩ := Tree.wf_size rfl (buildTree_wf hne hsh) hsh
  have hnd := buildTree_values_nodup hne hsh
  have htotal := buildTree_block_length hne hlt hsh hbits
  have hleast : 9 ≤ (buildTree bytes).treeBits := by
    have hvalues := List.length_pos_iff.mpr sh.values_ne_nil
    have := (buildTree_sizes hne hsh).2
    omega
  generalize hw : ({ base := u32 region, len := d.csize } : Cursor) = w
  have hbase : w.base.toNat = region := by
    subst hw
    exact (BitVec.toNat_ofNat ..).trans (Nat.mod_eq_of_lt (by omega))
  have hwlen : w.len = d.csize := by rw [← hw]
  have hroom : w.HasRoom s.params.memSize (sh.preorder ++ sh.lookup.codes bytes).length :=
    Cursor.hasRoom_of_start (by rw [← hw]; rfl) (by rw [hwlen]; omega) (by rw [hwlen, hbase]; exact hexists)
  have hsrc : w.ApartFrom s.params.memSize s.mem start bytes :=
    ⟨hlen ▸ hbytes.symm, hlen ▸ hsrcEnd, by rw [hbase, hwlen, ← hlen]; exact hapart⟩
  have hreads := (reads_of_exec_encode ht hj hd htree hsh hw.symm hwf hbits hlen hsrc hroom hexec).of_read_eq
    (m' := u.mem) (by rw [hbase, hwlen]; exact hsame)
  obtain ⟨r, hdecode⟩ := exec_decode_of_reads htu hju hdu (c := w) (out := out)
    (by rw [hregion, hcsize']; exact hw.symm) (hdsize ▸ hlen) hsize
    (fun b hb => Shape.leafAt_code ((mem_buildTree_values hne hsh).mpr hb) hnd hdepth)
    (hparams ▸ hreads) rfl (hlen ▸ houtEnd) (by rw [hbase, hwlen, ← hlen]; exact houtApart)
  refine ⟨_, _, hdecode, State.job?_updateJob hju fun _ => rfl, herr, ?_⟩
  rw [hlen]
  exact Memory.readBytes_writeBytes hwfu out bytes

end Sys2Proof.Machine
end

section
/-! PROOF. The scheduler: which steps are enabled, and that any one of them can come next (42 R174). -/

namespace Sys2Proof.Machine

/-! ### The enabled steps -/

/-- The join is enabled when a phase runs and every job has finished (42 R179). -/
theorem State.joinReady_iff {s : State} :
    s.joinReady = true ↔ s.controller.phase ≠ .idle ∧ ∀ j ∈ s.jobs, j.pc.val = 3 := by
  simp only [State.joinReady, Bool.and_eq_true, bne_iff_ne, List.all_eq_true, beq_iff_eq, Fin.ext_iff]
  rfl

/-- A job has a step when it has not finished, and at a LACQ only if a permit is free (42 R171, R174). -/
theorem State.jobReady_iff {s : State} {j : Job} :
    s.jobReady j = true ↔
      ∃ h : j.pc.val < 3, (decode (j.prog[j.pc.val]) = .ok .lacq → s.limiter.permits.toNat > 0) := by
  by_cases h : j.pc.val < 3
  · have hword : j.word? = some j.prog[j.pc.val] := getElem?_pos j.prog _ h
    have hpermits : s.limiter.permits ≠ 0#32 ↔ s.limiter.permits.toNat > 0 := by
      rw [ne_eq, BitVec.toNat_eq]
      exact Nat.pos_iff_ne_zero.symm
    simp only [State.jobReady, hword, h, exists_true_left, ← hpermits]
    split
    · next hd => simp [hd]
    · next hne hd => exact iff_of_true rfl fun hlacq => absurd (Except.ok.inj (hd.symm.trans hlacq)) hne
    · next hd => simp [hd]
  · have hword : j.word? = none := getElem?_neg j.prog _ h
    simp [State.jobReady, hword, h]

/-- The enabled agents (42 R174). -/
theorem State.mem_enabled {s : State} {a : Agent} :
    a ∈ s.enabled ↔
      (a = .host ∧ s.hostReady = true) ∨ (a = .controller ∧ s.joinReady = true) ∨
        ∃ j ∈ s.jobs, a = .job j.block ∧ s.jobReady j = true := by
  simp only [State.enabled, List.mem_append, List.mem_map, List.mem_filter, or_assoc]
  refine or_congr ?_ (or_congr ?_ ?_)
  · split <;> simp_all
  · split <;> simp_all
  · exact exists_congr fun j => ⟨fun ⟨⟨hj, hr⟩, ha⟩ => ⟨hj, ha.symm, hr⟩, fun ⟨hj, ha, hr⟩ => ⟨⟨hj, hr⟩, ha.symm⟩⟩

/-! ### The choice among them -/

theorem State.pick_eq_none_iff {s : State} : s.pick = none ↔ s.enabled = [] := by
  rw [State.pick]
  split
  · next h => simp [h]
  · next h => simp [h]

/-- A number in the schedule below the number of enabled steps picks the step at its position. -/
theorem State.pick_of_sched {s : State} {n : Nat} {rest : List Nat} {agents : List Agent} (h : s.sched = n :: rest)
    (he : s.enabled = agents) (hn : n < agents.length) : s.pick = some (agents[n], s.setSched rest) := by
  cases agents with
  | nil => simp at hn
  | cons a as =>
    have hmod : n % (as.length + 1) = n := Nat.mod_eq_of_lt hn
    simp only [State.pick, he, State.choose, h, hmod, List.getD_eq_getElem?_getD,
      List.getElem?_eq_getElem hn, Option.getD_some]

/-- Settles O9: the three parts of the list are the three kinds of agent, and the schedule names a position in it. -/
theorem schedulerChoosesFreely : Obligations.SchedulerChoosesFreely := by
  intro s
  refine ⟨fun a => ?_, fun a u hp => ?_, fun a ha => ?_, State.pick_eq_none_iff⟩
  · simp only [State.mem_enabled, State.joinReady_iff, State.jobReady_iff]
  · obtain ⟨ha, sc, d, rfl⟩ := State.pick_some hp
    exact ⟨ha, rfl⟩
  · obtain ⟨n, hn, rfl⟩ := List.getElem_of_mem ha
    exact ⟨n, fun rest => State.pick_of_sched (s := { s with sched := n :: rest }) rfl rfl hn⟩

end Sys2Proof.Machine
end

section
/-! PROOF. The issue steps of PREPC, COMPRESS and DECOMPRESS, which check in order and then start a phase (43 R190 to R204). -/

namespace Sys2Proof.Machine

theorem State.issueChecked_fail {s : State} {cs : List Check} {f : State → State} {e : FaultCode}
    (h : firstFailure cs = some e) : s.issueChecked cs f = .next (s.raise e noBlock) := by
  simp only [State.issueChecked, h]

theorem State.issueChecked_pass {s : State} {cs : List Check} {f : State → State} (h : firstFailure cs = none) :
    s.issueChecked cs f = .next (f s) := by
  simp only [State.issueChecked, h]

/-! ### PREPC (43 R191, R192) -/

/-- The block count of a source whose size is a u32 is a u32 (43 R191). -/
theorem u32_blockCountOf (n : Word) {bs : Word} (h : bs ≠ 0#32) :
    (u32 (blockCountOf n.toNat bs.toNat)).toNat = blockCountOf n.toNat bs.toNat := by
  have hbs : 0 < bs.toNat := Nat.pos_of_ne_zero fun h0 => h (BitVec.eq_of_toNat_eq h0)
  have hn := n.isLt
  refine (BitVec.toNat_ofNat ..).trans (Nat.mod_eq_of_lt ((Nat.div_lt_iff_lt_mul hbs).mpr ?_))
  omega

/-- A phase starts with all its permits and one fresh job for each block of the plan (42 R170, R173). -/
theorem State.startPhase_eq (s : State) (phase : Phase) (body : Word → Instr) {n : Nat}
    (hn : s.plan.blockCount.toNat = n) :
    s.startPhase phase body = { s with
      limiter := { capacity := s.permitCount, permits := s.permitCount }
      controller := { s.controller with phase := phase }
      jobs := (List.range n).map (phaseJob body) } := by
  subst hn
  rfl

/-- Settles O46: the first check that fails decides the fault; with none, the block count of the new plan is exact. -/
theorem prepcIssue : Obligations.PrepcIssue := by
  intro s last dropped bc p
  have hend : s.regs.srcEnd = last := rfl
  refine ⟨fun hbs => ?_, fun hbs hl => ?_, fun hbs hl hm => ?_, fun hbs hl hm => ?_⟩ <;> rw [exec, execPrepc]
  · exact State.issueChecked_fail (by simp [firstFailure, hbs])
  · exact State.issueChecked_fail (by simp [firstFailure, hbs, hend, u32Limit, hl])
  · exact State.issueChecked_fail (by simp [firstFailure, hbs, hend, u32Limit, hl, hm])
  · rw [State.issueChecked_pass (by simp [firstFailure, hbs, hend, u32Limit, hl, hm]),
      State.startPhase_eq (n := bc) _ _ _ (u32_blockCountOf s.regs.srcSize hbs)]
    rfl

/-! ### COMPRESS and DECOMPRESS (43 R194, R196, R201, R204) -/

/-- Two ranges overlap when they have an address in common (43 R190). -/
theorem overlap_iff {a m b n : Nat} :
    overlap a m b n = true ↔ ∃ x, (a ≤ x ∧ x < a + m) ∧ b ≤ x ∧ x < b + n := by
  simp only [overlap, Bool.and_eq_true, decide_eq_true_eq]
  constructor
  · rintro ⟨⟨⟨_, _⟩, _⟩, _⟩
    exact ⟨max a b, by omega, by omega, by omega⟩
  · rintro ⟨x, ⟨_, _⟩, _, _⟩
    omega

/-- The two commands check the plan and the destination alike: five faults in their order, and then their own changes
(43 R196, R204). -/
theorem State.executeChecks_cases {s started : State} {kind : PlanKind} {srcLen : Word} {issued : Result State}
    (hfail : ∀ e, firstFailure (s.executeChecks kind srcLen) = some e → issued = .next (s.failedOnly e noBlock))
    (hpass : firstFailure (s.executeChecks kind srcLen) = none → issued = .next started) :
    let out := s.plan.outSize.toNat
    let dst := s.regs.dstBase.toNat
    let held := s.plan.valid = true ∧ s.plan.kind = kind
    let fits := out ≤ s.regs.dstSize.toNat
    let legal := dst + out ≤ 4294967296
    let meets := ∃ a, (s.plan.srcBase.toNat ≤ a ∧ a < s.plan.srcBase.toNat + srcLen.toNat) ∧ dst ≤ a ∧ a < dst + out
    (¬ held → issued = .next (s.failedOnly .noPlan noBlock)) ∧
    (held → ¬ fits → issued = .next (s.failedOnly .dstTooSmall noBlock)) ∧
    (held → fits → ¬ legal → issued = .next (s.failedOnly .sizeOverflow noBlock)) ∧
    (held → fits → legal → meets → issued = .next (s.failedOnly .bufferOverlap noBlock)) ∧
    (held → fits → legal → ¬ meets → s.params.memSize < dst + out →
      issued = .next (s.failedOnly .busError noBlock)) ∧
    (held → fits → legal → ¬ meets → dst + out ≤ s.params.memSize → issued = .next started) := by
  intro out dst held fits legal meets
  have hheld : (s.plan.valid && s.plan.kind == kind) = decide held := by
    rw [Bool.decide_and, Bool.decide_eq_true]
    rfl
  have hmeets : overlap s.plan.srcBase.toNat srcLen.toNat dst out = true ↔ meets := overlap_iff
  have hchecks : s.executeChecks kind srcLen =
    [⟨decide held, .noPlan⟩, ⟨decide fits, .dstTooSmall⟩, ⟨decide legal, .sizeOverflow⟩,
      ⟨!overlap s.plan.srcBase.toNat srcLen.toNat dst out, .bufferOverlap⟩,
      ⟨decide (dst + out ≤ s.params.memSize), .busError⟩] := by
    rw [← hheld]
    rfl
  rw [hchecks] at hfail hpass
  refine ⟨fun h1 => ?_, fun h1 h2 => ?_, fun h1 h2 h3 => ?_, fun h1 h2 h3 h4 => ?_, fun h1 h2 h3 h4 h5 => ?_,
    fun h1 h2 h3 h4 h5 => hpass ?_⟩
  · exact hfail _ (by simp [firstFailure, h1])
  · exact hfail _ (by simp [firstFailure, h1, h2])
  · exact hfail _ (by simp [firstFailure, h1, h2, h3])
  · exact hfail _ (by simp [firstFailure, h1, h2, h3, hmeets.mpr h4])
  · exact hfail _ (by simp [firstFailure, h1, h2, h3, mt hmeets.mp h4, h5])
  · simp [firstFailure, h1, h2, h3, mt hmeets.mp h4, h5]

/-- Settles O47: the checks over the source of kind C, then the header, the consumed plan and the encode phase. -/
theorem compressIssue : Obligations.CompressIssue := by
  intro s
  refine State.executeChecks_cases (kind := .c) (srcLen := s.plan.inSize) (fun e h => ?_) fun h => ?_
  · rw [exec, execCompress]
    exact State.issueChecked_fail h
  · rw [exec, execCompress, State.issueChecked_pass h]
    rfl

/-- Settles O48: the checks over the container of kind D, then the consumed plan and the decode phase. -/
theorem decompressIssue : Obligations.DecompressIssue := by
  intro s
  refine State.executeChecks_cases (kind := .d) (srcLen := s.plan.srcSize) (fun e h => ?_) fun h => ?_
  · rw [exec, execDecompress]
    exact State.issueChecked_fail h
  · rw [exec, execDecompress, State.issueChecked_pass h]
    rfl

end Sys2Proof.Machine
end

section
/-! PROOF. The join: the lowest failing block, completion, and the plan PREPC installs (42 R179, R182; 43 R192 to R201). -/

namespace Sys2Proof.Machine

/-! ### The lowest failing block (42 R179) -/

/-- What is reported is the fault of a job that failed, and no block below it failed. -/
theorem lowestFailure_spec {js : List Job} {f : Nat × FaultCode} (h : lowestFailure js = some f) :
    ∃ j ∈ js, f.1 = j.block ∧ j.err = some f.2 ∧ ∀ j' ∈ js, j'.err ≠ none → j.block ≤ j'.block := by
  induction js generalizing f with
  | nil => cases h
  | cons j js ih =>
    rw [lowestFailure] at h
    split at h
    · next herr =>
      obtain ⟨j', hj', hblock, he, hlow⟩ := ih h
      exact ⟨j', List.mem_cons_of_mem _ hj', hblock, he, List.forall_mem_cons.mpr ⟨absurd herr, hlow⟩⟩
    · next e herr hnone =>
      cases h
      refine ⟨j, List.mem_cons_self, rfl, herr, List.forall_mem_cons.mpr ⟨fun _ => Nat.le_refl _, fun j' hj' he => ?_⟩⟩
      exact absurd (lowestFailure_eq_none.mp hnone j' hj') he
    · next e i e' herr htail =>
      obtain ⟨j', hj', rfl, he, hlow⟩ := ih htail
      split at h
      · next hle =>
        cases h
        exact ⟨j, List.mem_cons_self, rfl, herr,
          List.forall_mem_cons.mpr ⟨fun _ => Nat.le_refl _, fun k hk hke => Nat.le_trans hle (hlow k hk hke)⟩⟩
      · next hgt =>
        cases h
        exact ⟨j', List.mem_cons_of_mem _ hj', rfl, he, List.forall_mem_cons.mpr ⟨fun _ => by omega, hlow⟩⟩

/-- A failing job of a block below those of all others that failed is the one reported. -/
theorem lowestFailure_eq_some {js : List Job} {j : Job} {e : FaultCode} (hnd : (js.map (·.block)).Nodup) (hj : j ∈ js)
    (he : j.err = some e) (hlow : ∀ j' ∈ js, j'.err ≠ none → j.block ≤ j'.block) :
    lowestFailure js = some (j.block, e) := by
  cases hf : lowestFailure js with
  | none => simp [lowestFailure_eq_none.mp hf j hj] at he
  | some f =>
    obtain ⟨j', hj', hreported, he', hlow'⟩ := lowestFailure_spec hf
    have hblock : j'.block = j.block := Nat.le_antisymm (hlow' j hj (by simp [he])) (hlow j' hj' (by simp [he']))
    obtain rfl := eq_of_nodup_map hnd hj' hj hblock
    exact congrArg some (Prod.ext hreported (Option.some.inj (he'.symm.trans he)))

/-! ### The plan of the results (43 R192, R193) -/

theorem analyzeResults_eq_some {js : List Job} {rs : List AnalyzeResult} (h : js.map (·.res) = rs.map some) :
    analyzeResults js = some rs := by
  induction js generalizing rs with
  | nil =>
    rw [List.map_nil] at h
    rw [List.map_eq_nil_iff.mp h.symm, analyzeResults]
  | cons j js ih =>
    obtain ⟨r, rs, rfl, hr, hrs⟩ := List.map_eq_cons_iff.mp h.symm
    have hjres : j.res = some r := hr.symm
    rw [analyzeResults, hjres, ih hrs.symm]

/-- The compressed bytes of the first `i` blocks. -/
def csizeSum (rs : List AnalyzeResult) (i : Nat) : Nat := ((rs.take i).map (fun r => r.csize.toNat)).sum

/-- The descriptors stand at the running sums of the compressed sizes (43 R193). -/
theorem planBlocks_eq (rs : List AnalyzeResult) (off : Nat) :
    planBlocks rs off =
      (rs.mapIdx (fun i r =>
        { dsize := r.dsize, csize := r.csize, offset := u32 (off + csizeSum rs i), doff := 0#32, tree := some r.tree }),
      off + csizeSum rs rs.length) := by
  induction rs generalizing off with
  | nil => rfl
  | cons r rs ih =>
    have hsum : ∀ i, off + r.csize.toNat + csizeSum rs i = off + csizeSum (r :: rs) (i + 1) := fun i => by
      simp [csizeSum, Nat.add_assoc]
    rw [planBlocks, ih, List.mapIdx_cons]
    simp only [hsum]
    rfl

section
variable {s : State} {rs : List AnalyzeResult}

/-- A plan whose header and regions fit a u32 is installed whole (43 R192). -/
theorem State.installPlan_of_lt
    (h : headerSizeOf s.plan.blockCount.toNat + csizeSum rs rs.length < 4294967296) :
    s.installPlan rs = State.complete { s with plan := { s.plan with
      valid := true
      headerSize := u32 (headerSizeOf s.plan.blockCount.toNat)
      outSize := u32 (headerSizeOf s.plan.blockCount.toNat + csizeSum rs rs.length)
      desc := rs.mapIdx (fun i r =>
        { dsize := r.dsize, csize := r.csize, offset := u32 (csizeSum rs i), doff := 0#32, tree := some r.tree }) } } := by
  rw [State.installPlan]
  simp only [planBlocks_eq, Nat.zero_add, u32Limit]
  exact if_neg (by omega)

/-- A plan that does not fit is not installed (43 R192; log 18). -/
theorem State.installPlan_of_le
    (h : 4294967296 ≤ headerSizeOf s.plan.blockCount.toNat + csizeSum rs rs.length) :
    s.installPlan rs = s.raise .sizeOverflow noBlock := by
  rw [State.installPlan]
  simp only [planBlocks_eq, Nat.zero_add, u32Limit]
  exact if_pos (.inr h)

end

/-! ### The join -/

/-- The state the completion actions start from: no jobs, no phase, and no plan but PREPC's (43 R192, R194, R201). -/
def State.joined (s : State) : State := { s with
  jobs := []
  controller := { s.controller with phase := .idle }
  plan := if s.controller.phase = .analyze then s.plan else {} }

/-- A phase with a failing job reports it, and one without a failure completes unless it has a plan to install. -/
theorem State.join_eq_finish {s : State} (hp : s.controller.phase ≠ .idle)
    (h : s.controller.phase = .analyze → lowestFailure s.jobs ≠ none) :
    s.join = .next (s.joined.finish (lowestFailure s.jobs)) := by
  cases hphase : s.controller.phase with
  | idle => exact absurd hphase hp
  | encode =>
    simp only [State.join, State.joined, hphase, reduceCtorEq, if_false]
    rfl
  | decode =>
    simp only [State.join, State.joined, hphase, reduceCtorEq, if_false]
    rfl
  | analyze =>
    obtain ⟨f, hf⟩ := Option.ne_none_iff_exists'.mp (h hphase)
    simp only [State.join, State.joined, hphase, hf]
    rfl

theorem State.join_eq_installPlan {s : State} {rs : List AnalyzeResult} (hp : s.controller.phase = .analyze)
    (hf : lowestFailure s.jobs = none) (hr : analyzeResults s.jobs = some rs) :
    s.join = .next (s.joined.installPlan rs) := by
  simp only [State.join, State.joined, hp, hf, hr]
  rfl

/-- No plan is held while a phase runs. -/
theorem State.plan_not_valid {s : State} (h : s.controlOk = true) (hp : s.controller.phase ≠ .idle) :
    s.plan.valid = false := by
  simp only [State.controlOk, State.statusOk, Bool.and_eq_true, beq_iff_eq] at h
  obtain ⟨⟨⟨⟨⟨⟨hbusy, hheld⟩, -⟩, -⟩, -⟩, -⟩, -⟩ := h
  simpa [hbusy, hp] using hheld

/-- Settles O45: the lowest failure decides between a fault and completion, and the sums of the results decide whether
PREPC's plan fits. -/
theorem joinReportsLowestFailure : Obligations.JoinReportsLowestFailure := by
  intro s hp rest
  refine ⟨fun j e hnd hj he hlow => ?_, fun hnone hphase => ?_, ?_, fun h => s.plan_not_valid h hp⟩
  · have hf := lowestFailure_eq_some hnd hj he hlow
    rw [State.join_eq_finish hp fun _ => by simp [hf], hf]
    rfl
  · rw [State.join_eq_finish hp fun h => absurd h hphase, lowestFailure_eq_none.mpr hnone]
    rfl
  · intro rs hphase hnone hres hs sum out
    rw [State.join_eq_installPlan hphase (lowestFailure_eq_none.mpr hnone) (analyzeResults_eq_some hres)]
    have hplan : s.joined.plan = s.plan := if_pos hphase
    refine ⟨fun hout => ?_, fun hout => ?_⟩
    · rw [State.installPlan_of_lt (by rw [hplan]; exact hout), hplan]
      rfl
    · rw [State.installPlan_of_le (by rw [hplan]; exact hout)]
      rfl

end Sys2Proof.Machine
end

section
/-! PROOF. The control invariant taken apart, and the change of one job that keeps the whole invariant (10 R39 to R42, 42 R180). -/

namespace Sys2Proof.Machine

/-! ### The parts of the control invariant (10 R39 to R42) -/

theorem State.controlOk_iff {s : State} :
    s.controlOk = true ↔
      s.statusOk = true ∧ s.jobsOk = true ∧ s.limiterOk = true ∧ s.params.hwParallelism ≠ 0#32 := by
  simp only [State.controlOk, Bool.and_eq_true, bne_iff_ne, and_assoc]

/-- BUSY says that a phase runs (10 R40). -/
theorem State.busy_iff {s : State} (h : s.controlOk = true) : s.regs.busy = true ↔ s.controller.phase ≠ .idle := by
  obtain ⟨hstatus, -⟩ := State.controlOk_iff.mp h
  simp only [State.statusOk, Bool.and_eq_true, beq_iff_eq] at hstatus
  obtain ⟨⟨⟨hbusy, -⟩, -⟩, -⟩ := hstatus
  rw [hbusy, bne_iff_ne]

section
variable {s : State} (hp : s.controller.phase ≠ .idle)
include hp

theorem State.jobsOk_iff :
    s.jobsOk = true ↔ s.jobs.map (·.block) = List.range s.plan.blockCount.toNat ∧
      ∀ j ∈ s.jobs, j.controlOk s.controller.phase = true := by
  simp only [State.jobsOk, if_neg hp, Bool.and_eq_true, beq_iff_eq, List.all_eq_true]

theorem State.limiterOk_iff :
    s.limiterOk = true ↔ s.limiter.permits.toNat + s.jobs.countP (·.holds) = s.limiter.capacity.toNat ∧
      s.limiter.capacity ≠ 0#32 := by
  simp only [State.limiterOk, beq_eq_false_iff_ne.mpr hp, Bool.false_or, Bool.and_eq_true, beq_iff_eq, bne_iff_ne]

/-- No two jobs of a phase have one block (10 R41). -/
theorem State.blocks_nodup (h : s.controlOk = true) : (s.jobs.map (·.block)).Nodup := by
  obtain ⟨-, hjobs, -⟩ := State.controlOk_iff.mp h
  rw [((State.jobsOk_iff hp).mp hjobs).1]
  exact List.nodup_range

/-- A job of a phase is found by its block. -/
theorem State.job?_of_mem (h : s.controlOk = true) {j : Job} (hj : j ∈ s.jobs) : s.job? j.block = some j := by
  obtain ⟨j', hj'⟩ := Option.isSome_iff_exists.mp
    (List.find?_isSome (p := fun k : Job => k.block == j.block) |>.mpr ⟨j, hj, beq_self_eq_true _⟩)
  obtain ⟨hmem, hblock⟩ := State.job?_some hj'
  rwa [eq_of_nodup_map (State.blocks_nodup hp h) hmem hj hblock] at hj'

end

theorem Job.controlOk_iff {phase : Phase} {j : Job} :
    j.controlOk phase = true ↔
      some j.prog = (phase.body? j.block).map jobProgram ∧ (j.holds = true ↔ j.pc = 1 ∨ j.pc = 2) ∧
        (j.err = none ∨ 2 ≤ j.pc.val) := by
  simp only [Job.controlOk, Bool.and_eq_true, beq_iff_eq, and_assoc]
  refine and_congr_right fun _ => and_congr ?_ ?_
  · rw [Bool.eq_iff_iff, Bool.or_eq_true, beq_iff_eq, beq_iff_eq]
  · rw [Bool.or_eq_true, Option.isNone_iff_eq_none, decide_eq_true_eq]

/-- A job counts among the holders by its own permit. -/
theorem countP_holds_cons (j : Job) (js : List Job) :
    (j :: js).countP (·.holds) = js.countP (·.holds) + j.holds.toNat := by
  cases h : j.holds <;> simp [h]

/-- The jobs around the one that is updated. -/
theorem State.updateJob_split {s : State} {i : Nat} {j : Job} (hnd : (s.jobs.map (·.block)).Nodup)
    (hj : s.job? i = some j) :
    ∃ before after, s.jobs = before ++ j :: after ∧ ∀ f, (s.updateJob i f).jobs = before ++ f j :: after := by
  obtain ⟨hmem, rfl⟩ := State.job?_some hj
  obtain ⟨before, after, hsplit⟩ := List.mem_iff_append.mp hmem
  refine ⟨before, after, hsplit, fun f => ?_⟩
  rw [hsplit, List.map_append, List.map_cons, List.perm_middle.nodup_iff, List.nodup_cons, ← List.map_append] at hnd
  have hother : ∀ l ⊆ before ++ after, l.map (fun k => if k.block = j.block then f k else k) = l := fun l hl =>
    (List.map_congr_left fun k hk => if_neg fun hblock => hnd.1 (List.mem_map.mpr ⟨k, hl hk, hblock⟩)).trans l.map_id
  rw [State.updateJob_jobs, hsplit, List.map_append, List.map_cons, if_pos rfl,
    hother before (List.subset_append_left ..), hother after (List.subset_append_right ..)]

/-! ### What the step of a job may change -/

/-- Job `i` replaced by `f` of it, with the limiter and MEM its step leaves. -/
def State.advanced (s : State) (i : Nat) (f : Job → Job) (l : Limiter) (m : Memory) : State :=
  ((s.setLimiter l).setMem m).updateJob i f

/-- Job `j` has become `j'`, one micro-operation further, its permit is accounted for in the limiter, and job and MEM are
as the invariant asks. -/
structure State.Advances (s : State) (j j' : Job) (l : Limiter) (m : Memory) : Prop where
  block : j'.block = j.block
  pc : j'.pc.val = j.pc.val + 1
  control : j'.controlOk s.controller.phase = true
  analyzed : s.controller.phase = .analyze → s.plan.analyzed j' = true
  capacity : l.capacity = s.limiter.capacity
  permits : l.permits.toNat + j'.holds.toNat = s.limiter.permits.toNat + j.holds.toNat
  memory : Memory.wf m = true

section
variable {s : State} {i : Nat} {j : Job} {f : Job → Job} {l : Limiter} {m : Memory} (h : s.Inv)
  (hp : s.controller.phase ≠ .idle) (hj : s.job? i = some j) (ha : s.Advances j (f j) l m)
include h hp hj ha

theorem State.Advances.controlOk : (s.advanced i f l m).controlOk = true := by
  obtain ⟨hstatus, hjobs, hlimiter, hhw⟩ := State.controlOk_iff.mp h.control
  obtain ⟨hblocks, hok⟩ := (State.jobsOk_iff hp).mp hjobs
  obtain ⟨hpermits, hcapacity⟩ := (State.limiterOk_iff hp).mp hlimiter
  obtain ⟨before, after, hsplit, hupdate⟩ := State.updateJob_split (State.blocks_nodup hp h.control) hj
  have hjobs' : (s.advanced i f l m).jobs = before ++ f j :: after := hupdate f
  refine State.controlOk_iff.mpr ⟨hstatus, ?_, ?_, hhw⟩
  · refine (State.jobsOk_iff (s := s.advanced i f l m) hp).mpr ⟨?_, ?_⟩
    · rw [hsplit, List.map_append, List.map_cons] at hblocks
      rw [hjobs', List.map_append, List.map_cons, ha.block]
      exact hblocks
    · rw [hsplit] at hok
      rw [hjobs']
      simp only [List.forall_mem_append, List.forall_mem_cons] at hok ⊢
      exact ⟨hok.1, ha.control, hok.2.2⟩
  · refine (State.limiterOk_iff (s := s.advanced i f l m) hp).mpr ⟨?_, ha.capacity.symm ▸ hcapacity⟩
    have hacc := ha.permits
    rw [hsplit] at hpermits
    rw [hjobs']
    show l.permits.toNat + _ = l.capacity.toNat
    rw [ha.capacity]
    simp only [List.countP_append, countP_holds_cons] at hpermits ⊢
    omega

theorem State.Advances.planOk : (s.advanced i f l m).planOk = true := by
  have hplan := h.plan
  have hphase' : (s.advanced i f l m).controller.phase = s.controller.phase := rfl
  obtain ⟨before, after, hsplit, hupdate⟩ := State.updateJob_split (State.blocks_nodup hp h.control) hj
  have hjobs' : (s.advanced i f l m).jobs = before ++ f j :: after := hupdate f
  rw [State.planOk, Bool.and_eq_true] at hplan ⊢
  refine ⟨?_, hplan.2⟩
  rw [hphase']
  cases hphase : s.controller.phase with
  | idle => rfl
  | encode => rw [hphase] at hplan; exact hplan.1
  | decode => rw [hphase] at hplan; exact hplan.1
  | analyze =>
    obtain ⟨hpart, hall⟩ := h.plan_of_analyze hphase
    rw [Bool.and_eq_true, List.all_eq_true, hjobs']
    refine ⟨hpart, ?_⟩
    rw [hsplit] at hall
    simp only [List.forall_mem_append, List.forall_mem_cons] at hall ⊢
    exact ⟨hall.1, ha.analyzed hphase, hall.2.2⟩

theorem State.Advances.inv : (s.advanced i f l m).Inv :=
  ⟨h.params, ha.memory, ha.controlOk h hp hj, h.contexts, ha.planOk h hp hj⟩

end

end Sys2Proof.Machine
end

section
/-! PROOF. The step of an enabled job: LACQ, the body or LREL takes it one micro-operation further (42 R171 to R177). -/

namespace Sys2Proof.Machine

/-! ### The bodies (42 R175 to R177) -/

/-- Job `j` has become `j'` by its body: it stands at its LREL, and holds the permit it held. -/
structure Job.AfterBody (j j' : Job) : Prop where
  block : j'.block = j.block
  prog : j'.prog = j.prog
  pc : j'.pc = 2
  holds : j'.holds = j.holds

/-- What is known of a job's result stays known while the result does, if the job is still before its LREL or has a
fault (42 R175). -/
theorem Plan.analyzed_of_res_eq {p : Plan} {j j' : Job} (h : p.analyzed j = true) (hblock : j'.block = j.block)
    (hres : j'.res = j.res)
    (hopen : j.pc.val < 2 ∨ j.err.isSome = true → j'.pc.val < 2 ∨ j'.err.isSome = true) : p.analyzed j' = true := by
  rw [Plan.analyzed] at h ⊢
  rw [hres, hblock]
  cases hr : j.res with
  | none => simpa [hr] using hopen (by simpa [hr] using h)
  | some r => simpa [hr] using h

/-- A result of ANALYZE holds the size of its block and the tree built (42 R175). -/
theorem analyzeBlock_ok {bytes : List Byte} {sh : Shape} {t : Tree} {r : AnalyzeResult}
    (h : analyzeBlock bytes sh t = .ok r) : r.dsize = u32 bytes.length ∧ r.tree = t := by
  simp only [analyzeBlock] at h
  split at h
  · cases h
  split at h
  · cases h
  · cases h
    exact ⟨rfl, rfl⟩

/-- A result of ANALYZE is that of its block (42 R175). -/
theorem Plan.analyzed_of_ok {p : Plan} {j : Job} {m : Memory} {sh : Shape} {r : AnalyzeResult}
    (hlen : p.blockLen j.block ≠ 0)
    (hsh : (buildTree (m.readBytes (p.blockStart j.block) (p.blockLen j.block))).shape = some sh)
    (hr : analyzeBlock (m.readBytes (p.blockStart j.block) (p.blockLen j.block)) sh
      (buildTree (m.readBytes (p.blockStart j.block) (p.blockLen j.block))) = .ok r) :
    p.analyzed { j with res := some r, pc := 2 } = true := by
  obtain ⟨hdsize, htree⟩ := analyzeBlock_ok hr
  have hlength := Memory.readBytes_length m (p.blockStart j.block) (p.blockLen j.block)
  have hne := List.ne_nil_of_length_pos (hlength.symm ▸ Nat.pos_of_ne_zero hlen)
  have hlt : p.blockLen j.block < 2 ^ 32 := Nat.lt_of_le_of_lt (Nat.min_le_left ..) p.blockSize.isLt
  simp only [Plan.analyzed, Bool.and_eq_true, beq_iff_eq, htree, hdsize, hlength]
  exact ⟨⟨(BitVec.toNat_ofNat ..).trans (Nat.mod_eq_of_lt hlt), rfl⟩, buildTree_wf hne hsh⟩

section
variable {s t : State} {block : Word} {j : Job} (ht : s.turn ≠ .host) (hj : s.job? block.toNat = some j)
include ht hj

/-- ANALYZE leaves a fault or the result of its block (42 R175). -/
theorem execAnalyze_next (h : execAnalyze block s = .next t) :
    ∃ f, t = s.updateJob block.toNat f ∧ j.AfterBody (f j) ∧
      (s.plan.analyzed j = true → s.plan.analyzed (f j) = true) := by
  have hblock := (State.job?_some hj).2
  simp only [execAnalyze, State.bodyJob_job ht hj] at h
  split at h
  · cases h
  next hlen =>
  split at h
  · cases h
    exact ⟨_, rfl, ⟨rfl, rfl, rfl, rfl⟩, fun ha => Plan.analyzed_of_res_eq ha rfl rfl fun _ => .inr rfl⟩
  · rw [Tree.withShape] at h
    split at h
    · next sh hsh =>
      split at h
      · cases h
        exact ⟨_, rfl, ⟨rfl, rfl, rfl, rfl⟩, fun ha => Plan.analyzed_of_res_eq ha rfl rfl fun _ => .inr rfl⟩
      · next r hr =>
        cases h
        rw [← hblock] at hlen hsh hr ⊢
        exact ⟨_, rfl, ⟨rfl, rfl, rfl, rfl⟩, fun _ => Plan.analyzed_of_ok hlen hsh hr⟩
    · cases h

/-- ENCODE changes MEM and its job (42 R176). -/
theorem execEncode_next (h : execEncode block s = .next t) (hwf : Memory.wf s.mem = true) :
    ∃ f m, t = (s.setMem m).updateJob block.toNat f ∧ j.AfterBody (f j) ∧ Memory.wf m = true := by
  simp only [execEncode, State.bodyJob_job ht hj] at h
  split at h
  · cases h
  split at h
  · cases h
  split at h
  · cases h
    exact ⟨_, s.mem, rfl, ⟨rfl, rfl, rfl, rfl⟩, hwf⟩
  split at h
  · cases h
    exact ⟨_, s.mem, rfl, ⟨rfl, rfl, rfl, rfl⟩, hwf⟩
  · rw [Tree.withShape] at h
    split at h
    · cases h
      exact ⟨_, _, rfl, ⟨rfl, rfl, rfl, rfl⟩, wf_encodeBytes _ _ _ _ _ (wf_serialize _ _ hwf)⟩
    · cases h

/-- DECODE changes MEM and its job (42 R177). -/
theorem execDecode_next (h : execDecode block s = .next t) (hwf : Memory.wf s.mem = true) :
    ∃ f m, t = (s.setMem m).updateJob block.toNat f ∧ j.AfterBody (f j) ∧ Memory.wf m = true := by
  simp only [execDecode, State.bodyJob_job ht hj] at h
  split at h
  · cases h
  split at h
  · cases h
    exact ⟨_, s.mem, rfl, ⟨rfl, rfl, rfl, rfl⟩, hwf⟩
  · rw [Tree.withShape] at h
    split at h
    · cases h
      exact ⟨_, _, rfl, ⟨rfl, rfl, rfl, rfl⟩, wf_decodeBytes _ _ _ _ _ hwf⟩
    · cases h

end

/-- The body of the running phase takes its job to the LREL and keeps what the invariant asks of it. -/
theorem exec_body_advances {s : State} {i : Nat} {j : Job} {body : Instr} (h : s.Inv) (ht : s.turn = .job i)
    (hj : s.job? i = some j) (hb : s.controller.phase.body? i = some body) :
    ∃ f m, exec body s = .next (s.advanced i f s.limiter m) ∧ j.AfterBody (f j) ∧ Memory.wf m = true ∧
      (s.controller.phase = .analyze → s.plan.analyzed (f j) = true) := by
  obtain ⟨hmem, hblock⟩ := State.job?_some hj
  have hi := hblock ▸ (State.jobs_of_controlOk h.control hmem).1
  have ht' : s.turn ≠ .host := by rw [ht]; exact Agent.noConfusion
  have hu : (u32 i).toNat = i := u32_toNat_of_lt hi
  obtain ⟨t, hexec⟩ := exec_body_goesOn h ht hj hi hb
  rw [← hu] at hj
  cases hphase : s.controller.phase <;> rw [hphase] at hb <;> cases hb
  case analyze =>
    obtain ⟨f, rfl, hafter, hres⟩ := execAnalyze_next ht' hj hexec
    rw [hu] at hexec
    exact ⟨f, s.mem, hexec, hafter, h.memory, fun _ => hres ((h.plan_of_analyze hphase).2 j hmem)⟩
  case encode =>
    obtain ⟨f, m, rfl, hafter, hm⟩ := execEncode_next ht' hj hexec h.memory
    rw [hu] at hexec
    exact ⟨f, m, hexec, hafter, hm, nofun⟩
  case decode =>
    obtain ⟨f, m, rfl, hafter, hm⟩ := execDecode_next ht' hj hexec h.memory
    rw [hu] at hexec
    exact ⟨f, m, hexec, hafter, hm, nofun⟩

/-! ### The step of a job -/

/-- The word a job runs next, by its pc (10 R42). -/
theorem Job.word?_of_pc {j : Job} {body : Instr} (hprog : j.prog = jobProgram body) :
    (j.pc = 0 → j.word? = some (encode .lacq)) ∧ (j.pc = 1 → j.word? = some (encode body)) ∧
      (j.pc = 2 → j.word? = some (encode .lrel)) := by
  rw [Job.word?, hprog]
  exact ⟨fun h => by rw [h]; rfl, fun h => by rw [h]; rfl, fun h => by rw [h]; rfl⟩

/-- A job waits only at a LACQ without a permit (42 R171, R174). -/
theorem State.jobReady_of_word {s : State} {j : Job} {op : Instr} (hw : j.word? = some (encode op))
    (hdec : decode (encode op) = .ok op) : s.jobReady j = true ↔ (op = .lacq → s.limiter.permits ≠ 0#32) := by
  rw [State.jobReady]
  simp only [hw, hdec]
  by_cases hop : op = .lacq
  · simp [hop]
  · simp [hop]

section
variable {s : State} {j : Job} {body : Instr} (h : s.Inv) (ht : s.turn = .job j.block)
  (hj : s.job? j.block = some j) (hprog : j.prog = jobProgram body)
include h ht hj hprog

/-- A LACQ that is enabled takes a permit for its job (42 R171). -/
theorem State.runJob_of_lacq (hr : s.jobReady j = true) (hpc : j.pc = 0) :
    ∃ f l m, s.runJob j.block = .next (s.advanced j.block f l m) ∧ s.Advances j (f j) l m := by
  have hmem := (State.job?_some hj).1
  obtain ⟨hprogram, hholds, herr⟩ := Job.controlOk_iff.mp (State.jobs_of_controlOk h.control hmem).2
  have hnone : j.err = none := herr.resolve_right (by simp [hpc])
  have hfree : j.holds = false := by simpa [hpc] using hholds
  obtain ⟨hword, -, -⟩ := Job.word?_of_pc hprog
  have hw := hword hpc
  have hdec : decode (encode .lacq) = .ok .lacq := Laws.RoundTrip.lacq rfl
  have hpermits := (State.jobReady_of_word hw hdec).mp hr rfl
  have hpos : 0 < s.limiter.permits.toNat := Nat.pos_of_ne_zero fun h0 => hpermits (BitVec.eq_of_toNat_eq h0)
  obtain ⟨-, -, hmicro⟩ := limiterMicroOperations
  obtain ⟨hlacq, -⟩ := hmicro s j.block j ht hj
  refine ⟨fun j => { j with holds := true, pc := 1 }, { s.limiter with permits := s.limiter.permits - 1#32 }, s.mem,
    (State.runJob_of_word hj hw hdec rfl).trans (hlacq hpos), ?_⟩
  exact {
    block := rfl
    pc := by rw [hpc]; rfl
    control := Job.controlOk_iff.mpr ⟨hprogram, by simp, .inl hnone⟩
    analyzed := fun hphase =>
      Plan.analyzed_of_res_eq ((h.plan_of_analyze hphase).2 j hmem) rfl rfl fun _ => .inl (by simp)
    capacity := rfl
    permits := by
      have hsub : (s.limiter.permits - 1#32).toNat = s.limiter.permits.toNat - 1 := by bv_omega
      simp only [hsub, hfree, Bool.toNat_true, Bool.toNat_false]
      omega
    memory := h.memory }

/-- A body that has run leaves its job at the LREL (42 R175 to R177). -/
theorem State.runJob_of_body (hb : s.controller.phase.body? j.block = some body) (hpc : j.pc = 1) :
    ∃ f l m, s.runJob j.block = .next (s.advanced j.block f l m) ∧ s.Advances j (f j) l m := by
  have hmem := (State.job?_some hj).1
  obtain ⟨hprogram, hholds, -⟩ := Job.controlOk_iff.mp (State.jobs_of_controlOk h.control hmem).2
  obtain ⟨-, hword, -⟩ := Job.word?_of_pc hprog
  have hw := hword hpc
  obtain ⟨hdec, hmicro⟩ := decode_body hb
  obtain ⟨f, m, hexec, hafter, hm, hanalyzed⟩ := exec_body_advances h ht hj hb
  refine ⟨f, s.limiter, m, (State.runJob_of_word hj hw hdec hmicro).trans hexec, ?_⟩
  exact {
    block := hafter.block
    pc := by simp [hafter.pc, hpc]
    control := Job.controlOk_iff.mpr ⟨by rw [hafter.prog, hafter.block]; exact hprogram,
      by simp [hafter.holds, hafter.pc, hholds, hpc], .inr (by simp [hafter.pc])⟩
    analyzed := hanalyzed
    capacity := rfl
    permits := by rw [hafter.holds]
    memory := hm }

/-- A LREL gives back the permit of its job: there is one to give back, so it never over-releases (42 R172, R180). -/
theorem State.runJob_of_lrel (hp : s.controller.phase ≠ .idle) (hpc : j.pc = 2) :
    ∃ f l m, s.runJob j.block = .next (s.advanced j.block f l m) ∧ s.Advances j (f j) l m := by
  have hmem := (State.job?_some hj).1
  obtain ⟨hprogram, hholds, -⟩ := Job.controlOk_iff.mp (State.jobs_of_controlOk h.control hmem).2
  have hheld : j.holds = true := by simp [hholds, hpc]
  obtain ⟨-, -, hword⟩ := Job.word?_of_pc hprog
  have hw := hword hpc
  obtain ⟨-, -, hlimiter, -⟩ := State.controlOk_iff.mp h.control
  obtain ⟨hpermits, -⟩ := (State.limiterOk_iff hp).mp hlimiter
  have hcount : 0 < s.jobs.countP (·.holds) := List.countP_pos_iff.mpr ⟨j, hmem, hheld⟩
  have hle : s.limiter.permits.toNat + 1 ≤ s.limiter.capacity.toNat := by omega
  obtain ⟨-, -, hmicro⟩ := limiterMicroOperations
  obtain ⟨-, -, hlrel, -⟩ := hmicro s j.block j ht hj
  refine ⟨fun j => { j with holds := false, pc := 3 }, { s.limiter with permits := s.limiter.permits + 1#32 }, s.mem,
    (State.runJob_of_word hj hw (Laws.RoundTrip.lrel rfl) rfl).trans (hlrel hle), ?_⟩
  exact {
    block := rfl
    pc := by rw [hpc]; rfl
    control := Job.controlOk_iff.mpr ⟨hprogram, by simp, .inr (Nat.le_succ 2)⟩
    analyzed := fun hphase =>
      Plan.analyzed_of_res_eq ((h.plan_of_analyze hphase).2 j hmem) rfl rfl fun hopen => .inr (by simpa [hpc] using hopen)
    capacity := rfl
    permits := by
      have hadd : (s.limiter.permits + 1#32).toNat = s.limiter.permits.toNat + 1 := by bv_omega
      simp only [hadd, hheld, Bool.toNat_true, Bool.toNat_false]
    memory := h.memory }

end

/-- An enabled job goes one micro-operation further. -/
theorem State.runJob_advances {s : State} {j : Job} (h : s.Inv) (hp : s.controller.phase ≠ .idle)
    (ht : s.turn = .job j.block) (hj : s.job? j.block = some j) (hr : s.jobReady j = true) :
    ∃ f l m, s.runJob j.block = .next (s.advanced j.block f l m) ∧ s.Advances j (f j) l m := by
  obtain ⟨body, hb, hprog⟩ := Job.prog_of_controlOk (State.jobs_of_controlOk h.control (State.job?_some hj).1).2
  obtain ⟨hlt, -⟩ := State.jobReady_iff.mp hr
  match hpc : j.pc with
  | 0 => exact State.runJob_of_lacq h ht hj hprog hr hpc
  | 1 => exact State.runJob_of_body h ht hj hprog hb hpc
  | 2 => exact State.runJob_of_lrel h ht hj hprog hp hpc
  | 3 =>
    rw [hpc] at hlt
    exact absurd hlt (by decide)

end Sys2Proof.Machine
end

section
/-! PROOF. A running command completes: with no host step to come each step takes a job one micro-operation further or is the join, whatever the schedule (42 R178, 70 R257). -/

namespace Sys2Proof.Machine

/-! ### The join ends the command (60 R224) -/

/-- The command that started in `s` is over in `t`. -/
structure State.Completes (s t : State) : Prop where
  busy : t.regs.busy = false
  done : t.regs.done = true
  phase : t.controller.phase = .idle
  inputs : t.inputs = s.inputs

theorem State.finish_completes (s : State) (f : Option (Nat × FaultCode)) : s.Completes (s.joined.finish f) := by
  cases f with
  | none => exact ⟨rfl, rfl, rfl, rfl⟩
  | some f => exact ⟨rfl, rfl, rfl, rfl⟩

theorem State.installPlan_completes (s : State) (rs : List AnalyzeResult) : s.Completes (s.joined.installPlan rs) := by
  by_cases h : headerSizeOf s.joined.plan.blockCount.toNat + csizeSum rs rs.length < 4294967296
  · rw [State.installPlan_of_lt h]
    exact ⟨rfl, rfl, rfl, rfl⟩
  · rw [State.installPlan_of_le (Nat.not_lt.mp h)]
    exact ⟨rfl, rfl, rfl, rfl⟩

theorem State.join_completes {s t : State} (hp : s.controller.phase ≠ .idle) (h : s.join = .next t) : s.Completes t := by
  by_cases hfinish : s.controller.phase = .analyze → lowestFailure s.jobs ≠ none
  · rw [State.join_eq_finish hp hfinish] at h
    cases h
    exact s.finish_completes _
  · obtain ⟨hphase, hnone⟩ : s.controller.phase = .analyze ∧ lowestFailure s.jobs = none := by simpa using hfinish
    cases hres : analyzeResults s.jobs with
    | none => simp [State.join, hphase, hnone, hres] at h
    | some rs =>
      rw [State.join_eq_installPlan hphase hnone hres] at h
      cases h
      exact s.installPlan_completes rs

/-! ### Some step is enabled (42 R174, R178) -/

/-- A job that has not finished has a step, unless it waits for a permit. -/
theorem Job.ready_of_controlOk {s : State} {j : Job} (hok : j.controlOk s.controller.phase = true)
    (hlt : j.pc.val < 3) (hfree : j.pc = 0 → s.limiter.permits ≠ 0#32) : s.jobReady j = true := by
  obtain ⟨body, hb, hprog⟩ := Job.prog_of_controlOk hok
  obtain ⟨hlacq, hbody, hlrel⟩ := Job.word?_of_pc hprog
  obtain ⟨hdec, -⟩ := decode_body hb
  match hpc : j.pc with
  | 0 => exact (State.jobReady_of_word (hlacq hpc) (Laws.RoundTrip.lacq rfl)).mpr fun _ => hfree hpc
  | 1 =>
    refine (State.jobReady_of_word (hbody hpc) hdec).mpr fun hbl => ?_
    cases hphase : s.controller.phase <;> simp [Phase.body?, hphase, hbl] at hb
  | 2 => exact (State.jobReady_of_word (hlrel hpc) (Laws.RoundTrip.lrel rfl)).mpr nofun
  | 3 =>
    rw [hpc] at hlt
    exact absurd hlt (by decide)

theorem State.enabled_ne_nil {s : State} (h : s.controlOk = true) (hp : s.controller.phase ≠ .idle) :
    s.enabled ≠ [] := by
  obtain ⟨-, hjobs, hlimiter, -⟩ := State.controlOk_iff.mp h
  obtain ⟨-, hok⟩ := (State.jobsOk_iff hp).mp hjobs
  obtain ⟨hpermits, hcapacity⟩ := (State.limiterOk_iff hp).mp hlimiter
  have hready : ∀ j ∈ s.jobs, s.jobReady j = true → s.enabled ≠ [] := fun j hj hr =>
    List.ne_nil_of_mem (State.mem_enabled.mpr (.inr (.inr ⟨j, hj, rfl, hr⟩)))
  by_cases hnone : s.limiter.permits = 0#32
  · have hcount : s.jobs.countP (·.holds) ≠ 0 := fun h0 => hcapacity <| by
      rw [hnone, h0] at hpermits
      exact BitVec.eq_of_toNat_eq hpermits.symm
    obtain ⟨j, hj, hheld⟩ := List.countP_pos_iff.mp (Nat.pos_of_ne_zero hcount)
    obtain ⟨-, hholds, -⟩ := Job.controlOk_iff.mp (hok j hj)
    have hpc := hholds.mp hheld
    refine hready j hj (Job.ready_of_controlOk (hok j hj) ?_ ?_) <;> rcases hpc with hpc | hpc <;> simp [hpc]
  · by_cases hall : ∀ j ∈ s.jobs, j.pc.val = 3
    · exact List.ne_nil_of_mem (State.mem_enabled.mpr (.inr (.inl ⟨rfl, State.joinReady_iff.mpr ⟨hp, hall⟩⟩)))
    · obtain ⟨j, hj, hpc⟩ : ∃ j ∈ s.jobs, j.pc.val ≠ 3 := by simpa using hall
      exact hready j hj (Job.ready_of_controlOk (hok j hj) (by omega) fun _ => hnone)

/-! ### One step of a running command -/

/-- The micro-operations that the jobs have left. -/
def State.stepsLeft (s : State) : Nat := (s.jobs.map (fun j => 3 - j.pc.val)).sum

theorem State.stepsLeft_of_joinReady {s : State} (h : s.joinReady = true) : s.stepsLeft = 0 := by
  obtain ⟨-, hall⟩ := State.joinReady_iff.mp h
  rw [State.stepsLeft, List.sum_eq_zero_iff_forall_eq_nat, List.forall_mem_map]
  intro j hj
  rw [hall j hj]

theorem State.Advances.stepsLeft {s : State} {i : Nat} {j : Job} {f : Job → Job} {l : Limiter} {m : Memory}
    (hnd : (s.jobs.map (·.block)).Nodup) (hj : s.job? i = some j) (ha : s.Advances j (f j) l m) :
    (s.advanced i f l m).stepsLeft + 1 = s.stepsLeft := by
  obtain ⟨before, after, hsplit, hupdate⟩ := State.updateJob_split hnd hj
  have hjobs' : (s.advanced i f l m).jobs = before ++ f j :: after := hupdate f
  have hpc := ha.pc
  have hlt := (f j).pc.isLt
  simp only [State.stepsLeft, hjobs', hsplit, List.map_append, List.map_cons, List.sum_append, List.sum_cons]
  omega

/-- The host takes no step while the command runs: it has none to come, or waits for BUSY = 0 (30 R103). -/
def State.HostWaits (s : State) : Prop := s.inputs = [] ∨ ∃ rest, s.inputs = .await :: rest

theorem State.HostWaits.not_ready {s : State} (hw : s.HostWaits) (hb : s.regs.busy = true) : s.hostReady = false := by
  rcases hw with hi | ⟨rest, hi⟩
  · rw [State.hostReady, hi]
  · rw [State.hostReady, hi, hb]
    rfl

/-- A step of a running command is the join, or takes a job one micro-operation further. -/
theorem step_of_running {s : State} (h : s.Inv) (hb : s.regs.busy = true) (hw : s.HostWaits) :
    ∃ t, step s = .next t ∧
      ((s.stepsLeft = 0 ∧ s.Completes t) ∨
        (t.stepsLeft + 1 = s.stepsLeft ∧ t.Inv ∧ t.regs.busy = true ∧ t.inputs = s.inputs)) := by
  have hp := (State.busy_iff h.control).mp hb
  cases hpick : s.pick with
  | none => exact absurd (State.pick_eq_none_iff.mp hpick) (State.enabled_ne_nil h.control hp)
  | some au =>
    obtain ⟨a, u⟩ := au
    obtain ⟨ha, sc, d, rfl⟩ := State.pick_some hpick
    have hstep : step s = ((s.setSched sc).setDraws d).runAgent a := by rw [step, hpick]
    have hinv := h.picked sc d a
    rw [hstep]
    rcases State.mem_enabled.mp ha with ⟨rfl, hr⟩ | ⟨rfl, hr⟩ | ⟨j, hmem, rfl, hr⟩
    · simp [hw.not_ready hb] at hr
    · obtain ⟨t, hjoin⟩ := State.join_goesOn hinv hr
      obtain ⟨hbusy, hdone, hphase, hinputs⟩ :=
        State.join_completes (s := ((s.setSched sc).setDraws d).setTurn .controller) hp hjoin
      exact ⟨t, hjoin, .inl ⟨State.stepsLeft_of_joinReady hr, hbusy, hdone, hphase, hinputs⟩⟩
    · have hj := State.job?_of_mem hp h.control hmem
      obtain ⟨f, l, m, hrun, hadv⟩ := State.runJob_advances hinv hp rfl hj hr
      exact ⟨_, hrun, .inr ⟨hadv.stepsLeft (State.blocks_nodup hp h.control) hj, hadv.inv hinv hp hj, hb, rfl⟩⟩

/-! ### The run -/

theorem run_succ_of_step {s t : State} (n : Nat) (h : step s = .next t) :
    Host.Core.run Sys2Proof.core (n + 1) s = Host.Core.run Sys2Proof.core n t := by
  have hcore : Sys2Proof.core.step s = .next t := h
  simp only [Host.Core.run, hcore]

theorem run_completes {n : Nat} {s : State} (h : s.Inv) (hb : s.regs.busy = true) (hw : s.HostWaits)
    (hn : s.stepsLeft = n) : ∃ t, Host.Core.run Sys2Proof.core (n + 1) s = .next t ∧ s.Completes t := by
  induction n generalizing s with
  | zero =>
    obtain ⟨t, hstep, ⟨-, hdone⟩ | ⟨hleft, -⟩⟩ := step_of_running h hb hw
    · exact ⟨t, run_succ_of_step 0 hstep, hdone⟩
    · omega
  | succ n ih =>
    obtain ⟨t, hstep, ⟨hzero, -⟩ | ⟨hleft, hinv, hbusy, hinputs⟩⟩ := step_of_running h hb hw
    · omega
    · have hwaits : t.HostWaits := by rwa [State.HostWaits, hinputs]
      obtain ⟨u, hrun, hu⟩ := ih hinv hbusy hwaits (by omega)
      exact ⟨u, (run_succ_of_step (n + 1) hstep).trans hrun, hu.busy, hu.done, hu.phase, hu.inputs.trans hinputs⟩

/-- Settles O58, by induction on the micro-operations left: each step that is not the join takes one of them. -/
theorem runningCommandCompletes : Obligations.RunningCommandCompletes := by
  intro s h hb hw
  obtain ⟨t, hrun, hbusy, hdone, hphase, hinputs⟩ := run_completes h hb hw rfl
  exact ⟨t, hrun, hbusy, hdone, hphase, hinputs⟩

end Sys2Proof.Machine
end

section
/-! PROOF. The plan PREPC installs and the invariant keeps: its blocks follow the partition and their regions one another (43 R191 to R193, R206). -/

namespace Sys2Proof.Machine

/-! ### The partition (43 R191) -/

/-- The first `i` blocks hold `i × block_size` bytes, or all there are. -/
theorem Plan.sum_blockLen (p : Plan) (i : Nat) :
    ((List.range i).map p.blockLen).sum = min (i * p.blockSize.toNat) p.inSize.toNat := by
  induction i with
  | zero => simp
  | succ i ih =>
    rw [List.range_succ, List.map_append, List.sum_append, ih, Nat.add_one_mul, List.map_singleton, List.sum_singleton,
      Plan.blockLen]
    omega

section
variable {p : Plan} {ms : Nat} (h : p.partitioned ms = true)
include h

/-- The blocks of the partition hold the whole input. -/
theorem Plan.inSize_le_of_partitioned : p.inSize.toNat ≤ p.blockCount.toNat * p.blockSize.toNat := by
  simp only [Plan.partitioned, blockCountOf, Bool.and_eq_true, bne_iff_ne, beq_iff_eq] at h
  obtain ⟨⟨-, hbs⟩, hbc⟩ := h
  have hpos : 0 < p.blockSize.toNat := Nat.pos_of_ne_zero fun h0 => hbs (BitVec.eq_of_toNat_eq h0)
  have := Nat.lt_div_mul_add hpos (a := p.inSize.toNat + p.blockSize.toNat - 1)
  rw [hbc]
  omega

/-- A block of the partition starts inside the input. -/
theorem Plan.mul_blockSize_lt {i : Nat} (hi : i < p.blockCount.toNat) : i * p.blockSize.toNat < p.inSize.toNat := by
  have := Plan.blockLen_ne_zero h hi
  rw [Plan.blockLen] at this
  omega

end

/-! ### Sums of sizes over descriptors -/

/-- The sum of a size over the first `i` descriptors. -/
def sizeSum (size : Desc → Word) (ds : List Desc) (i : Nat) : Nat := ((ds.take i).map (fun d => (size d).toNat)).sum

theorem sizeSum_cons (size : Desc → Word) (d : Desc) (ds : List Desc) (i : Nat) :
    sizeSum size (d :: ds) (i + 1) = (size d).toNat + sizeSum size ds i := rfl

theorem sizeSum_succ (size : Desc → Word) {ds : List Desc} {i : Nat} {d : Desc} (hd : ds[i]? = some d) :
    sizeSum size ds (i + 1) = sizeSum size ds i + (size d).toNat := by
  simp [sizeSum, List.take_add_one, hd]

/-- The sum over all descriptors bounds that over the first ones. -/
theorem sizeSum_le (size : Desc → Word) (ds : List Desc) (i : Nat) : sizeSum size ds i ≤ sizeSum size ds ds.length := by
  have hsplit : ds.map (fun d => (size d).toNat) =
      (ds.take i).map (fun d => (size d).toNat) ++ (ds.drop i).map (fun d => (size d).toNat) := by
    rw [← List.map_append, List.take_append_drop]
  rw [sizeSum, sizeSum, List.take_length, hsplit, List.sum_append]
  exact Nat.le_add_right ..

/-! ### The descriptors of a compression plan (43 R193, R206) -/

/-- Descriptors that chain have the sizes of the partition and stand at the sums of the compressed sizes. -/
theorem Plan.chainC_spec {p : Plan} {ds : List Desc} {i off x : Nat} (h : p.chainC i off ds = some x) :
    ds.map (fun d => d.dsize.toNat) = (List.range' i ds.length).map p.blockLen ∧
      (∀ k d, ds[k]? = some d → d.offset.toNat = off + sizeSum Desc.csize ds k) ∧
        x = off + sizeSum Desc.csize ds ds.length := by
  induction ds generalizing i off with
  | nil => exact ⟨rfl, nofun, (Option.some.inj h).symm⟩
  | cons d ds ih =>
    rw [Plan.chainC] at h
    split at h
    · next hd =>
      simp only [Bool.and_eq_true, beq_iff_eq] at hd
      obtain ⟨⟨hdsize, hoffset⟩, -⟩ := hd
      obtain ⟨hdsizes, hoffsets, hx⟩ := ih h
      refine ⟨?_, fun k e he => ?_, ?_⟩
      · rw [List.map_cons, List.length_cons, List.range'_succ, List.map_cons, hdsize, hdsizes]
      · cases k with
        | zero =>
          cases he
          exact hoffset
        | succ k => rw [hoffsets k e he, sizeSum_cons, Nat.add_assoc]
      · rw [hx, List.length_cons, sizeSum_cons, Nat.add_assoc]
    · cases h

/-- What the invariant says of a compression plan (10 R37, 43 R191 to R193). -/
structure Plan.Compression (p : Plan) (memSize : Nat) : Prop where
  kind : p.kind = .c
  partitioned : p.partitioned memSize = true
  length : p.desc.length = p.blockCount.toNat
  headerSize : p.headerSize.toNat = 16 + 12 * p.blockCount.toNat
  dsizes : p.desc.map (fun d => d.dsize.toNat) = (List.range p.desc.length).map p.blockLen
  offsets : ∀ i d, p.desc[i]? = some d → d.offset.toNat = sizeSum Desc.csize p.desc i
  outSize : p.headerSize.toNat + sizeSum Desc.csize p.desc p.desc.length = p.outSize.toNat

theorem Plan.compression_of_ok {p : Plan} {ms : Nat} (h : p.compressionOk ms = true) : p.Compression ms := by
  simp only [Plan.compressionOk, Bool.and_eq_true, decide_eq_true_eq, beq_iff_eq] at h
  obtain ⟨⟨⟨hpart, hlength⟩, hheader⟩, hchain⟩ := h
  obtain ⟨x, hx, hout⟩ := Option.map_eq_some_iff.mp hchain
  obtain ⟨hdsizes, hoffsets, hsum⟩ := Plan.chainC_spec hx
  have hkind : p.kind = .c := by
    simp only [Plan.partitioned, Bool.and_eq_true, beq_iff_eq] at hpart
    obtain ⟨⟨⟨hkind, -⟩, -⟩, -⟩ := hpart
    exact hkind
  rw [Nat.zero_add] at hsum
  exact {
    kind := hkind
    partitioned := hpart
    length := hlength
    headerSize := hheader
    dsizes := by rw [hdsizes, List.range_eq_range']
    offsets := fun i d hd => (hoffsets i d hd).trans (Nat.zero_add _)
    outSize := hsum ▸ hout }

namespace Plan.Compression

variable {p : Plan} {ms : Nat} (h : p.Compression ms)
include h

/-- A region ends where the sum of the compressed sizes stands after it (43 R193). -/
theorem region_end {i : Nat} {d : Desc} (hd : p.desc[i]? = some d) :
    d.offset.toNat + d.csize.toNat = sizeSum Desc.csize p.desc (i + 1) := by
  rw [h.offsets i d hd, sizeSum_succ _ hd]

/-- A region ends inside the container (43 R206). -/
theorem region_end_le {d : Desc} (hd : d ∈ p.desc) :
    p.headerSize.toNat + d.offset.toNat + d.csize.toNat ≤ p.outSize.toNat := by
  obtain ⟨i, hi⟩ := List.mem_iff_getElem?.mp hd
  have := sizeSum_le Desc.csize p.desc (i + 1)
  rw [Nat.add_assoc, h.region_end hi, ← h.outSize]
  omega

/-- The first `i` descriptors stand for the first `i` blocks. -/
theorem sizeSum_dsize {i : Nat} (hi : i ≤ p.desc.length) :
    sizeSum Desc.dsize p.desc i = min (i * p.blockSize.toNat) p.inSize.toNat := by
  rw [sizeSum, List.map_take, h.dsizes, ← List.map_take, List.take_range, Nat.min_eq_left hi, Plan.sum_blockLen]

/-- The blocks hold the whole input (43 R206). -/
theorem sizeSum_dsize_length : sizeSum Desc.dsize p.desc p.desc.length = p.inSize.toNat := by
  rw [h.sizeSum_dsize (Nat.le_refl _), h.length]
  exact Nat.min_eq_right (Plan.inSize_le_of_partitioned h.partitioned)

/-- The bytes before block `i` are those of `i` whole blocks (43 R191). -/
theorem sizeSum_dsize_of_lt {i : Nat} (hi : i < p.desc.length) :
    sizeSum Desc.dsize p.desc i = i * p.blockSize.toNat := by
  rw [h.sizeSum_dsize (Nat.le_of_lt hi)]
  exact Nat.min_eq_left (Nat.le_of_lt (Plan.mul_blockSize_lt h.partitioned (h.length ▸ hi)))

end Plan.Compression

/-- A held compression plan (43 R192). -/
theorem State.Inv.compression_of_valid {s : State} (h : s.Inv) (hv : s.plan.valid = true) (hk : s.plan.kind = .c) :
    s.plan.Compression s.params.memSize := by
  have hplan := h.plan
  simp only [State.planOk, hv, hk, Bool.and_eq_true, Bool.not_true, Bool.false_or] at hplan
  exact Plan.compression_of_ok hplan.2

end Sys2Proof.Machine
end

section
/-! PROOF. The header COMPRESS writes is the one PREPD reads back: header, directory and plan (20 R79, R80; 43 R195, R199, R200, R205). -/

namespace Sys2Proof.Machine

/-! ### Fields of MEM (20 R63) -/

theorem Memory.read32LE_congr {m m' : Memory} {a : Nat}
    (h : ∀ x, a ≤ x → x < a + 4 → Memory.read m x = Memory.read m' x) :
    Memory.read32LE m a = Memory.read32LE m' a := by
  rw [Memory.read32LE, Memory.read32LE, h (a + 3) (by omega) (by omega), h (a + 2) (by omega) (by omega),
    h (a + 1) (by omega) (by omega), h a (by omega) (by omega)]

/-- A u32 written leaves every field apart from it alone. -/
theorem Memory.read32LE_write32LE_other (m : Memory) {a b : Nat} (v : Word) (h : b + 4 ≤ a ∨ a + 4 ≤ b) :
    Memory.read32LE (Memory.write32LE m a v) b = Memory.read32LE m b :=
  Memory.read32LE_congr fun x _ _ => Memory.read_write32LE_other m a x v (by omega)

/-! ### What MEM holds of a header (20 R79, R80) -/

/-- The directory entry at address `a` is that of `d`. -/
structure Memory.HoldsEntry (m : Memory) (a : Nat) (d : Desc) : Prop where
  dsize : Memory.read32LE m a = d.dsize
  csize : Memory.read32LE m (a + 4) = d.csize
  offset : Memory.read32LE m (a + 8) = d.offset

/-- The directory from address `a` on is that of the descriptors. -/
def Memory.HoldsDirectory (m : Memory) : Nat → List Desc → Prop
  | _, [] => True
  | a, d :: ds => Memory.HoldsEntry m a d ∧ Memory.HoldsDirectory m (a + 12) ds

/-- The container header at address `a` is that of the plan. -/
structure Memory.HoldsHeader (m : Memory) (a : Nat) (p : Plan) : Prop where
  magic : Memory.read32LE m a = Config.magic
  blockCount : Memory.read32LE m (a + 4) = p.blockCount
  blockSize : Memory.read32LE m (a + 8) = p.blockSize
  headerSize : Memory.read32LE m (a + 12) = p.headerSize
  directory : Memory.HoldsDirectory m (a + 16) p.desc

section
variable {m m' : Memory} {a : Nat}

theorem Memory.HoldsEntry.of_read_eq {d : Desc} (h : Memory.HoldsEntry m a d)
    (heq : ∀ x, a ≤ x → x < a + 12 → Memory.read m' x = Memory.read m x) : Memory.HoldsEntry m' a d where
  dsize := (Memory.read32LE_congr fun x _ _ => heq x (by omega) (by omega)).trans h.dsize
  csize := (Memory.read32LE_congr fun x _ _ => heq x (by omega) (by omega)).trans h.csize
  offset := (Memory.read32LE_congr fun x _ _ => heq x (by omega) (by omega)).trans h.offset

theorem Memory.HoldsDirectory.of_read_eq {ds : List Desc} (h : Memory.HoldsDirectory m a ds)
    (heq : ∀ x, a ≤ x → x < a + 12 * ds.length → Memory.read m' x = Memory.read m x) :
    Memory.HoldsDirectory m' a ds := by
  induction ds generalizing a with
  | nil => trivial
  | cons d ds ih =>
    rw [List.length_cons] at heq
    obtain ⟨hentry, hrest⟩ := h
    exact ⟨hentry.of_read_eq fun x _ _ => heq x (by omega) (by omega), ih hrest fun x _ _ => heq x (by omega) (by omega)⟩

/-- The header is in its bytes (20 R79). -/
theorem Memory.HoldsHeader.of_read_eq {p : Plan} (h : Memory.HoldsHeader m a p)
    (heq : ∀ x, a ≤ x → x < a + (16 + 12 * p.desc.length) → Memory.read m' x = Memory.read m x) :
    Memory.HoldsHeader m' a p where
  magic := (Memory.read32LE_congr fun x _ _ => heq x (by omega) (by omega)).trans h.magic
  blockCount := (Memory.read32LE_congr fun x _ _ => heq x (by omega) (by omega)).trans h.blockCount
  blockSize := (Memory.read32LE_congr fun x _ _ => heq x (by omega) (by omega)).trans h.blockSize
  headerSize := (Memory.read32LE_congr fun x _ _ => heq x (by omega) (by omega)).trans h.headerSize
  directory := h.directory.of_read_eq fun x _ _ => heq x (by omega) (by omega)

end

/-! ### What COMPRESS writes (43 R195) -/

theorem wf_writeEntry {m : Memory} (a : Nat) (d : Desc) (h : Memory.wf m = true) :
    Memory.wf (writeEntry m a d) = true :=
  Memory.wf_write32LE _ _ (Memory.wf_write32LE _ _ (Memory.wf_write32LE _ _ h))

theorem holdsEntry_writeEntry {m : Memory} (a : Nat) (d : Desc) (h : Memory.wf m = true) :
    Memory.HoldsEntry (writeEntry m a d) a d := by
  have h1 := Memory.wf_write32LE a d.dsize h
  have h2 := Memory.wf_write32LE (a + 4) d.csize h1
  refine ⟨?_, ?_, ?_⟩ <;> rw [writeEntry]
  · rw [Memory.read32LE_write32LE_other _ _ (by omega), Memory.read32LE_write32LE_other _ _ (by omega),
      Memory.read32LE_write32LE _ _ h]
  · rw [Memory.read32LE_write32LE_other _ _ (by omega), Memory.read32LE_write32LE _ _ h1]
  · exact Memory.read32LE_write32LE _ _ h2

theorem read_writeEntry_other (m : Memory) {a b : Nat} (d : Desc) (h : b < a ∨ a + 12 ≤ b) :
    Memory.read (writeEntry m a d) b = Memory.read m b := by
  rw [writeEntry, Memory.read_write32LE_other _ _ _ _ (by omega), Memory.read_write32LE_other _ _ _ _ (by omega),
    Memory.read_write32LE_other _ _ _ _ (by omega)]

/-- The directory is written from `a` on. -/
theorem read_writeDirectory_below (m : Memory) {a b : Nat} (ds : List Desc) (h : b < a) :
    Memory.read (writeDirectory m a ds) b = Memory.read m b := by
  induction ds generalizing m a with
  | nil => rfl
  | cons d ds ih => rw [writeDirectory, ih _ (Nat.lt_add_right _ h), read_writeEntry_other _ _ (.inl h)]

theorem holdsDirectory_writeDirectory {m : Memory} (a : Nat) (ds : List Desc) (h : Memory.wf m = true) :
    Memory.HoldsDirectory (writeDirectory m a ds) a ds := by
  induction ds generalizing m a with
  | nil => trivial
  | cons d ds ih =>
    exact ⟨(holdsEntry_writeEntry a d h).of_read_eq fun x _ hx => read_writeDirectory_below _ ds hx,
      ih (a + 12) (wf_writeEntry a d h)⟩

/-- MEM holds the header that was written to it (43 R195). -/
theorem holdsHeader_writeHeader {m : Memory} (a : Nat) (p : Plan) (h : Memory.wf m = true) :
    Memory.HoldsHeader (writeHeader m a p) a p := by
  have h1 := Memory.wf_write32LE a Config.magic h
  have h2 := Memory.wf_write32LE (a + 4) p.blockCount h1
  have h3 := Memory.wf_write32LE (a + 8) p.blockSize h2
  have h4 := Memory.wf_write32LE (a + 12) p.headerSize h3
  have hfixed : ∀ {m : Memory} {b : Nat}, b + 4 ≤ a + 16 →
      Memory.read32LE (writeDirectory m (a + 16) p.desc) b = Memory.read32LE m b := fun hb =>
    Memory.read32LE_congr fun x _ hx => read_writeDirectory_below _ _ (Nat.lt_of_lt_of_le hx hb)
  refine ⟨?_, ?_, ?_, ?_, holdsDirectory_writeDirectory _ _ h4⟩ <;> refine (hfixed (by omega)).trans ?_
  · rw [Memory.read32LE_write32LE_other _ _ (by omega), Memory.read32LE_write32LE_other _ _ (by omega),
      Memory.read32LE_write32LE_other _ _ (by omega), Memory.read32LE_write32LE _ _ h]
  · rw [Memory.read32LE_write32LE_other _ _ (by omega), Memory.read32LE_write32LE_other _ _ (by omega),
      Memory.read32LE_write32LE _ _ h1]
  · rw [Memory.read32LE_write32LE_other _ _ (by omega), Memory.read32LE_write32LE _ _ h2]
  · exact Memory.read32LE_write32LE _ _ h3

/-! ### What PREPD reads (43 R199, R200) -/

/-- The descriptors PREPD makes of the entries of `ds`, the output offset of the first one being `doff` (43 R200). -/
def readDescs (doff : Nat) (ds : List Desc) : List Desc :=
  ds.mapIdx (fun i d => { d with doff := u32 (doff + sizeSum Desc.dsize ds i), tree := none })

theorem readDescs_cons (doff : Nat) (d : Desc) (ds : List Desc) :
    readDescs doff (d :: ds) = { d with doff := u32 doff, tree := none } :: readDescs (doff + d.dsize.toNat) ds := by
  simp only [readDescs, List.mapIdx_cons, sizeSum_cons, Nat.add_assoc]
  rfl

/-- The entries come back as they were written. -/
theorem readDescs_entries (doff : Nat) (ds : List Desc) :
    (readDescs doff ds).map (fun d => (d.dsize, d.csize, d.offset)) = ds.map (fun d => (d.dsize, d.csize, d.offset)) := by
  induction ds generalizing doff with
  | nil => rfl
  | cons d ds ih => rw [readDescs_cons, List.map_cons, List.map_cons, ih]

/-- The directory of descriptors whose regions lie in the container is read whole (43 R200). -/
theorem readDirectory_eq {m : Memory} {hs n : Nat} {ds : List Desc} {a : Nat} (h : Memory.HoldsDirectory m a ds)
    (hin : ∀ d ∈ ds, hs + d.offset.toNat + d.csize.toNat ≤ n) (i doff : Nat) :
    readDirectory m hs n ds.length i a doff = .ok (readDescs doff ds, doff + sizeSum Desc.dsize ds ds.length) := by
  induction ds generalizing a i doff with
  | nil => rfl
  | cons d ds ih =>
    obtain ⟨⟨hdsize, hcsize, hoffset⟩, hrest⟩ := h
    obtain ⟨hd, hds⟩ := List.forall_mem_cons.mp hin
    have htail : readDirectory m hs n ds.length (i + 1) (a + Config.dirEntry) (doff + d.dsize.toNat) = _ :=
      ih hrest hds (i + 1) (doff + d.dsize.toNat)
    simp only [List.length_cons, readDirectory, hdsize, hcsize, hoffset, if_neg (Nat.not_lt.mpr hd), htail]
    rw [readDescs_cons, sizeSum_cons, Nat.add_assoc]

/-- The plan PREPD makes of the header of the compression plan `p`. -/
def Plan.readBack (p : Plan) (r : Regs) : Plan where
  valid := true
  kind := .d
  srcBase := r.srcBase
  srcSize := r.srcSize
  inSize := r.srcSize
  outSize := p.inSize
  blockSize := p.blockSize
  blockCount := p.blockCount
  headerSize := p.headerSize
  desc := readDescs 0 p.desc

section
variable {p : Plan} {ms : Nat} {m : Memory} {r : Regs} (hp : p.Compression ms)
  (hh : Memory.HoldsHeader m r.srcBase.toNat p) (hsize : r.srcSize = p.outSize)
  (hlegal : r.srcBase.toNat + r.srcSize.toNat ≤ 4294967296) (hexists : r.srcBase.toNat + r.srcSize.toNat ≤ ms)
include hp hh hsize hlegal hexists

/-- Every header check of 43 R199 holds of the header of a compression plan. -/
theorem headerChecks_pass : firstFailure (headerChecks ms m r) = none := by
  have hheader := hp.headerSize
  have hout := hp.outSize
  rw [← hsize] at hout
  refine firstFailure_none.mpr ?_
  simp only [headerChecks, hh.magic, hh.blockCount, hh.headerSize, List.forall_mem_cons, decide_eq_true_eq,
    beq_self_eq_true]
  simp only [headerSizeOf, Config.hdrFixed, Config.dirEntry]
  exact ⟨hlegal, by omega, hexists, trivial, hheader, by omega, nofun⟩

/-- PREPD reads a compression plan back from its header (43 R199, R200). -/
theorem prepdPlan_eq : prepdPlan ms m r = .ok (p.readBack r) := by
  have hin : ∀ d ∈ p.desc, p.headerSize.toNat + d.offset.toNat + d.csize.toNat ≤ r.srcSize.toNat := fun d hd =>
    hsize ▸ hp.region_end_le hd
  have hdirectory := readDirectory_eq hh.directory hin 0 0
  rw [hp.sizeSum_dsize_length, hp.length, Nat.zero_add] at hdirectory
  have hinSize : u32 p.inSize.toNat = p.inSize := BitVec.ofNat_toNat ..
  have hlt : ¬ p.inSize.toNat ≥ u32Limit := Nat.not_le.mpr p.inSize.isLt
  simp only [prepdPlan, headerChecks_pass hp hh hsize hlegal hexists, hh.headerSize, hh.blockCount, hh.blockSize,
    Config.hdrFixed, hdirectory, if_neg hlt, hinSize]
  rfl

end

/-- The output offset of block `i` is `i × block_size` (43 R202, R205). -/
theorem Plan.Compression.readBack_doff {p : Plan} {ms : Nat} (h : p.Compression ms) {r : Regs} {i : Nat} {d : Desc}
    (hd : (p.readBack r).desc[i]? = some d) : d.doff.toNat = i * p.blockSize.toNat := by
  simp only [Plan.readBack, readDescs, List.getElem?_mapIdx, Nat.zero_add] at hd
  obtain ⟨e, he, rfl⟩ := Option.map_eq_some_iff.mp hd
  have hi : i < p.desc.length := (List.getElem?_eq_some_iff.mp he).1
  have hlt := Plan.mul_blockSize_lt h.partitioned (h.length ▸ hi)
  have hn := p.inSize.isLt
  rw [h.sizeSum_dsize_of_lt hi]
  exact (BitVec.toNat_ofNat ..).trans (Nat.mod_eq_of_lt (by omega))

/-! ### COMPRESS, then PREPD (43 R205) -/

/-- A COMPRESS that starts its phase had a plan and a destination, and has written the header (43 R194, R196). -/
theorem exec_compress_started {s t : State} (h : exec .compress s = .next t) (hb : t.regs.busy = true) :
    s.plan.valid = true ∧ s.plan.kind = .c ∧ s.regs.dstBase.toNat + s.plan.outSize.toNat ≤ 4294967296 ∧
      s.regs.dstBase.toNat + s.plan.outSize.toNat ≤ s.params.memSize ∧
      t.mem = writeHeader s.mem s.regs.dstBase.toNat s.plan := by
  rw [exec, execCompress] at h
  obtain ⟨e, -, rfl⟩ | ⟨hchecks, rfl⟩ := State.issueChecked_next h
  · cases hb
  · have hall := firstFailure_none.mp hchecks
    simp only [State.executeChecks, List.forall_mem_cons, Bool.and_eq_true, beq_iff_eq, decide_eq_true_eq] at hall
    obtain ⟨⟨hvalid, hkind⟩, -, hlegal, -, hexists, -⟩ := hall
    exact ⟨hvalid, hkind, hlegal, hexists, rfl⟩

/-- PREPD of a source that holds the header of a compression plan succeeds. -/
theorem exec_prepd_of_plan {s : State} {p : Plan} (h : prepdPlan s.params.memSize s.mem s.regs = .ok p) :
    exec .prepd s = .next { s with regs := s.regs.succeeded, plan := p } := by
  simp only [exec, execPrepd, h]
  rfl

/-- Settles O52: the directory is read in the order it was written, each region ends inside the container, and the sizes
of the blocks before block `i` sum to `i` block sizes. -/
theorem prepdReadsTheWrittenHeader : Obligations.PrepdReadsTheWrittenHeader := by
  intro s t u h _ hcompress hbusy hparams hbase hsize hsame
  obtain ⟨hvalid, hkind, hlegal, hexists, hmem⟩ := exec_compress_started hcompress hbusy
  have hp := h.compression_of_valid hvalid hkind
  have hheld : Memory.HoldsHeader u.mem s.regs.dstBase.toNat s.plan :=
    (holdsHeader_writeHeader _ s.plan h.memory).of_read_eq fun a ha ha' => by
      rw [hsame a ha (by rw [hp.headerSize, ← hp.length]; exact ha'), hmem]
  rw [← hbase, ← hsize] at hlegal hexists
  have hplan := prepdPlan_eq hp (hbase ▸ hheld) hsize hlegal hexists
  rw [← hparams] at hplan
  exact ⟨_, exec_prepd_of_plan hplan, rfl, rfl, rfl, rfl, rfl, rfl, readDescs_entries 0 s.plan.desc,
    fun i d hd => hp.readBack_doff hd⟩

end Sys2Proof.Machine
end

section
/-! PROOF. The plan a PREPC installs at its join is the compression plan of the results of its jobs (43 R192, R193, R206). -/

namespace Sys2Proof.Machine

/-! ### The results of the jobs (42 R175) -/

theorem analyzeResults_map {js : List Job} {rs : List AnalyzeResult} (h : analyzeResults js = some rs) :
    js.map (·.res) = rs.map some := by
  induction js generalizing rs with
  | nil =>
    cases h
    rfl
  | cons j js ih =>
    rw [analyzeResults] at h
    split at h
    · next r rs' hr hrs =>
      cases h
      rw [List.map_cons, List.map_cons, hr, ih hrs]
    · cases h

/-- The result is that of block `i`, with its tree (42 R175). -/
structure Plan.ResultOf (p : Plan) (i : Nat) (r : AnalyzeResult) : Prop where
  dsize : r.dsize.toNat = p.blockLen i
  built : r.tree.built = true
  wf : r.tree.wf = true

theorem Plan.resultOf_of_analyzed {p : Plan} {j : Job} {r : AnalyzeResult} (h : p.analyzed j = true)
    (hr : j.res = some r) : p.ResultOf j.block r := by
  simp only [Plan.analyzed, hr, Bool.and_eq_true, beq_iff_eq] at h
  obtain ⟨⟨hdsize, hbuilt⟩, hwf⟩ := h
  exact ⟨hdsize, hbuilt, hwf⟩

/-- The results of an analyze phase are those of its blocks, in order (10 R41). -/
theorem State.Inv.resultOf {s : State} (h : s.Inv) (hp : s.controller.phase = .analyze) {rs : List AnalyzeResult}
    (hres : s.jobs.map (·.res) = rs.map some) {i : Nat} {r : AnalyzeResult} (hr : rs[i]? = some r) :
    s.plan.ResultOf i r := by
  obtain ⟨-, hjobs, -⟩ := State.controlOk_iff.mp h.control
  obtain ⟨hblocks, -⟩ := (State.jobsOk_iff (by rw [hp]; exact Phase.noConfusion)).mp hjobs
  obtain ⟨j, hj, hjr⟩ : ∃ j, s.jobs[i]? = some j ∧ j.res = some r := by
    have := congrArg (·[i]?) hres
    simpa [hr] using this
  have hblock : j.block = i := by
    have := congrArg (·[i]?) hblocks
    simp only [List.getElem?_map, hj, Option.map_some] at this
    obtain ⟨hi, hval⟩ := List.getElem?_eq_some_iff.mp this.symm
    rw [← hval, List.getElem_range]
  exact hblock ▸ Plan.resultOf_of_analyzed ((h.plan_of_analyze hp).2 j (List.mem_of_getElem? hj)) hjr

/-! ### The plan of the results (43 R192, R193) -/

theorem le_planBlocks_snd (rs : List AnalyzeResult) (off : Nat) : off ≤ (planBlocks rs off).2 := by
  rw [planBlocks_eq]
  exact Nat.le_add_right ..

/-- The descriptors of the results chain when their offsets fit a u32 (43 R193). -/
theorem Plan.chainC_planBlocks {p : Plan} {rs : List AnalyzeResult} {i off : Nat}
    (h : ∀ k r, rs[k]? = some r → p.ResultOf (i + k) r) (hlt : (planBlocks rs off).2 < 4294967296) :
    p.chainC i off (planBlocks rs off).1 = some (planBlocks rs off).2 := by
  induction rs generalizing i off with
  | nil => rfl
  | cons r rs ih =>
    have hle := le_planBlocks_snd (r :: rs) off
    have hoff : (u32 off).toNat = off := (BitVec.toNat_ofNat ..).trans (Nat.mod_eq_of_lt (by omega))
    have hr := h 0 r rfl
    have htail := ih (i := i + 1) (off := off + r.csize.toNat)
      (fun k r' hr' => by rw [Nat.add_right_comm]; exact h (k + 1) r' hr') hlt
    refine (if_pos ?_).trans htail
    simp [hr.dsize, hr.built, hr.wf, hoff]

/-- The plan of the results (43 R192). -/
def Plan.installed (p : Plan) (rs : List AnalyzeResult) : Plan := { p with
  valid := true
  headerSize := u32 (headerSizeOf p.blockCount.toNat)
  outSize := u32 (headerSizeOf p.blockCount.toNat + (planBlocks rs 0).2)
  desc := (planBlocks rs 0).1 }

/-- The plan of the results is installed when it fits a u32 (43 R192; log 18). -/
theorem State.installPlan_cases (s : State) (rs : List AnalyzeResult) :
    s.installPlan rs = s.raise .sizeOverflow noBlock ∨
      (headerSizeOf s.plan.blockCount.toNat + (planBlocks rs 0).2 < 4294967296 ∧
        s.installPlan rs = (s.setPlan (s.plan.installed rs)).complete) := by
  by_cases h : headerSizeOf s.plan.blockCount.toNat + (planBlocks rs 0).2 < 4294967296
  · refine .inr ⟨h, if_neg ?_⟩
    simp only [u32Limit]
    omega
  · exact .inl (if_pos (.inr (Nat.not_lt.mp h)))

/-- The descriptor of a block is that of its result. -/
theorem Plan.installed_desc {p : Plan} {rs : List AnalyzeResult} {i : Nat} {r : AnalyzeResult} (h : rs[i]? = some r) :
    ∃ d : Desc, (p.installed rs).desc[i]? = some d ∧ d.dsize = r.dsize ∧ d.csize = r.csize ∧ d.tree = some r.tree := by
  rw [Plan.installed, planBlocks_eq, List.getElem?_mapIdx, h]
  exact ⟨_, rfl, rfl, rfl, rfl⟩

/-- The plan of the results of all blocks is a compression plan (10 R37, 43 R192). -/
theorem Plan.compressionOk_installed {p : Plan} {ms : Nat} {rs : List AnalyzeResult}
    (hpart : p.partitioned ms = true) (hlen : rs.length = p.blockCount.toNat)
    (hres : ∀ i r, rs[i]? = some r → p.ResultOf i r)
    (hlt : headerSizeOf p.blockCount.toNat + (planBlocks rs 0).2 < 4294967296) :
    (p.installed rs).compressionOk ms = true := by
  have hchain : (p.installed rs).chainC 0 0 (planBlocks rs 0).1 = some (planBlocks rs 0).2 :=
    Plan.chainC_planBlocks (fun k r hr => by
      obtain ⟨hdsize, hbuilt, hwf⟩ := hres k r hr
      exact ⟨by rw [Nat.zero_add]; exact hdsize, hbuilt, hwf⟩) (by omega)
  have hlength : (planBlocks rs 0).1.length = rs.length := by rw [planBlocks_eq, List.length_mapIdx]
  have hheader : (u32 (headerSizeOf p.blockCount.toNat)).toNat = headerSizeOf p.blockCount.toNat :=
    (BitVec.toNat_ofNat ..).trans (Nat.mod_eq_of_lt (by omega))
  have hout : (u32 (headerSizeOf p.blockCount.toNat + (planBlocks rs 0).2)).toNat = _ :=
    (BitVec.toNat_ofNat ..).trans (Nat.mod_eq_of_lt hlt)
  simp only [Plan.compressionOk, Bool.and_eq_true, decide_eq_true_eq, beq_iff_eq]
  refine ⟨⟨⟨hpart, hlength.trans hlen⟩, hheader⟩, ?_⟩
  show Option.map _ ((p.installed rs).chainC 0 0 (planBlocks rs 0).1) = _
  rw [hchain, Option.map_some]
  exact congrArg some ((congrArg (· + _) hheader).trans hout.symm)

/-! ### The join of PREPC (43 R192) -/

/-- A join that goes on ends the command, or installs the plan of the results (42 R179, 43 R192). -/
theorem State.join_next {s t : State} (hp : s.controller.phase ≠ .idle) (h : s.join = .next t) :
    t = s.joined.finish (lowestFailure s.jobs) ∨
      ∃ rs, s.controller.phase = .analyze ∧ analyzeResults s.jobs = some rs ∧ t = s.joined.installPlan rs := by
  by_cases hfinish : s.controller.phase = .analyze → lowestFailure s.jobs ≠ none
  · rw [State.join_eq_finish hp hfinish] at h
    cases h
    exact .inl rfl
  · obtain ⟨hphase, hnone⟩ : s.controller.phase = .analyze ∧ lowestFailure s.jobs = none := by simpa using hfinish
    cases hres : analyzeResults s.jobs with
    | none => simp [State.join, hphase, hnone, hres] at h
    | some rs =>
      rw [State.join_eq_installPlan hphase hnone hres] at h
      cases h
      exact .inr ⟨rs, hphase, rfl, rfl⟩

/-- The end of a command holds no plan that was not held before. -/
theorem State.finish_plan (s : State) (f : Option (Nat × FaultCode)) : (s.finish f).plan = s.plan := by
  cases f <;> rfl

/-- A plan held after the join of PREPC is the plan of the results of all its jobs (43 R192). -/
theorem State.Inv.plan_of_join {s t : State} (h : s.Inv) (hp : s.controller.phase = .analyze) (hjoin : s.join = .next t)
    (hv : t.plan.valid = true) :
    ∃ rs, s.jobs.map (·.res) = rs.map some ∧ t.plan = s.plan.installed rs ∧
      t.plan.compressionOk s.params.memSize = true := by
  have hrun : s.controller.phase ≠ .idle := by rw [hp]; exact Phase.noConfusion
  have hplan : s.joined.plan = s.plan := if_pos hp
  have hnotHeld : s.joined.plan.valid ≠ true := by
    rw [hplan, State.plan_not_valid h.control hrun]
    exact Bool.false_ne_true
  obtain rfl | ⟨rs, -, hrs, rfl⟩ := State.join_next hrun hjoin
  · rw [State.finish_plan] at hv
    exact absurd hv hnotHeld
  · have hres := analyzeResults_map hrs
    obtain heq | ⟨hlt, heq⟩ := s.joined.installPlan_cases rs
    · rw [heq] at hv
      exact absurd hv hnotHeld
    · rw [hplan] at hlt
      have hplan' : (s.joined.installPlan rs).plan = s.plan.installed rs := by rw [heq, ← hplan]; rfl
      refine ⟨rs, hres, hplan', ?_⟩
      rw [hplan']
      refine Plan.compressionOk_installed (h.plan_of_analyze hp).1 ?_ (fun i r hr => h.resultOf hp hres hr) hlt
      obtain ⟨-, hjobs, -⟩ := State.controlOk_iff.mp h.control
      have hblocks := congrArg List.length ((State.jobsOk_iff hrun).mp hjobs).1
      have hlength := congrArg List.length hres
      simp only [List.length_map, List.length_range] at hblocks hlength
      exact hlength.symm.trans hblocks

/-- Settles O50: the plan a join leaves is a compression plan as the invariant asks of one, and its descriptors are those
of the results. -/
theorem prepcPlanOffsets : Obligations.PrepcPlanOffsets := by
  intro s t h hp hjoin hv
  obtain ⟨rs, hres, hplan, hok⟩ := h.plan_of_join hp hjoin hv
  have hc := Plan.compression_of_ok hok
  refine ⟨hc.kind, hc.headerSize, hc.length, ?_, fun i d d' hd hd' => ?_, fun d hd => ?_, fun d hd => ?_,
    fun i j r hj hr => ?_⟩
  · have := hc.sizeSum_dsize_length
    rwa [sizeSum, List.take_length] at this
  · rw [hc.region_end hd, hc.offsets _ d' hd']
  · exact BitVec.eq_of_toNat_eq (hc.offsets 0 d hd)
  · have hlt := (List.getElem?_eq_some_iff.mp hd).1
    rw [Nat.add_assoc, hc.region_end hd, ← hc.outSize, hc.length, Nat.sub_add_cancel (by rw [← hc.length]; omega)]
  · have := congrArg (·[i]?) hres
    have hr' : rs[i]? = some r := by simpa [hj, hr] using this.symm
    rw [hplan]
    exact Plan.installed_desc hr'

end Sys2Proof.Machine
end

section
/-! PROOF. How a host command ends: with a fault it changes the flags alone, and it completes in its issue step or starts a phase whose join completes it (60 R223, R224; 43 R190). -/

namespace Sys2Proof.Machine

/-! ### Success and start (60 R224) -/

/-- A command has completed without a fault. -/
structure State.Succeeded (t : State) : Prop where
  busy : t.regs.busy = false
  done : t.regs.done = true
  fault : t.regs.fault = none
  errInfo : t.regs.errInfo = 0#32

/-- A command has started a phase. -/
structure State.Started (t : State) (phase : Phase) : Prop where
  busy : t.regs.busy = true
  done : t.regs.done = false
  fault : t.regs.fault = none
  errInfo : t.regs.errInfo = 0#32
  phase : t.controller.phase = phase

/-! ### Context commands (60 R223) -/

/-- A step from `s` that goes on leaves ERR and ERRINFO as they were. -/
def State.KeepsFault (s : State) (r : Result State) : Prop :=
  ∀ t, r = .next t → t.regs.fault = s.regs.fault ∧ t.regs.errInfo = s.regs.errInfo

/-- A command from `s` that goes on has faulted and changed only STATUS and ERRINFO, or has succeeded. -/
def State.FaultsOrSucceeds (s : State) (r : Result State) : Prop :=
  ∀ t, r = .next t → (∃ e, t = s.failedOnly e noBlock) ∨ t.Succeeded

theorem State.keepsFault_next {s t : State} (hf : t.regs.fault = s.regs.fault) (hi : t.regs.errInfo = s.regs.errInfo) :
    s.KeepsFault (.next t) := by
  rintro _ ⟨⟩
  exact ⟨hf, hi⟩

theorem State.keepsFault_fault (s : State) (f : Fault) : s.KeepsFault (.fault f) := fun _ h => by cases h

theorem State.keepsFault_withShape {s : State} (t : Tree) {f : Shape → Result State} (h : ∀ sh, s.KeepsFault (f sh)) :
    s.KeepsFault (t.withShape f) := by
  rw [Tree.withShape]
  split
  · exact h _
  · exact s.keepsFault_fault _

/-- A primitive command whose effect leaves ERR and ERRINFO alone. -/
theorem State.primitive_faultsOrSucceeds {s : State} {cs : List Check} {f : State → Result State}
    (h : s.begin.KeepsFault (f s.begin)) : s.FaultsOrSucceeds (s.primitive cs f) := by
  intro t ht
  obtain ⟨e, -, rfl⟩ | ⟨-, u, hu, rfl⟩ := State.primitive_next ht
  · exact .inl ⟨e, rfl⟩
  · obtain ⟨hfault, hinfo⟩ := h u hu
    exact .inr ⟨rfl, rfl, hfault, hinfo⟩

theorem State.withContext_faultsOrSucceeds {s : State} {k : BitVec 4} {f : Fin 4 → Result State}
    (h : ∀ k, s.FaultsOrSucceeds (f k)) : s.FaultsOrSucceeds (s.withContext k f) := by
  intro t ht
  obtain ⟨hk, hf⟩ | ⟨-, rfl⟩ := State.withContext_next ht
  · exact h _ t hf
  · exact .inl ⟨.illegalCommand, rfl⟩

/-- A command of one context. -/
theorem State.withContext_primitive_faultsOrSucceeds {s : State} (k : BitVec 4) {cs : Fin 4 → List Check}
    {f : Fin 4 → State → Result State} (h : ∀ k, s.begin.KeepsFault (f k s.begin)) :
    s.FaultsOrSucceeds (s.withContext k fun k => s.primitive (cs k) (f k)) :=
  State.withContext_faultsOrSucceeds fun k => State.primitive_faultsOrSucceeds (h k)

/-- No context command has an effect on ERR or ERRINFO: a fault is its checks' alone (60 R223). -/
theorem exec_context_faultsOrSucceeds {i : Instr} (s : State) (h : i.context?.isSome = true) :
    s.FaultsOrSucceeds (exec i s) := by
  cases i with
  | prepc | compress | prepd | decompress | linit _ | lacq | lrel | analyze _ | encode _ | decode _ => cases h
  | wbind k | wseek k _ _ | wtell k | wbit k _ | wbits k _ _ | rbind k | rseek k _ _ | rtell k | rbit k | rbyte k
  | tcreate k | tcroot k =>
    rw [exec]
    exact State.withContext_primitive_faultsOrSucceeds k fun _ => State.keepsFault_next rfl rfl
  | twrite k | tlookup k | tbitcount k =>
    rw [exec]
    exact State.withContext_primitive_faultsOrSucceeds k fun _ =>
      State.keepsFault_withShape _ fun _ => State.keepsFault_next rfl rfl
  | tread k =>
    rw [exec, execTread]
    refine State.withContext_faultsOrSucceeds fun k => ?_
    split <;> exact State.primitive_faultsOrSucceeds (State.keepsFault_next rfl rfl)
  | tcisleaf k =>
    rw [exec]
    refine State.withContext_primitive_faultsOrSucceeds k fun k => ?_
    split
    · exact State.keepsFault_next rfl rfl
    · exact State.keepsFault_fault _ _
  | tcvalue k | tcleft k | tcright k =>
    rw [exec]
    refine State.withContext_primitive_faultsOrSucceeds k fun k => ?_
    split
    · exact State.keepsFault_next rfl rfl
    · exact State.keepsFault_fault _ _
    · exact State.keepsFault_fault _ _

/-! ### Orchestration commands (43 R190) -/

/-- A faulted issue step, or a started phase. -/
theorem State.issueChecked_started {s t : State} {cs : List Check} {f : State → State} {phase : Phase}
    (h : s.begin.issueChecked cs f = .next t) (hf : (f s.begin).Started phase) :
    (∃ e, t = s.failedOnly e noBlock) ∨ t.Started phase := by
  obtain ⟨e, -, rfl⟩ | ⟨-, rfl⟩ := State.issueChecked_next h
  · exact .inl ⟨e, rfl⟩
  · exact .inr hf

/-- COMPRESS faults and keeps the plan, or starts its phase (43 R194, R196). -/
theorem exec_compress_next {s t : State} (h : exec .compress s = .next t) :
    (∃ e, t = s.failedOnly e noBlock) ∨ t.Started .encode := by
  rw [exec, execCompress] at h
  exact State.issueChecked_started h ⟨rfl, rfl, rfl, rfl, rfl⟩

/-- DECOMPRESS faults and keeps the plan, or starts its phase (43 R201, R204). -/
theorem exec_decompress_next {s t : State} (h : exec .decompress s = .next t) :
    (∃ e, t = s.failedOnly e noBlock) ∨ t.Started .decode := by
  rw [exec, execDecompress] at h
  exact State.issueChecked_started h ⟨rfl, rfl, rfl, rfl, rfl⟩

/-- The state after a PREPC or PREPD that faulted at issue (43 R192, R199; log 24). -/
def State.failedDropping (s : State) (e : FaultCode) (info : Word) : State :=
  { s.failedOnly e info with plan := { s.plan with valid := false } }

/-- PREPC faults and drops the plan, or starts its phase (43 R192). -/
theorem exec_prepc_next {s t : State} (h : exec .prepc s = .next t) :
    (∃ e, t = s.failedDropping e noBlock) ∨ t.Started .analyze := by
  rw [exec, execPrepc] at h
  exact State.issueChecked_started (s := s.dropPlan) h ⟨rfl, rfl, rfl, rfl, rfl⟩

/-- PREPD faults and drops the plan, or succeeds (43 R198 to R200). -/
theorem exec_prepd_next {s t : State} (h : exec .prepd s = .next t) :
    (∃ e info, t = s.failedDropping e info) ∨ t.Succeeded := by
  cases hp : prepdPlan s.params.memSize s.mem s.regs with
  | error f =>
    rw [exec, execPrepd, hp] at h
    cases h
    exact .inl ⟨f.code, f.info, rfl⟩
  | ok p =>
    rw [exec_prepd_of_plan hp] at h
    cases h
    exact .inr ⟨rfl, rfl, rfl, rfl⟩

/-! ### All host commands, and the join (60 R224) -/

/-- BUSY is 0 and DONE is 1, and without a fault ERRINFO is 0 (60 R224). -/
def State.Completed (t : State) : Prop :=
  t.regs.busy = false ∧ t.regs.done = true ∧ (t.regs.fault = none → t.regs.errInfo = 0#32)

theorem State.Succeeded.completed {t : State} (h : t.Succeeded) : t.Completed := ⟨h.busy, h.done, fun _ => h.errInfo⟩

theorem State.failedOnly_completed (s : State) (e : FaultCode) (info : Word) : (s.failedOnly e info).Completed :=
  ⟨rfl, rfl, nofun⟩

theorem State.failedDropping_completed (s : State) (e : FaultCode) (info : Word) :
    (s.failedDropping e info).Completed :=
  ⟨rfl, rfl, nofun⟩

/-- Every host command that goes on has completed or started its phase. -/
theorem exec_host_next {i : Instr} {s t : State} (hi : i.isMicroOp = false) (h : exec i s = .next t) :
    t.Completed ∨ (i = .prepc ∧ t.Started .analyze) ∨ (i = .compress ∧ t.Started .encode) ∨
      (i = .decompress ∧ t.Started .decode) := by
  by_cases hk : i.context?.isSome = true
  · obtain ⟨e, rfl⟩ | ht := exec_context_faultsOrSucceeds s hk t h
    · exact .inl (s.failedOnly_completed e _)
    · exact .inl ht.completed
  · cases i with
    | prepc =>
      obtain ⟨e, rfl⟩ | ht := exec_prepc_next h
      · exact .inl (s.failedDropping_completed e _)
      · exact .inr (.inl ⟨rfl, ht⟩)
    | compress =>
      obtain ⟨e, rfl⟩ | ht := exec_compress_next h
      · exact .inl (s.failedOnly_completed e _)
      · exact .inr (.inr (.inl ⟨rfl, ht⟩))
    | decompress =>
      obtain ⟨e, rfl⟩ | ht := exec_decompress_next h
      · exact .inl (s.failedOnly_completed e _)
      · exact .inr (.inr (.inr ⟨rfl, ht⟩))
    | prepd =>
      obtain ⟨e, info, rfl⟩ | ht := exec_prepd_next h
      · exact .inl (s.failedDropping_completed e info)
      · exact .inl ht.completed
    | linit _ | lacq | lrel | analyze _ | encode _ | decode _ => cases hi
    | _ => exact absurd rfl hk

/-- What the join leaves has no jobs (42 R179). -/
theorem State.join_jobs {s t : State} (hp : s.controller.phase ≠ .idle) (h : s.join = .next t) : t.jobs = [] := by
  obtain rfl | ⟨rs, -, -, rfl⟩ := State.join_next hp h
  · cases lowestFailure s.jobs <;> rfl
  · obtain heq | ⟨-, heq⟩ := s.joined.installPlan_cases rs <;> rw [heq] <;> rfl

/-! ### The statements -/

/-- Settles O10: neither a success nor a started phase has a fault, so with one only the other case is left. -/
theorem faultedCommandChangesOnlyFlags : Obligations.FaultedCommandChangesOnlyFlags := by
  intro s t hfault
  have hnone : ¬ t.regs.fault = none := Option.ne_none_iff_isSome.mpr hfault
  refine ⟨fun i hi h => ?_, ?_, ?_⟩
  · exact (exec_context_faultsOrSucceeds s hi t h).resolve_right fun ht => hnone ht.fault
  · rintro (h | h)
    · exact (exec_compress_next h).resolve_right fun ht => hnone ht.fault
    · exact (exec_decompress_next h).resolve_right fun ht => hnone ht.fault
  · rintro (h | h)
    · obtain ⟨e, he⟩ := (exec_prepc_next h).resolve_right fun ht => hnone ht.fault
      exact ⟨e, noBlock, he⟩
    · exact (exec_prepd_next h).resolve_right fun ht => hnone ht.fault

/-- Settles O11: a command that has not completed has started its phase, and the join ends each phase alike. -/
theorem completionProtocol : Obligations.CompletionProtocol := by
  refine ⟨fun i s t hi h => ?_, fun s t hp h => ?_⟩
  · obtain hdone | ⟨rfl, ht⟩ | ⟨rfl, ht⟩ | ⟨rfl, ht⟩ := exec_host_next hi h
    · exact .inl hdone
    · exact .inr ⟨ht.busy, ht.done, ht.fault, ht.errInfo, .inl ⟨rfl, ht.phase⟩⟩
    · exact .inr ⟨ht.busy, ht.done, ht.fault, ht.errInfo, .inr (.inl ⟨rfl, ht.phase⟩)⟩
    · exact .inr ⟨ht.busy, ht.done, ht.fault, ht.errInfo, .inr (.inr ⟨rfl, ht.phase⟩)⟩
  · have hc := State.join_completes hp h
    exact ⟨hc.busy, hc.done, hc.phase, State.join_jobs hp h⟩

end Sys2Proof.Machine
end

section
/-! PROOF. The weights of a built tree (41 R141, R142; 10 R33): each merge adds two weights of the list, so the list always weighs the whole sequence. -/

namespace Sys2Proof.Machine

/-- The index has a shape in which every branch weighs as much as its children. -/
def hasSummedShape (nodes : List Node) (i : Nat) : Prop := ∃ sh, hasShape nodes i sh ∧ sh.summed = true

theorem hasSummedShape.lt {nodes : List Node} {i : Nat} (h : hasSummedShape nodes i) : i < nodes.length :=
  let ⟨_, hsh, _⟩ := h
  hsh.lt

theorem hasSummedShape.append {nodes : List Node} {i : Nat} (h : hasSummedShape nodes i) (more : List Node) :
    hasSummedShape (nodes ++ more) i :=
  let ⟨sh, hsh, hsum⟩ := h
  ⟨sh, hsh.append more, hsum⟩

/-- The weight at the top of a shape is the weight of its node. -/
theorem hasShape.weightAt {nodes : List Node} {i : Nat} {sh : Shape} (h : hasShape nodes i sh) :
    Machine.weightAt nodes i = sh.weight.toNat := by
  obtain ⟨fuel, h⟩ := h
  cases fuel with
  | zero => simp [shapeAt] at h
  | succ fuel =>
    rw [shapeAt] at h
    rw [Machine.weightAt]
    split at h
    · cases h
    · next v w hn => cases h; rw [hn]; rfl
    · next w l r hn =>
      split at h
      · cases h; rw [hn]; rfl
      · cases h

/-- The indices of a list have summed shapes and weigh `n` together. -/
structure WeighTogether (nodes : List Node) (l : List Nat) (n : Nat) : Prop where
  summed : ∀ i ∈ l, hasSummedShape nodes i
  total : (l.map (weightAt nodes)).sum = n

theorem WeighTogether.perm {nodes : List Node} {l l' : List Nat} {n : Nat} (h : WeighTogether nodes l n)
    (hp : l'.Perm l) : WeighTogether nodes l' n :=
  ⟨fun i hi => h.summed i (hp.mem_iff.mp hi), (hp.map _).sum_nat.trans h.total⟩

/-- A branch over two indices whose weights fit a u32 together is summed. -/
theorem hasSummedShape.merge {nodes : List Node} {a b : Nat} (ha : hasSummedShape nodes a) (hb : hasSummedShape nodes b)
    (hlt : weightAt nodes a + weightAt nodes b < 4294967296) :
    hasSummedShape (nodes ++ [.branch (u32 (weightAt nodes a + weightAt nodes b)) a b]) nodes.length := by
  obtain ⟨sa, hsa, hsuma⟩ := ha
  obtain ⟨sb, hsb, hsumb⟩ := hb
  refine ⟨_, .branch List.getElem?_concat_length (hsa.append _) (hsb.append _), ?_⟩
  simp [Shape.summed, hsuma, hsumb, ← hsa.weightAt, ← hsb.weightAt, u32, Nat.mod_eq_of_lt hlt]

/-- A merge keeps what the list weighs (41 R142). -/
theorem WeighTogether.merge {nodes : List Node} {a b n : Nat} {l : List Nat} (h : WeighTogether nodes (a :: b :: l) n)
    (hn : n < 4294967296) :
    WeighTogether (nodes ++ [.branch (u32 (weightAt nodes a + weightAt nodes b)) a b]) (nodes.length :: l) n := by
  obtain ⟨hsummed, htotal⟩ := h
  simp only [List.forall_mem_cons] at hsummed
  obtain ⟨ha, hb, hl⟩ := hsummed
  rw [List.map_cons, List.map_cons, List.sum_cons, List.sum_cons] at htotal
  have hlt : weightAt nodes a + weightAt nodes b < 4294967296 := by omega
  have hnew : weightAt (nodes ++ [.branch (u32 (weightAt nodes a + weightAt nodes b)) a b]) nodes.length =
      weightAt nodes a + weightAt nodes b := by
    rw [weightAt, List.getElem?_concat_length]
    exact (BitVec.toNat_ofNat ..).trans (Nat.mod_eq_of_lt hlt)
  refine ⟨List.forall_mem_cons.mpr ⟨ha.merge hb hlt, fun i hi => (hl i hi).append _⟩, ?_⟩
  rw [List.map_cons, List.sum_cons, hnew, List.map_congr_left fun i hi => weightAt_append _ (hl i hi).lt,
    Nat.add_assoc]
  exact htotal

theorem mergeLoop_weighTogether (fuel : Nat) {nodes : List Node} {l : List Nat} {n : Nat}
    (h : WeighTogether nodes l n) (hn : n < 4294967296) :
    WeighTogether (mergeLoop fuel nodes l).1 (mergeLoop fuel nodes l).2 n := by
  induction fuel generalizing nodes l with
  | zero => exact h
  | succ fuel ih =>
    match l, h with
    | [], h => exact h
    | [_], h => exact h
    | a :: b :: l, h =>
      rw [mergeLoop_succ]
      exact ih ((h.merge hn).perm (insertByWeight_perm ..))

/-- The leaves weigh as much as the sequence is long (41 R141). -/
theorem leavesOf_weighTogether {bytes : List Byte} (hlen : bytes.length < 4294967296) :
    WeighTogether (leavesOf bytes) (List.range (leavesOf bytes).length) bytes.length := by
  refine ⟨fun i hi => ?_, ?_⟩
  · obtain ⟨n, hn⟩ : ∃ n, (leavesOf bytes)[i]? = some n := ⟨_, List.getElem?_eq_getElem (List.mem_range.mp hi)⟩
    have hmem := List.mem_of_getElem? hn
    rw [leavesOf_eq] at hmem
    obtain ⟨v, -, rfl⟩ := List.mem_map.mp hmem
    exact ⟨_, ⟨1, shapeAt_leaf hn 0⟩, rfl⟩
  · have hweights : (List.range (leavesOf bytes).length).map (weightAt (leavesOf bytes)) =
        (occurring bytes).map (fun v => 1 * bytes.count v) := by
      refine List.ext_getElem (by simp [leavesOf_eq]) fun i hi hi' => ?_
      rw [List.length_map] at hi'
      simp [weightAt, leavesOf_eq, hi', Node.weight, u32_count_toNat hlen]
    rw [hweights, sum_mul_count (occurring_nodup bytes) (fun v => mem_occurring.mpr) (fun _ => 1)]
    rw [List.map_const', List.sum_replicate_nat, Nat.mul_one]

/-- The root of a built tree is summed and weighs as much as the sequence is long (41 R142). -/
theorem buildTree_weight {bytes : List Byte} (h : bytes ≠ []) (hlen : bytes.length < 4294967296) {sh : Shape}
    (hsh : (buildTree bytes).shape = some sh) : sh.summed = true ∧ sh.weight.toNat = bytes.length := by
  have hperm := sortByWeight_range_perm (leavesOf bytes) (leavesOf bytes).length
  have hpos := List.length_pos_iff.mpr (leavesOf_ne_nil h)
  have hlist := hperm.length_eq.trans List.length_range
  have hweigh := mergeLoop_weighTogether (leavesOf bytes).length ((leavesOf_weighTogether hlen).perm hperm) hlen
  have hone := mergeLoop_length (fuel := (leavesOf bytes).length) (nodes := leavesOf bytes)
    (Nat.lt_of_lt_of_eq hpos hlist.symm) (by omega)
  have hroot : hasShape (buildTree bytes).nodes (buildTree bytes).root sh := ⟨_, hsh⟩
  simp only [buildTree] at hroot
  generalize mergeLoop _ _ _ = p at hweigh hone hroot
  obtain ⟨nodes, l⟩ := p
  obtain ⟨root, rfl⟩ := List.length_eq_one_iff.mp hone
  obtain ⟨sh', hsh', hsum⟩ := hweigh.summed root (List.mem_singleton_self _)
  have htotal := hweigh.total
  rw [List.map_singleton, List.sum_singleton] at htotal
  exact ⟨hroot.unique hsh' ▸ hsum, hroot.weightAt.symm.trans htotal⟩

/-- Settles O27: the shape, its values and the sizes are those of the forest the merges leave, and the weights those
the list keeps. -/
theorem buildTreeIsSound : Obligations.BuildTreeIsSound := by
  intro bytes hne hlen
  obtain ⟨sh, hsh⟩ := Option.isSome_iff_exists.mp (buildTree_shape_isSome hne)
  obtain ⟨hsum, hweight⟩ := buildTree_weight hne hlen hsh
  exact ⟨rfl, buildTree_wf hne hsh, sh, hsh, hsum, hweight, buildTree_values_nodup hne hsh,
    fun v => mem_buildTree_values hne hsh, (buildTree_sizes hne hsh).1, fun v w hx => by
      rw [weight_of_mem_leavesOf (leaf_mem_buildTree hne hx), u32_count_toNat hlen]⟩

end Sys2Proof.Machine
end

section
/-! PROOF. The commands that store bits through the writer: WBIT, WBITS (40 R123, R125) and TWRITE (41 R145), each told by the bits of MEM it takes and by all it leaves alone (20 R66). -/

namespace Sys2Proof.Machine

/-! ### The bits that stay (20 R66) -/

/-- A bit of a byte of the buffer is the bit at its position. -/
theorem memBit_of_byte (m : Memory) {base x b : Nat} (hx : base ≤ x) (hb : b < 8) :
    memBit m base (8 * (x - base) + (7 - b)) = (Memory.read m x).getLsbD b := by
  have haddr : base + (8 * (x - base) + (7 - b)) / 8 = x := by omega
  have hbit : 7 - (8 * (x - base) + (7 - b)) % 8 = b := by omega
  rw [memBit, haddr, hbit]

section
variable {m : Memory} {c : Cursor} {bits : List Bool} (h : Memory.wf m = true) (hfits : c.fits bits.length = true)
include h hfits

/-- A bit of MEM that is none of those written stays. -/
theorem putAll_getLsbD_other {x b : Nat} (hb : b < 8) (hx : ¬ isTarget c.base.toNat c.pos bits.length x b) :
    (Memory.read (putAll m c bits).1 x).getLsbD b = (Memory.read m x).getLsbD b := by
  by_cases hlt : x < c.base.toNat
  · rw [putAll_read_other hfits (.inl hlt)]
  · have hle := Nat.le_of_not_lt hlt
    rw [← memBit_of_byte _ hle hb, ← memBit_of_byte m hle hb, putAll_memBit h hfits, if_neg]
    rintro ⟨hfrom, hto⟩
    exact hx ⟨8 * (x - c.base.toNat) + (7 - b) - c.pos, by omega, by omega, by omega⟩

/-- A byte that holds none of the bits written stays (40 R119). -/
theorem putAll_read_untouched {a : Nat} (ha : c.touches bits.length a = false) :
    Memory.read (putAll m c bits).1 a = Memory.read m a := by
  refine BitVec.eq_of_getLsbD_eq fun b hb => putAll_getLsbD_other h hfits hb ?_
  rintro ⟨j, hj, rfl, -⟩
  have hlast : (c.pos + j) / 8 ≤ (c.pos + (bits.length - 1)) / 8 := Nat.div_le_div_right (by omega)
  have hfirst : c.pos / 8 ≤ (c.pos + j) / 8 := Nat.div_le_div_right (Nat.le_add_right ..)
  have htouches : c.touches bits.length (c.base.toNat + (c.pos + j) / 8) = true := by
    simp only [Cursor.touches, Bool.and_eq_true, bne_iff_ne, decide_eq_true_eq]
    simp only [Cursor.addrOf]
    omega
  exact Bool.noConfusion (ha.symm.trans htouches)

end

/-! ### The checks of a store, written out -/

/-- The bits that fit, for a store of at least one bit. -/
theorem Cursor.fits_iff_of_ne {c : Cursor} {n : Nat} (hn : n ≠ 0) :
    c.fits n = true ↔ ¬ 8 * c.len.toNat < 8 * c.byteOff.toNat + c.bitOff.toNat + n := by
  rw [Cursor.fits_iff, Cursor.pos, forall_prop_of_true hn, Nat.not_lt]

/-- The bytes that exist, for a store of at least one bit. -/
theorem Cursor.memOk_iff_of_ne {c : Cursor} {ms n : Nat} (hn : n ≠ 0) :
    c.memOk ms n = true ↔ ¬ ms ≤ c.base.toNat + (8 * c.byteOff.toNat + c.bitOff.toNat + n - 1) / 8 := by
  rw [Cursor.memOk_iff, Cursor.pos, forall_prop_of_true hn, Nat.not_le]

/-- A store whose own check holds, but whose bits do not fit. -/
theorem State.primitive_of_not_fits {s : State} {d : Check} {c : Cursor} {n : Nat} {f : State → Result State}
    (hd : d.holds = true) (hfits : ¬ c.fits n = true) :
    s.primitive (d :: s.storeChecks c n) f = .next (s.failedOnly .writeOutOfBounds 0xFFFFFFFF#32) :=
  State.primitive_of_second_check hd hfits

/-- A store whose bits fit, but whose bytes do not all exist. -/
theorem State.primitive_of_not_memOk {s : State} {d : Check} {c : Cursor} {n : Nat} {f : State → Result State}
    (hd : d.holds = true) (hfits : c.fits n = true) (hmem : ¬ c.memOk s.params.memSize n = true) :
    s.primitive (d :: s.storeChecks c n) f = .next (s.failedOnly .busError 0xFFFFFFFF#32) :=
  State.primitive_eq_failedOnly ((if_pos hd).trans ((if_pos hfits).trans (if_neg hmem)))

/-! ### The three commands -/

section
variable {k : BitVec 4} (h : k.toNat < 4) (s : State)
include h

theorem exec_wbit_eq (v : Bool) : exec (.wbit k v) s = s.primitive (s.storeChecks s.ctx[k.toNat].w 1) fun t =>
    .next (t.written ⟨k.toNat, h⟩ (putBit t.mem s.ctx[k.toNat].w v)) := by
  rw [exec, execWbit, State.withContext_of_lt h]
  rfl

theorem exec_wbits_eq (v : Word) (n : BitVec 6) :
    exec (.wbits k v n) s = s.primitive (s.wbitsChecks s.ctx[k.toNat].w n.toNat) fun t =>
      .next (t.written ⟨k.toNat, h⟩ (putBits t.mem s.ctx[k.toNat].w v n.toNat)) := by
  rw [exec, execWbits, State.withContext_of_lt h]
  rfl

theorem exec_twrite_eq :
    exec (.twrite k) s = s.primitive (s.twriteChecks s.ctx[k.toNat].w s.ctx[k.toNat].tree) fun t =>
      s.ctx[k.toNat].tree.withShape fun sh =>
        .next (t.written ⟨k.toNat, h⟩ (sh.serialize t.mem s.ctx[k.toNat].w)) := by
  rw [exec, execTwrite, State.withContext_of_lt h]
  rfl

/-- WBIT of a bit that fits and exists (40 R123). -/
theorem exec_wbit_of_fits (v : Bool) (hfits : s.ctx[k.toNat].w.fits 1 = true)
    (hmem : s.ctx[k.toNat].w.memOk s.params.memSize 1 = true) :
    exec (.wbit k v) s = .next { s with
      regs := s.regs.succeeded
      mem := (putBit s.mem s.ctx[k.toNat].w v).1
      ctx := s.ctx.set k.toNat { s.ctx[k.toNat] with w := s.ctx[k.toNat].w.advance 1 } } := by
  rw [exec_wbit_eq h, State.primitive_of_checks (by simp [State.storeChecks, hfits, hmem])]
  rfl

/-- TWRITE of a tree whose bits fit and exist (41 R145). -/
theorem exec_twrite_of_fits {sh : Shape} (hwf : Memory.wf s.mem = true) (hb : s.ctx[k.toNat].tree.built = true)
    (hsh : s.ctx[k.toNat].tree.shape = some sh) (hlen : sh.preorder.length = s.ctx[k.toNat].tree.treeBits)
    (hfits : s.ctx[k.toNat].w.fits s.ctx[k.toNat].tree.treeBits = true)
    (hmem : s.ctx[k.toNat].w.memOk s.params.memSize s.ctx[k.toNat].tree.treeBits = true) :
    exec (.twrite k) s = .next { s with
      regs := s.regs.succeeded
      mem := (putAll s.mem s.ctx[k.toNat].w sh.preorder).1
      ctx := s.ctx.set k.toNat { s.ctx[k.toNat] with
        w := s.ctx[k.toNat].w.advance s.ctx[k.toNat].tree.treeBits } } := by
  rw [exec_twrite_eq h, State.primitive_pass (firstFailure_none.mpr (by
    simp [State.twriteChecks, State.storeChecks, hb, hfits, hmem])) (Tree.withShape_of_shape hsh _),
    State.begin_mem, Shape.serialize_eq sh hwf, ← Prod.eta (p := putAll _ _ _),
    putAll_snd (hlen.symm ▸ hfits), hlen]
  rfl

end

/-- A shape takes at least one bit. -/
theorem Shape.bits_ne_zero (sh : Shape) : sh.bits ≠ 0 := by
  cases sh <;> simp only [Shape.bits] <;> omega

/-- A sound tree that is built has a shape, whose preorder takes its TreeBits, at least one (41 R144). -/
theorem Tree.preorder_of_wf {t : Tree} (hb : t.built = true) (h : t.wf = true) :
    ∃ sh, t.shape = some sh ∧ sh.preorder.length = t.treeBits ∧ t.treeBits ≠ 0 := by
  obtain ⟨sh, hsh⟩ := Option.isSome_iff_exists.mp (Tree.shape_isSome_of_wf h hb)
  have hbits := (Tree.wf_size hb h hsh).2
  exact ⟨sh, hsh, sh.preorder_length.trans hbits, hbits ▸ sh.bits_ne_zero⟩

/-! ### The statements -/

/-- Settles O18: the two checks are the bounds written out, and PutBit replaces the one bit. -/
theorem wbitWritesOneBit : Obligations.WbitWritesOneBit := by
  intro k v s h hwf c a
  have hlt := c.bitOff_lt
  have hfits : c.fits 1 = true ↔ c.byteOff.toNat < c.len.toNat := by
    rw [Cursor.fits_iff_of_ne Nat.one_ne_zero]; omega
  have hmem : c.memOk s.params.memSize 1 = true ↔ a < s.params.memSize := by
    rw [Cursor.memOk_iff, Nat.add_sub_cancel, Cursor.pos_div]
    exact forall_prop_of_true Nat.one_ne_zero
  refine ⟨fun hout => ?_, fun hin hout => ?_, fun hin hex => ⟨(putBit s.mem c v).1, ?_, ?_⟩⟩
  · exact (exec_wbit_eq h s v).trans (State.primitive_of_first_check (mt hfits.mp (Nat.not_lt.mpr hout)))
  · exact (exec_wbit_eq h s v).trans
      (State.primitive_of_second_check (hfits.mpr hin) (mt hmem.mp (Nat.not_lt.mpr hout)))
  · rw [exec_wbit_of_fits h s v (hfits.mpr hin) (hmem.mpr hex), Cursor.advance_one]
  · exact fun x b hb => putBit_getLsbD hwf c v x hb

/-- Settles O19: the three checks are the bounds written out, and the bits written are those of the value. -/
theorem wbitsWritesTheLowBits : Obligations.WbitsWritesTheLowBits := by
  intro k v n s h hwf c p outside absent
  have hfits : c.fits n.toNat = true ↔ ¬ outside := by
    rw [Cursor.fits_iff]
    simp only [outside, c, p, Cursor.pos]; omega
  have hmem : c.memOk s.params.memSize n.toNat = true ↔ ¬ absent := by
    rw [Cursor.memOk_iff]
    simp only [absent, c, p, Cursor.pos]; omega
  refine ⟨fun hn => exec_wbits_of_gt h hn v s, fun hn hout => ?_, fun hn hin habs => ?_, fun hn hin hex => ?_⟩
  · exact (exec_wbits_eq h s v n).trans
      (State.primitive_of_not_fits (decide_eq_true hn) (mt hfits.mp (not_not_intro hout)))
  · exact (exec_wbits_eq h s v n).trans
      (State.primitive_of_not_memOk (decide_eq_true hn) (hfits.mpr hin) (mt hmem.mp (not_not_intro habs)))
  · generalize he : ({ pattern := v, length := n.toNat } : LutEntry) = e
    have hput : putBits s.mem c v n.toNat = putAll s.mem c e.code := he ▸ putBits_eq_putAll hwf c { pattern := v, length := n.toNat }
    have hlen : e.code.length = n.toNat := he ▸ LutEntry.code_length { pattern := v, length := n.toNat }
    have hroom : c.fits e.code.length = true := hlen.symm ▸ hfits.mpr hin
    have hexec := exec_wbits_of_fits h hn v s (hfits.mpr hin) (hmem.mpr hex)
    rw [hput, putAll_snd hroom, hlen] at hexec
    refine ⟨_, hexec, fun j hj => ?_, fun x b hb hx => putAll_getLsbD_other hwf hroom hb (hlen.symm ▸ hx)⟩
    have hbit := putAll_bitsAt hwf hroom j (hlen.symm ▸ hj)
    subst he
    rw [LutEntry.code, List.getElem?_map, List.getElem?_range hj] at hbit
    exact Option.some.inj hbit

/-- Settles O33: the three checks are the bounds written out, and the bits written are the preorder of the shape. -/
theorem twriteWritesThePreorder : Obligations.TwriteWritesThePreorder := by
  intro k s h hwf htree tr c p outside absent
  refine ⟨fun hb => ?_, fun hb hout => ?_, fun hb hin habs => ?_, fun hb hin hex => ?_⟩
  · exact (exec_twrite_eq h s).trans (State.primitive_of_first_check (ne_true_of_eq_false hb))
  all_goals
    obtain ⟨sh, hsh, hlen, hne⟩ := Tree.preorder_of_wf hb htree
    have hfits : c.fits tr.treeBits = true ↔ ¬ outside := Cursor.fits_iff_of_ne hne
    have hmem : c.memOk s.params.memSize tr.treeBits = true ↔ ¬ absent := Cursor.memOk_iff_of_ne hne
  · exact (exec_twrite_eq h s).trans (State.primitive_of_not_fits hb (mt hfits.mp (not_not_intro hout)))
  · exact (exec_twrite_eq h s).trans
      (State.primitive_of_not_memOk hb (hfits.mpr hin) (mt hmem.mp (not_not_intro habs)))
  · have hroom : c.fits sh.preorder.length = true := hlen.symm ▸ hfits.mpr hin
    exact ⟨sh, _, hsh, hlen, exec_twrite_of_fits h s hwf hb hsh hlen (hfits.mpr hin) (hmem.mpr hex),
      hlen ▸ putAll_bitsAt hwf hroom, fun x b hb hx => putAll_getLsbD_other hwf hroom hb (hlen.symm ▸ hx)⟩

end Sys2Proof.Machine
end

section
/-! PROOF. ENCODE (42 R176): whatever the descriptor, its loop writes the bits that `encodedBits` tells, in its region alone; for the descriptor PREPC makes these are the tree and all the codes (43 R197, 20 R81). -/

namespace Sys2Proof.Machine

/-! ### One job updated -/

/-- The other jobs are found as they were. -/
theorem State.job?_updateJob_ne {s : State} {i b : Nat} {f : Job → Job} (hf : ∀ j, (f j).block = j.block) (hb : b ≠ i) :
    (s.updateJob i f).job? b = s.job? b := by
  rw [State.job?, State.job?, State.updateJob_jobs]
  generalize s.jobs = js
  induction js with
  | nil => rfl
  | cons j js ih =>
    have hblock : (if j.block = i then f j else j).block = j.block := by split <;> simp [hf]
    rw [List.map_cons, List.find?_cons, List.find?_cons, hblock, ih]
    cases hj : (j.block == b) with
    | false => rfl
    | true => rw [if_neg (beq_iff_eq.mp hj ▸ hb)]

/-! ### The code loop (42 R176) -/

/-- The loop keeps the binding of its writer and writes in its buffer alone (20 R71). -/
theorem encodeBytes_frame (ms : Nat) (lut : LookupTable) (n src : Nat) {m : Memory} (hwf : Memory.wf m = true)
    (c : Cursor) :
    ((encodeBytes ms lut n src m c).cur.base = c.base ∧ (encodeBytes ms lut n src m c).cur.len = c.len) ∧
      ∀ a, a < c.base.toNat ∨ c.base.toNat + c.len.toNat ≤ a →
        Memory.read (encodeBytes ms lut n src m c).mem a = Memory.read m a := by
  induction n generalizing src m c with
  | zero => exact ⟨⟨rfl, rfl⟩, fun _ _ => rfl⟩
  | succ n ih =>
    rw [encodeBytes]
    split
    · exact ⟨⟨rfl, rfl⟩, fun _ _ => rfl⟩
    · generalize lut.entryOf (Memory.read m src) = e
      dsimp only
      split
      · exact ⟨⟨rfl, rfl⟩, fun _ _ => rfl⟩
      · next hfits =>
        split
        · exact ⟨⟨rfl, rfl⟩, fun _ _ => rfl⟩
        · have hroom : c.fits e.code.length = true := by simpa using hfits
          rw [putBits_eq_putAll hwf, ← Prod.eta (p := putAll m c e.code), putAll_snd hroom]
          obtain ⟨hbinding, hread⟩ := ih (src + 1) (wf_putAll hwf c e.code) (c.advance e.code.length)
          exact ⟨hbinding, fun a ha => (hread a ha).trans (putAll_read_other hroom ha)⟩

/-- The bits of the codes stay in the region. -/
theorem encodedBits_length_le (ms : Nat) (m : Memory) (lut : LookupTable) (region csize n src : Nat) {p : Nat}
    (hp : p ≤ 8 * csize) : p + (encodedBits ms m lut region csize n src p).1.length ≤ 8 * csize := by
  induction n generalizing src p with
  | zero => exact hp
  | succ n ih =>
    rw [encodedBits]
    generalize lut.entryOf (Memory.read m src) = e
    dsimp only
    split
    · exact hp
    · split
      · exact hp
      · next hin =>
        split
        · exact hp
        · have := ih (src + 1) (p := p + e.length) (by omega)
          rw [List.length_append, LutEntry.code_length]
          omega

/-- With the source apart from the buffer the loop writes the bits told over the MEM it started from, and stops at the
check told. -/
theorem encodeBytes_eq_encodedBits {ms : Nat} {m m' : Memory} {lut : LookupTable} {n src : Nat} {c : Cursor}
    (hwf : Memory.wf m' = true) (hread : ∀ x, src ≤ x → x < src + n → Memory.read m' x = Memory.read m x)
    (hapart : src + n ≤ c.base.toNat ∨ c.base.toNat + c.len.toNat ≤ src) :
    encodeBytes ms lut n src m' c =
      ⟨(putAll m' c (encodedBits ms m lut c.base.toNat c.len.toNat n src c.pos).1).1,
        (putAll m' c (encodedBits ms m lut c.base.toNat c.len.toNat n src c.pos).1).2,
        (encodedBits ms m lut c.base.toNat c.len.toNat n src c.pos).2⟩ := by
  induction n generalizing src m' c with
  | zero => rfl
  | succ n ih =>
    rw [encodeBytes, encodedBits, hread src (Nat.le_refl _) (by omega)]
    generalize lut.entryOf (Memory.read m src) = e
    dsimp only
    by_cases hsrc : ms ≤ src
    · rw [if_pos (Nat.not_lt.mpr hsrc), if_pos hsrc]; rfl
    rw [if_neg (not_not_intro (Nat.lt_of_not_le hsrc)), if_neg hsrc]
    by_cases hfits : c.fits e.length = true
    · have hin : ¬ (e.length ≠ 0 ∧ 8 * c.len.toNat < c.pos + e.length) := by
        have := Cursor.fits_iff.mp hfits; omega
      rw [if_neg (by simp [hfits]), if_neg hin]
      by_cases hmem : c.memOk ms e.length = true
      · have hex : ¬ (e.length ≠ 0 ∧ ms ≤ c.base.toNat + (c.pos + e.length - 1) / 8) := by
          have := Cursor.memOk_iff.mp hmem; omega
        have hroom : c.fits e.code.length = true := by rwa [LutEntry.code_length]
        have hpos : (c.advance e.code.length).pos = c.pos + e.length := by
          rw [Cursor.advance_pos_of_fits hroom, LutEntry.code_length]
        have hrest := ih (m' := (putAll m' c e.code).1) (c := c.advance e.code.length) (src := src + 1)
          (wf_putAll hwf c e.code)
          (fun x hx hx' => (putAll_read_other hroom (by omega)).trans (hread x (by omega) (by omega)))
          (by rw [Cursor.advance_base, Cursor.advance_len]; omega)
        rw [if_neg (by simp [hmem]), if_neg hex, putBits_eq_putAll hwf, ← Prod.eta (p := putAll m' c e.code),
          putAll_snd hroom, hrest, hpos, putAll_append, putAll_snd hroom]
        rfl
      · have hex : e.length ≠ 0 ∧ ms ≤ c.base.toNat + (c.pos + e.length - 1) / 8 := by
          rw [Cursor.memOk_iff] at hmem; omega
        rw [if_pos (by simp [hmem]), if_pos hex]; rfl
    · have hout : e.length ≠ 0 ∧ 8 * c.len.toNat < c.pos + e.length := by
        rw [Cursor.fits_iff] at hfits; omega
      rw [if_pos (by simp [hfits]), if_pos hout]; rfl

/-! ### The body -/

/-- Bits written from the first bit of a buffer on are its first bits, and those behind them stay. -/
theorem putAll_of_start {m : Memory} {c : Cursor} {bits : List Bool} {base : Nat} (hwf : Memory.wf m = true)
    (hfits : c.fits bits.length = true) (hpos : c.pos = 0) (hbase : c.base.toNat = base) :
    (c.advance bits.length).pos = bits.length ∧
      (∀ p, p < bits.length → some (memBit (putAll m c bits).1 base p) = bits[p]?) ∧
      ∀ p, bits.length ≤ p → memBit (putAll m c bits).1 base p = memBit m base p := by
  subst hbase
  refine ⟨(Cursor.advance_pos_of_fits hfits).trans (by rw [hpos, Nat.zero_add]), fun p hp => ?_, fun p hp => ?_⟩
  · have hbit := putAll_bitsAt hwf hfits p hp
    rwa [hpos, Nat.zero_add] at hbit
  · rw [putAll_memBit hwf hfits, if_neg (by omega)]

/-- What a body records: the fault of its run, or what the job held. -/
theorem or_eq_ite {α : Type} (o o' : Option α) : o.or o' = if o.isSome then o else o' := by cases o <;> rfl

/-- The writer of a job's ENCODE: its region from the first bit on (42 R176). -/
def State.regionWriter (s : State) (d : Desc) : Cursor where
  base := u32 (s.controller.dstBase.toNat + s.plan.headerSize.toNat + d.offset.toNat)
  len := d.csize

theorem State.regionWriter_pos (s : State) (d : Desc) : (s.regionWriter d).pos = 0 := rfl

/-- A region that has a byte and ends in the address space starts in it. -/
theorem State.regionWriter_base {s : State} {d : Desc} (hne : d.csize.toNat ≠ 0)
    (hle : s.controller.dstBase.toNat + s.plan.headerSize.toNat + d.offset.toNat + d.csize.toNat ≤ 4294967296) :
    (s.regionWriter d).base.toNat = s.controller.dstBase.toNat + s.plan.headerSize.toNat + d.offset.toNat :=
  (BitVec.toNat_ofNat ..).trans (Nat.mod_eq_of_lt (by omega))

/-- The code loop of block `i`, from the end of the serialized tree on (42 R176). -/
def State.encodeRun (s : State) (i : Nat) (d : Desc) (sh : Shape) : BodyRun :=
  encodeBytes s.params.memSize sh.lookup d.dsize.toNat (s.plan.blockStart i)
    (sh.serialize s.mem (s.regionWriter d)).1 (sh.serialize s.mem (s.regionWriter d)).2

section
variable {s : State} {block : Word} {j : Job} {d : Desc} {tr : Tree}
  (ht : s.turn ≠ .host) (hj : s.job? block.toNat = some j) (hd : s.plan.desc[block.toNat]? = some d)
  (htree : d.tree = some tr)
include ht hj hd htree

theorem exec_encode_of_not_fits (hfits : ¬ (s.regionWriter d).fits tr.treeBits = true) :
    exec (.encode block) s = .next (s.updateJob block.toNat (fun j =>
      { j with w := s.regionWriter d, tree := tr, err := some .writeOutOfBounds, pc := 2 })) := by
  rw [exec, execEncode, State.bodyJob_job ht hj]
  simp only [hd, htree]
  exact if_pos (by simpa [State.regionWriter] using hfits)

theorem exec_encode_of_not_memOk (hfits : (s.regionWriter d).fits tr.treeBits = true)
    (hmem : ¬ (s.regionWriter d).memOk s.params.memSize tr.treeBits = true) :
    exec (.encode block) s = .next (s.updateJob block.toNat (fun j =>
      { j with w := s.regionWriter d, tree := tr, err := some .busError, pc := 2 })) := by
  rw [exec, execEncode, State.bodyJob_job ht hj]
  simp only [hd, htree]
  exact (if_neg (by simpa [State.regionWriter] using hfits)).trans
    (if_pos (by simpa [State.regionWriter] using hmem))

theorem exec_encode_of_room {sh : Shape} (hsh : tr.shape = some sh)
    (hroom : (s.regionWriter d).HasRoom s.params.memSize tr.treeBits) :
    exec (.encode block) s = .next ((s.setMem (s.encodeRun block.toNat d sh).mem).updateJob block.toNat (fun j =>
      { j with w := (s.encodeRun block.toNat d sh).cur, tree := tr, lut := sh.lookup
               err := (s.encodeRun block.toNat d sh).err.or j.err, pc := 2 })) := by
  have hfits := hroom.fits
  have hmem := hroom.memOk
  rw [State.regionWriter] at hfits hmem
  rw [exec, execEncode, State.bodyJob_job ht hj]
  simp only [hd, htree, hfits, hmem, Bool.not_true, Bool.false_eq_true, if_false, Tree.withShape_of_shape hsh]
  rfl

end

section
variable {s : State} {i : Nat} {d : Desc} {sh : Shape} (hwf : Memory.wf s.mem = true)
  (hfits : (s.regionWriter d).fits sh.preorder.length = true)
include hwf hfits

/-- The tree and the codes are written in the region alone (20 R71). -/
theorem State.encodeRun_frame :
    ((s.encodeRun i d sh).cur.base = (s.regionWriter d).base ∧ (s.encodeRun i d sh).cur.len = d.csize) ∧
      ∀ a, a < (s.regionWriter d).base.toNat ∨ (s.regionWriter d).base.toNat + d.csize.toNat ≤ a →
        Memory.read (s.encodeRun i d sh).mem a = Memory.read s.mem a := by
  rw [State.encodeRun, sh.serialize_eq hwf, putAll_snd hfits]
  obtain ⟨hbinding, hread⟩ := encodeBytes_frame s.params.memSize sh.lookup d.dsize.toNat (s.plan.blockStart i)
    (wf_putAll hwf (s.regionWriter d) sh.preorder) ((s.regionWriter d).advance sh.preorder.length)
  exact ⟨hbinding, fun a ha => (hread a ha).trans (putAll_read_other hfits ha)⟩

/-- With the source apart from the region, the preorder of the tree and the bits of the codes are written one after the
other. -/
theorem State.encodeRun_eq {run : List Bool × Option FaultCode}
    (hrun : encodedBits s.params.memSize s.mem sh.lookup (s.regionWriter d).base.toNat d.csize.toNat d.dsize.toNat
      (s.plan.blockStart i) sh.preorder.length = run)
    (hapart : s.plan.blockStart i + d.dsize.toNat ≤ (s.regionWriter d).base.toNat ∨
      (s.regionWriter d).base.toNat + d.csize.toNat ≤ s.plan.blockStart i) :
    (s.regionWriter d).fits (sh.preorder ++ run.1).length = true ∧
      s.encodeRun i d sh = ⟨(putAll s.mem (s.regionWriter d) (sh.preorder ++ run.1)).1,
        (s.regionWriter d).advance (sh.preorder ++ run.1).length, run.2⟩ := by
  subst hrun
  have hpos : ((s.regionWriter d).advance sh.preorder.length).pos = sh.preorder.length :=
    (Cursor.advance_pos_of_fits hfits).trans (Nat.zero_add _)
  have hroom : (s.regionWriter d).fits (sh.preorder ++ (encodedBits s.params.memSize s.mem sh.lookup
      (s.regionWriter d).base.toNat d.csize.toNat d.dsize.toNat (s.plan.blockStart i)
      sh.preorder.length).1).length = true := by
    refine Cursor.fits_iff.mpr fun _ => ?_
    rw [List.length_append, State.regionWriter_pos, Nat.zero_add]
    refine encodedBits_length_le _ _ _ _ _ _ _ ?_
    by_cases hzero : sh.preorder.length = 0
    · rw [hzero]; exact Nat.zero_le _
    · exact le_of_eq_of_le (Nat.zero_add _).symm (Cursor.fits_iff.mp hfits hzero)
  refine ⟨hroom, ?_⟩
  have hloop := encodeBytes_eq_encodedBits (ms := s.params.memSize) (m := s.mem) (lut := sh.lookup)
    (n := d.dsize.toNat) (src := s.plan.blockStart i) (c := (s.regionWriter d).advance sh.preorder.length)
    (wf_putAll hwf (s.regionWriter d) sh.preorder)
    (fun x hx hx' => putAll_read_other hfits (by simp only [State.regionWriter] at hapart ⊢; omega)) hapart
  rw [hpos] at hloop
  rw [← putAll_snd (m := s.mem) hroom, State.encodeRun, sh.serialize_eq hwf, putAll_append, putAll_snd hfits]
  exact hloop

end

/-! ### The statements -/

/-- Settles O39: with no room the two checks are the bounds written out, else the loop's bits are those told. -/
theorem encodeWritesOnlyItsRegion : Obligations.EncodeWritesOnlyItsRegion := by
  intro s block j d tr ht hwf hj hd htree hb htwf region hregion
  obtain ⟨sh, hsh, hlen, hne⟩ := Tree.preorder_of_wf hb htwf
  have hother : ∀ {s : State} {f : Job → Job}, (∀ j, (f j).block = j.block) →
      ∀ b, b ≠ block.toNat → (s.updateJob block.toNat f).job? b = s.job? b := fun hf _ => State.job?_updateJob_ne hf
  have hfits : (s.regionWriter d).fits tr.treeBits = true ↔ ¬ 8 * d.csize.toNat < tr.treeBits := by
    rw [Cursor.fits_iff, State.regionWriter_pos, forall_prop_of_true hne, Nat.zero_add, Nat.not_lt]
    rfl
  by_cases hout : 8 * d.csize.toNat < tr.treeBits
  · exact ⟨_, _, exec_encode_of_not_fits ht hj hd htree (mt hfits.mp (not_not_intro hout)), rfl, hother fun _ => rfl,
      State.job?_updateJob hj fun _ => rfl, rfl, rfl, rfl, fun _ _ => rfl, fun _ => ⟨rfl, rfl, rfl, rfl⟩,
      fun hin => absurd hout hin, fun hin => absurd hout hin⟩
  have hbase : (s.regionWriter d).base.toNat = region := State.regionWriter_base (by omega) hregion
  have hmem : (s.regionWriter d).memOk s.params.memSize tr.treeBits = true ↔
      ¬ s.params.memSize ≤ region + (tr.treeBits - 1) / 8 := by
    rw [Cursor.memOk_iff, State.regionWriter_pos, forall_prop_of_true hne, Nat.zero_add, hbase, Nat.not_le]
  by_cases habs : s.params.memSize ≤ region + (tr.treeBits - 1) / 8
  · exact ⟨_, _, exec_encode_of_not_memOk ht hj hd htree (hfits.mpr hout) (mt hmem.mp (not_not_intro habs)), rfl,
      hother fun _ => rfl, State.job?_updateJob hj fun _ => rfl, rfl, rfl, rfl, fun _ _ => rfl,
      fun hin => absurd hin hout, fun _ _ => ⟨rfl, rfl, rfl, rfl⟩, fun _ hex => absurd habs hex⟩
  have hroom : (s.regionWriter d).fits sh.preorder.length = true := hlen.symm ▸ hfits.mpr hout
  obtain ⟨⟨hrunBase, hrunLen⟩, hframe⟩ := State.encodeRun_frame (i := block.toNat) hwf hroom
  refine ⟨_, _, exec_encode_of_room ht hj hd htree hsh ⟨hfits.mpr hout, hmem.mpr habs⟩, rfl,
    hother fun _ => rfl, State.job?_updateJob hj fun _ => rfl, rfl, hrunBase, hrunLen,
    fun a ha => hframe a (by rw [hbase]; omega), fun hin => absurd hin hout, fun _ hex => absurd hex habs,
    fun _ _ hapart => ⟨sh, hsh, rfl, ?_⟩⟩
  intro run bits
  obtain ⟨hbitsFit, hrun⟩ := State.encodeRun_eq (i := block.toNat) (run := run) hwf hroom (by rw [hbase, hlen]; rfl)
    (by rw [hbase]; exact hapart)
  obtain ⟨hpos, hbits, hrest⟩ := putAll_of_start hwf hbitsFit (s.regionWriter_pos d) hbase
  rw [hrun]
  exact ⟨or_eq_ite .., hpos, hbits, hrest⟩

/-- Settles O40: with room for the tree and all codes no check of the loop fails. -/
theorem encodeWritesTreeThenCodes : Obligations.EncodeWritesTreeThenCodes := by
  intro s block j d bytes sh ht hwf hj herr hd htree start region bits hbytes hne hsh hdepth hcsize hlegal hexists
    hsrcEnd hapart
  have hdsize : d.dsize.toNat = bytes.length := by rw [hbytes]; simp
  have hbitsLen := (Tree.wf_size rfl (buildTree_wf hne hsh) hsh).2
  have hleast := Shape.bits_ne_zero sh
  have htotal : bits.length = (buildTree bytes).treeBits + sh.dataBits 0 :=
    buildTree_block_length hne (hdsize ▸ d.dsize.isLt) hsh hbitsLen
  have hbase : (s.regionWriter d).base.toNat = region := State.regionWriter_base (by omega) hlegal
  have hroom : (s.regionWriter d).HasRoom s.params.memSize bits.length :=
    Cursor.hasRoom_of_start (s.regionWriter_pos d) (by rw [htotal]; show _ ≤ 8 * d.csize.toNat; omega)
      (by rw [hbase]; exact hexists)
  have hparts := hroom
  rw [List.length_append] at hparts
  obtain ⟨htreeRoom, hcodesRoom⟩ := hparts.add
  have hsrc : (s.regionWriter d).ApartFrom s.params.memSize s.mem start bytes :=
    ⟨hdsize ▸ hbytes.symm, hdsize ▸ hsrcEnd, by rw [hbase, ← hdsize]; exact hapart⟩
  have hrun : s.encodeRun block.toNat d sh =
      ⟨(putAll s.mem (s.regionWriter d) bits).1, (putAll s.mem (s.regionWriter d) bits).2, none⟩ := by
    rw [State.encodeRun, sh.serialize_eq hwf, putAll_append, putAll_snd htreeRoom.fits, hdsize]
    exact encodeBytes_eq (wf_putAll hwf _ _) (hsrc.putAll htreeRoom.fits) hcodesRoom
  obtain ⟨hpos, hbits, hrest⟩ := putAll_of_start hwf hroom.fits (s.regionWriter_pos d) hbase
  refine ⟨_, _, exec_encode_of_room ht hj hd htree hsh (by rwa [← hbitsLen, ← sh.preorder_length]),
    State.job?_updateJob hj fun _ => rfl, ?_, ?_, htotal, ?_⟩
  all_goals rw [hrun]
  · exact herr
  · exact (congrArg Cursor.pos (putAll_snd hroom.fits)).trans hpos
  · exact ⟨hbits, hrest⟩

end Sys2Proof.Machine
end

section
/-! PROOF. Parse (41 R146): every parse is the layout of a shape in preorder or one of three faults; and DECODE (42 R177), whose loop writes the values of its walks. -/

namespace Sys2Proof.Machine

/-! ### What a parse can be (41 R146) -/

theorem Cursor.fits_of_add {c : Cursor} {n k : Nat} (hn : c.fits n = true) (hk : (c.advance n).fits k = true) :
    c.fits (n + k) = true := by
  have hpos := Cursor.advance_pos_of_fits hn
  rw [Cursor.fits_iff] at hn hk ⊢
  rw [hpos, Cursor.advance_len] at hk
  omega

/-- The parse of a node that lays a shape out behind the arena and moves the reader over its bits. -/
structure Parsed.Lays (p : Parsed) (c : Cursor) (nodes : List Node) (sh : Shape) : Prop where
  cur : p.cur = c.advance sh.bits
  arena : p.nodes = nodes ++ sh.arena nodes.length
  out : p.out = .ok nodes.length
  fits : c.fits sh.bits = true
  size : nodes.length + sh.size ≤ 511

/-- The faults of a parse (41 R146). -/
def isParseFault (e : FaultCode) : Prop := e = .truncatedInput ∨ e = .corruptTree ∨ e = .busError

/-- A leaf parsed: its bit and its byte fit. -/
theorem Parsed.Lays.leaf {c : Cursor} {nodes : List Node} (hlen : nodes.length < 511) (m : Memory)
    (h1 : c.fits 1 = true) (h8 : (c.advance 1).fits 8 = true) :
    Parsed.Lays ⟨(getByte m (c.advance 1)).2,
      (nodes ++ [Node.leaf 0#8 0#32]).set nodes.length (Node.leaf (getByte m (c.advance 1)).1 0#32), .ok nodes.length⟩ c nodes
      (.leaf (getByte m (c.advance 1)).1 0#32) := by
  have h9 : c.fits (1 + 8) = true := Cursor.fits_of_add h1 h8
  exact ⟨(getBits_snd m 8 0#8 (Cursor.pos_add_lt_of_fits h8)).trans (Cursor.advance_add h9), by simp [Shape.arena], rfl,
    h9, hlen⟩

/-- A branch parsed: its bit fits, and two nodes are parsed behind it. -/
theorem Parsed.Lays.branch {c : Cursor} {nodes : List Node} {l r : Parsed} {sl sr : Shape} (h1 : c.fits 1 = true)
    (hl : l.Lays (c.advance 1) (nodes ++ [.leaf 0#8 0#32]) sl) (hr : r.Lays l.cur l.nodes sr) :
    Parsed.Lays ⟨r.cur, r.nodes.set nodes.length (.branch 0#32 (nodes.length + 1) l.nodes.length), .ok nodes.length⟩ c
      nodes (.branch 0#32 sl sr) := by
  have hlen : l.nodes.length = nodes.length + 1 + sl.size := by simp [hl.arena, Nat.add_assoc, Nat.add_comm 1]
  have hfl : c.fits (1 + sl.bits) = true := Cursor.fits_of_add h1 hl.fits
  have hcur : l.cur = c.advance (1 + sl.bits) := hl.cur.trans (Cursor.advance_add hfl)
  have hfr : c.fits (1 + sl.bits + sr.bits) = true := Cursor.fits_of_add hfl (hcur ▸ hr.fits)
  have hsize := hr.size
  refine ⟨?_, ?_, rfl, hfr, ?_⟩
  · exact hr.cur.trans (hcur ▸ Cursor.advance_add hfr)
  · rw [hr.arena, hlen, hl.arena]
    simp [Shape.arena]
  · rw [Shape.size]; omega

theorem parseNode_cases (ms : Nat) (m : Memory) (fuel : Nat) (c : Cursor) (nodes : List Node) :
    (∃ sh, (parseNode ms m fuel c nodes).Lays c nodes sh) ∨
      ∃ e, (parseNode ms m fuel c nodes).out = .error e ∧ isParseFault e := by
  induction fuel generalizing c nodes with
  | zero => exact .inr ⟨_, rfl, .inr (.inl rfl)⟩
  | succ fuel ih =>
    rw [parseNode]
    dsimp only
    split
    · exact .inr ⟨_, rfl, .inr (.inl rfl)⟩
    next hlen =>
    split
    · exact .inr ⟨_, rfl, .inl rfl⟩
    next h1 =>
    split
    · exact .inr ⟨_, rfl, .inr (.inr rfl)⟩
    have h1 : c.fits 1 = true := by simpa using h1
    split
    · obtain ⟨sl, hl⟩ | ⟨e, he, hfault⟩ := ih (c.advance 1) (nodes ++ [.leaf 0#8 0#32])
      · rw [getBit_snd, hl.out]
        dsimp only
        obtain ⟨sr, hr⟩ | ⟨e, he, hfault⟩ := ih (parseNode ms m fuel (c.advance 1) (nodes ++ [.leaf 0#8 0#32])).cur
          (parseNode ms m fuel (c.advance 1) (nodes ++ [.leaf 0#8 0#32])).nodes
        · rw [hr.out]
          have := Parsed.Lays.branch h1 hl hr
          exact .inl ⟨_, by simpa using this⟩
        · rw [he]; exact .inr ⟨e, rfl, hfault⟩
      · rw [getBit_snd, he]; exact .inr ⟨e, rfl, hfault⟩
    · split
      · exact .inr ⟨_, rfl, .inl rfl⟩
      next h8 =>
      split
      · exact .inr ⟨_, rfl, .inr (.inr rfl)⟩
      exact .inl ⟨_, .leaf (Nat.lt_of_not_le (by simpa [Config.maxTreeNodes] using hlen)) m h1 (by simpa using h8)⟩

/-- A parse gives the layout of a shape, or one of the three faults. -/
theorem parseTree_cases (ms : Nat) (m : Memory) (c : Cursor) :
    (∃ sh : Shape, parseTree ms m c = (c.advance sh.bits, .ok sh.parsedTree) ∧ c.fits sh.bits = true ∧ sh.size ≤ 511) ∨
      ∃ c' e, parseTree ms m c = (c', .error e) ∧ isParseFault e := by
  rw [parseTree]
  obtain ⟨sh, h⟩ | ⟨e, he, hfault⟩ := parseNode_cases ms m (Config.maxTreeNodes + 1) c []
  · refine .inl ⟨sh, ?_, h.fits, le_of_eq_of_le (Nat.zero_add _).symm h.size⟩
    rw [h.out, h.cur, h.arena]
    rfl
  · rw [he]
    exact .inr ⟨_, e, rfl, hfault⟩

/-- Settles O32: a parse that gives a tree is the layout of a shape, which is sound and of weight 0. -/
theorem parsedTreesAreSound : Obligations.ParsedTreesAreSound := by
  intro ms m c c'
  obtain ⟨sh, hsh, hfits, hsize⟩ | ⟨c'', e, he, hfault⟩ := parseTree_cases ms m c
  · refine ⟨fun t ht => ?_, fun e he => (by cases hsh.symm.trans he)⟩
    cases hsh.symm.trans ht
    have hbits : sh.parsedTree.treeBits = sh.bits := sh.arena_bits 0
    exact ⟨rfl, Shape.parsedTree_wf hsize, fun n hn => Shape.arena_weight hn, le_of_eq_of_le (sh.arena_length 0) hsize,
      by rw [hbits]; exact Cursor.fits_iff.mp hfits sh.bits_ne_zero, by rw [hbits]⟩
  · refine ⟨fun t ht => (by cases he.symm.trans ht), fun e' he' => ?_⟩
    cases he.symm.trans he'
    exact hfault

/-! ### The walks of DECODE (41 R155, 42 R177) -/

/-- A walk keeps the binding of its reader. -/
theorem Shape.walk_binding (sh : Shape) (ms : Nat) (m : Memory) (c : Cursor) :
    (sh.walk ms m c).1.base = c.base ∧ (sh.walk ms m c).1.len = c.len := by
  induction sh generalizing c with
  | leaf v w => exact ⟨rfl, rfl⟩
  | branch w l r hl hr =>
    rw [Shape.walk]
    split
    · exact ⟨rfl, rfl⟩
    split
    · exact ⟨rfl, rfl⟩
    dsimp only
    split
    · exact hr (c.advance 1)
    · exact hl (c.advance 1)

/-- A walk reads bytes of its buffer alone. -/
theorem Shape.walk_congr (sh : Shape) {ms : Nat} {m m' : Memory} {c : Cursor}
    (h : ∀ a, c.base.toNat ≤ a → a < c.base.toNat + c.len.toNat → Memory.read m' a = Memory.read m a) :
    sh.walk ms m' c = sh.walk ms m c := by
  induction sh generalizing c with
  | leaf v w => rfl
  | branch w l r hl hr =>
    rw [Shape.walk, Shape.walk]
    by_cases hfits : c.fits 1 = true
    · have hin : c.pos + 1 ≤ 8 * c.len.toNat := Cursor.fits_iff.mp hfits Nat.one_ne_zero
      have hbit : getBit m' c = getBit m c :=
        congrArg (·, c.advance 1) (by rw [bitAt, bitAt, h _ (Nat.le_add_right ..) (by rw [← c.pos_div]; omega)])
      rw [hbit]
      dsimp only
      rw [getBit_snd, hl (c := c.advance 1) h, hr (c := c.advance 1) h]
    · rw [if_pos (by simp [hfits]), if_pos (by simp [hfits])]

/-- The loop writes its output range alone (20 R71). -/
theorem decodeBytes_read_other (ms : Nat) (sh : Shape) (n out : Nat) (m : Memory) (c : Cursor) {a : Nat}
    (ha : a < out ∨ out + n ≤ a) : Memory.read (decodeBytes ms sh n out m c).mem a = Memory.read m a := by
  induction n generalizing out m c with
  | zero => rfl
  | succ n ih =>
    rw [decodeBytes]
    split
    · rfl
    · split
      · rfl
      · rw [ih (out + 1) _ _ (by omega), Memory.read_write_other m _ (by omega)]

/-- Without a failed check every byte of the output has its value. -/
theorem decodedBytes_length (ms : Nat) (m : Memory) (sh : Shape) (n out : Nat) (c : Cursor) :
    (decodedBytes ms m sh n out c).2 = none → (decodedBytes ms m sh n out c).1.length = n := by
  induction n generalizing out c with
  | zero => exact fun _ => rfl
  | succ n ih =>
    rw [decodedBytes]
    split
    · exact fun h => by cases h
    · split
      · exact fun h => by cases h
      · exact fun h => congrArg (· + 1) (ih _ _ h)

/-- With the output apart from the buffer the loop writes the values told over the MEM it started from, and stops at the
check told. -/
theorem decodeBytes_eq_decodedBytes {ms : Nat} {m m' : Memory} {sh : Shape} {n out : Nat} {c : Cursor}
    (hread : ∀ a, c.base.toNat ≤ a → a < c.base.toNat + c.len.toNat → Memory.read m' a = Memory.read m a)
    (hapart : out + n ≤ c.base.toNat ∨ c.base.toNat + c.len.toNat ≤ out) :
    (decodeBytes ms sh n out m' c).mem = Memory.writeBytes m' out (decodedBytes ms m sh n out c).1 ∧
      (decodeBytes ms sh n out m' c).err = (decodedBytes ms m sh n out c).2 := by
  induction n generalizing out m' c with
  | zero => exact ⟨rfl, rfl⟩
  | succ n ih =>
    obtain ⟨hbase, hlen⟩ := sh.walk_binding ms m c
    rw [decodeBytes, decodedBytes, sh.walk_congr hread]
    generalize sh.walk ms m c = walked at hbase hlen
    obtain ⟨c', e | v⟩ := walked
    · exact ⟨rfl, rfl⟩
    rw [← hbase, ← hlen] at hread hapart
    dsimp only at hread hapart ⊢
    by_cases hout : ms ≤ out
    · rw [if_pos (Nat.not_lt.mpr hout), if_pos hout]
      exact ⟨rfl, rfl⟩
    · rw [if_neg (not_not_intro (Nat.lt_of_not_le hout)), if_neg hout]
      exact ih (fun a ha ha' => (Memory.read_write_other m' v (by omega)).trans (hread a (by omega) (by omega)))
        (by omega)

/-! ### The body -/

/-- The reader of a job's DECODE: its region from the first bit on (42 R177). -/
def State.regionReader (s : State) (d : Desc) : Cursor where
  base := u32 (s.plan.srcBase.toNat + s.plan.headerSize.toNat + d.offset.toNat)
  len := d.csize

/-- The output loop of a block, from the end of the parsed tree on (42 R177). -/
def State.decodeRun (s : State) (d : Desc) (sh : Shape) (c : Cursor) : BodyRun :=
  decodeBytes s.params.memSize sh d.dsize.toNat (s.controller.dstBase.toNat + d.doff.toNat) s.mem c

section
variable {s : State} {block : Word} {j : Job} {d : Desc} {c : Cursor}
  (ht : s.turn ≠ .host) (hj : s.job? block.toNat = some j) (hd : s.plan.desc[block.toNat]? = some d)
include ht hj hd

theorem exec_decode_of_error {e : FaultCode}
    (hparse : parseTree s.params.memSize s.mem (s.regionReader d) = (c, .error e)) :
    exec (.decode block) s = .next (s.updateJob block.toNat (fun j => { j with r := c, err := some e, pc := 2 })) := by
  rw [State.regionReader] at hparse
  rw [exec, execDecode, State.bodyJob_job ht hj]
  simp only [hd, hparse]

theorem exec_decode_of_ok {t : Tree} {sh : Shape} (hsh : t.shape = some sh)
    (hparse : parseTree s.params.memSize s.mem (s.regionReader d) = (c, .ok t)) :
    exec (.decode block) s = .next ((s.setMem (s.decodeRun d sh c).mem).updateJob block.toNat (fun j =>
      { j with r := (s.decodeRun d sh c).cur, tree := t, err := (s.decodeRun d sh c).err.or j.err, pc := 2 })) := by
  rw [State.regionReader] at hparse
  rw [exec, execDecode, State.bodyJob_job ht hj]
  simp only [hd, hparse, Tree.withShape_of_shape hsh]
  rfl

end

/-- Settles O41: a parse that fails is recorded as it is, else the loop's values are those told. -/
theorem decodeWritesOnlyItsRange : Obligations.DecodeWritesOnlyItsRange := by
  intro s block j d ht hj hd out
  obtain ⟨sh, hparse, hfits, -⟩ | ⟨c', e, hparse, -⟩ := parseTree_cases s.params.memSize s.mem (s.regionReader d)
  · refine ⟨_, _, exec_decode_of_ok ht hj hd sh.parsedTree_shape hparse, rfl,
      fun b hb => State.job?_updateJob_ne (fun _ => rfl) hb, State.job?_updateJob hj fun _ => rfl, rfl,
      fun a ha => decodeBytes_read_other _ _ _ _ _ _ (by omega), ?_⟩
    intro region r c
    refine ⟨fun e he => (by cases hparse.symm.trans he), fun tr htr => ?_⟩
    cases hparse.symm.trans htr
    refine ⟨rfl, fun hwf hregion hapart => ⟨_, sh.parsedTree_shape, ?_⟩⟩
    have hne := Cursor.fits_iff.mp hfits sh.bits_ne_zero
    have hbase : (s.regionReader d).base.toNat = region := by
      have : d.csize.toNat ≠ 0 := fun hzero => by
        have := sh.bits_ne_zero
        simp only [State.regionReader, hzero] at hne
        omega
      exact (BitVec.toNat_ofNat ..).trans (Nat.mod_eq_of_lt (by omega))
    intro run
    obtain ⟨hmem, herr⟩ := decodeBytes_eq_decodedBytes (ms := s.params.memSize) (m := s.mem) (m' := s.mem)
      (sh := sh.unweighted) (n := d.dsize.toNat) (out := out) (c := (s.regionReader d).advance sh.bits)
      (fun _ _ _ => rfl) (by rw [Cursor.advance_base, hbase]; exact hapart)
    have hmem : (s.decodeRun d sh.unweighted ((s.regionReader d).advance sh.bits)).mem =
        Memory.writeBytes s.mem out run.1 := hmem
    have herr : (s.decodeRun d sh.unweighted ((s.regionReader d).advance sh.bits)).err = run.2 := herr
    rw [State.updateJob_mem, State.setMem_mem, hmem, herr]
    refine ⟨or_eq_ite .., decodedBytes_length s.params.memSize s.mem _ _ _ _, fun k hk => ?_, fun a ha => ?_⟩
    · rw [Memory.read_writeBytes out run.1 hwf k hk, List.getElem?_eq_getElem hk]
    · exact Memory.read_writeBytes_other s.mem out a run.1 (.inr ha)
  · refine ⟨_, _, exec_decode_of_error ht hj hd hparse, rfl, fun b hb => State.job?_updateJob_ne (fun _ => rfl) hb,
      State.job?_updateJob hj fun _ => rfl, rfl, fun _ _ => rfl, ?_⟩
    intro region r c
    refine ⟨fun e' he => ?_, fun tr htr => (by cases hparse.symm.trans htr)⟩
    cases hparse.symm.trans he
    exact ⟨rfl, rfl, rfl⟩

end Sys2Proof.Machine
end

section
/-! PROOF. What a command can do, said once for each: a context command fails or has its effect (40, 41), an orchestration command fails or starts (43), and a micro-operation changes the limiter, MEM and its job (42); the frames follow. -/

namespace Sys2Proof.Machine

/-! ### Context commands (40, 41) -/

/-- `t` is the begun command `i` of context `k` with its checks passed and its effect made, before it completes. -/
def State.Does (s : State) (k : Fin 4) (t : State) : Instr → Prop
  | .wbind _ => s.regs.dstBuffer.legal = true ∧ t = s.setWriter k s.regs.dstBuffer
  | .wseek _ byteOffset bit => t = s.setWriter k ((s.writer k).seek byteOffset bit)
  | .wtell _ => t = s.tell (s.writer k)
  | .wbit _ v => firstFailure (s.storeChecks (s.writer k) 1) = none ∧ t = s.written k (putBit s.mem (s.writer k) v)
  | .wbits _ v n => firstFailure (s.wbitsChecks (s.writer k) n.toNat) = none ∧
      t = s.written k (putBits s.mem (s.writer k) v n.toNat)
  | .rbind _ => s.regs.srcBuffer.legal = true ∧ t = s.setReader k s.regs.srcBuffer
  | .rseek _ byteOffset bit => t = s.setReader k ((s.reader k).seek byteOffset bit)
  | .rtell _ => t = s.tell (s.reader k)
  | .rbit _ => ∃ v, t = (s.setReader k (getBit s.mem (s.reader k)).2).result v
  | .rbyte _ => ∃ v, t = (s.setReader k (getByte s.mem (s.reader k)).2).result v
  | .tcreate _ => 0 < s.regs.srcSize.toNat ∧
      t = s.setTree k (buildTree (Memory.readBytes s.mem s.regs.srcBase.toNat s.regs.srcSize.toNat))
  | .twrite _ => firstFailure (s.twriteChecks (s.writer k) (s.tree k)) = none ∧
      ∃ sh, (s.tree k).shape = some sh ∧ t = s.written k (sh.serialize s.mem (s.writer k))
  | .tread _ => ∃ c tr, parseTree s.params.memSize s.mem (s.reader k) = (c, .ok tr) ∧ t = (s.setReader k c).setTree k tr
  | .tlookup _ => ∃ sh, (s.tree k).shape = some sh ∧ sh.depth ≤ 32 ∧ t = s.setLut k sh.lookup
  | .tbitcount _ => ∃ a b c d, t = s.result4 a b c d
  | .tcroot _ => (s.tree k).built = true ∧ t = s.setTc k ⟨true, (s.tree k).root⟩
  | .tcisleaf _ => ∃ v, t = s.result v
  | .tcvalue _ => ∃ v, t = s.result v
  | .tcleft _ => s.ctx[k].tc.valid = true ∧ ∃ w l r, s.node? k = some (.branch w l r) ∧ t = s.setTc k ⟨true, l⟩
  | .tcright _ => s.ctx[k].tc.valid = true ∧ ∃ w l r, s.node? k = some (.branch w l r) ∧ t = s.setTc k ⟨true, r⟩
  | _ => False

/-- A context command that goes on has faulted and changed the flags alone, or its checks hold and it completes after
its effect (60 R223, R224). -/
theorem State.withContext_primitive_next {s t : State} {k : BitVec 4} {cs : Fin 4 → List Check}
    {f : Fin 4 → State → Result State} (h : (s.withContext k fun k => s.primitive (cs k) (f k)) = .next t) :
    (∃ e, t = s.failedOnly e noBlock) ∨ ∃ (hk : k.toNat < 4) (u : State),
      (∀ c ∈ cs ⟨k.toNat, hk⟩, c.holds = true) ∧ f ⟨k.toNat, hk⟩ s.begin = .next u ∧ t = u.complete := by
  obtain ⟨hk, h⟩ | ⟨-, rfl⟩ := State.withContext_next h
  · obtain ⟨e, -, rfl⟩ | ⟨hc, u, hu, rfl⟩ := State.primitive_next h
    · exact .inl ⟨e, rfl⟩
    · exact .inr ⟨hk, u, firstFailure_none.mp hc, hu, rfl⟩
  · exact .inl ⟨_, rfl⟩

theorem Tree.withShape_next {t : Tree} {f : Shape → Result State} {u : State} (h : t.withShape f = .next u) :
    ∃ sh, t.shape = some sh ∧ f sh = .next u := by
  rw [Tree.withShape] at h
  split at h
  · next sh hsh => exact ⟨sh, hsh, h⟩
  · cases h

theorem execTread_next {s t : State} {k : BitVec 4} (h : execTread k s = .next t) :
    (∃ e, t = s.failedOnly e noBlock) ∨ ∃ (hk : k.toNat < 4) (u : State),
      s.begin.Does ⟨k.toNat, hk⟩ u (.tread k) ∧ t = u.complete := by
  obtain ⟨hk, h⟩ | ⟨-, rfl⟩ := State.withContext_next h
  · split at h
    · next e _ =>
      obtain ⟨e, -, rfl⟩ | ⟨hc, -⟩ := State.primitive_next h
      · exact .inl ⟨e, rfl⟩
      · cases hc
    · next c tr hparse =>
      obtain ⟨e, he, -⟩ | ⟨-, u, hu, rfl⟩ := State.primitive_next h
      · cases he
      · cases hu
        exact .inr ⟨hk, _, ⟨c, tr, hparse, rfl⟩, rfl⟩
  · exact .inl ⟨_, rfl⟩

theorem exec_context_next {i : Instr} {k : BitVec 4} {s t : State} (hi : i.context? = some k) (h : exec i s = .next t) :
    (∃ e, t = s.failedOnly e noBlock) ∨ ∃ (hk : k.toNat < 4) (u : State),
      s.begin.Does ⟨k.toNat, hk⟩ u i ∧ t = u.complete := by
  cases i <;> cases hi
  case tread => exact execTread_next h
  all_goals
    rw [exec] at h
    refine (State.withContext_primitive_next h).imp_right fun ⟨hk, u, hc, hu, ht⟩ => ⟨hk, u, ?_, ht⟩
  case wbind | rbind => cases hu; exact ⟨hc _ (List.mem_singleton_self _), rfl⟩
  case wseek | wtell | rseek | rtell => cases hu; rfl
  case wbit | wbits => cases hu; exact ⟨firstFailure_none.mpr hc, rfl⟩
  case rbit | rbyte => cases hu; exact ⟨_, rfl⟩
  case tcreate => cases hu; exact ⟨of_decide_eq_true (hc _ List.mem_cons_self), rfl⟩
  case twrite =>
    obtain ⟨sh, hsh, hu⟩ := Tree.withShape_next hu
    cases hu
    exact ⟨firstFailure_none.mpr hc, sh, hsh, rfl⟩
  case tlookup =>
    obtain ⟨sh, hsh, hu⟩ := Tree.withShape_next hu
    cases hu
    have hdepth := of_decide_eq_true (hc _ (List.mem_cons_of_mem _ (List.mem_singleton_self _)))
    rw [Tree.depth_of_shape hsh] at hdepth
    exact ⟨sh, hsh, hdepth, rfl⟩
  case tbitcount =>
    obtain ⟨sh, hsh, hu⟩ := Tree.withShape_next hu
    cases hu
    exact ⟨_, _, _, _, rfl⟩
  case tcroot => cases hu; exact ⟨hc _ (List.mem_singleton_self _), rfl⟩
  case tcisleaf | tcvalue =>
    split at hu
    · cases hu; exact ⟨_, rfl⟩
    all_goals cases hu
  case tcleft | tcright =>
    split at hu
    · next hn => cases hu; exact ⟨hc _ List.mem_cons_self, _, _, _, hn, rfl⟩
    all_goals cases hu

/-- The registers of `r` with other results (10 R26). -/
def Regs.withResults (r : Regs) (a b c d : Word) : Regs := { r with result0 := a, result1 := b, result2 := c, result3 := d }

/-- The part of the state a context command may change: results, MEM, and its own context (40, 41). -/
theorem State.Does.frame {s u : State} {k : Fin 4} {i : Instr} (h : s.Does k u i) :
    ∃ a b c d m x, u = { s with regs := s.regs.withResults a b c d, mem := m, ctx := s.ctx.set k x } := by
  have hsame : ∀ a b c d, ∃ a' b' c' d' m x, s.result4 a b c d =
      { s with regs := s.regs.withResults a' b' c' d', mem := m, ctx := s.ctx.set k x } := fun a b c d =>
    ⟨a, b, c, d, s.mem, s.ctx[k], by rw [Fin.getElem_fin, Vector.set_getElem_self]; rfl⟩
  cases i
  case wbit | wbits | wbind | rbind | tcreate | tcroot => obtain ⟨-, rfl⟩ := h; exact ⟨_, _, _, _, _, _, rfl⟩
  case wseek | rseek => cases h; exact ⟨_, _, _, _, _, _, rfl⟩
  case rbit | rbyte => obtain ⟨v, rfl⟩ := h; exact ⟨_, _, _, _, _, _, rfl⟩
  case twrite => obtain ⟨-, sh, -, rfl⟩ := h; exact ⟨_, _, _, _, _, _, rfl⟩
  case tlookup => obtain ⟨sh, -, -, rfl⟩ := h; exact ⟨_, _, _, _, _, _, rfl⟩
  case tcleft | tcright => obtain ⟨-, w, l, r, -, rfl⟩ := h; exact ⟨_, _, _, _, _, _, rfl⟩
  case tread =>
    obtain ⟨c, tr, -, rfl⟩ := h
    rw [State.setReader_setTree]
    exact ⟨_, _, _, _, _, _, rfl⟩
  case wtell | rtell => cases h; exact hsame ..
  case tbitcount => obtain ⟨a, b, c, d, rfl⟩ := h; exact hsame ..
  case tcisleaf | tcvalue => obtain ⟨v, rfl⟩ := h; exact hsame ..
  all_goals cases h

/-! ### The frame of the context commands -/

/-- The registers the host writes and no command does (10 R22, R25, R28, R29). -/
theorem State.readRegister_withResults (s t : State) (a b c d : Word) (busy done : Bool) (fault : Option FaultCode)
    (info : Word) (h : t.regs = { s.regs.withResults a b c d with busy, done, fault, errInfo := info }) :
    ∀ o ∈ [0x00, 0x04, 0x10, 0x14, 0x18, 0x1C, 0x20, 0x24, 0x4C, 0x5C], t.readRegister o = s.readRegister o := by
  simp [State.readRegister, h, Regs.withResults]

/-- Settles O23: each effect names the one part of its context that it replaces. -/
theorem primitiveFrame : Obligations.PrimitiveFrame := by
  intro i k s t h hi hexec
  obtain ⟨e, rfl⟩ | ⟨hk, u, hdoes, rfl⟩ := exec_context_next hi hexec
  · refine ⟨⟨rfl, rfl, rfl, rfl, rfl, rfl, rfl, rfl, rfl, rfl⟩,
      s.readRegister_withResults _ _ _ _ _ _ _ _ _ rfl, fun _ _ _ => rfl, ?_⟩
    cases i <;> cases hi <;> trivial
  · obtain ⟨a, b, c, d, m, x, hu⟩ := hdoes.frame
    refine ⟨?_, ?_, fun q hq hne => ?_, ?_⟩
    · subst hu; exact ⟨rfl, rfl, rfl, rfl, rfl, rfl, rfl, rfl, rfl, rfl⟩
    · subst hu; exact s.readRegister_withResults _ a b c d _ _ _ _ rfl
    · subst hu; exact Vector.getElem_set_ne hk hq hne.symm
    · clear hu
      cases i
      case wbit | wbits => obtain ⟨-, rfl⟩ := hdoes; simp [State.written, State.setWriter]
      case twrite => obtain ⟨-, sh, -, rfl⟩ := hdoes; simp [State.written, State.setWriter]
      case wbind => obtain ⟨-, rfl⟩ := hdoes; simp [State.setWriter]
      case wseek => cases hdoes; simp [State.setWriter]
      case rbind => obtain ⟨-, rfl⟩ := hdoes; simp [State.setReader]
      case rseek => cases hdoes; simp [State.setReader]
      case rbit | rbyte => obtain ⟨v, rfl⟩ := hdoes; simp [State.setReader, State.result]
      case tcreate => obtain ⟨-, rfl⟩ := hdoes; simp [State.setTree]
      case tread => obtain ⟨c, tr, -, rfl⟩ := hdoes; simp [State.setReader_setTree]
      case tlookup => obtain ⟨sh, -, -, rfl⟩ := hdoes; simp [State.setLut]
      case tcroot => obtain ⟨-, rfl⟩ := hdoes; simp [State.setTc]
      case tcleft | tcright => obtain ⟨-, w, l, r, -, rfl⟩ := hdoes; simp [State.setTc]
      case wtell | rtell => cases hdoes; exact ⟨rfl, rfl⟩
      case tbitcount => obtain ⟨a, b, c, d, rfl⟩ := hdoes; exact ⟨rfl, rfl⟩
      case tcisleaf | tcvalue => obtain ⟨v, rfl⟩ := hdoes; exact ⟨rfl, rfl⟩
      all_goals cases hdoes

/-! ### Orchestration commands (43) -/

/-- PREPC fails and drops the plan, or starts its phase over a source that exists (43 R192). -/
theorem exec_prepc_inv {s t : State} (h : exec .prepc s = .next t) :
    (∃ e, t = s.failedDropping e noBlock) ∨
      ((s.regs.blockSize ≠ 0#32 ∧ s.regs.srcEnd ≤ u32Limit ∧ s.regs.srcEnd ≤ s.params.memSize) ∧
        t = (s.begin.dropPlan.setPlan s.regs.prepcPlan).startPhase .analyze .analyze) := by
  rw [exec, execPrepc] at h
  obtain ⟨e, -, rfl⟩ | ⟨hc, rfl⟩ := State.issueChecked_next h
  · exact .inl ⟨e, rfl⟩
  · refine .inr ⟨?_, rfl⟩
    simpa [firstFailure_none] using hc

/-- COMPRESS fails and keeps the plan, or writes its header and starts its phase (43 R194). -/
theorem exec_compress_inv {s t : State} (h : exec .compress s = .next t) :
    (∃ e, t = s.failedOnly e noBlock) ∨ (firstFailure (s.executeChecks .c s.plan.inSize) = none ∧
      t = ((s.begin.latchDst.setMem (writeHeader s.mem s.regs.dstBase.toNat s.plan)).dropPlan).startPhase .encode
        .encode) := by
  rw [exec, execCompress] at h
  obtain ⟨e, -, rfl⟩ | ⟨hc, rfl⟩ := State.issueChecked_next h
  · exact .inl ⟨e, rfl⟩
  · exact .inr ⟨hc, rfl⟩

/-- DECOMPRESS fails and keeps the plan, or starts its phase (43 R201). -/
theorem exec_decompress_inv {s t : State} (h : exec .decompress s = .next t) :
    (∃ e, t = s.failedOnly e noBlock) ∨ (firstFailure (s.executeChecks .d s.plan.srcSize) = none ∧
      t = s.begin.latchDst.dropPlan.startPhase .decode .decode) := by
  rw [exec, execDecompress] at h
  obtain ⟨e, -, rfl⟩ | ⟨hc, rfl⟩ := State.issueChecked_next h
  · exact .inl ⟨e, rfl⟩
  · exact .inr ⟨hc, rfl⟩

/-- PREPD fails and drops the plan, or holds the plan it read (43 R198 to R200). -/
theorem exec_prepd_inv {s t : State} (h : exec .prepd s = .next t) :
    (∃ e info, t = s.failedDropping e info) ∨ ∃ p, prepdPlan s.params.memSize s.mem s.regs = .ok p ∧
      t = { s with regs := s.regs.succeeded, plan := p } := by
  cases hp : prepdPlan s.params.memSize s.mem s.regs with
  | error f =>
    rw [exec, execPrepd, hp] at h
    cases h
    exact .inl ⟨f.code, f.info, rfl⟩
  | ok p =>
    rw [exec_prepd_of_plan hp] at h
    cases h
    exact .inr ⟨p, rfl, rfl⟩

/-! ### Micro-operations (42) -/

theorem State.updateJob_id (s : State) (i : Nat) : s.updateJob i id = s := by
  simp [State.updateJob, State.setJobs]

theorem State.currentJob_next {s t : State} {f : Nat → Job → Result State} (ht : s.turn ≠ .host)
    (h : s.currentJob f = .next t) : ∃ b j, s.turn = .job b ∧ s.job? b = some j ∧ f b j = .next t := by
  rw [State.currentJob, State.microOp_core ht] at h
  split at h
  · next b hb =>
    split at h
    · next j hj => exact ⟨b, j, hb, hj, h⟩
    · cases h
  all_goals cases h

theorem State.bodyJob_next {s t : State} {i : Nat} {f : Job → Result State} (ht : s.turn ≠ .host)
    (h : s.bodyJob i f = .next t) : ∃ j, s.job? i = some j ∧ f j = .next t := by
  rw [State.bodyJob, State.microOp_core ht] at h
  split at h
  · next j hj => exact ⟨j, hj, h⟩
  · cases h

/-- LACQ and LREL change the limiter and the job whose turn it is (42 R171, R172). -/
theorem exec_permit_next {i : Instr} {s t : State} (hi : i = .lacq ∨ i = .lrel) (ht : s.turn ≠ .host)
    (h : exec i s = .next t) :
    ∃ b l f, s.turn = .job b ∧ (∀ j, (f j).block = j.block) ∧ t = (s.setLimiter l).updateJob b f := by
  obtain rfl | rfl := hi
  all_goals
    obtain ⟨b, j, hb, -, h⟩ := State.currentJob_next ht h
    dsimp only at h
    split at h <;> cases h
  · exact ⟨b, s.limiter, id, hb, fun _ => rfl, ((s.setLimiter s.limiter).updateJob_id b).symm⟩
  all_goals refine ⟨b, _, _, hb, ?_, rfl⟩; exact fun _ => rfl

/-- The body of a block (10 R42). -/
def isBodyOf (i : Instr) (b : Word) : Prop := i = .analyze b ∨ i = .encode b ∨ i = .decode b

/-- `t` is `s` with MEM `m` and job `b` changed by its body, after which the job stands at its LREL. -/
def State.BodyDone (s : State) (b : Nat) (m : Memory) (t : State) : Prop :=
  ∃ f : Job → Job, t = (s.setMem m).updateJob b f ∧ ∀ j : Job, j.AfterBody (f j)

theorem State.bodyDone_of_eq {s t : State} {b : Nat} {m : Memory} {f : Job → Job}
    (h : .next ((s.setMem m).updateJob b f) = (.next t : Result State)) (hf : ∀ j : Job, j.AfterBody (f j)) :
    s.BodyDone b m t := by
  cases h
  exact ⟨f, rfl, hf⟩

/-- ANALYZE changes its job alone (42 R175). -/
theorem exec_analyze_done {b : Word} {s t : State} (ht : s.turn ≠ .host) (h : exec (.analyze b) s = .next t) :
    s.BodyDone b.toNat s.mem t := by
  obtain ⟨j, -, h⟩ := State.bodyJob_next ht h
  dsimp only at h
  split at h
  · cases h
  split at h
  · exact State.bodyDone_of_eq h fun _ => ⟨rfl, rfl, rfl, rfl⟩
  obtain ⟨sh, -, h⟩ := Tree.withShape_next h
  split at h <;> exact State.bodyDone_of_eq h fun _ => ⟨rfl, rfl, rfl, rfl⟩

/-- ENCODE changes MEM and its job (42 R176). -/
theorem exec_encode_done {b : Word} {s t : State} (ht : s.turn ≠ .host) (h : exec (.encode b) s = .next t) :
    ∃ m, s.BodyDone b.toNat m t ∧ (Memory.wf s.mem = true → Memory.wf m = true) := by
  obtain ⟨j, -, h⟩ := State.bodyJob_next ht h
  dsimp only at h
  split at h
  · cases h
  split at h
  · cases h
  split at h
  · exact ⟨s.mem, State.bodyDone_of_eq h fun _ => ⟨rfl, rfl, rfl, rfl⟩, id⟩
  split at h
  · exact ⟨s.mem, State.bodyDone_of_eq h fun _ => ⟨rfl, rfl, rfl, rfl⟩, id⟩
  obtain ⟨sh, -, h⟩ := Tree.withShape_next h
  exact ⟨_, State.bodyDone_of_eq h fun _ => ⟨rfl, rfl, rfl, rfl⟩, fun hwf => wf_encodeBytes _ _ _ _ _ (wf_serialize _ _ hwf)⟩

/-- DECODE changes MEM and its job (42 R177). -/
theorem exec_decode_done {b : Word} {s t : State} (ht : s.turn ≠ .host) (h : exec (.decode b) s = .next t) :
    ∃ m, s.BodyDone b.toNat m t ∧ (Memory.wf s.mem = true → Memory.wf m = true) := by
  obtain ⟨j, -, h⟩ := State.bodyJob_next ht h
  dsimp only at h
  split at h
  · cases h
  split at h
  · exact ⟨s.mem, State.bodyDone_of_eq h fun _ => ⟨rfl, rfl, rfl, rfl⟩, id⟩
  obtain ⟨sh, -, h⟩ := Tree.withShape_next h
  exact ⟨_, State.bodyDone_of_eq h fun _ => ⟨rfl, rfl, rfl, rfl⟩, fun hwf => wf_decodeBytes _ _ _ _ _ hwf⟩

/-- A body changes MEM, but for ANALYZE, and its job (42 R175 to R177). -/
theorem exec_body_next {i : Instr} {b : Word} {s t : State} (hi : isBodyOf i b) (ht : s.turn ≠ .host)
    (h : exec i s = .next t) :
    ∃ m, s.BodyDone b.toNat m t ∧ (i = .analyze b → m = s.mem) ∧ (Memory.wf s.mem = true → Memory.wf m = true) := by
  obtain rfl | rfl | rfl := hi
  · exact ⟨s.mem, exec_analyze_done ht h, fun _ => rfl, id⟩
  · exact (exec_encode_done ht h).imp fun m hm => ⟨hm.1, nofun, hm.2⟩
  · exact (exec_decode_done ht h).imp fun m hm => ⟨hm.1, nofun, hm.2⟩

/-- A micro-operation of the controller's or a job's changes the limiter, MEM and the jobs alone. -/
theorem exec_micro_next {i : Instr} {s t : State} (hi : i.isMicroOp = true) (ht : s.turn ≠ .host)
    (h : exec i s = .next t) :
    ∃ l m js, t = { s with limiter := l, mem := m, jobs := js } ∧
      (m = s.mem ∨ (∃ b, i = .encode b) ∨ ∃ b, i = .decode b) ∧ (Memory.wf s.mem = true → Memory.wf m = true) := by
  cases i with
  | linit p =>
    rw [execLinit_of_core ht] at h
    cases h
    refine ⟨⟨p, p⟩, s.mem, (s.initLimiter p).advanceTurn.jobs, ?_, .inl rfl, id⟩
    rw [State.advanceTurn]
    split <;> rfl
  | lacq =>
    obtain ⟨b, l, f, -, -, rfl⟩ := exec_permit_next (.inl rfl) ht h
    exact ⟨l, s.mem, _, rfl, .inl rfl, id⟩
  | lrel =>
    obtain ⟨b, l, f, -, -, rfl⟩ := exec_permit_next (.inr rfl) ht h
    exact ⟨l, s.mem, _, rfl, .inl rfl, id⟩
  | analyze b =>
    obtain ⟨f, rfl, -⟩ := exec_analyze_done ht h
    exact ⟨s.limiter, s.mem, _, rfl, .inl rfl, id⟩
  | encode b =>
    obtain ⟨m, ⟨f, rfl, -⟩, hwf⟩ := exec_encode_done ht h
    exact ⟨s.limiter, m, _, rfl, .inr (.inl ⟨b, rfl⟩), hwf⟩
  | decode b =>
    obtain ⟨m, ⟨f, rfl, -⟩, hwf⟩ := exec_decode_done ht h
    exact ⟨s.limiter, m, _, rfl, .inr (.inr ⟨b, rfl⟩), hwf⟩
  | _ => cases hi

/-! ### The frame of the other commands -/

/-- `t` is `s` with other flags, plan, limiter, controller and jobs, and MEM `m` (42, 43). -/
def State.Orchestrated (s : State) (m : Memory) (t : State) : Prop :=
  ∃ busy done fault info p l c js, t = { s with
    regs := { s.regs with busy := busy, done := done, fault := fault, errInfo := info }
    plan := p, limiter := l, controller := c, jobs := js, mem := m }

theorem State.failedOnly_orchestrated (s : State) (e : FaultCode) (info : Word) :
    s.Orchestrated s.mem (s.failedOnly e info) := ⟨_, _, _, _, _, _, _, _, rfl⟩

theorem State.failedDropping_orchestrated (s : State) (e : FaultCode) (info : Word) :
    s.Orchestrated s.mem (s.failedDropping e info) := ⟨_, _, _, _, _, _, _, _, rfl⟩

/-- The commands that are not of a context write MEM in COMPRESS, ENCODE and DECODE alone, and leave contexts, parameters
and the host's registers alone. -/
theorem exec_other_next {i : Instr} {s t : State} (hi : i.context? = none) (h : exec i s = .next t) :
    ∃ m, s.Orchestrated m t ∧
      (m = s.mem ∨ i = .compress ∨ (∃ b, i = .encode b) ∨ ∃ b, i = .decode b) ∧
      (Memory.wf s.mem = true → Memory.wf m = true) := by
  by_cases hmicro : i.isMicroOp = true
  · by_cases ht : s.turn = .host
    · rw [exec_microOp_of_host hmicro ht] at h
      cases h
      exact ⟨s.mem, s.failedOnly_orchestrated _ _, .inl rfl, id⟩
    · obtain ⟨l, m, js, rfl, hm, hwf⟩ := exec_micro_next hmicro ht h
      exact ⟨m, ⟨_, _, _, _, _, _, _, _, rfl⟩, hm.imp_right .inr, hwf⟩
  · cases i with
    | prepc =>
      obtain ⟨e, rfl⟩ | ⟨-, rfl⟩ := exec_prepc_inv h
      · exact ⟨s.mem, s.failedDropping_orchestrated _ _, .inl rfl, id⟩
      · exact ⟨s.mem, ⟨_, _, _, _, _, _, _, _, rfl⟩, .inl rfl, id⟩
    | compress =>
      obtain ⟨e, rfl⟩ | ⟨-, rfl⟩ := exec_compress_inv h
      · exact ⟨s.mem, s.failedOnly_orchestrated _ _, .inl rfl, id⟩
      · exact ⟨_, ⟨_, _, _, _, _, _, _, _, rfl⟩, .inr (.inl rfl), wf_writeHeader _ _⟩
    | decompress =>
      obtain ⟨e, rfl⟩ | ⟨-, rfl⟩ := exec_decompress_inv h
      · exact ⟨s.mem, s.failedOnly_orchestrated _ _, .inl rfl, id⟩
      · exact ⟨s.mem, ⟨_, _, _, _, _, _, _, _, rfl⟩, .inl rfl, id⟩
    | prepd =>
      obtain ⟨e, info, rfl⟩ | ⟨p, -, rfl⟩ := exec_prepd_inv h
      · exact ⟨s.mem, s.failedDropping_orchestrated _ _, .inl rfl, id⟩
      · exact ⟨s.mem, ⟨_, _, _, _, _, _, _, _, rfl⟩, .inl rfl, id⟩
    | linit _ | lacq | lrel | analyze _ | encode _ | decode _ => exact absurd rfl hmicro
    | _ => cases hi

/-- A permit is taken or given back by the job whose turn it is (42 R171, R172). -/
theorem exec_permit_job? {i : Instr} {b : Nat} {s t : State} (hi : i = .lacq ∨ i = .lrel) (hb : s.turn = .job b)
    (h : exec i s = .next t) {b' : Nat} (hne : b' ≠ b) : t.job? b' = s.job? b' := by
  obtain ⟨b'', l, f, hb'', hblock, rfl⟩ := exec_permit_next hi (by rw [hb]; exact Agent.noConfusion) h
  cases hb.symm.trans hb''
  exact State.job?_updateJob_ne hblock hne

/-- A body changes the job it names, and no limiter (42 R175 to R177). -/
theorem exec_body_job? {i : Instr} {b : Word} {s t : State} (hi : isBodyOf i b) (h : exec i s = .next t) :
    (∀ b', b' ≠ b.toNat → t.job? b' = s.job? b') ∧ (s.turn ≠ .host → t.limiter = s.limiter) := by
  by_cases ht : s.turn = .host
  · have hmicro : i.isMicroOp = true := by obtain rfl | rfl | rfl := hi <;> rfl
    rw [exec_microOp_of_host hmicro ht] at h
    cases h
    exact ⟨fun _ _ => rfl, fun hne => absurd ht hne⟩
  · obtain ⟨m, ⟨f, rfl, hafter⟩, -⟩ := exec_body_next hi ht h
    exact ⟨fun b' hne => State.job?_updateJob_ne (fun j => (hafter j).block) hne, fun _ => rfl⟩

/-- Settles O24: what the commands that are not of a context may change, and whose job a micro-operation is. -/
theorem orchestrationFrame : Obligations.OrchestrationFrame := by
  intro i s t hi h
  obtain ⟨m, ⟨busy, done, fault, info, p, l, c, js, ht⟩, hm, -⟩ := exec_other_next hi h
  refine ⟨by rw [ht], by rw [ht], by rw [ht], by rw [ht], by rw [ht], by rw [ht], by rw [ht],
    s.readRegister_withResults t s.regs.result0 s.regs.result1 s.regs.result2 s.regs.result3 busy done fault info
      (by rw [ht]; rfl), by rw [ht]; exact hm, fun hmicro hturn => ?_, fun b hb hperm b' hne => ?_,
    fun b hbody => (exec_body_job? hbody h).1, fun b hbody => (exec_body_job? hbody h).2⟩
  · obtain ⟨l, m, js, rfl, -⟩ := exec_micro_next hmicro hturn h
    exact ⟨rfl, rfl, rfl⟩
  · exact exec_permit_job? hperm hb h hne

/-! ### The result registers (10 R26) -/

/-- The commands that have a result. -/
def hasResult (i : Instr) : Prop :=
  ∃ k, i = .wtell k ∨ i = .rtell k ∨ i = .rbit k ∨ i = .rbyte k ∨ i = .tbitcount k ∨ i = .tcisleaf k ∨ i = .tcvalue k

/-- An effect of a command without a result leaves the registers alone. -/
theorem State.Does.regs {s u : State} {k : Fin 4} {i : Instr} (h : s.Does k u i) (hi : ¬ hasResult i) :
    u.regs = s.regs := by
  cases i
  case wbit | wbits | wbind | rbind | tcreate | tcroot => obtain ⟨-, rfl⟩ := h; rfl
  case wseek | rseek => cases h; rfl
  case twrite => obtain ⟨-, sh, -, rfl⟩ := h; rfl
  case tlookup => obtain ⟨sh, -, -, rfl⟩ := h; rfl
  case tcleft | tcright => obtain ⟨-, w, l, r, -, rfl⟩ := h; rfl
  case tread => obtain ⟨c, tr, -, rfl⟩ := h; rfl
  case wtell k => exact absurd ⟨k, .inl rfl⟩ hi
  case rtell k => exact absurd ⟨k, .inr (.inl rfl)⟩ hi
  case rbit k => exact absurd ⟨k, .inr (.inr (.inl rfl))⟩ hi
  case rbyte k => exact absurd ⟨k, .inr (.inr (.inr (.inl rfl)))⟩ hi
  case tbitcount k => exact absurd ⟨k, .inr (.inr (.inr (.inr (.inl rfl))))⟩ hi
  case tcisleaf k => exact absurd ⟨k, .inr (.inr (.inr (.inr (.inr (.inl rfl)))))⟩ hi
  case tcvalue k => exact absurd ⟨k, .inr (.inr (.inr (.inr (.inr (.inr rfl)))))⟩ hi
  all_goals cases h

/-- A command that changes a result completed without a fault and is one that has a result. -/
theorem exec_results {i : Instr} {s t : State} (h : exec i s = .next t) (hne : t.regs.results ≠ s.regs.results) :
    t.regs.fault = none ∧ hasResult i := by
  cases hk : i.context? with
  | none =>
    obtain ⟨m, ⟨busy, done, fault, info, p, l, c, js, rfl⟩, -⟩ := exec_other_next hk h
    exact absurd rfl hne
  | some k =>
    obtain ⟨e, rfl⟩ | ⟨hk, u, hdoes, rfl⟩ := exec_context_next hk h
    · exact absurd rfl hne
    · obtain ⟨a, b, c, d, m, x, hu⟩ := hdoes.frame
      refine ⟨by rw [hu]; rfl, Classical.byContradiction fun hi => hne ?_⟩
      rw [State.complete_regs, hdoes.regs hi]
      rfl

/-- The join leaves the results alone. -/
theorem State.join_results {s t : State} (h : s.join = .next t) : t.regs.results = s.regs.results := by
  by_cases hp : s.controller.phase = .idle
  · rw [State.join, hp] at h
    cases h
    rfl
  · obtain rfl | ⟨rs, -, -, rfl⟩ := State.join_next hp h
    · cases lowestFailure s.jobs <;> rfl
    · obtain heq | ⟨-, heq⟩ := s.joined.installPlan_cases rs <;> rw [heq] <;> rfl

/-- Settles O25: the effects of the other commands, the join and a register write name no result. -/
theorem resultRegistersWrittenByTheirCommands : Obligations.ResultRegistersWrittenByTheirCommands := by
  refine ⟨fun i s t => exec_results, fun s t => State.join_results, fun r offset v => ?_, fun p => rfl, fun s t h => ?_⟩
  · unfold Regs.write
    split <;> rfl
  · cases h
    rfl

end Sys2Proof.Machine
end

section
/-! PROOF. What a step can do, said once: the machine is idle, or an enabled step of the host, the controller or a job is taken (42 R174). Then what every step keeps of MEM and the parameters. -/

namespace Sys2Proof.Machine

/-! ### The host's step (10 R21, R22; 20 R60, R75; 30 R103; 70 R251) -/

/-- What a host step that goes on leaves of `s`. -/
inductive State.HostDoes (s : State) : State → Prop
  | looks (value : Word) (draws : Nat) : State.HostDoes s { s with hostRead := value, draws := draws }
  | writes (offset : Nat) (value : Word) (ho : offset ≠ 0x04) : State.HostDoes s (s.setRegs (s.regs.write offset value))
  | issues (value : Word) (t : State) (hb : s.regs.busy = false)
    (ht : (s.setRegs (s.regs.write 0x04 value)).issue = .next t) : State.HostDoes s t
  | stores (a : Nat) (value : Byte) (hs : s.liveSource a = false) (hd : s.liveDestination a = false) :
    State.HostDoes s (s.setMem (Memory.write s.mem a value))
  | resets : State.HostDoes s s.afterReset

theorem State.hostRegWrite_next {s t : State} {offset width : Nat} {v : Word}
    (h : s.hostRegWrite offset width v = .next t) : s.HostDoes t := by
  rw [State.hostRegWrite] at h
  split at h
  · cases h
  split at h
  · next ho =>
    subst ho
    split at h
    · cases h
    · next hb => exact .issues v t (eq_false_of_ne_true hb) h
  · next ho => cases h; exact .writes offset v ho

theorem State.hostRegRead_next {s t : State} {offset width : Nat} (h : s.hostRegRead offset width = .next t) :
    s.HostDoes t := by
  rw [State.hostRegRead] at h
  split at h
  · cases h
  split at h <;> cases h
  · exact .looks _ _
  · exact .looks _ s.draws

theorem State.hostMemWrite_next {s t : State} {a : Nat} {v : Byte} (h : s.hostMemWrite a v = .next t) :
    s.HostDoes t := by
  rw [State.hostMemWrite] at h
  split at h
  · cases h
  split at h
  · cases h
  · next hlive =>
    cases h
    obtain ⟨hs, hd⟩ := Bool.or_eq_false_iff.mp (eq_false_of_ne_true hlive)
    exact .stores a v hs hd

theorem State.hostMemRead_next {s t : State} {a : Nat} (h : s.hostMemRead a = .next t) : s.HostDoes t := by
  rw [State.hostMemRead] at h
  split at h
  · cases h
  split at h <;> cases h
  · exact .looks _ _
  · exact .looks _ s.draws

theorem State.hostStep_next {s t : State} {x : HostStep} (h : s.hostStep x = .next t) : s.HostDoes t := by
  cases x with
  | regWrite offset width v => exact State.hostRegWrite_next h
  | regRead offset width => exact State.hostRegRead_next h
  | memWrite a v => exact State.hostMemWrite_next h
  | memRead a => exact State.hostMemRead_next h
  | await => cases h; exact .looks s.hostRead s.draws
  | reset => cases h; exact .resets

/-! ### The step (42 R174) -/

/-- `u` is `s` with agent `a` picked: the schedule and the draw counter have moved (logs 1, 2, 6). -/
def State.Picked (s : State) (a : Agent) (u : State) : Prop := ∃ sc d, u = ((s.setSched sc).setDraws d).setTurn a

theorem step_cases {s t : State} (h : step s = .next t) :
    (s.pick = none ∧ t = s) ∨
    (∃ u rest, s.Picked .host u ∧ s.hostReady = true ∧ (u.setInputs rest).HostDoes t) ∨
    (∃ u, s.Picked .controller u ∧ s.joinReady = true ∧ u.join = .next t) ∨
    ∃ u j, s.Picked (.job j.block) u ∧ j ∈ s.jobs ∧ s.jobReady j = true ∧ u.runJob j.block = .next t := by
  obtain ⟨hnone, rfl⟩ | ⟨u, ⟨hpick, hrun⟩ | ⟨hpick, hjoin⟩ | ⟨i, hpick, hrun⟩⟩ := step_next h
  · exact .inl ⟨hnone, rfl⟩
  all_goals
    obtain ⟨hmem, sc, d, rfl⟩ := State.pick_some hpick
    obtain ⟨ha, hready⟩ | ⟨ha, hready⟩ | ⟨j, hj, ha, hready⟩ := State.mem_enabled.mp hmem <;> cases ha
  · refine .inr (.inl ⟨((s.setSched sc).setDraws d).setTurn .host, ?_⟩)
    obtain ⟨x, rest, hinputs⟩ : ∃ x rest, s.inputs = x :: rest := by
      cases hinputs : s.inputs with
      | nil => rw [State.hostReady, hinputs] at hready; cases hready
      | cons x rest => exact ⟨x, rest, rfl⟩
    rw [State.runHost] at hrun
    simp only [State.setTurn_inputs, State.setDraws_inputs, State.setSched_inputs, hinputs] at hrun
    exact ⟨rest, ⟨sc, d, rfl⟩, hready, State.hostStep_next hrun⟩
  · exact .inr (.inr (.inl ⟨_, ⟨sc, d, rfl⟩, hready, hjoin⟩))
  · exact .inr (.inr (.inr ⟨_, j, ⟨sc, d, rfl⟩, hj, hready, hrun⟩))

/-! ### What every step keeps -/

/-- The stores of the context commands keep MEM in its canonical form. -/
theorem State.Does.wf_mem {s u : State} {k : Fin 4} {i : Instr} (h : s.Does k u i) (hwf : Memory.wf s.mem = true) :
    Memory.wf u.mem = true := by
  cases i
  case wbit => obtain ⟨-, rfl⟩ := h; exact wf_putBit _ _ hwf
  case wbits => obtain ⟨-, rfl⟩ := h; exact wf_putBits _ _ _ hwf
  case twrite => obtain ⟨-, sh, -, rfl⟩ := h; exact wf_serialize _ _ hwf
  case wbind | rbind | tcreate | tcroot => obtain ⟨-, rfl⟩ := h; exact hwf
  case wseek | rseek | wtell | rtell => cases h; exact hwf
  case rbit | rbyte | tcisleaf | tcvalue => obtain ⟨v, rfl⟩ := h; exact hwf
  case tlookup => obtain ⟨sh, -, -, rfl⟩ := h; exact hwf
  case tcleft | tcright => obtain ⟨-, w, l, r, -, rfl⟩ := h; exact hwf
  case tread => obtain ⟨c, tr, -, rfl⟩ := h; exact hwf
  case tbitcount => obtain ⟨a, b, c, d, rfl⟩ := h; exact hwf
  all_goals cases h

/-- The parameters stay, and the canonical form of MEM. -/
structure State.Keeps (s t : State) : Prop where
  params : t.params = s.params
  memory : Memory.wf s.mem = true → Memory.wf t.mem = true

theorem exec_keeps {i : Instr} {s t : State} (h : exec i s = .next t) : s.Keeps t := by
  cases hk : i.context? with
  | none =>
    obtain ⟨m, ⟨busy, done, fault, info, p, l, c, js, rfl⟩, -, hwf⟩ := exec_other_next hk h
    exact ⟨rfl, hwf⟩
  | some k =>
    obtain ⟨e, rfl⟩ | ⟨hk, u, hdoes, rfl⟩ := exec_context_next hk h
    · exact ⟨rfl, id⟩
    · obtain ⟨a, b, c, d, m, x, hu⟩ := hdoes.frame
      exact ⟨by rw [hu]; rfl, hdoes.wf_mem⟩

theorem State.issue_keeps {s t : State} (h : s.issue = .next t) : s.Keeps t := by
  obtain ⟨e, -, rfl⟩ | ⟨i, -, -, hexec⟩ := State.issue_next h
  · exact ⟨rfl, id⟩
  · exact exec_keeps hexec

/-- The join changes flags, plan, controller and jobs alone (42 R179). -/
theorem State.join_frame {s t : State} (h : s.join = .next t) :
    ∃ r p c js, t = { s with regs := r, plan := p, controller := c, jobs := js } := by
  by_cases hp : s.controller.phase = .idle
  · rw [State.join, hp] at h
    cases h
    exact ⟨_, _, _, _, rfl⟩
  · obtain rfl | ⟨rs, -, -, rfl⟩ := State.join_next hp h
    · cases lowestFailure s.jobs <;> exact ⟨_, _, _, _, rfl⟩
    · obtain heq | ⟨-, heq⟩ := s.joined.installPlan_cases rs <;> rw [heq] <;> exact ⟨_, _, _, _, rfl⟩

theorem State.HostDoes.keeps {s t : State} (h : s.HostDoes t) : s.Keeps t := by
  cases h with
  | looks value draws => exact ⟨rfl, id⟩
  | writes offset value ho => exact ⟨rfl, id⟩
  | issues value t hb ht => exact ⟨(State.issue_keeps ht).params, (State.issue_keeps ht).memory⟩
  | stores a value hs hd => exact ⟨rfl, Memory.wf_write a value⟩
  | resets => exact ⟨rfl, Memory.wf_draw s.controller.dstBase.toNat s.draws s.abortedBytes⟩

theorem State.runJob_keeps {s t : State} {i : Nat} (h : s.runJob i = .next t) : s.Keeps t := by
  obtain ⟨j, -, ⟨-, rfl⟩ | ⟨w, op, -, -, -, hexec⟩⟩ := State.runJob_next h
  · exact ⟨rfl, id⟩
  · exact exec_keeps hexec

theorem step_keeps {s t : State} (h : step s = .next t) : s.Keeps t := by
  obtain ⟨-, rfl⟩ | ⟨u, rest, ⟨sc, d, rfl⟩, -, hhost⟩ | ⟨u, ⟨sc, d, rfl⟩, -, hjoin⟩ | ⟨u, j, ⟨sc, d, rfl⟩, -, -, hrun⟩ :=
    step_cases h
  · exact ⟨rfl, id⟩
  · exact ⟨hhost.keeps.params, hhost.keeps.memory⟩
  · obtain ⟨r, p, c, js, rfl⟩ := State.join_frame hjoin
    exact ⟨rfl, id⟩
  · exact ⟨(State.runJob_keeps hrun).params, (State.runJob_keeps hrun).memory⟩

/-- Settles O53, by the agent of the step and the command it runs. -/
theorem memoryCanonicalKept : Obligations.MemoryCanonicalKept := fun _ _ hwf h => (step_keeps h).memory hwf

/-- Settles O57: no step names the parameters, and the constant registers read no state. -/
theorem parametersNeverChange : Obligations.ParametersNeverChange :=
  ⟨fun _ _ h => ⟨(step_keeps h).params, congrArg Params.hwParallelism (step_keeps h).params⟩,
    fun _ => ⟨rfl, rfl, rfl⟩⟩

end Sys2Proof.Machine
end

section
/-! PROOF. The host port (10 R21 to R29, 20 R61, 60 R220, 70 R250): the register map, the command registers, the steps of the host, the controller and the jobs, the two binds, and reset. -/

namespace Sys2Proof.Machine

/-! ### STATUS (10 R23) -/

theorem getLsbD_append_low {n m : Nat} (x : BitVec n) (y : BitVec m) (i : Nat) (h : i < m) :
    (x ++ y).getLsbD i = y.getLsbD i := by
  rw [BitVec.getLsbD_append, if_pos h]

theorem getLsbD_append_high {n m : Nat} (x : BitVec n) (y : BitVec m) (i : Nat) (h : m ≤ i) :
    (x ++ y).getLsbD i = x.getLsbD (i - m) := by
  rw [BitVec.getLsbD_append, if_neg (Nat.not_lt.mpr h)]

theorem getLsbD_ofBool_zero (b : Bool) : (BitVec.ofBool b).getLsbD 0 = b := by cases b <;> rfl

/-- The fields of a word of the form of STATUS, from the low end on. -/
theorem statusFields (hi : BitVec 14) (kind valid : Bool) (code : BitVec 8) (gap : BitVec 5) (err done busy : Bool) :
    let w := hi ++ BitVec.ofBool kind ++ BitVec.ofBool valid ++ code ++ gap ++ BitVec.ofBool err ++ BitVec.ofBool done ++
      BitVec.ofBool busy
    w.getLsbD 0 = busy ∧ w.getLsbD 1 = done ∧ w.getLsbD 2 = err ∧ w.extractLsb' 3 5 = gap ∧
      w.extractLsb' 8 8 = code ∧ w.getLsbD 16 = valid ∧ w.getLsbD 17 = kind ∧ w.extractLsb' 18 14 = hi := by
  dsimp only
  refine ⟨?_, ?_, ?_, ?_, ?_, ?_, ?_, ?_⟩
  · rw [getLsbD_append_low _ _ _ (by omega)]
    exact getLsbD_ofBool_zero busy
  · rw [getLsbD_append_high _ _ _ (by omega), getLsbD_append_low _ _ _ (by omega)]
    exact getLsbD_ofBool_zero done
  · rw [getLsbD_append_high _ _ _ (by omega), getLsbD_append_high _ _ _ (by omega), getLsbD_append_low _ _ _ (by omega)]
    exact getLsbD_ofBool_zero err
  · rw [extract_append_high _ _ _ _ (by omega), extract_append_high _ _ _ _ (by omega),
      extract_append_high _ _ _ _ (by omega), extract_append_low _ _ _ _ (by omega)]
    exact BitVec.extractLsb'_eq_self
  · rw [extract_append_high _ _ _ _ (by omega), extract_append_high _ _ _ _ (by omega),
      extract_append_high _ _ _ _ (by omega), extract_append_high _ _ _ _ (by omega),
      extract_append_low _ _ _ _ (by omega)]
    exact BitVec.extractLsb'_eq_self
  · rw [getLsbD_append_high _ _ _ (by omega), getLsbD_append_high _ _ _ (by omega),
      getLsbD_append_high _ _ _ (by omega), getLsbD_append_high _ _ _ (by omega),
      getLsbD_append_high _ _ _ (by omega), getLsbD_append_low _ _ _ (by omega)]
    exact getLsbD_ofBool_zero valid
  · rw [getLsbD_append_high _ _ _ (by omega), getLsbD_append_high _ _ _ (by omega),
      getLsbD_append_high _ _ _ (by omega), getLsbD_append_high _ _ _ (by omega),
      getLsbD_append_high _ _ _ (by omega), getLsbD_append_high _ _ _ (by omega), getLsbD_append_low _ _ _ (by omega)]
    exact getLsbD_ofBool_zero kind
  · rw [extract_append_high _ _ _ _ (by omega), extract_append_high _ _ _ _ (by omega),
      extract_append_high _ _ _ _ (by omega), extract_append_high _ _ _ _ (by omega),
      extract_append_high _ _ _ _ (by omega), extract_append_high _ _ _ _ (by omega),
      extract_append_high _ _ _ _ (by omega)]
    exact BitVec.extractLsb'_eq_self

/-- Settles O13: STATUS is put together from its fields, and each is found at its place. -/
theorem statusAndFaultCodes : Obligations.StatusAndFaultCodes := by
  refine ⟨fun r p => ?_, rfl, rfl⟩
  have hcode : r.errCode = (r.fault.map FaultCode.number).getD 0#8 := by rw [Regs.errCode]; cases r.fault <;> rfl
  rw [← hcode]
  exact statusFields 0#14 (p.valid && p.kind == .d) p.valid r.errCode 0#5 r.fault.isSome r.done r.busy

/-! ### The register map (10 R21, 20 R61) -/

/-- The registers the host writes but for CMD_LO and CMD_HI, and those no write changes (10 R21). -/
def argumentOffsets : List Nat := [0x10, 0x14, 0x18, 0x1C, 0x20, 0x24, 0x4C, 0x5C]
def readOnlyOffsets : List Nat :=
  [0x08, 0x0C, 0x28, 0x2C, 0x30, 0x34, 0x38, 0x3C, 0x40, 0x44, 0x48, 0x50, 0x54, 0x58, 0x60, 0x64, 0x68,
    0x6C, 0x70, 0x74, 0x78, 0x7C]

theorem Regs.write_of_past (r : Regs) {offset : Nat} (v : Word) (h : 0x80 ≤ offset) : r.write offset v = r := by
  unfold Regs.write
  split
  case h_11 => rfl
  all_goals omega

theorem Regs.write_of_readOnly (r : Regs) {offset : Nat} (v : Word) (h : offset ∈ readOnlyOffsets) :
    r.write offset v = r := by
  revert offset
  simp [readOnlyOffsets, Regs.write]

theorem State.readRegister_of_past (s : State) {offset : Nat} (h : 0x80 ≤ offset) : s.readRegister offset = 0#32 := by
  unfold State.readRegister
  split
  case h_33 => rfl
  all_goals omega

theorem isPlanView_iff {offset : Nat} :
    isPlanView offset = true ↔ offset ∈ [0x38, 0x3C, 0x40, 0x44, 0x48, 0x50, 0x54, 0x58] := by
  rw [isPlanView, List.contains_iff_mem]

/-- LUT_SEL keeps bits 11:0 (10 R29). -/
theorem setWidth_extract_low (v : Word) : (v.extractLsb' 0 12).setWidth 32 = v &&& 0xFFF#32 := by
  refine BitVec.eq_of_toNat_eq ?_
  have : v.toNat &&& 4095 = v.toNat % 2 ^ 12 := Nat.and_two_pow_sub_one_eq_mod v.toNat 12
  simp [this]
  omega

section
variable {s : State} {offset : Nat}

theorem goodAccess_word (h : offset % 4 = 0) : goodAccess offset 32 = true := by
  rw [goodAccess, h]; rfl

theorem State.hostRegWrite_word (v : Word) (h : offset % 4 = 0) (ho : offset ≠ 0x04) :
    s.hostRegWrite offset 32 v = .next (s.setRegs (s.regs.write offset v)) := by
  rw [State.hostRegWrite, goodAccess_word h, if_neg (by decide), if_neg ho]

theorem State.hostRegWrite_cmdHi (v : Word) (hb : s.regs.busy = false) :
    s.hostRegWrite 0x04 32 v = (s.setRegs { s.regs with cmdHi := v }).issue := by
  rw [State.hostRegWrite, goodAccess_word rfl, if_neg (by decide), if_pos rfl, if_neg (by rw [hb]; decide)]
  rfl

theorem State.hostRegRead_word (h : offset % 4 = 0) (hv : s.regs.busy = false ∨ isPlanView offset = false) :
    s.hostRegRead offset 32 = .next (s.setHostRead (s.readRegister offset)) := by
  rw [State.hostRegRead, goodAccess_word h, if_neg (by decide), if_neg]
  rcases hv with hv | hv <;> simp [hv]

/-- An argument register reads back what was written and no other register changes (10 R25, R28, R29). -/
theorem State.readRegister_write (v : Word) (h : offset ∈ argumentOffsets) :
    (s.setRegs (s.regs.write offset v)).readRegister offset = (if offset = 0x5C then v &&& 0xFFF#32 else v) ∧
      (∀ o ∈ [0x00, 0x04, 0x0C, 0x10, 0x14, 0x18, 0x1C, 0x20, 0x24, 0x28, 0x2C, 0x30, 0x34, 0x4C, 0x5C], o ≠ offset →
        (s.setRegs (s.regs.write offset v)).readRegister o = s.readRegister o) ∧
      (s.setRegs (s.regs.write offset v)).readRegister 0x08 = s.readRegister 0x08 := by
  revert offset
  simp only [argumentOffsets, List.forall_mem_cons]
  simp [State.readRegister, Regs.write, setWidth_extract_low, statusWord, Regs.errCode]

end

/-- Settles O15: a register access is decided by its width and its offset alone. -/
theorem registerAccessRules : Obligations.RegisterAccessRules := by
  intro s offset width v
  refine ⟨fun hbad => ?_, fun halign hpast => ?_, fun hro => ?_, fun harg => ?_, rfl, rfl, rfl, rfl, fun hb hview => ?_,
    fun hfree hin halign => ?_, ?_, fun d hv hsel hd => ?_, fun hnone => ?_, fun hk => ?_, fun hk => ?_⟩
  · have hgood : goodAccess offset width = false := by
      rw [goodAccess, Bool.and_eq_false_iff, beq_eq_false_iff_ne, beq_eq_false_iff_ne]
      exact hbad
    rw [State.hostRegWrite, State.hostRegRead, hgood]
    exact ⟨rfl, rfl⟩
  · have hview : isPlanView offset = false := by
      rw [← Bool.not_eq_true, isPlanView_iff]
      simp; omega
    rw [State.hostRegWrite_word v halign (by omega), State.hostRegRead_word halign (.inr hview),
      Regs.write_of_past _ v hpast, State.readRegister_of_past s hpast]
    exact ⟨rfl, rfl⟩
  · have halign : offset % 4 = 0 ∧ offset ≠ 0x04 := by revert offset; decide
    rw [State.hostRegWrite_word v halign.1 halign.2, Regs.write_of_readOnly _ v hro]
    rfl
  · have halign : offset % 4 = 0 ∧ offset ≠ 0x04 := by revert offset; decide
    exact ⟨_, State.hostRegWrite_word v halign.1 halign.2, rfl, State.readRegister_write v harg⟩
  · have halign : offset % 4 = 0 := by revert offset; decide
    rw [State.hostRegRead, goodAccess_word halign, if_neg (by decide), if_pos (by rw [hb, isPlanView_iff.mpr hview]; rfl)]
    rfl
  · rw [← isPlanView_iff, Bool.not_eq_true] at hfree
    exact State.hostRegRead_word halign hfree
  · cases hv : s.plan.valid <;> simp [State.readRegister, Plan.view, hv]
  · simp [State.readRegister, State.selectedDesc, hv, hsel, hd]
  · have : (s.plan.valid && decide (s.regs.descSel.toNat < s.plan.blockCount.toNat)) = false := by
      rw [← Bool.not_eq_true, Bool.and_eq_true, decide_eq_true_eq]
      exact hnone
    simp [State.readRegister, State.selectedDesc, this]
  · intro lut e
    have hsel : s.selectedLut = if lut.generated then e else {} := dif_pos hk
    simp only [List.map_cons, List.map_nil, State.readRegister, hsel]
    cases lut.generated <;> rfl
  · have hsel : s.selectedLut = {} := dif_neg (Nat.not_lt.mpr hk)
    simp only [List.map_cons, List.map_nil, State.readRegister, hsel]
    rfl

/-! ### The command registers (10 R22) -/

/-- No command writes a register the host writes (10 R22, R25, R28, R29). -/
theorem exec_readRegister {i : Instr} {s t : State} (h : exec i s = .next t) :
    ∀ o ∈ [0x00, 0x04, 0x10, 0x14, 0x18, 0x1C, 0x20, 0x24, 0x4C, 0x5C], t.readRegister o = s.readRegister o := by
  cases hk : i.context? with
  | none =>
    obtain ⟨-, -, -, -, -, -, -, hread, -⟩ := orchestrationFrame i s t hk h
    exact hread
  | some k =>
    by_cases hlt : k.toNat < 4
    · exact (primitiveFrame i k s t hlt hk h).2.1
    · rw [exec_of_missing_context hk (Nat.not_lt.mp hlt)] at h
      cases h
      exact s.readRegister_withResults _ _ _ _ _ _ _ _ _ rfl

/-- The three ends of an issue (10 R22, 30 R95, 20 R75). -/
theorem State.issue_cases (s : State) :
    (∀ i, decode (s.regs.cmdHi ++ s.regs.cmdLo) = .ok i → s.storesToLiveSource i = false → s.issue = exec i s) ∧
      (∀ i, decode (s.regs.cmdHi ++ s.regs.cmdLo) = .ok i → s.storesToLiveSource i = true →
        s.issue = .refused .hostWriteToLiveRange) ∧
      (∀ e, decode (s.regs.cmdHi ++ s.regs.cmdLo) = .error e →
        s.issue = .next (s.failedOnly .illegalCommand 0xFFFFFFFF#32)) := by
  rw [State.issue, commandWord]
  refine ⟨fun i hi hl => ?_, fun i hi hl => ?_, fun e he => ?_⟩
  · rw [hi]
    exact if_neg (by rw [hl]; exact Bool.false_ne_true)
  · rw [hi]
    exact if_pos hl
  · rw [he]
    rfl

theorem State.issue_readRegister {s t : State} (h : s.issue = .next t) :
    ∀ o ∈ [0x00, 0x04, 0x10, 0x14, 0x18, 0x1C, 0x20, 0x24, 0x4C, 0x5C], t.readRegister o = s.readRegister o := by
  obtain ⟨e, -, rfl⟩ | ⟨i, -, -, hexec⟩ := State.issue_next h
  · exact s.readRegister_withResults _ _ _ _ _ _ _ _ _ rfl
  · exact exec_readRegister hexec

/-- Settles O6: the write issues the word of the two registers, which no command writes. -/
theorem commandRegisters : Obligations.CommandRegisters := by
  intro s v lo hi
  refine ⟨rfl, rfl, fun hb => ?_, fun hb => ?_⟩
  · rw [State.hostRegWrite, goodAccess_word rfl, if_neg (by decide), if_pos rfl, if_pos hb]
  · rw [State.hostRegWrite_cmdHi v hb]
    obtain ⟨hrun, hlive, herror⟩ := hi.issue_cases
    refine ⟨hrun, hlive, herror, fun t ht => ?_⟩
    have hread := State.issue_readRegister ht
    exact ⟨hread 0x04 (by decide), hread 0x00 (by decide)⟩

/-! ### The steps (42 R174) -/

theorem State.hostReady_iff {s : State} :
    s.hostReady = true ↔ ∃ h rest, s.inputs = h :: rest ∧ (h = .await → s.regs.busy = false) := by
  rw [State.hostReady]
  split
  · next hi => simp [hi]
  · next rest hi => simp [hi]
  all_goals next hi => simp [hi]

theorem step_of_pick {s u : State} {a : Agent} (h : s.pick = some (a, u)) :
    u = { s with sched := u.sched, draws := u.draws } ∧ step s = u.runAgent a := by
  obtain ⟨-, sc, d, rfl⟩ := State.pick_some h
  exact ⟨rfl, by rw [step, h]⟩

theorem step_of_host {s u : State} {x : HostStep} {rest : List HostStep} (hpick : s.pick = some (.host, u))
    (hi : s.inputs = x :: rest) : step s = ({ u with turn := .host, inputs := rest } : State).hostStep x := by
  obtain ⟨hu, hstep⟩ := step_of_pick hpick
  have hi' : u.inputs = x :: rest := by rw [hu]; exact hi
  rw [hstep, State.runAgent, State.runHost, State.setTurn_inputs, hi']
  rfl

/-- Settles O7: the step of the host is its first coming step, and a write of CMD_HI issues the word. -/
theorem stepRunsIssuedCommand : Obligations.StepRunsIssuedCommand := by
  refine ⟨fun s => State.hostReady_iff, fun s u x rest hpick hi => ⟨(step_of_pick hpick).1, ?_⟩,
    fun s u v rest hpick hi hb => ?_⟩
  · rw [step_of_host hpick hi]
    cases x <;> rfl
  · intro t
    obtain ⟨hu, -⟩ := step_of_pick hpick
    have hregs : u.regs = s.regs := by rw [hu]
    have hstep : step s = t.issue := by
      rw [step_of_host hpick hi]
      exact (State.hostRegWrite_cmdHi v (by rw [← hregs] at hb; exact hb)).trans (by rw [hregs]; rfl)
    have hword : v ++ s.regs.cmdLo = t.regs.cmdHi ++ t.regs.cmdLo := rfl
    rw [hstep, hword]
    exact t.issue_cases

/-- Settles O8: the step of a job is the command its program holds, that of the controller the join. -/
theorem stepRunsJobMicroOperation : Obligations.StepRunsJobMicroOperation := by
  refine ⟨fun s u b j i h hpick hj hdec hmicro => ?_, fun s u hpick => step_of_pick hpick, fun s hpick => ?_⟩
  · obtain ⟨hu, hstep⟩ := step_of_pick hpick
    refine ⟨hu, hstep.trans ?_⟩
    have hj' : (u.setTurn (.job b)).job? b = some j := by rw [hu]; exact hj
    have hw : j.word? = some (j.prog[j.pc.val]) := Vector.getElem?_eq_getElem h
    simp only [State.runAgent, State.runJob, hj', hw, hdec, hmicro, if_true]
    rfl
  · rw [step, hpick]

/-! ### WBIND and RBIND (40 R120, R127) -/

/-- Settles O16: the one check is the bound written out. -/
theorem bindCommands : Obligations.BindCommands := by
  intro k s h
  have hw : exec (.wbind k) s = s.primitive [⟨s.regs.dstBuffer.legal, .sizeOverflow⟩]
      fun t => .next (t.setWriter ⟨k.toNat, h⟩ t.regs.dstBuffer) := by
    rw [exec, execWbind, State.withContext_of_lt h]
  have hr : exec (.rbind k) s = s.primitive [⟨s.regs.srcBuffer.legal, .sizeOverflow⟩]
      fun t => .next (t.setReader ⟨k.toNat, h⟩ t.regs.srcBuffer) := by
    rw [exec, execRbind, State.withContext_of_lt h]
  rw [hw, hr]
  refine ⟨fun hle => ?_, fun hlt => ?_, fun hle => ?_, fun hlt => ?_⟩
  · exact State.primitive_of_checks (List.forall_mem_singleton.mpr (decide_eq_true hle))
  · exact State.primitive_of_first_check (mt of_decide_eq_true (Nat.not_le.mpr hlt))
  · exact State.primitive_of_checks (List.forall_mem_singleton.mpr (decide_eq_true hle))
  · exact State.primitive_of_first_check (mt of_decide_eq_true (Nat.not_le.mpr hlt))

/-! ### Reset (70 R250, R252) -/

/-- The bytes a reset leaves with any value are those of the destination of an aborted command (70 R252). -/
theorem State.afterReset_read (s : State) {a : Nat}
    (h : ¬ ((s.controller.phase = .encode ∨ s.controller.phase = .decode) ∧
      s.controller.dstBase.toNat ≤ a ∧ a < s.controller.dstBase.toNat + s.plan.outSize.toNat)) :
    Memory.read s.afterReset.mem a = Memory.read s.mem a := by
  refine Memory.read_writeBytes_other _ _ _ _ ?_
  rw [List.length_map, List.length_range, State.abortedBytes]
  cases hp : s.controller.phase <;> simp only [hp] at h ⊢ <;> simp at h <;> omega

/-- Settles O60: every part of the core is that of the reset state, and no register of it reads anything else. -/
theorem resetValues : Obligations.ResetValues := by
  intro s hwf
  have hctx : ∀ (k : Nat) (hk : k < 4), s.afterReset.ctx[k] = {} := fun k hk => Vector.getElem_replicate hk
  have hstatus : statusWord s.afterReset.regs s.afterReset.plan = 0#32 :=
    show statusWord {} {} = 0#32 by decide
  have hlut : s.afterReset.selectedLut = {} := by
    rw [State.selectedLut]
    dsimp only
    split
    · rw [hctx]; rfl
    · rfl
  refine ⟨s.afterReset, rfl, fun offset => ?_, rfl, rfl, rfl, rfl, rfl, rfl, fun k hk => ?_, fun a ha => s.afterReset_read ha⟩
  · unfold State.readRegister
    split
    case h_33 _ _ h6c h70 _ _ h7c => rw [if_neg h6c, if_neg h70, if_neg h7c]
    case h_3 => exact hstatus
    case h_25 | h_26 | h_27 => rw [hlut]; rfl
    all_goals rfl
  · rw [hctx]
    refine ⟨rfl, rfl, rfl, rfl, fun v => Vector.getElem_replicate _, rfl⟩

end Sys2Proof.Machine
end

section
/-! PROOF. The container (20 R79, R80): the header and directory COMPRESS writes (43 R195), and every outcome of PREPD (43 R198 to R200, R209). -/

namespace Sys2Proof.Machine

/-! ### COMPRESS (43 R195) -/

/-- The bytes of a u32 read from MEM, lowest first (20 R63). -/
theorem Memory.bytes_of_read32LE {m : Memory} {a : Nat} {v : Word} (h : Memory.read32LE m a = v) :
    (List.range 4).map (fun j => Memory.read m (a + j)) = bytesLE v := by
  subst h
  have hbyte : ∀ x3 x2 x1 x0 : Byte, bytesLE (x3 ++ x2 ++ x1 ++ x0) = [x0, x1, x2, x3] := fun x3 x2 x1 x0 => by
    simp only [bytesLE, List.cons.injEq, and_true]
    refine ⟨?_, ?_, ?_, ?_⟩
    · rw [extract_append_low _ _ _ _ (by omega)]; exact BitVec.extractLsb'_eq_self
    · rw [extract_append_high _ _ _ _ (by omega), extract_append_low _ _ _ _ (by omega)]
      exact BitVec.extractLsb'_eq_self
    · rw [extract_append_high _ _ _ _ (by omega), extract_append_high _ _ _ _ (by omega),
        extract_append_low _ _ _ _ (by omega)]
      exact BitVec.extractLsb'_eq_self
    · rw [extract_append_high _ _ _ _ (by omega), extract_append_high _ _ _ _ (by omega),
        extract_append_high _ _ _ _ (by omega)]
      exact BitVec.extractLsb'_eq_self
  exact (hbyte ..).symm

/-- Entry `i` of a directory (20 R80). -/
theorem Memory.HoldsDirectory.entry {m : Memory} {a i : Nat} {ds : List Desc} {d : Desc}
    (h : Memory.HoldsDirectory m a ds) (hd : ds[i]? = some d) : Memory.HoldsEntry m (a + 12 * i) d := by
  induction ds generalizing a i with
  | nil => cases hd
  | cons d' ds ih =>
    cases i with
    | zero => cases hd; exact h.1
    | succ i =>
      have := ih (i := i) h.2 hd
      rwa [Nat.add_assoc, Nat.add_comm 12, ← Nat.mul_succ] at this

/-- The directory is written in its own bytes. -/
theorem read_writeDirectory_other (m : Memory) {a b : Nat} (ds : List Desc) (h : b < a ∨ a + 12 * ds.length ≤ b) :
    Memory.read (writeDirectory m a ds) b = Memory.read m b := by
  induction ds generalizing m a with
  | nil => rfl
  | cons d ds ih =>
    rw [List.length_cons] at h
    rw [writeDirectory, ih _ (by simp only [Config.dirEntry]; omega), read_writeEntry_other _ _ (by omega)]

/-- The header and directory are written in their own bytes (43 R195). -/
theorem read_writeHeader_other (m : Memory) {a b : Nat} (p : Plan) (h : b < a ∨ a + (16 + 12 * p.desc.length) ≤ b) :
    Memory.read (writeHeader m a p) b = Memory.read m b := by
  rw [writeHeader]
  refine (read_writeDirectory_other _ _ (by simp only [Config.hdrFixed]; omega)).trans ?_
  rw [Memory.read_write32LE_other _ _ _ _ (by omega), Memory.read_write32LE_other _ _ _ _ (by omega),
    Memory.read_write32LE_other _ _ _ _ (by omega), Memory.read_write32LE_other _ _ _ _ (by omega)]

/-- Settles O51: MEM holds the header written to it, whose size is that of the plan. -/
theorem compressWritesTheHeader : Obligations.CompressWritesTheHeader := by
  intro s t h _ hcompress hbusy dst rd
  obtain ⟨hvalid, hkind, -, -, hmem⟩ := exec_compress_started hcompress hbusy
  have hp := h.compression_of_valid hvalid hkind
  have hheld : Memory.HoldsHeader t.mem dst s.plan := hmem ▸ holdsHeader_writeHeader dst s.plan h.memory
  refine ⟨Memory.bytes_of_read32LE hheld.magic, hheld.blockCount, hheld.blockSize, hheld.headerSize,
    (congrArg BitVec.toNat hheld.headerSize).trans hp.headerSize, fun i d hd => ?_, fun a ha => ?_⟩
  · obtain ⟨hdsize, hcsize, hoffset⟩ := hheld.directory.entry hd
    rw [Nat.add_assoc dst 16] at hdsize hcsize hoffset
    exact ⟨hdsize, hcsize, hoffset⟩
  · rw [hp.headerSize, ← hp.length] at ha
    rw [hmem]
    exact read_writeHeader_other _ _ (by omega)

/-! ### PREPD (43 R198 to R200) -/

/-- The directory entry at an address (20 R80). -/
def Memory.entryAt (m : Memory) (a : Nat) : Desc where
  dsize := Memory.read32LE m a
  csize := Memory.read32LE m (a + 4)
  offset := Memory.read32LE m (a + 8)

/-- The first `n` entries of the directory at `a`. -/
def Memory.entries (m : Memory) (a n : Nat) : List Desc := (List.range n).map fun i => Memory.entryAt m (a + 12 * i)

theorem Memory.entries_succ (m : Memory) (a n : Nat) :
    Memory.entries m a (n + 1) = Memory.entryAt m a :: Memory.entries m (a + 12) n := by
  rw [Memory.entries, List.range_succ_eq_map, List.map_cons, List.map_map]
  exact congrArg (Memory.entryAt m a :: ·) (List.map_congr_left fun i _ =>
    congrArg (Memory.entryAt m) (show a + 12 * (i + 1) = a + 12 + 12 * i by omega))

theorem Memory.holdsDirectory_entries (m : Memory) (a n : Nat) :
    Memory.HoldsDirectory m a (Memory.entries m a n) := by
  induction n generalizing a with
  | zero => trivial
  | succ n ih =>
    rw [Memory.entries_succ]
    exact ⟨⟨rfl, rfl, rfl⟩, ih (a + 12)⟩

/-- The region of the entry at `a` lies in a container of `n` bytes (43 R200). -/
def Memory.entryInside (m : Memory) (hs n a : Nat) : Prop :=
  hs + (Memory.read32LE m (a + 8)).toNat + (Memory.read32LE m (a + 4)).toNat ≤ n

/-- The first entry outside the container stops the directory read, with its index (43 R200). -/
theorem readDirectory_error {m : Memory} {hs n q remaining a : Nat} (hq : q < remaining)
    (hbefore : ∀ r < q, Memory.entryInside m hs n (a + 12 * r)) (hout : ¬ Memory.entryInside m hs n (a + 12 * q))
    (i doff : Nat) : readDirectory m hs n remaining i a doff = .error ⟨.truncatedInput, u32 (i + q)⟩ := by
  induction q generalizing remaining a i doff with
  | zero =>
    obtain ⟨remaining, rfl⟩ := Nat.exists_eq_succ_of_ne_zero (Nat.ne_of_gt hq)
    exact if_pos (Nat.lt_of_not_le hout)
  | succ q ih =>
    obtain ⟨remaining, rfl⟩ := Nat.exists_eq_succ_of_ne_zero (Nat.ne_of_gt (Nat.zero_lt_of_lt hq))
    have hshift : ∀ r, a + 12 * (r + 1) = a + 12 + 12 * r := fun r => by omega
    have hrest := ih (remaining := remaining) (a := a + 12) (Nat.lt_of_succ_lt_succ hq)
      (fun r hr => hshift r ▸ hbefore (r + 1) (Nat.succ_lt_succ hr)) (hshift q ▸ hout) (i + 1)
      (doff + (Memory.read32LE m a).toNat)
    have hin := hbefore 0 (Nat.succ_pos q)
    rw [readDirectory]
    refine (if_neg (Nat.not_lt.mpr hin)).trans ?_
    simp only [Config.dirEntry, hrest, Nat.add_assoc, Nat.add_comm 1]

/-- The output bytes of the first `i` entries (43 R200). -/
def Memory.entrySizes (m : Memory) (a i : Nat) : Nat :=
  ((List.range i).map fun q => (Memory.read32LE m (a + 12 * q)).toNat).sum

theorem sizeSum_entries (m : Memory) (a : Nat) {i n : Nat} (h : i ≤ n) :
    sizeSum Desc.dsize (Memory.entries m a n) i = Memory.entrySizes m a i := by
  rw [sizeSum, Memory.entries, ← List.map_take, List.take_range, Nat.min_eq_left h, List.map_map]
  rfl

/-- A directory whose regions all lie in the container is read whole, each output offset the sum of the sizes before it
(43 R200). -/
theorem readDirectory_ok {m : Memory} {hs n a bc : Nat} (hin : ∀ i < bc, Memory.entryInside m hs n (a + 12 * i)) :
    readDirectory m hs n bc 0 a 0 = .ok ((List.range bc).map (fun i =>
      { Memory.entryAt m (a + 12 * i) with doff := u32 (Memory.entrySizes m a i) }), Memory.entrySizes m a bc) := by
  have hlen : (Memory.entries m a bc).length = bc := by rw [Memory.entries, List.length_map, List.length_range]
  have hread := readDirectory_eq (hs := hs) (n := n) (m.holdsDirectory_entries a bc) (fun d hd => by
    obtain ⟨i, hi, rfl⟩ := List.mem_map.mp hd
    exact hin i (List.mem_range.mp hi)) 0 0
  rw [hlen, sizeSum_entries m a (Nat.le_refl bc), Nat.zero_add] at hread
  rw [hread]
  refine congrArg (fun ds => Except.ok (ds, Memory.entrySizes m a bc)) (List.ext_getElem ?_ fun i hi hi' => ?_)
  · rw [readDescs, List.length_mapIdx, hlen, List.length_map, List.length_range]
  · rw [List.length_map, List.length_range] at hi'
    simp only [readDescs, List.getElem_mapIdx, sizeSum_entries m a (Nat.le_of_lt hi'), Nat.zero_add, List.getElem_map,
      List.getElem_range]
    simp only [Memory.entries, List.getElem_map, List.getElem_range]
    rfl

section
variable {s : State}

/-- A PREPD that cannot make its plan drops the one held (43 R199). -/
theorem exec_prepd_of_error {f : Failure} (h : prepdPlan s.params.memSize s.mem s.regs = .error f) :
    exec .prepd s = .next (s.failedDropping f.code f.info) := by
  rw [exec, execPrepd, h]
  rfl

theorem exec_prepd_of_check {e : FaultCode} (h : firstFailure (headerChecks s.params.memSize s.mem s.regs) = some e) :
    exec .prepd s = .next (s.failedDropping e noBlock) :=
  exec_prepd_of_error (f := ⟨e, noBlock⟩) (by rw [prepdPlan, h])

/-- The plan of a directory that is read whole (43 R200). -/
theorem prepdPlan_of_directory {ds : List Desc} {total : Nat}
    (hchecks : firstFailure (headerChecks s.params.memSize s.mem s.regs) = none)
    (hread : readDirectory s.mem (Memory.read32LE s.mem (s.regs.srcBase.toNat + 12)).toNat s.regs.srcSize.toNat
      (Memory.read32LE s.mem (s.regs.srcBase.toNat + 4)).toNat 0 (s.regs.srcBase.toNat + 16) 0 = .ok (ds, total)) :
    prepdPlan s.params.memSize s.mem s.regs =
      if total ≥ u32Limit then .error ⟨.sizeOverflow, noBlock⟩
      else .ok { valid := true, kind := .d, srcBase := s.regs.srcBase, srcSize := s.regs.srcSize,
                 inSize := s.regs.srcSize, outSize := u32 total,
                 blockSize := Memory.read32LE s.mem (s.regs.srcBase.toNat + 8),
                 blockCount := Memory.read32LE s.mem (s.regs.srcBase.toNat + 4),
                 headerSize := Memory.read32LE s.mem (s.regs.srcBase.toNat + 12), desc := ds } := by
  simp only [prepdPlan, hchecks, Config.hdrFixed, hread]

end

/-- Settles O49: the checks one after the other, then the directory up to its first entry outside, then the sum. -/
theorem prepdReadsTheContainer : Obligations.PrepdReadsTheContainer := by
  intro s b n rd bc hs inside sizes fails
  have hfail : ∀ {e}, firstFailure (headerChecks s.params.memSize s.mem s.regs) = some e → fails e 0xFFFFFFFF#32 :=
    fun h => exec_prepd_of_check h
  have hchecks : headerChecks s.params.memSize s.mem s.regs =
      [⟨decide (b + n ≤ 4294967296), .sizeOverflow⟩, ⟨decide (16 ≤ n), .truncatedInput⟩,
        ⟨decide (b + n ≤ s.params.memSize), .busError⟩, ⟨rd b == 0x1234#32, .invalidMagic⟩,
        ⟨decide (hs = 16 + 12 * bc), .headerSizeMismatch⟩, ⟨decide (hs ≤ n), .truncatedInput⟩] := rfl
  rw [hchecks] at hfail
  refine ⟨fun h1 => hfail ?_, fun h1 h2 => hfail ?_, fun h1 h2 h3 => hfail ?_, fun h1 h2 h3 =>
    ⟨fun h4 => hfail ?_, fun h4 h5 => hfail ?_, fun h4 h5 h6 => hfail ?_, fun h4 h5 h6 => ?_⟩⟩
  · simp [firstFailure, Nat.not_le.mpr h1]
  · simp [firstFailure, h1, Nat.not_le.mpr h2]
  · simp [firstFailure, h1, h2, Nat.not_le.mpr h3]
  · simp [firstFailure, h1, h2, h3, h4]
  · simp [firstFailure, h1, h2, h3, h4, h5]
  · rw [h5] at h6
    simp [firstFailure, h1, h2, h3, h4, h5, Nat.not_le.mpr h6]
  · have hpass : firstFailure (headerChecks s.params.memSize s.mem s.regs) = none := by
      rw [hchecks, firstFailure_none]
      rw [h5] at h6
      simp [h1, h2, h3, h4, h5, h6]
    refine ⟨fun i hi hbefore hout => ?_, fun hin hsum => ?_, fun hin hsum => ?_⟩
    · have hread := readDirectory_error (m := s.mem) (hs := hs) (n := n) (a := b + 16) hi hbefore hout 0 0
      rw [Nat.zero_add] at hread
      exact exec_prepd_of_error (f := ⟨.truncatedInput, u32 i⟩) (by
        simp only [prepdPlan, hpass, Config.hdrFixed]
        rw [hread])
    · have hplan := prepdPlan_of_directory hpass (readDirectory_ok hin)
      exact exec_prepd_of_error (hplan.trans (if_pos hsum))
    · have hplan := prepdPlan_of_directory hpass (readDirectory_ok hin)
      exact exec_prepd_of_plan (hplan.trans (if_neg (Nat.not_le.mpr hsum)))

end Sys2Proof.Machine
end

section
/-! PROOF. The host's duties to MEM (20 R60, R75; 70 R256): its own bytes, its commands that store, and the source of a held compression plan, which no step changes. -/

namespace Sys2Proof.Machine

theorem inRange_iff {a base n : Nat} : inRange a base n = true ↔ base ≤ a ∧ a < base + n := by
  rw [inRange, Bool.and_eq_true, decide_eq_true_eq, decide_eq_true_eq]

/-- The source is not the host's to write while a command runs, and while a compression plan is held (20 R75). -/
theorem State.sourceLive_iff {s : State} :
    s.sourceLive = true ↔ s.regs.busy = true ∨ s.plan.valid = true ∧ s.plan.kind = .c := by
  rw [State.sourceLive, Bool.or_eq_true, Bool.and_eq_true, beq_iff_eq]

/-! ### The host's own bytes -/

section
variable {s : State} {a : Nat}

theorem State.liveSource_iff :
    s.liveSource a = true ↔ (s.regs.busy = true ∨ s.plan.valid = true ∧ s.plan.kind = .c) ∧
      s.plan.srcBase.toNat ≤ a ∧ a < s.plan.srcBase.toNat + s.plan.srcSize.toNat := by
  rw [State.liveSource, Bool.and_eq_true, State.sourceLive_iff, inRange_iff]

theorem State.liveDestination_iff :
    s.liveDestination a = true ↔ s.regs.busy = true ∧
      s.controller.dstBase.toNat ≤ a ∧ a < s.controller.dstBase.toNat + s.plan.outSize.toNat := by
  rw [State.liveDestination, Bool.and_eq_true, inRange_iff]

theorem State.hostMem_of_absent (ha : s.params.memSize ≤ a) (v : Byte) :
    s.hostMemWrite a v = .fault .noSuchAddress ∧ s.hostMemRead a = .fault .noSuchAddress :=
  ⟨if_pos (Nat.not_lt.mpr ha), if_pos (Nat.not_lt.mpr ha)⟩

variable (ha : a < s.params.memSize)
include ha

theorem State.hostMemWrite_of_live (v : Byte) (hlive : s.liveSource a = true ∨ s.liveDestination a = true) :
    s.hostMemWrite a v = .refused .hostWriteToLiveRange :=
  (if_neg (not_not_intro ha)).trans (if_pos (Bool.or_eq_true_iff.mpr hlive))

theorem State.hostMemWrite_of_free (v : Byte) (hfree : ¬ (s.liveSource a = true ∨ s.liveDestination a = true)) :
    s.hostMemWrite a v = .next { s with mem := Memory.write s.mem a v } :=
  (if_neg (not_not_intro ha)).trans (if_neg (mt Bool.or_eq_true_iff.mp hfree))

theorem State.hostMemRead_of_live (hlive : s.liveDestination a = true) :
    s.hostMemRead a = .next { s with hostRead := (Config.freeByte s.draws).setWidth 32, draws := s.draws + 1 } :=
  (if_neg (not_not_intro ha)).trans (if_pos hlive)

theorem State.hostMemRead_of_free (hfree : ¬ s.liveDestination a = true) :
    s.hostMemRead a = .next { s with hostRead := (Memory.read s.mem a).setWidth 32 } :=
  (if_neg (not_not_intro ha)).trans (if_neg hfree)

end

/-! ### The commands that store (20 R75, 40 R119) -/

/-- The bytes touched are those of the `n` bits. -/
theorem Cursor.touches_iff {c : Cursor} {n a : Nat} :
    c.touches n a = true ↔ ∃ j < n, a = c.base.toNat + (c.pos + j) / 8 := by
  simp only [Cursor.touches, Bool.and_eq_true, bne_iff_ne, decide_eq_true_eq]
  simp only [Cursor.addrOf]
  constructor
  · rintro ⟨⟨hn, hfrom⟩, hto⟩
    exact ⟨max (8 * (a - c.base.toNat)) c.pos - c.pos, by omega, by omega⟩
  · rintro ⟨j, hj, rfl⟩
    exact ⟨⟨by omega, by omega⟩, by omega⟩

/-- A store behind the checks `cs` passes them, its bits fit and exist, and one of them is in a byte of the source. -/
theorem State.storesToSource_append {s : State} {cs : List Check} {c : Cursor} {n : Nat} :
    s.storesToSource (cs ++ s.storeChecks c n) c n = true ↔
      (∀ d ∈ cs, d.holds = true) ∧ c.pos + n ≤ 8 * c.len.toNat ∧
        c.base.toNat + (c.pos + n - 1) / 8 < s.params.memSize ∧
        ∃ j < n, s.plan.srcBase.toNat ≤ c.base.toNat + (c.pos + j) / 8 ∧
          c.base.toNat + (c.pos + j) / 8 < s.plan.srcBase.toNat + s.plan.srcSize.toNat := by
  rw [State.storesToSource_iff, firstFailure_none, List.forall_mem_append, State.storeChecks, List.forall_mem_cons,
    List.forall_mem_singleton]
  simp only [Cursor.touches_iff, inRange_iff]
  constructor
  · rintro ⟨⟨hcs, hfits, hmem⟩, hn, a, ⟨j, hj, rfl⟩, hin⟩
    exact ⟨hcs, Cursor.fits_iff.mp hfits hn, Cursor.memOk_iff.mp hmem hn, j, hj, hin⟩
  · rintro ⟨hcs, hfits, hmem, j, hj, hin⟩
    exact ⟨⟨hcs, Cursor.fits_iff.mpr fun _ => hfits, Cursor.memOk_iff.mpr fun _ => hmem⟩, Nat.ne_of_gt (Nat.zero_lt_of_lt hj),
      _, ⟨j, hj, rfl⟩, hin⟩

section
variable {s : State} {k : BitVec 4} (h : k.toNat < 4)
include h

theorem State.storesToLiveSource_wbit (v : Bool) :
    s.storesToLiveSource (.wbit k v) =
      (s.sourceLive && s.storesToSource ([] ++ s.storeChecks s.ctx[k.toNat].w 1) s.ctx[k.toNat].w 1) :=
  congrArg (s.sourceLive && ·) (dif_pos h)

theorem State.storesToLiveSource_wbits (v : Word) (n : BitVec 6) :
    s.storesToLiveSource (.wbits k v n) = (s.sourceLive && s.storesToSource
      ([⟨decide (n.toNat ≤ 32), .bitCountRange⟩] ++ s.storeChecks s.ctx[k.toNat].w n.toNat) s.ctx[k.toNat].w n.toNat) :=
  congrArg (s.sourceLive && ·) (dif_pos h)

theorem State.storesToLiveSource_twrite :
    s.storesToLiveSource (.twrite k) = (s.sourceLive && s.storesToSource
      ([⟨s.ctx[k.toNat].tree.built, .notReady⟩] ++ s.storeChecks s.ctx[k.toNat].w s.ctx[k.toNat].tree.treeBits)
      s.ctx[k.toNat].w s.ctx[k.toNat].tree.treeBits) :=
  congrArg (s.sourceLive && ·) (dif_pos h)

end

/-! ### The source of a held compression plan (20 R75) -/

/-- The state holds a compression plan and is as the invariant asks: no phase runs. -/
structure State.HoldsPlanC (s : State) : Prop where
  valid : s.plan.valid = true
  kind : s.plan.kind = .c
  idle : s.controller.phase = .idle
  jobs : s.jobs = []
  plan : s.plan.Compression s.params.memSize
  memory : Memory.wf s.mem = true
  trees : ∀ k : Fin 4, s.ctx[k].tree.wf = true

theorem State.Inv.holdsPlanC {s : State} (h : s.Inv) (hv : s.plan.valid = true) (hk : s.plan.kind = .c) :
    s.HoldsPlanC := by
  have hidle : s.controller.phase = .idle := Classical.byContradiction fun hp => by
    rw [State.plan_not_valid h.control hp] at hv
    cases hv
  obtain ⟨-, hjobs, -⟩ := State.controlOk_iff.mp h.control
  rw [State.jobsOk, if_pos hidle, List.isEmpty_iff] at hjobs
  exact ⟨hv, hk, hidle, hjobs, h.compression_of_valid hv hk, h.memory, fun k => Context.tree_wf (h.contexts k)⟩

/-- `a` is a byte of the plan's source. -/
def State.inSource (s : State) (a : Nat) : Prop :=
  s.plan.srcBase.toNat ≤ a ∧ a < s.plan.srcBase.toNat + s.plan.srcSize.toNat

section
variable {s t : State} {a : Nat} (h : s.HoldsPlanC) (ha : s.inSource a)
include h ha

/-- A store of bits that is none to a live source leaves the byte as it is. -/
theorem State.HoldsPlanC.read_putAll {c : Cursor} {bits : List Bool} {cs : List Check} {m : Memory}
    (hwf : Memory.wf m = true) (hchecks : firstFailure (cs ++ s.storeChecks c bits.length) = none)
    (hlive : (s.sourceLive && s.storesToSource (cs ++ s.storeChecks c bits.length) c bits.length) = false) :
    Memory.read (putAll m c bits).1 a = Memory.read m a := by
  have hall := firstFailure_none.mp hchecks
  have hfits : c.fits bits.length = true := hall _ (List.mem_append_right cs List.mem_cons_self)
  rw [State.sourceLive_iff.mpr (.inr ⟨h.valid, h.kind⟩), Bool.true_and] at hlive
  refine putAll_read_untouched hwf hfits (eq_false_of_ne_true fun htouch => ?_)
  have hn : bits.length ≠ 0 := by
    obtain ⟨j, hj, -⟩ := Cursor.touches_iff.mp htouch
    exact Nat.ne_of_gt (Nat.zero_lt_of_lt hj)
  exact Bool.false_ne_true (hlive.symm.trans (State.storesToSource_iff.mpr
    ⟨hchecks, hn, a, htouch, inRange_iff.mpr ha⟩))

/-- A context command that is no store to a live source leaves the byte as it is. -/
theorem State.HoldsPlanC.read_does {k : BitVec 4} (hk : k.toNat < 4) {i : Instr} (hi : i.context? = some k)
    (hlive : s.storesToLiveSource i = false) (hdoes : s.begin.Does ⟨k.toNat, hk⟩ t i) :
    Memory.read t.mem a = Memory.read s.mem a := by
  cases i
  case wbit =>
    cases hi
    obtain ⟨hchecks, rfl⟩ := hdoes
    rw [State.storesToLiveSource_wbit hk] at hlive
    exact h.read_putAll ha (bits := [_]) (cs := []) h.memory hchecks hlive
  case wbits k v n =>
    cases hi
    obtain ⟨hchecks, rfl⟩ := hdoes
    rw [State.storesToLiveSource_wbits hk] at hlive
    have hlen : (LutEntry.code { pattern := v, length := n.toNat }).length = n.toNat := LutEntry.code_length _
    have hread := h.read_putAll ha (m := s.mem) (bits := LutEntry.code { pattern := v, length := n.toNat })
      (cs := [⟨decide (n.toNat ≤ 32), .bitCountRange⟩]) h.memory (by rw [hlen]; exact hchecks) (by rw [hlen]; exact hlive)
    rw [← putBits_eq_putAll h.memory] at hread
    exact hread
  case twrite =>
    cases hi
    obtain ⟨hchecks, sh, hsh, rfl⟩ := hdoes
    have hb : s.ctx[k.toNat].tree.built = true := firstFailure_none.mp hchecks _ List.mem_cons_self
    obtain ⟨sh', hsh', hlen, -⟩ := Tree.preorder_of_wf hb (h.trees ⟨k.toNat, hk⟩)
    have hlen : sh.preorder.length = s.ctx[k.toNat].tree.treeBits := Option.some.inj (hsh.symm.trans hsh') ▸ hlen
    rw [State.storesToLiveSource_twrite hk] at hlive
    have hread := h.read_putAll ha (m := s.mem) (c := s.ctx[k.toNat].w) (bits := sh.preorder)
      (cs := [⟨s.ctx[k.toNat].tree.built, .notReady⟩]) h.memory (by rw [hlen]; exact hchecks) (by rw [hlen]; exact hlive)
    rw [← sh.serialize_eq h.memory] at hread
    exact hread
  case wbind | rbind | tcreate | tcroot => obtain ⟨-, rfl⟩ := hdoes; rfl
  case wseek | rseek | wtell | rtell => cases hdoes; rfl
  case rbit | rbyte | tcisleaf | tcvalue => obtain ⟨v, rfl⟩ := hdoes; rfl
  case tlookup => obtain ⟨sh, -, -, rfl⟩ := hdoes; rfl
  case tcleft | tcright => obtain ⟨-, w, l, r, -, rfl⟩ := hdoes; rfl
  case tread => obtain ⟨c, tr, -, rfl⟩ := hdoes; rfl
  case tbitcount => obtain ⟨a, b, c, d, rfl⟩ := hdoes; rfl
  all_goals cases hi

/-- COMPRESS writes its header to a destination apart from the source (43 R195, R196). -/
theorem State.HoldsPlanC.read_compress (hexec : exec .compress s = .next t) :
    Memory.read t.mem a = Memory.read s.mem a := by
  obtain ⟨e, rfl⟩ | ⟨hchecks, rfl⟩ := exec_compress_inv hexec
  · rfl
  · have hall := firstFailure_none.mp hchecks
    simp only [State.executeChecks, List.forall_mem_cons] at hall
    obtain ⟨-, -, -, hapart, -⟩ := hall
    have hparts := h.plan.partitioned
    simp only [Plan.partitioned, Plan.sourceOk, Bool.and_eq_true, beq_iff_eq] at hparts
    obtain ⟨⟨⟨-, ⟨hsize, -⟩, -⟩, -⟩, -⟩ := hparts
    have hheader := h.plan.headerSize
    have hout := h.plan.outSize
    have hlength := h.plan.length
    refine read_writeHeader_other _ _ (Classical.byContradiction fun hin => ?_)
    rw [Bool.not_eq_true', ← Bool.not_eq_true, overlap_iff, hsize] at hapart
    exact hapart ⟨a, ha, by omega, by omega⟩

/-- No command the host issues changes the byte. -/
theorem State.HoldsPlanC.read_issue (ht : s.turn = .host) (hissue : s.issue = .next t) :
    Memory.read t.mem a = Memory.read s.mem a := by
  obtain ⟨e, -, rfl⟩ | ⟨i, -, hlive, hexec⟩ := State.issue_next hissue
  · rfl
  · cases hk : i.context? with
    | some k =>
      obtain ⟨e, rfl⟩ | ⟨hlt, u, hdoes, rfl⟩ := exec_context_next hk hexec
      · rfl
      · exact State.HoldsPlanC.read_does (t := u) h ha hlt hk hlive hdoes
    | none =>
      by_cases hmicro : i.isMicroOp = true
      · rw [exec_microOp_of_host hmicro ht] at hexec
        cases hexec
        rfl
      · obtain ⟨m, ⟨_, _, _, _, _, _, _, _, hm⟩, hmem | rfl | ⟨b, rfl⟩ | ⟨b, rfl⟩, -⟩ := exec_other_next hk hexec
        · rw [hm, hmem]
        · exact h.read_compress ha hexec
        · exact absurd rfl hmicro
        · exact absurd rfl hmicro

/-- No host step changes the byte. -/
theorem State.HoldsPlanC.read_host (ht : s.turn = .host) (hdoes : s.HostDoes t) :
    Memory.read t.mem a = Memory.read s.mem a := by
  cases hdoes with
  | looks | writes => rfl
  | issues v t hb hissue =>
    exact State.HoldsPlanC.read_issue (s := s.setRegs (s.regs.write 0x04 v)) (t := t)
      ⟨h.valid, h.kind, h.idle, h.jobs, h.plan, h.memory, h.trees⟩ ha ht hissue
  | stores b v hs hd =>
    refine Memory.read_write_other _ _ fun hab => ?_
    rw [← Bool.not_eq_true, State.liveSource_iff] at hs
    exact hs ⟨.inr ⟨h.valid, h.kind⟩, hab ▸ ha⟩
  | resets =>
    refine s.afterReset_read fun hrun => ?_
    rw [h.idle] at hrun
    obtain ⟨hrun | hrun, -⟩ := hrun <;> cases hrun

/-- No step changes the byte: only the host has one. -/
theorem State.HoldsPlanC.read_step (hstep : step s = .next t) : Memory.read t.mem a = Memory.read s.mem a := by
  obtain ⟨-, rfl⟩ | ⟨u, rest, ⟨sc, d, rfl⟩, -, hhost⟩ | ⟨u, -, hready, -⟩ | ⟨u, j, -, hj, -⟩ := step_cases hstep
  · rfl
  · exact State.HoldsPlanC.read_host (s := (((s.setSched sc).setDraws d).setTurn .host).setInputs rest)
      ⟨h.valid, h.kind, h.idle, h.jobs, h.plan, h.memory, h.trees⟩ ha rfl hhost
  · exact absurd h.idle (State.joinReady_iff.mp hready).1
  · rw [h.jobs] at hj
    cases hj

end

/-- Settles O14: what is live is what the checks name, and a store that changed a byte of the source would be one. -/
theorem hostMemoryDuty : Obligations.HostMemoryDuty := by
  intro s inSource inDest heldC
  refine ⟨fun a v => ⟨fun ha => State.hostMem_of_absent ha v, fun ha => ?_⟩, fun k h => ?_, fun i hi =>
    (State.storesToLiveSource_cases hi).2, fun t h hheld hstep a ha => (h.holdsPlanC hheld.1 hheld.2).read_step ha hstep⟩
  · have hlive : (s.liveSource a = true ∨ s.liveDestination a = true) ↔
        (s.regs.busy = true ∧ (inSource a ∨ inDest a)) ∨ (heldC ∧ inSource a) := by
      rw [State.liveSource_iff, State.liveDestination_iff]
      show (_ ∨ heldC) ∧ inSource a ∨ _ ∧ inDest a ↔ _
      rw [or_and_right, and_or_left]
      exact or_right_comm
    refine ⟨fun hl => State.hostMemWrite_of_live ha v (hlive.mpr hl),
      fun hf => State.hostMemWrite_of_free ha v (mt hlive.mp hf),
      fun hl => State.hostMemRead_of_live ha (State.liveDestination_iff.mpr hl),
      fun hf => State.hostMemRead_of_free ha (mt State.liveDestination_iff.mp hf)⟩
  · intro c tr p storesToSource
    have hsource : ∀ (cs : List Check) (n : Nat),
        (s.sourceLive && s.storesToSource (cs ++ s.storeChecks c n) c n) = true ↔
          (∀ d ∈ cs, d.holds = true) ∧ storesToSource n := fun cs n => by
      rw [Bool.and_eq_true, State.sourceLive_iff, State.storesToSource_append]
      exact and_left_comm
    refine ⟨fun v => ?_, fun v n => ?_, ?_⟩
    · rw [State.storesToLiveSource_wbit h, hsource [] 1]
      exact and_iff_right nofun
    · rw [State.storesToLiveSource_wbits h, hsource _ n.toNat, List.forall_mem_singleton, decide_eq_true_eq]
    · rw [State.storesToLiveSource_twrite h, hsource _ tr.treeBits, List.forall_mem_singleton]

end Sys2Proof.Machine
end

section
/-! PROOF. The control invariant (10 R23, R39 to R42; 42 R173, R180) is kept by every step, and bounds the jobs inside their body. -/

namespace Sys2Proof.Machine

/-! ### No phase runs -/

/-- The control invariant of a state in which no phase runs. -/
structure State.Resting (s : State) : Prop where
  idle : s.controller.phase = .idle
  busy : s.regs.busy = false
  fault : s.regs.fault = none ∨ s.regs.done = true
  jobs : s.jobs = []
  permits : s.limiter.permits = s.limiter.capacity
  parallelism : s.params.hwParallelism ≠ 0#32

theorem State.Resting.controlOk {s : State} (h : s.Resting) : s.controlOk = true := by
  refine State.controlOk_iff.mpr ⟨?_, ?_, ?_, h.parallelism⟩
  · have hfault := h.fault
    rw [← Option.isNone_iff_eq_none, ← Option.not_isSome] at hfault
    simpa [State.statusOk, h.idle, h.busy] using hfault
  · rw [State.jobsOk, if_pos h.idle, h.jobs]
    rfl
  · simp [State.limiterOk, h.idle, h.jobs, h.permits]

theorem State.resting_of_controlOk {s : State} (h : s.controlOk = true) (hb : s.regs.busy = false) : s.Resting := by
  have hidle : s.controller.phase = .idle := Classical.byContradiction fun hp => by
    rw [(State.busy_iff h).mpr hp] at hb
    cases hb
  obtain ⟨hstatus, hjobs, hlimiter, hhw⟩ := State.controlOk_iff.mp h
  rw [State.jobsOk, if_pos hidle, List.isEmpty_iff] at hjobs
  refine ⟨hidle, hb, ?_, hjobs, ?_, hhw⟩
  · simp only [State.statusOk, Bool.and_eq_true] at hstatus
    simpa using hstatus.2
  · simp only [State.limiterOk, hjobs, Bool.and_eq_true, beq_iff_eq] at hlimiter
    exact BitVec.eq_of_toNat_eq hlimiter.1

/-! ### A command starts its phase (42 R173, 43 R190) -/

theorem State.permitCount_ne_zero {s : State} (h : s.params.hwParallelism ≠ 0#32) : s.permitCount ≠ 0#32 := by
  rw [State.permitCount]
  split
  · exact h
  · assumption

/-- A job as it is launched is as the invariant asks (42 R173). -/
theorem controlOk_freshJob {phase : Phase} {body : Word → Instr} {i : Nat} (h : phase.body? i = some (body (u32 i))) :
    (freshJob body i).controlOk phase = true :=
  Job.controlOk_iff.mpr ⟨by rw [freshJob, h]; rfl, ⟨nofun, by rintro (h | h) <;> cases h⟩, .inl rfl⟩

/-- A phase starts from a state that is busy and holds no plan. -/
theorem State.startPhase_controlOk {s : State} {phase : Phase} {body : Word → Instr} (hb : s.regs.busy = true)
    (hd : s.regs.done = false) (hf : s.regs.fault = none) (hv : s.plan.valid = false)
    (hhw : s.params.hwParallelism ≠ 0#32) (hbody : ∀ i, phase.body? i = some (body (u32 i))) :
    (s.startPhase phase body).controlOk = true := by
  have hp : phase ≠ .idle := fun h => by
    have := hbody 0
    rw [h] at this
    cases this
  refine State.controlOk_iff.mpr ⟨?_, ?_, ?_, hhw⟩
  · have hphase : (phase != .idle) = true := bne_iff_ne.mpr hp
    simp [State.statusOk, State.startPhase, State.launch, hphase, hb, hd, hf, hv]
  · refine (State.jobsOk_iff (s := s.startPhase phase body) hp).mpr ⟨?_, fun j hj => ?_⟩
    · show List.map _ (List.map (freshJob body) _) = _
      rw [List.map_map]
      exact List.map_id _
    · obtain ⟨i, -, rfl⟩ := List.mem_map.mp hj
      exact controlOk_freshJob (hbody i)
  · refine (State.limiterOk_iff (s := s.startPhase phase body) hp).mpr ⟨?_, State.permitCount_ne_zero hhw⟩
    have hnone : (s.startPhase phase body).jobs.countP (·.holds) = 0 := List.countP_eq_zero.mpr fun j hj => by
      obtain ⟨i, -, rfl⟩ := List.mem_map.mp hj
      exact Bool.false_ne_true
    rw [hnone]
    rfl

/-! ### The host's commands -/

section
variable {s t : State} (h : s.Resting)
include h

theorem State.Resting.failedOnly (e : FaultCode) (info : Word) : (s.failedOnly e info).Resting :=
  ⟨h.idle, rfl, .inr rfl, h.jobs, h.permits, h.parallelism⟩

theorem State.Resting.failedDropping (e : FaultCode) (info : Word) : (s.failedDropping e info).Resting :=
  ⟨h.idle, rfl, .inr rfl, h.jobs, h.permits, h.parallelism⟩

/-- A context command starts no phase. -/
theorem State.Resting.exec_context {i : Instr} {k : BitVec 4} (hi : i.context? = some k) (hexec : exec i s = .next t) :
    t.Resting := by
  obtain ⟨e, rfl⟩ | ⟨hk, u, hdoes, rfl⟩ := exec_context_next hi hexec
  · exact h.failedOnly e _
  · obtain ⟨a, b, c, d, m, x, rfl⟩ := hdoes.frame
    exact ⟨h.idle, rfl, .inr rfl, h.jobs, h.permits, h.parallelism⟩

/-- A command of the host completes, or starts its phase. -/
theorem State.Resting.exec_host {i : Instr} (ht : s.turn = .host) (hexec : exec i s = .next t) :
    t.controlOk = true := by
  cases hk : i.context? with
  | some k => exact (h.exec_context hk hexec).controlOk
  | none =>
    by_cases hmicro : i.isMicroOp = true
    · rw [exec_microOp_of_host hmicro ht] at hexec
      cases hexec
      exact (h.failedOnly _ _).controlOk
    · cases i with
      | prepc =>
        obtain ⟨e, rfl⟩ | ⟨-, rfl⟩ := exec_prepc_inv hexec
        · exact (h.failedDropping e _).controlOk
        · exact State.startPhase_controlOk rfl rfl rfl rfl h.parallelism fun _ => rfl
      | compress =>
        obtain ⟨e, rfl⟩ | ⟨-, rfl⟩ := exec_compress_inv hexec
        · exact (h.failedOnly e _).controlOk
        · exact State.startPhase_controlOk rfl rfl rfl rfl h.parallelism fun _ => rfl
      | decompress =>
        obtain ⟨e, rfl⟩ | ⟨-, rfl⟩ := exec_decompress_inv hexec
        · exact (h.failedOnly e _).controlOk
        · exact State.startPhase_controlOk rfl rfl rfl rfl h.parallelism fun _ => rfl
      | prepd =>
        obtain ⟨e, info, rfl⟩ | ⟨p, -, rfl⟩ := exec_prepd_inv hexec
        · exact (h.failedDropping e info).controlOk
        · exact State.Resting.controlOk ⟨h.idle, rfl, .inr rfl, h.jobs, h.permits, h.parallelism⟩
      | linit _ | lacq | lrel | analyze _ | encode _ | decode _ => exact absurd rfl hmicro
      | _ => cases hk

theorem State.Resting.issue (ht : s.turn = .host) (hissue : s.issue = .next t) : t.controlOk = true := by
  obtain ⟨e, -, rfl⟩ | ⟨i, -, -, hexec⟩ := State.issue_next hissue
  · exact (h.failedOnly _ _).controlOk
  · exact h.exec_host ht hexec

end

/-- A register write leaves the flags alone (10 R21). -/
theorem Regs.write_flags (r : Regs) (offset : Nat) (v : Word) :
    (r.write offset v).busy = r.busy ∧ (r.write offset v).done = r.done ∧ (r.write offset v).fault = r.fault := by
  unfold Regs.write
  split <;> exact ⟨rfl, rfl, rfl⟩

/-- The control invariant reads the flags of the registers alone. -/
theorem State.controlOk_setRegs {s : State} {r : Regs} (hb : r.busy = s.regs.busy) (hd : r.done = s.regs.done)
    (hf : r.fault = s.regs.fault) : (s.setRegs r).controlOk = s.controlOk := by
  have hstatus : (s.setRegs r).statusOk = s.statusOk := by
    simp only [State.statusOk, State.setRegs_regs, State.setRegs_controller, State.setRegs_plan, hb, hd, hf]
  rw [State.controlOk, hstatus]
  rfl

theorem State.HostDoes.controlOk {s t : State} (hdoes : s.HostDoes t) (h : s.controlOk = true) (ht : s.turn = .host) :
    t.controlOk = true := by
  cases hdoes with
  | looks value draws => exact h
  | stores a value hs hd => exact h
  | writes offset value ho =>
    obtain ⟨hb, hd, hf⟩ := s.regs.write_flags offset value
    rw [State.controlOk_setRegs hb hd hf]
    exact h
  | issues value t hb hissue =>
    obtain ⟨hbusy, hdone, hfault⟩ := s.regs.write_flags 0x04 value
    have hwritten : (s.setRegs (s.regs.write 0x04 value)).Resting := State.resting_of_controlOk
      (by rw [State.controlOk_setRegs hbusy hdone hfault]; exact h) (hbusy.trans hb)
    exact hwritten.issue ht hissue
  | resets =>
    obtain ⟨-, -, -, hhw⟩ := State.controlOk_iff.mp h
    exact State.Resting.controlOk ⟨rfl, rfl, .inl rfl, rfl, rfl, hhw⟩

/-! ### The join (42 R179) -/

/-- When the join is enabled no job holds a permit (42 R180). -/
theorem State.permits_of_joinReady {s : State} (h : s.controlOk = true) (hr : s.joinReady = true) :
    s.limiter.permits = s.limiter.capacity := by
  obtain ⟨hp, hall⟩ := State.joinReady_iff.mp hr
  obtain ⟨-, hjobs, hlimiter, -⟩ := State.controlOk_iff.mp h
  obtain ⟨-, hok⟩ := (State.jobsOk_iff hp).mp hjobs
  obtain ⟨hpermits, -⟩ := (State.limiterOk_iff hp).mp hlimiter
  have hnone : s.jobs.countP (·.holds) = 0 := List.countP_eq_zero.mpr fun j hj hheld => by
    obtain ⟨-, hholds, -⟩ := Job.controlOk_iff.mp (hok j hj)
    have hpc := hall j hj
    obtain hpc' | hpc' := hholds.mp hheld <;> rw [hpc'] at hpc <;> cases hpc
  rw [hnone] at hpermits
  exact BitVec.eq_of_toNat_eq hpermits

/-- The join leaves a resting state. -/
theorem State.join_resting {s t : State} (h : s.controlOk = true) (hr : s.joinReady = true) (hjoin : s.join = .next t) :
    t.Resting := by
  obtain ⟨hp, -⟩ := State.joinReady_iff.mp hr
  obtain ⟨hbusy, hdone, hphase, -⟩ := State.join_completes hp hjoin
  obtain ⟨-, -, -, hhw⟩ := State.controlOk_iff.mp h
  have hframe : t.limiter = s.limiter ∧ t.params = s.params := by
    obtain ⟨r, p, c, js, rfl⟩ := State.join_frame hjoin
    exact ⟨rfl, rfl⟩
  exact ⟨hphase, hbusy, .inr hdone, State.join_jobs hp hjoin,
    by rw [hframe.1]; exact State.permits_of_joinReady h hr, by rw [hframe.2]; exact hhw⟩

/-! ### The step of a job (42 R171 to R177) -/

/-- A job after its LACQ or its LREL. -/
def Job.permit (holds : Bool) (pc : Fin 4) (j : Job) : Job := { j with holds := holds, pc := pc }

theorem Job.permit_block (holds : Bool) (pc : Fin 4) (j : Job) : (j.permit holds pc).block = j.block := rfl

/-- Job `j` has become `j'`: it is as the control invariant asks, and its permit is accounted for in the limiter `l`. -/
structure State.Accounts (s : State) (j j' : Job) (l : Limiter) : Prop where
  block : j'.block = j.block
  control : j'.controlOk s.controller.phase = true
  capacity : l.capacity = s.limiter.capacity
  permits : l.permits.toNat + j'.holds.toNat = s.limiter.permits.toNat + j.holds.toNat

theorem State.Accounts.controlOk {s : State} {j : Job} {f : Job → Job} {l : Limiter} {i : Nat} (m : Memory)
    (ha : s.Accounts j (f j) l) (h : s.controlOk = true) (hp : s.controller.phase ≠ .idle) (hj : s.job? i = some j) :
    (s.advanced i f l m).controlOk = true := by
  obtain ⟨hstatus, hjobs, hlimiter, hhw⟩ := State.controlOk_iff.mp h
  obtain ⟨hblocks, hok⟩ := (State.jobsOk_iff hp).mp hjobs
  obtain ⟨hpermits, hcapacity⟩ := (State.limiterOk_iff hp).mp hlimiter
  obtain ⟨before, after, hsplit, hupdate⟩ := State.updateJob_split (State.blocks_nodup hp h) hj
  have hjobs' : (s.advanced i f l m).jobs = before ++ f j :: after := hupdate f
  have hpermits' : (s.advanced i f l m).limiter = l := rfl
  refine State.controlOk_iff.mpr ⟨hstatus, (State.jobsOk_iff (s := s.advanced i f l m) hp).mpr ⟨?_, ?_⟩,
    (State.limiterOk_iff (s := s.advanced i f l m) hp).mpr ⟨?_, ?_⟩, hhw⟩
  · rw [hjobs', List.map_append, List.map_cons, ha.block, ← List.map_cons, ← List.map_append, ← hsplit]
    exact hblocks
  · rw [hsplit, List.forall_mem_append, List.forall_mem_cons] at hok
    rw [hjobs', List.forall_mem_append, List.forall_mem_cons]
    exact ⟨hok.1, ha.control, hok.2.2⟩
  · have haccount := ha.permits
    rw [hsplit, List.countP_append, countP_holds_cons] at hpermits
    rw [hjobs', hpermits', ha.capacity, List.countP_append, countP_holds_cons]
    omega
  · rw [hpermits', ha.capacity]
    exact hcapacity

section
variable {s t : State} {j : Job} (h : s.controlOk = true) (ht : s.turn = .job j.block) (hj : s.job? j.block = some j)
include h ht hj

/-- A LACQ that is enabled takes a permit for its job (42 R171). -/
theorem exec_lacq_accounts (hpc : j.pc = 0) (hpermits : s.limiter.permits ≠ 0#32) (hexec : exec .lacq s = .next t) :
    ∃ l, t = s.advanced j.block (Job.permit true 1) l s.mem ∧
      s.Accounts j (j.permit true 1) l := by
  obtain ⟨hprog, hholds, herr⟩ := Job.controlOk_iff.mp (State.jobs_of_controlOk h (State.job?_some hj).1).2
  have hfree : j.holds = false := by simpa [hpc] using hholds
  have hpos : 0 < s.limiter.permits.toNat := Nat.pos_of_ne_zero fun h0 => hpermits (BitVec.eq_of_toNat_eq h0)
  obtain ⟨-, -, hmicro⟩ := limiterMicroOperations
  cases hexec.symm.trans ((hmicro s j.block j ht hj).1 hpos)
  refine ⟨{ s.limiter with permits := s.limiter.permits - 1#32 }, rfl, rfl,
    Job.controlOk_iff.mpr ⟨hprog, by simp [Job.permit], .inl (herr.resolve_right (by simp [hpc]))⟩, rfl, ?_⟩
  have hsub : (s.limiter.permits - 1#32).toNat = s.limiter.permits.toNat - 1 := by bv_omega
  simp only [Job.permit, hsub, hfree, Bool.toNat_true, Bool.toNat_false]
  omega

/-- A body leaves its job at the LREL, holding its permit (42 R175 to R177). -/
theorem exec_body_accounts {body : Instr} (hb : s.controller.phase.body? j.block = some body) (hpc : j.pc = 1)
    (hexec : exec body s = .next t) :
    ∃ f l m, t = s.advanced j.block f l m ∧ s.Accounts j (f j) l := by
  obtain ⟨hlt, hok⟩ := State.jobs_of_controlOk h (State.job?_some hj).1
  obtain ⟨hprog, hholds, -⟩ := Job.controlOk_iff.mp hok
  have hbody : isBodyOf body (u32 j.block) := by
    cases hphase : s.controller.phase <;> rw [hphase] at hb <;> cases hb
    · exact .inl rfl
    · exact .inr (.inl rfl)
    · exact .inr (.inr rfl)
  obtain ⟨m, ⟨f, rfl, hafter⟩, -⟩ := exec_body_next hbody (by rw [ht]; exact Agent.noConfusion) hexec
  rw [u32_toNat_of_lt hlt]
  refine ⟨f, s.limiter, m, rfl, (hafter j).block, Job.controlOk_iff.mpr ⟨?_, ?_, .inr ?_⟩, rfl, ?_⟩
  · rw [(hafter j).prog, (hafter j).block]; exact hprog
  · simp [(hafter j).holds, (hafter j).pc, hholds, hpc]
  · rw [(hafter j).pc]; exact Nat.le_refl 2
  · rw [(hafter j).holds]

variable (hp : s.controller.phase ≠ .idle)
include hp

/-- A LREL gives back the permit of its job (42 R172, R180). -/
theorem exec_lrel_accounts (hpc : j.pc = 2) (hexec : exec .lrel s = .next t) :
    ∃ l, t = s.advanced j.block (Job.permit false 3) l s.mem ∧
      s.Accounts j (j.permit false 3) l := by
  have hmem := (State.job?_some hj).1
  obtain ⟨hprog, hholds, -⟩ := Job.controlOk_iff.mp (State.jobs_of_controlOk h hmem).2
  have hheld : j.holds = true := by simp [hholds, hpc]
  obtain ⟨-, -, hlimiter, -⟩ := State.controlOk_iff.mp h
  obtain ⟨hpermits, -⟩ := (State.limiterOk_iff hp).mp hlimiter
  have hcount : 0 < s.jobs.countP (·.holds) := List.countP_pos_iff.mpr ⟨j, hmem, hheld⟩
  obtain ⟨-, -, hmicro⟩ := limiterMicroOperations
  obtain ⟨-, -, hlrel, -⟩ := hmicro s j.block j ht hj
  cases hexec.symm.trans (hlrel (by omega))
  refine ⟨{ s.limiter with permits := s.limiter.permits + 1#32 }, rfl, rfl,
    Job.controlOk_iff.mpr ⟨hprog, by simp [Job.permit], .inr (Nat.le_succ 2)⟩, rfl, ?_⟩
  have hadd : (s.limiter.permits + 1#32).toNat = s.limiter.permits.toNat + 1 := by bv_omega
  simp only [Job.permit, hadd, hheld, Bool.toNat_true, Bool.toNat_false]

/-- A job that is ready takes or gives back its permit, or runs its body (42 R171 to R177). -/
theorem State.runJob_cases (hr : s.jobReady j = true) (hrun : s.runJob j.block = .next t) :
    (∃ b pc l, t = s.advanced j.block (Job.permit b pc) l s.mem ∧ s.Accounts j (j.permit b pc) l ∧
      (pc.val ≤ 1 ↔ j.pc.val ≤ 1)) ∨
      ∃ body, s.controller.phase.body? j.block = some body ∧ j.pc = 1 ∧ exec body s = .next t := by
  obtain ⟨body, hb, hprog⟩ := Job.prog_of_controlOk (State.jobs_of_controlOk h (State.job?_some hj).1).2
  obtain ⟨hlacq, hbody, hlrel⟩ := Job.word?_of_pc hprog
  obtain ⟨hlt, -⟩ := State.jobReady_iff.mp hr
  match hpc : j.pc with
  | 0 =>
    have hdec : decode (encode .lacq) = .ok .lacq := Laws.RoundTrip.lacq rfl
    rw [State.runJob_of_word hj (hlacq hpc) hdec rfl] at hrun
    obtain ⟨l, ht, ha⟩ :=
      exec_lacq_accounts h ht hj hpc ((State.jobReady_of_word (hlacq hpc) hdec).mp hr rfl) hrun
    exact .inl ⟨true, 1, l, ht, ha, by decide⟩
  | 1 =>
    obtain ⟨hdec, hmicro⟩ := decode_body hb
    rw [State.runJob_of_word hj (hbody hpc) hdec hmicro] at hrun
    exact .inr ⟨body, hb, rfl, hrun⟩
  | 2 =>
    rw [State.runJob_of_word hj (hlrel hpc) (Laws.RoundTrip.lrel rfl) rfl] at hrun
    obtain ⟨l, ht, ha⟩ := exec_lrel_accounts h ht hj hp hpc hrun
    exact .inl ⟨false, 3, l, ht, ha, by decide⟩
  | 3 =>
    rw [hpc] at hlt
    exact absurd hlt (by decide)

/-- The step of a job that is ready keeps the account of the permits. -/
theorem State.runJob_accounts (hr : s.jobReady j = true) (hrun : s.runJob j.block = .next t) :
    ∃ f l m, t = s.advanced j.block f l m ∧ s.Accounts j (f j) l := by
  obtain ⟨b, pc, l, ht, ha, -⟩ | ⟨body, hb, hpc, hexec⟩ := State.runJob_cases h ht hj hp hr hrun
  · exact ⟨_, l, s.mem, ht, ha⟩
  · exact exec_body_accounts h ht hj hb hpc hexec

end

/-! ### The step -/

/-- A state with jobs runs a phase (10 R41). -/
theorem State.phase_of_job {s : State} (h : s.controlOk = true) {j : Job} (hj : j ∈ s.jobs) :
    s.controller.phase ≠ .idle := fun hidle => by
  obtain ⟨-, hjobs, -⟩ := State.controlOk_iff.mp h
  rw [State.jobsOk, if_pos hidle, List.isEmpty_iff] at hjobs
  rw [hjobs] at hj
  cases hj

/-- A step of a state with the control invariant that is a job's keeps the account of the permits. -/
theorem State.Picked.runJob_accounts {s t u : State} {j : Job} (h : s.controlOk = true) (hj : j ∈ s.jobs)
    (hr : s.jobReady j = true) (hu : s.Picked (.job j.block) u) (hrun : u.runJob j.block = .next t) :
    ∃ f l m, t = u.advanced j.block f l m ∧ u.Accounts j (f j) l ∧ u.controlOk = true ∧
      u.controller.phase ≠ .idle ∧ u.job? j.block = some j ∧ u.limiter = s.limiter := by
  obtain ⟨sc, d, rfl⟩ := hu
  have hp := State.phase_of_job h hj
  have hfind := State.job?_of_mem hp h hj
  obtain ⟨f, l, m, ht, ha⟩ := State.runJob_accounts (s := ((s.setSched sc).setDraws d).setTurn (.job j.block)) h rfl hfind
    hp hr hrun
  exact ⟨f, l, m, ht, ha, h, hp, hfind, rfl⟩

/-- Settles O44: the host's commands start from a resting state, the join leaves one, and a job's step accounts for its
permit. -/
theorem controlInvariantKept : Obligations.ControlInvariantKept := by
  intro s t h hstep
  obtain ⟨-, rfl⟩ | ⟨u, rest, ⟨sc, d, rfl⟩, -, hhost⟩ | ⟨u, ⟨sc, d, rfl⟩, hready, hjoin⟩ | ⟨u, j, hu, hj, hready, hrun⟩ :=
    step_cases hstep
  · exact h
  · exact hhost.controlOk h rfl
  · exact (State.join_resting (s := ((s.setSched sc).setDraws d).setTurn .controller) h hready hjoin).controlOk
  · obtain ⟨f, l, m, rfl, ha, hcontrol, hp, hfind, -⟩ := State.Picked.runJob_accounts h hj hready hu hrun
    exact ha.controlOk m hcontrol hp hfind

/-! ### The bound (42 R180) -/

/-- The permits, their holders and the jobs inside their body, while a phase runs. -/
theorem State.limiter_bound {s : State} (h : s.controlOk = true) (hp : s.controller.phase ≠ .idle) :
    s.limiter.permits.toNat + (s.jobs.filter (fun j => j.holds)).length = s.limiter.capacity.toNat ∧
      (s.jobs.filter (fun j => j.pc == 1)).length ≤ (s.jobs.filter (fun j => j.holds)).length := by
  obtain ⟨-, hjobs, hlimiter, -⟩ := State.controlOk_iff.mp h
  obtain ⟨-, hok⟩ := (State.jobsOk_iff hp).mp hjobs
  obtain ⟨hpermits, -⟩ := (State.limiterOk_iff hp).mp hlimiter
  rw [← List.countP_eq_length_filter, ← List.countP_eq_length_filter]
  refine ⟨hpermits, List.countP_mono_left fun j hj hpc => ?_⟩
  obtain ⟨-, hholds, -⟩ := Job.controlOk_iff.mp (hok j hj)
  exact hholds.mpr (.inl (beq_iff_eq.mp hpc))

/-- A phase starts with all its permits and no holder (42 R170, R173). -/
theorem State.startPhase_limiter (s : State) (phase : Phase) (body : Word → Instr) :
    (s.startPhase phase body).limiter = { capacity := s.permitCount, permits := s.permitCount } ∧
      (s.startPhase phase body).jobs.all (fun j => !j.holds && j.pc == 0) = true := by
  refine ⟨rfl, List.all_eq_true.mpr fun j hj => ?_⟩
  obtain ⟨i, -, rfl⟩ := List.mem_map.mp hj
  rfl

/-- A host step that leaves the phase running leaves the limiter alone. -/
theorem State.HostDoes.limiter {s t : State} (hdoes : s.HostDoes t) (hb : s.regs.busy = true)
    (hp : t.controller.phase ≠ .idle) : t.limiter = s.limiter := by
  cases hdoes with
  | looks | writes | stores => rfl
  | issues value t hfree => rw [hb] at hfree; cases hfree
  | resets => exact absurd rfl hp

/-- Settles O43: the bound is the account of the permits, which each step of the phase keeps. -/
theorem limiterBound : Obligations.LimiterBound := by
  refine ⟨fun s h hp => ?_, fun i s t hi hexec hb => ?_, fun s t h hp hstep hp' => ?_⟩
  · obtain ⟨hpermits, hinside⟩ := State.limiter_bound h hp
    exact ⟨by omega, by omega, by omega, State.permits_of_joinReady h⟩
  · obtain rfl | rfl | rfl := hi
    · obtain ⟨e, rfl⟩ | ⟨-, rfl⟩ := exec_prepc_inv hexec
      · cases hb
      · exact State.startPhase_limiter _ _ _
    · obtain ⟨e, rfl⟩ | ⟨-, rfl⟩ := exec_compress_inv hexec
      · cases hb
      · exact State.startPhase_limiter _ _ _
    · obtain ⟨e, rfl⟩ | ⟨-, rfl⟩ := exec_decompress_inv hexec
      · cases hb
      · exact State.startPhase_limiter _ _ _
  · obtain ⟨-, rfl⟩ | ⟨u, rest, ⟨sc, d, rfl⟩, -, hhost⟩ | ⟨u, ⟨sc, d, rfl⟩, hready, hjoin⟩ | ⟨u, j, hu, hj, hready, hrun⟩ :=
      step_cases hstep
    · rfl
    · exact congrArg Limiter.capacity (hhost.limiter ((State.busy_iff h).mpr hp) hp')
    · exact absurd (State.join_completes (s := ((s.setSched sc).setDraws d).setTurn .controller) hp hjoin).phase hp'
    · obtain ⟨f, l, m, rfl, ha, -, -, -, hsame⟩ := State.Picked.runJob_accounts h hj hready hu hrun
      exact ha.capacity.trans (congrArg Limiter.capacity hsame)

end Sys2Proof.Machine
end

section
/-! PROOF. The contexts stay sound (10 R31 to R35, 20 R69): the binding of a cursor outlives every primitive, a tree is built or parsed, a table has no code past 32 bits, and the traversal cursor walks inside the arena. -/

namespace Sys2Proof.Machine

/-! ### The parts of a sound context -/

/-- `Context.wf`, part by part. -/
structure Context.Sound (c : Context) : Prop where
  w : c.w.legal = true
  r : c.r.legal = true
  tree : c.tree.wf = true
  lut : c.lut.wf = true
  tc : c.tc.valid = true → c.tree.built = true ∧ c.tc.node < c.tree.nodes.length

theorem Context.wf_iff {c : Context} : c.wf = true ↔ c.Sound := by
  simp only [Context.wf, Bool.and_eq_true]
  refine ⟨fun ⟨⟨⟨⟨hw, hr⟩, htree⟩, hlut⟩, htc⟩ => ⟨hw, hr, htree, hlut, fun hv => ?_⟩,
    fun ⟨hw, hr, htree, hlut, htc⟩ => ⟨⟨⟨⟨hw, hr⟩, htree⟩, hlut⟩, ?_⟩⟩
  · simpa [hv] using htc
  · cases hv : c.tc.valid with
    | false => rfl
    | true => simpa using htc hv

/-- Writing a tree leaves the binding of its writer alone. -/
theorem Shape.serialize_binding (sh : Shape) (m : Memory) (c : Cursor) :
    (sh.serialize m c).2.base = c.base ∧ (sh.serialize m c).2.len = c.len := by
  induction sh generalizing m c with
  | leaf v w => exact putChunks_binding _ _ _ _ (c.advance 1)
  | branch w l r ihl ihr =>
    obtain ⟨hlb, hll⟩ := ihl (putBit m c true).1 (c.advance 1)
    obtain ⟨hrb, hrl⟩ := ihr (l.serialize (putBit m c true).1 (c.advance 1)).1
      (l.serialize (putBit m c true).1 (c.advance 1)).2
    exact ⟨hrb.trans hlb, hrl.trans hll⟩

/-- A buffer is legal by its binding alone (20 R69). -/
theorem Cursor.legal_congr {c c' : Cursor} (h : c'.base = c.base ∧ c'.len = c.len) : c'.legal = c.legal := by
  rw [Cursor.legal, Cursor.legal, h.1, h.2]

/-- A sound tree that is built has its root and the children of every branch in the arena (10 R33). -/
theorem Tree.wf_arena {t : Tree} (hb : t.built = true) (h : t.wf = true) :
    t.root < t.nodes.length ∧
      ∀ (i : Nat) (w : Word) (l r : Nat), t.nodes[i]? = some (.branch w l r) → l < t.nodes.length ∧ r < t.nodes.length := by
  simp only [Tree.wf, hb, if_true, Bool.and_eq_true, decide_eq_true_eq, List.all_eq_true] at h
  obtain ⟨⟨⟨⟨-, hroot⟩, hall⟩, -⟩, -⟩ := h
  refine ⟨hroot, fun i w l r hn => ?_⟩
  simpa [Node.inArena] using hall _ (List.mem_of_getElem? hn)

/-! ### Lookup tables (41 R147) -/

/-- No entry of the table is longer than `n`. -/
def lengthsLe (n : Nat) (tab : Vector LutEntry 256) : Prop := ∀ (i : Nat) (hi : i < 256), tab[i].length ≤ n

/-- No code is longer than the tree is deep. -/
theorem Shape.visit_lengthsLe {sh : Shape} {path : Word} {d n : Nat} {tab : Vector LutEntry 256}
    (hd : d + sh.depth ≤ n) (h : lengthsLe n tab) : lengthsLe n (sh.visit path d tab) := by
  induction sh generalizing path d tab with
  | leaf v w =>
    intro i hi
    rw [Shape.visit, Vector.getElem_set]
    split
    · exact hd
    · exact h i hi
  | branch w l r ihl ihr =>
    rw [Shape.depth] at hd
    exact ihr (by omega) (ihl (by omega) h)

theorem Shape.lookup_wf {sh : Shape} (h : sh.depth ≤ 32) : sh.lookup.wf = true := by
  have hle : lengthsLe 32 sh.lookup.entry :=
    Shape.visit_lengthsLe (by omega) fun i hi => by rw [Vector.getElem_replicate]; exact Nat.zero_le _
  rw [LookupTable.wf, List.all_eq_true]
  intro e he
  obtain ⟨i, hi, rfl⟩ := List.getElem_of_mem he
  rw [Vector.length_toList] at hi
  exact decide_eq_true (hle i hi)

/-! ### The context commands -/

/-- The context a command leaves is sound when it was. -/
theorem State.Does.context {s u : State} {k : Fin 4} {i : Instr} (hdoes : s.Does k u i) (h : s.ctx[k].Sound) :
    ∃ x : Context, u.ctx = s.ctx.set k x ∧ x.Sound := by
  have hsame : s.ctx = s.ctx.set k s.ctx[k] := (Vector.set_getElem_self k.isLt).symm
  have hwriter : ∀ {c : Cursor}, (c.base = (s.writer k).base ∧ c.len = (s.writer k).len) →
      Context.Sound { s.ctx[k] with w := c } := fun hc =>
    ⟨(Cursor.legal_congr hc).trans h.w, h.r, h.tree, h.lut, h.tc⟩
  have hreader : ∀ {c : Cursor}, (c.base = (s.reader k).base ∧ c.len = (s.reader k).len) →
      Context.Sound { s.ctx[k] with r := c } := fun hc =>
    ⟨h.w, (Cursor.legal_congr hc).trans h.r, h.tree, h.lut, h.tc⟩
  cases i
  case wbind => obtain ⟨hlegal, rfl⟩ := hdoes; exact ⟨_, rfl, ⟨hlegal, h.r, h.tree, h.lut, h.tc⟩⟩
  case rbind => obtain ⟨hlegal, rfl⟩ := hdoes; exact ⟨_, rfl, ⟨h.w, hlegal, h.tree, h.lut, h.tc⟩⟩
  case wseek => cases hdoes; exact ⟨_, rfl, hwriter ⟨rfl, rfl⟩⟩
  case rseek => cases hdoes; exact ⟨_, rfl, hreader ⟨rfl, rfl⟩⟩
  case wbit => obtain ⟨-, rfl⟩ := hdoes; exact ⟨_, rfl, hwriter ⟨rfl, rfl⟩⟩
  case wbits => obtain ⟨-, rfl⟩ := hdoes; exact ⟨_, rfl, hwriter (putChunks_binding _ _ _ _ _)⟩
  case twrite => obtain ⟨-, sh, -, rfl⟩ := hdoes; exact ⟨_, rfl, hwriter (sh.serialize_binding _ _)⟩
  case rbit => obtain ⟨v, rfl⟩ := hdoes; exact ⟨_, rfl, hreader ⟨rfl, rfl⟩⟩
  case rbyte => obtain ⟨v, rfl⟩ := hdoes; exact ⟨_, rfl, hreader (getBits_binding _ _ _ _)⟩
  case wtell | rtell => cases hdoes; exact ⟨_, hsame, h⟩
  case tbitcount => obtain ⟨a, b, c, d, rfl⟩ := hdoes; exact ⟨_, hsame, h⟩
  case tcisleaf | tcvalue => obtain ⟨v, rfl⟩ := hdoes; exact ⟨_, hsame, h⟩
  case tcreate =>
    obtain ⟨hpos, rfl⟩ := hdoes
    have hne : Memory.readBytes s.mem s.regs.srcBase.toNat s.regs.srcSize.toNat ≠ [] :=
      List.ne_nil_of_length_pos (by rwa [Memory.readBytes_length])
    exact ⟨_, rfl, ⟨h.w, h.r, buildTree_wf hne (Option.some_get (buildTree_shape_isSome hne)).symm, LookupTable.wf_default, nofun⟩⟩
  case tread =>
    obtain ⟨c, tr, hparse, rfl⟩ := hdoes
    obtain ⟨sh, hsh, -, hsize⟩ | ⟨c', e, he, -⟩ := parseTree_cases s.params.memSize s.mem (s.reader k)
    · cases hparse.symm.trans hsh
      rw [State.setReader_setTree]
      exact ⟨_, rfl, ⟨h.w, (Cursor.legal_congr ⟨rfl, rfl⟩).trans h.r, Shape.parsedTree_wf hsize, LookupTable.wf_default, nofun⟩⟩
    · cases hparse.symm.trans he
  case tlookup =>
    obtain ⟨sh, -, hdepth, rfl⟩ := hdoes
    exact ⟨_, rfl, ⟨h.w, h.r, h.tree, Shape.lookup_wf hdepth, h.tc⟩⟩
  case tcroot =>
    obtain ⟨hb, rfl⟩ := hdoes
    exact ⟨_, rfl, ⟨h.w, h.r, h.tree, h.lut, fun _ => ⟨hb, (Tree.wf_arena hb h.tree).1⟩⟩⟩
  case tcleft =>
    obtain ⟨hv, w, l, r, hn, rfl⟩ := hdoes
    have hb := (h.tc hv).1
    exact ⟨_, rfl, ⟨h.w, h.r, h.tree, h.lut, fun _ => ⟨hb, ((Tree.wf_arena hb h.tree).2 _ w l r hn).1⟩⟩⟩
  case tcright =>
    obtain ⟨hv, w, l, r, hn, rfl⟩ := hdoes
    have hb := (h.tc hv).1
    exact ⟨_, rfl, ⟨h.w, h.r, h.tree, h.lut, fun _ => ⟨hb, ((Tree.wf_arena hb h.tree).2 _ w l r hn).2⟩⟩⟩
  all_goals cases hdoes

/-- Every command keeps the contexts sound. -/
theorem exec_contexts {i : Instr} {s t : State} (h : ∀ k : Fin 4, s.ctx[k].wf = true) (hexec : exec i s = .next t)
    (q : Fin 4) : t.ctx[q].wf = true := by
  cases hk : i.context? with
  | none =>
    obtain ⟨m, ⟨busy, done, fault, info, p, l, c, js, rfl⟩, -⟩ := exec_other_next hk hexec
    exact h q
  | some k =>
    obtain ⟨e, rfl⟩ | ⟨hk, u, hdoes, rfl⟩ := exec_context_next hk hexec
    · exact h q
    · obtain ⟨x, hctx, hx⟩ := hdoes.context (Context.wf_iff.mp (h ⟨k.toNat, hk⟩))
      have hset : u.complete.ctx = s.ctx.set k.toNat x := hctx
      rw [hset, Fin.getElem_fin, Vector.getElem_set]
      split
      · exact Context.wf_iff.mpr hx
      · exact h q

end Sys2Proof.Machine
end

section
/-! PROOF. The plan stays consistent (10 R37, 43 R191 to R204), and with it the whole invariant. -/

namespace Sys2Proof.Machine

/-! ### A plan whose validity alone changes -/

theorem Plan.chainC_valid (p : Plan) (v : Bool) (i off : Nat) (ds : List Desc) :
    ({ p with valid := v } : Plan).chainC i off ds = p.chainC i off ds := by
  induction ds generalizing i off with
  | nil => rfl
  | cons d ds ih =>
    rw [Plan.chainC, Plan.chainC, ih]
    rfl

theorem Plan.chainD_valid (p : Plan) (v : Bool) (doff : Nat) (ds : List Desc) :
    ({ p with valid := v } : Plan).chainD doff ds = p.chainD doff ds := by
  induction ds generalizing doff with
  | nil => rfl
  | cons d ds ih => rw [Plan.chainD, Plan.chainD, ih]

theorem Plan.compressionOk_valid (p : Plan) (v : Bool) (ms : Nat) :
    ({ p with valid := v } : Plan).compressionOk ms = p.compressionOk ms := by
  rw [Plan.compressionOk, Plan.chainC_valid]
  rfl

theorem Plan.decompressionOk_valid (p : Plan) (v : Bool) (ms : Nat) :
    ({ p with valid := v } : Plan).decompressionOk ms = p.decompressionOk ms := by
  rw [Plan.decompressionOk, Plan.chainD_valid]
  rfl

/-! ### The plan the phase of a state asks for -/

/-- A plan that is not held need only suit the phase that runs. -/
theorem State.planOk_of_idle {s : State} (hp : s.controller.phase = .idle) (hv : s.plan.valid = false) :
    s.planOk = true := by
  rw [State.planOk, hp, hv]
  rfl

theorem State.planOk_of_analyze {s : State} (hp : s.controller.phase = .analyze) (hv : s.plan.valid = false)
    (h : s.plan.partitioned s.params.memSize = true) (hjobs : ∀ j ∈ s.jobs, s.plan.analyzed j = true) :
    s.planOk = true := by
  rw [State.planOk, hp, hv]
  simpa [h] using hjobs

theorem State.planOk_of_encode {s : State} (hp : s.controller.phase = .encode) (hv : s.plan.valid = false)
    (h : s.plan.compressionOk s.params.memSize = true) (hd : s.destinationOk = true) : s.planOk = true := by
  rw [State.planOk, hp, hv]
  simp [h, hd]

theorem State.planOk_of_decode {s : State} (hp : s.controller.phase = .decode) (hv : s.plan.valid = false)
    (h : s.plan.decompressionOk s.params.memSize = true) (hd : s.destinationOk = true) : s.planOk = true := by
  rw [State.planOk, hp, hv]
  simp [h, hd]

/-- A plan that is held while no phase runs. -/
theorem State.planOk_of_held {s : State} (hp : s.controller.phase = .idle)
    (h : match s.plan.kind with
      | .c => s.plan.compressionOk s.params.memSize = true
      | .d => s.plan.decompressionOk s.params.memSize = true) : s.planOk = true := by
  rw [State.planOk, hp]
  cases hk : s.plan.kind <;> rw [hk] at h <;> simp only [h, Bool.or_true, Bool.and_true]

/-- The plan held in a state with the invariant is that of its kind (10 R37). -/
theorem State.Inv.plan_of_valid {s : State} (h : s.Inv) (hv : s.plan.valid = true) :
    (s.plan.kind = .c → s.plan.compressionOk s.params.memSize = true) ∧
      (s.plan.kind = .d → s.plan.decompressionOk s.params.memSize = true) := by
  have hplan := h.plan
  rw [State.planOk, Bool.and_eq_true, hv] at hplan
  refine ⟨fun hk => ?_, fun hk => ?_⟩ <;> simpa [hk] using hplan.2

/-! ### PREPD (43 R199, R200) -/

/-- The directory read gives one descriptor for each entry, a chain over the container (43 R200, R202). -/
theorem readDirectory_chainD {m : Memory} {p : Plan} {remaining i e doff total : Nat} {ds : List Desc}
    (h : readDirectory m p.headerSize.toNat p.srcSize.toNat remaining i e doff = .ok (ds, total))
    (hlt : total < 4294967296) :
    doff ≤ total ∧ ds.length = remaining ∧ p.chainD doff ds = some total := by
  induction remaining generalizing i e doff ds with
  | zero =>
    cases h
    exact ⟨Nat.le_refl _, rfl, rfl⟩
  | succ remaining ih =>
    rw [readDirectory] at h
    split at h
    · cases h
    · next hin =>
      split at h
      · cases h
      · next rest total' hrest =>
        cases h
        obtain ⟨hle, hlen, hchain⟩ := ih hrest
        have hdoff : (u32 doff).toNat = doff := (BitVec.toNat_ofNat ..).trans (Nat.mod_eq_of_lt (by omega))
        refine ⟨by omega, congrArg (· + 1) hlen, ?_⟩
        rw [Plan.chainD, if_pos]
        · exact hchain
        · rw [hdoff, beq_self_eq_true, Bool.and_true]
          exact decide_eq_true (Nat.not_lt.mp hin)

/-- The plan PREPD builds is a decompression plan (10 R37, 43 R200). -/
theorem prepdPlan_decompressionOk {ms : Nat} {m : Memory} {r : Regs} {p : Plan} (h : prepdPlan ms m r = .ok p) :
    p.kind = .d ∧ p.decompressionOk ms = true := by
  rw [prepdPlan] at h
  split at h
  · cases h
  · next hchecks =>
    dsimp only at h
    split at h
    · cases h
    · next ds total hread =>
      split at h
      · cases h
      · next hlt =>
        cases h
        have hlt : total < 4294967296 := Nat.lt_of_not_le hlt
        have hall := firstFailure_none.mp hchecks
        simp only [headerChecks, List.forall_mem_cons, decide_eq_true_eq] at hall
        obtain ⟨hlegal, -, hexists, -, hheader, -⟩ := hall
        have htotal : (u32 total).toNat = total := (BitVec.toNat_ofNat ..).trans (Nat.mod_eq_of_lt hlt)
        refine ⟨rfl, ?_⟩
        generalize hp : (Plan.mk true .d r.srcBase r.srcSize r.srcSize (u32 total) (Memory.read32LE m (r.srcBase.toNat + 8))
          (Memory.read32LE m (r.srcBase.toNat + 4)) (Memory.read32LE m (r.srcBase.toNat + 12)) ds) = p
        obtain ⟨-, hlen, hchain⟩ := readDirectory_chainD (p := p) (by subst hp; exact hread) hlt
        subst hp
        simp [Plan.decompressionOk, Plan.sourceOk, hlegal, hexists, hlen, hheader, hchain, htotal]

/-! ### The issue of the orchestration commands -/

/-- The destination of a command that starts exists (43 R196, R204). -/
theorem State.destinationOk_of_checks {s : State} {kind : PlanKind} {srcLen : Word}
    (h : firstFailure (s.executeChecks kind srcLen) = none) :
    s.plan.valid = true ∧ s.plan.kind = kind ∧ s.regs.dstBase.toNat + s.plan.outSize.toNat ≤ u32Limit ∧
      s.regs.dstBase.toNat + s.plan.outSize.toNat ≤ s.params.memSize := by
  have hall := firstFailure_none.mp h
  simp only [State.executeChecks, List.forall_mem_cons, Bool.and_eq_true, beq_iff_eq, decide_eq_true_eq] at hall
  obtain ⟨⟨hvalid, hkind⟩, -, hlegal, -, hexists, -⟩ := hall
  exact ⟨hvalid, hkind, hlegal, hexists⟩

/-- The plan PREPC's issue step sets is a partition of its source (43 R191, R192). -/
theorem Regs.prepcPlan_partitioned {r : Regs} {ms : Nat} (hbs : r.blockSize ≠ 0#32) (hlegal : r.srcEnd ≤ u32Limit)
    (hexists : r.srcEnd ≤ ms) : r.prepcPlan.partitioned ms = true := by
  have hcount := u32_blockCountOf r.srcSize hbs
  rw [Regs.srcEnd] at hlegal hexists
  simp [Plan.partitioned, Plan.sourceOk, Regs.prepcPlan, hbs, hlegal, hexists, hcount]

section
variable {s t : State} (h : s.Inv) (hb : s.regs.busy = false)
include h hb

/-- A command of the host leaves a consistent plan. -/
theorem exec_planOk {i : Instr} (ht : s.turn = .host) (hexec : exec i s = .next t) : t.planOk = true := by
  have hrest := State.resting_of_controlOk h.control hb
  cases hk : i.context? with
  | some k =>
    obtain ⟨e, rfl⟩ | ⟨hk, u, hdoes, rfl⟩ := exec_context_next hk hexec
    · exact h.plan
    · obtain ⟨a, b, c, d, m, x, rfl⟩ := hdoes.frame
      exact h.plan
  | none =>
    by_cases hmicro : i.isMicroOp = true
    · rw [exec_microOp_of_host hmicro ht] at hexec
      cases hexec
      exact h.plan
    · cases i with
      | prepc =>
        obtain ⟨e, rfl⟩ | ⟨⟨hbs, hlegal, hexists⟩, rfl⟩ := exec_prepc_inv hexec
        · exact State.planOk_of_idle hrest.idle rfl
        · refine State.planOk_of_analyze rfl rfl (Regs.prepcPlan_partitioned hbs hlegal hexists) fun j hj => ?_
          obtain ⟨i, -, rfl⟩ := List.mem_map.mp hj
          rfl
      | compress =>
        obtain ⟨e, rfl⟩ | ⟨hchecks, rfl⟩ := exec_compress_inv hexec
        · exact h.plan
        · obtain ⟨hvalid, hkind, hlegal, hexists⟩ := State.destinationOk_of_checks hchecks
          have hok := (h.plan_of_valid hvalid).1 hkind
          rw [← Plan.compressionOk_valid _ false] at hok
          exact State.planOk_of_encode rfl rfl hok (Bool.and_eq_true_iff.mpr ⟨decide_eq_true hlegal, decide_eq_true hexists⟩)
      | decompress =>
        obtain ⟨e, rfl⟩ | ⟨hchecks, rfl⟩ := exec_decompress_inv hexec
        · exact h.plan
        · obtain ⟨hvalid, hkind, hlegal, hexists⟩ := State.destinationOk_of_checks hchecks
          have hok := (h.plan_of_valid hvalid).2 hkind
          rw [← Plan.decompressionOk_valid _ false] at hok
          exact State.planOk_of_decode rfl rfl hok (Bool.and_eq_true_iff.mpr ⟨decide_eq_true hlegal, decide_eq_true hexists⟩)
      | prepd =>
        obtain ⟨e, info, rfl⟩ | ⟨p, hp, rfl⟩ := exec_prepd_inv hexec
        · exact State.planOk_of_idle hrest.idle rfl
        · obtain ⟨hkind, hok⟩ := prepdPlan_decompressionOk hp
          refine State.planOk_of_held hrest.idle ?_
          show match p.kind with | .c => _ | .d => _
          rw [hkind]
          exact hok
      | linit _ | lacq | lrel | analyze _ | encode _ | decode _ => exact absurd rfl hmicro
      | _ => cases hk

/-- A command of the host keeps the invariant. -/
theorem State.issue_inv (ht : s.turn = .host) (hissue : s.issue = .next t) : t.Inv := by
  have hkeeps := State.issue_keeps hissue
  refine ⟨hkeeps.params ▸ h.params, hkeeps.memory h.memory,
    (State.resting_of_controlOk h.control hb).issue ht hissue, fun q => ?_, ?_⟩
  all_goals obtain ⟨e, -, rfl⟩ | ⟨i, -, -, hexec⟩ := State.issue_next hissue
  · exact h.contexts q
  · exact exec_contexts h.contexts hexec q
  · exact h.plan
  · exact exec_planOk h hb ht hexec

end

/-! ### The step -/

/-- A step of the host keeps the invariant. -/
theorem State.HostDoes.inv {s t : State} (hdoes : s.HostDoes t) (h : s.Inv) (ht : s.turn = .host) : t.Inv := by
  have hkeeps := hdoes.keeps
  have hcontrol := hdoes.controlOk h.control ht
  cases hdoes with
  | looks | writes | stores => exact ⟨h.params, hkeeps.memory h.memory, hcontrol, h.contexts, h.plan⟩
  | issues value t hb hissue =>
    obtain ⟨hbusy, hdone, hfault⟩ := s.regs.write_flags 0x04 value
    have hwritten : (s.setRegs (s.regs.write 0x04 value)).Inv :=
      ⟨h.params, h.memory, by rw [State.controlOk_setRegs hbusy hdone hfault]; exact h.control, h.contexts, h.plan⟩
    exact State.issue_inv hwritten (hbusy.trans hb) ht hissue
  | resets =>
    have hreset := State.resetWith_inv h.params
    exact ⟨h.params, hkeeps.memory h.memory, hcontrol, hreset.contexts, hreset.plan⟩

/-- The plan after a join is that of the results, or is not held (42 R179, 43 R192). -/
theorem State.join_planOk {s t : State} (h : s.Inv) (hp : s.controller.phase ≠ .idle) (hjoin : s.join = .next t) :
    t.planOk = true := by
  have hidle := (State.join_completes hp hjoin).phase
  have hparams : t.params = s.params := by
    obtain ⟨r, p, c, js, rfl⟩ := State.join_frame hjoin
    rfl
  cases hv : t.plan.valid with
  | false => exact State.planOk_of_idle hidle hv
  | true =>
    by_cases hphase : s.controller.phase = .analyze
    · obtain ⟨rs, -, hplan, hok⟩ := h.plan_of_join hphase hjoin hv
      refine State.planOk_of_held hidle ?_
      rw [(Plan.compression_of_ok hok).kind, hparams]
      exact hok
    · obtain rfl | ⟨rs, hanalyze, -⟩ := State.join_next hp hjoin
      · rw [State.finish_plan, State.joined, if_neg hphase] at hv
        cases hv
      · exact absurd hanalyze hphase

/-- The join keeps the invariant. -/
theorem State.join_inv {s t : State} (h : s.Inv) (hr : s.joinReady = true) (hjoin : s.join = .next t) : t.Inv := by
  have hcontrol := (State.join_resting h.control hr hjoin).controlOk
  have hplan := State.join_planOk h (State.joinReady_iff.mp hr).1 hjoin
  obtain ⟨r, p, c, js, rfl⟩ := State.join_frame hjoin
  exact ⟨h.params, h.memory, hcontrol, h.contexts, hplan⟩

/-- The step of a job that is ready keeps the invariant. -/
theorem State.Inv.runJob {s t u : State} {j : Job} (h : s.Inv) (hj : j ∈ s.jobs) (hr : s.jobReady j = true)
    (hu : s.Picked (.job j.block) u) (hrun : u.runJob j.block = .next t) : t.Inv := by
  obtain ⟨sc, d, rfl⟩ := hu
  have hp := State.phase_of_job h.control hj
  have hfind := State.job?_of_mem hp h.control hj
  have hpicked := h.picked sc d (.job j.block)
  obtain ⟨f, l, m, hnext, hadv⟩ := State.runJob_advances hpicked hp rfl hfind hr
  cases hnext.symm.trans hrun
  exact hadv.inv hpicked hp hfind

/-- Settles O55, by the agent of the step. -/
theorem invariantKept : Obligations.InvariantKept := by
  intro s t h hstep
  obtain ⟨-, rfl⟩ | ⟨u, rest, ⟨sc, d, rfl⟩, -, hhost⟩ | ⟨u, ⟨sc, d, rfl⟩, hready, hjoin⟩ | ⟨u, j, hu, hj, hready, hrun⟩ :=
    step_cases hstep
  · exact h
  · exact hhost.inv ⟨h.params, h.memory, h.control, h.contexts, h.plan⟩ rfl
  · exact State.join_inv (h.picked sc d .controller) hready hjoin
  · exact h.runJob hj hready hu hrun

end Sys2Proof.Machine
end

section
/-! PROOF. What a body makes of MEM depends on the bytes it may read alone (42 R175 to R177): on memories that agree on these, the bodies record the same and leave memories that agree again. -/

namespace Sys2Proof.Machine

/-! ### Memories that agree on a set of addresses -/

/-- Two canonical memories that have the same bytes in `S`. -/
structure Memory.Agree (S : Nat → Prop) (m m' : Memory) : Prop where
  wf : Memory.wf m = true
  wf' : Memory.wf m' = true
  read : ∀ a, S a → Memory.read m' a = Memory.read m a

theorem Memory.Agree.refl (S : Nat → Prop) {m : Memory} (h : Memory.wf m = true) : Memory.Agree S m m :=
  ⟨h, h, fun _ _ => rfl⟩

section
variable {S : Nat → Prop} {m m' : Memory} (h : Memory.Agree S m m')
include h

/-- A byte made from the byte it replaces is the same where that one is. -/
theorem Memory.Agree.modify (a : Nat) (f : Byte → Byte) :
    Memory.Agree S (Memory.write m a (f (Memory.read m a))) (Memory.write m' a (f (Memory.read m' a))) := by
  refine ⟨Memory.wf_write _ _ h.wf, Memory.wf_write _ _ h.wf', fun x hx => ?_⟩
  by_cases hxa : x = a
  · subst hxa
    rw [Memory.read_write_same _ _ h.wf, Memory.read_write_same _ _ h.wf', h.read x hx]
  · rw [Memory.read_write_other m _ hxa, Memory.read_write_other m' _ hxa, h.read x hx]

theorem Memory.Agree.putAll (c : Cursor) (bits : List Bool) :
    Memory.Agree S (putAll m c bits).1 (putAll m' c bits).1 ∧ (putAll m' c bits).2 = (putAll m c bits).2 := by
  induction bits generalizing m m' c with
  | nil => exact ⟨h, rfl⟩
  | cons b bits ih => exact ih (h.modify _ fun x => replaceBits x _ _) (c.advance 1)

end

/-! ### ENCODE (42 R176) -/

/-- Two runs that stop at the same cursor with the same fault, on memories that agree. -/
structure BodyRun.Agree (S : Nat → Prop) (r r' : BodyRun) : Prop where
  mem : Memory.Agree S r.mem r'.mem
  cur : r'.cur = r.cur
  err : r'.err = r.err

/-- The code loop reads its source bytes. -/
theorem encodeBytes_agree {S : Nat → Prop} {m m' : Memory} (h : Memory.Agree S m m') (ms : Nat) (lut : LookupTable)
    {n src : Nat} (hsrc : ∀ a, src ≤ a → a < src + n → S a) (c : Cursor) :
    BodyRun.Agree S (encodeBytes ms lut n src m c) (encodeBytes ms lut n src m' c) := by
  induction n generalizing src m m' c with
  | zero => exact ⟨h, rfl, rfl⟩
  | succ n ih =>
    rw [encodeBytes, encodeBytes, h.read src (hsrc src (Nat.le_refl _) (by omega))]
    generalize lut.entryOf (Memory.read m src) = e
    dsimp only
    split
    · exact ⟨h, rfl, rfl⟩
    · split
      · exact ⟨h, rfl, rfl⟩
      · split
        · exact ⟨h, rfl, rfl⟩
        · obtain ⟨hmem, hcur⟩ := h.putAll c e.code
          rw [putBits_eq_putAll h.wf, putBits_eq_putAll h.wf', hcur]
          exact ih hmem (fun a ha ha' => hsrc a (by omega) (by omega)) _

/-! ### DECODE (41 R146, 42 R177) -/

section
variable {m m' : Memory} {c : Cursor}
  (h : ∀ a, c.base.toNat ≤ a → a < c.base.toNat + c.len.toNat → Memory.read m' a = Memory.read m a)
include h

/-- A bit that fits is one of the buffer's. -/
theorem bitAt_congr (hfits : c.fits 1 = true) : bitAt m' c = bitAt m c := by
  have hin : c.pos + 1 ≤ 8 * c.len.toNat := Cursor.fits_iff.mp hfits Nat.one_ne_zero
  rw [bitAt, bitAt, h _ (Nat.le_add_right ..) (by rw [← c.pos_div]; omega)]

theorem getBits_congr {n : Nat} (hfits : c.fits n = true) (v : Byte) : getBits m' n v c = getBits m n v c := by
  induction n generalizing c v with
  | zero => rfl
  | succ n ih =>
    obtain ⟨hone, hrest⟩ := Cursor.fits_succ hfits
    rw [getBits_succ, getBits_succ, bitAt_congr h hone]
    exact ih (c := c.advance 1) h hrest _

/-- Parse reads bytes of its buffer alone. -/
theorem parseNode_congr (ms fuel : Nat) (nodes : List Node) :
    parseNode ms m' fuel c nodes = parseNode ms m fuel c nodes := by
  induction fuel generalizing c nodes with
  | zero => rfl
  | succ fuel ih =>
    rw [parseNode, parseNode]
    dsimp only
    by_cases hone : c.fits 1 = true
    · have hbit : getBit m' c = getBit m c := congrArg (·, c.advance 1) (bitAt_congr h hone)
      have hleft := ih (c := c.advance 1) h (nodes ++ [.leaf 0#8 0#32])
      rw [hbit, getBit_snd, hleft]
      generalize hl : parseNode ms m fuel (c.advance 1) (nodes ++ [.leaf 0#8 0#32]) = l
      have hright : ∀ i, l.out = .ok i → parseNode ms m' fuel l.cur l.nodes = parseNode ms m fuel l.cur l.nodes := by
        subst hl
        intro i hi
        obtain ⟨sl, hlays⟩ | ⟨e, he, -⟩ := parseNode_cases ms m fuel (c.advance 1) (nodes ++ [.leaf 0#8 0#32])
        · rw [hlays.cur]
          exact ih (c := (c.advance 1).advance sl.bits) h _
        · cases hi.symm.trans he
      have hbyte : (c.advance 1).fits 8 = true → getByte m' (c.advance 1) = getByte m (c.advance 1) := fun h8 =>
        getBits_congr (c := c.advance 1) h h8 _
      by_cases h8 : (c.advance 1).fits 8 = true
      · rw [hbyte h8]
        cases hi : l.out with
        | error e => rfl
        | ok i => rw [hright i hi]
      · have h8 : (c.advance 1).fits 8 = false := eq_false_of_ne_true h8
        simp only [h8]
        cases hi : l.out with
        | error e => rfl
        | ok i => rw [hright i hi]; rfl
    · have hone : c.fits 1 = false := eq_false_of_ne_true hone
      rw [hone]
      rfl

theorem parseTree_congr (ms : Nat) : parseTree ms m' c = parseTree ms m c := by
  rw [parseTree, parseTree, parseNode_congr h]

end

/-- The output loop reads its buffer. -/
theorem decodeBytes_agree {S : Nat → Prop} {m m' : Memory} (h : Memory.Agree S m m') (ms : Nat) (sh : Shape)
    (n out : Nat) {c : Cursor} (hbuf : ∀ a, c.base.toNat ≤ a → a < c.base.toNat + c.len.toNat → S a) :
    BodyRun.Agree S (decodeBytes ms sh n out m c) (decodeBytes ms sh n out m' c) := by
  induction n generalizing out m m' c with
  | zero => exact ⟨h, rfl, rfl⟩
  | succ n ih =>
    obtain ⟨hbase, hlen⟩ := sh.walk_binding ms m c
    rw [decodeBytes, decodeBytes, sh.walk_congr fun a ha ha' => h.read a (hbuf a ha ha')]
    generalize sh.walk ms m c = walked at hbase hlen
    obtain ⟨c', e | v⟩ := walked
    · exact ⟨h, rfl, rfl⟩
    · dsimp only at hbase hlen ⊢
      split
      · exact ⟨h, rfl, rfl⟩
      · exact ih (h.modify out fun _ => v) (out + 1) (by rw [hbase, hlen]; exact hbuf)

end Sys2Proof.Machine
end

section
/-! PROOF. A body on two states that have the same bytes where it reads and writes: it records the same in its job and leaves the same bytes (42 R175 to R177), each body in the bytes that are its own (20 R71). -/

namespace Sys2Proof.Machine

/-! ### The bodies on two states -/

/-- What a job reports to the join (42 R179, 43 R192). -/
def Job.outcome (j : Job) : Option FaultCode × Option AnalyzeResult := (j.err, j.res)

/-- `f` is what a body does to its job: it takes it to the LREL, and what it leaves to report depends on that alone. -/
structure IsBody (f : Job → Job) : Prop where
  after : ∀ j : Job, j.AfterBody (f j)
  outcome : ∀ {j j' : Job}, j'.outcome = j.outcome → (f j').outcome = (f j).outcome

/-- The two states differ for a body in the bytes outside `S` alone. -/
structure State.SameView (S : Nat → Prop) (s u : State) : Prop where
  plan : u.plan = s.plan
  controller : u.controller = s.controller
  memSize : u.params.memSize = s.params.memSize
  mem : Memory.Agree S s.mem u.mem

/-- A body does the same to job `i` of both states, and leaves memories that agree. -/
def State.RunsAlike (S : Nat → Prop) (s u : State) (body : Instr) (i : Nat) : Prop :=
  ∃ f m m', exec body s = .next ((s.setMem m).updateJob i f) ∧ exec body u = .next ((u.setMem m').updateJob i f) ∧
    IsBody f ∧ Memory.Agree S m m'

/-- A body that leaves the job's result alone is one by what it makes of the job's fault. -/
theorem isBody_of_err (g : Option FaultCode → Option FaultCode) (w r : Job → Cursor) (t : Job → Tree)
    (lut : Job → LookupTable) :
    IsBody fun j => { j with w := w j, r := r j, tree := t j, lut := lut j, err := g j.err, pc := 2 } :=
  ⟨fun _ => ⟨rfl, rfl, rfl, rfl⟩, fun h => congrArg (fun o => (g o.1, o.2)) h⟩

section
variable {S : Nat → Prop} {s u : State} {block : Word} {j j' : Job} (h : s.SameView S u) (ht : s.turn ≠ .host)
  (ht' : u.turn ≠ .host) (hj : s.job? block.toNat = some j) (hj' : u.job? block.toNat = some j')
include h ht ht' hj hj'

/-- ANALYZE reads its block (42 R175). -/
theorem State.SameView.analyze_runsAlike (hpos : 0 < s.plan.blockLen block.toNat)
    (hin : s.plan.blockStart block.toNat + s.plan.blockLen block.toNat ≤ s.params.memSize)
    (hsrc : ∀ a, s.plan.blockStart block.toNat ≤ a →
      a < s.plan.blockStart block.toNat + s.plan.blockLen block.toNat → S a) :
    s.RunsAlike S u (.analyze block) block.toNat := by
  have hbytes : Memory.readBytes u.mem (u.plan.blockStart block.toNat) (u.plan.blockLen block.toNat) =
      Memory.readBytes s.mem (s.plan.blockStart block.toNat) (s.plan.blockLen block.toNat) := by
    rw [h.plan]
    exact Memory.readBytes_congr fun a ha ha' => h.mem.read a (hsrc a ha ha')
  generalize hread : Memory.readBytes s.mem _ _ = bytes at hbytes
  have hlen : bytes.length = s.plan.blockLen block.toNat := by rw [← hread, Memory.readBytes_length]
  obtain ⟨sh, hsh⟩ := Option.isSome_iff_exists.mp (buildTree_shape_isSome (bytes := bytes) (by
    rintro rfl; rw [List.length_nil] at hlen; omega))
  have hpos' : 0 < u.plan.blockLen block.toNat := by rwa [h.plan]
  have hin' : u.plan.blockStart block.toNat + u.plan.blockLen block.toNat ≤ u.params.memSize := by
    rwa [h.plan, h.memSize]
  cases hr : analyzeBlock bytes sh (buildTree bytes) with
  | error e =>
    exact ⟨_, s.mem, u.mem, exec_analyze_of_error ht hj hpos hin hread hsh hr,
      exec_analyze_of_error ht' hj' hpos' hin' hbytes hsh hr, isBody_of_err (fun _ => some e) Job.w Job.r Job.tree Job.lut, h.mem⟩
  | ok r =>
    exact ⟨_, s.mem, u.mem, exec_analyze_of_ok ht hj hpos hin hread hsh hr,
      exec_analyze_of_ok ht' hj' hpos' hin' hbytes hsh hr,
      ⟨fun _ => ⟨rfl, rfl, rfl, rfl⟩, fun ho => congrArg (fun o => (o, some r)) (congrArg Prod.fst ho)⟩, h.mem⟩

/-- ENCODE reads the bytes of its block (42 R176). -/
theorem State.SameView.encode_runsAlike {d : Desc} {tr : Tree} {sh : Shape} (hd : s.plan.desc[block.toNat]? = some d)
    (htree : d.tree = some tr) (hsh : tr.shape = some sh)
    (hsrc : ∀ a, s.plan.blockStart block.toNat ≤ a → a < s.plan.blockStart block.toNat + d.dsize.toNat → S a) :
    s.RunsAlike S u (.encode block) block.toNat := by
  have hd' : u.plan.desc[block.toNat]? = some d := by rwa [h.plan]
  have hwriter : u.regionWriter d = s.regionWriter d := by
    rw [State.regionWriter, State.regionWriter, h.plan, h.controller]
  by_cases hfits : (s.regionWriter d).fits tr.treeBits = true
  · by_cases hmem : (s.regionWriter d).memOk s.params.memSize tr.treeBits = true
    · have hrun : BodyRun.Agree S (s.encodeRun block.toNat d sh) (u.encodeRun block.toNat d sh) := by
        rw [State.encodeRun, State.encodeRun, sh.serialize_eq h.mem.wf, sh.serialize_eq h.mem.wf', hwriter, h.plan,
          h.memSize]
        obtain ⟨hm, hc⟩ := h.mem.putAll (s.regionWriter d) sh.preorder
        rw [hc]
        exact encodeBytes_agree hm _ _ hsrc _
      have hexec := exec_encode_of_room ht hj hd htree hsh ⟨hfits, hmem⟩
      have hexec' := exec_encode_of_room ht' hj' hd' htree hsh ⟨hwriter ▸ hfits, hwriter ▸ h.memSize ▸ hmem⟩
      rw [hrun.cur, hrun.err] at hexec'
      exact ⟨_, _, _, hexec, hexec', isBody_of_err (Option.or _) _ Job.r _ _, hrun.mem⟩
    · have hexec' := exec_encode_of_not_memOk ht' hj' hd' htree (hwriter ▸ hfits) (by rwa [hwriter, h.memSize])
      rw [hwriter] at hexec'
      exact ⟨_, s.mem, u.mem, exec_encode_of_not_memOk ht hj hd htree hfits hmem, hexec',
        isBody_of_err (fun _ => some .busError) _ Job.r _ Job.lut, h.mem⟩
  · have hexec' := exec_encode_of_not_fits ht' hj' hd' htree (by rwa [hwriter])
    rw [hwriter] at hexec'
    exact ⟨_, s.mem, u.mem, exec_encode_of_not_fits ht hj hd htree hfits, hexec',
      isBody_of_err (fun _ => some .writeOutOfBounds) _ Job.r _ Job.lut, h.mem⟩

/-- DECODE reads its region (42 R177). -/
theorem State.SameView.decode_runsAlike {d : Desc} (hd : s.plan.desc[block.toNat]? = some d)
    (hregion : ∀ a, (s.regionReader d).base.toNat ≤ a → a < (s.regionReader d).base.toNat + d.csize.toNat → S a) :
    s.RunsAlike S u (.decode block) block.toNat := by
  have hd' : u.plan.desc[block.toNat]? = some d := by rwa [h.plan]
  have hreader : u.regionReader d = s.regionReader d := by rw [State.regionReader, State.regionReader, h.plan]
  have hparse : parseTree u.params.memSize u.mem (u.regionReader d) =
      parseTree s.params.memSize s.mem (s.regionReader d) := by
    rw [hreader, h.memSize]
    exact parseTree_congr (fun a ha ha' => h.mem.read a (hregion a ha ha')) _
  obtain ⟨sh, hok, -⟩ | ⟨c, e, herr, -⟩ := parseTree_cases s.params.memSize s.mem (s.regionReader d)
  · have hrun : BodyRun.Agree S (s.decodeRun d sh.unweighted ((s.regionReader d).advance sh.bits))
        (u.decodeRun d sh.unweighted ((s.regionReader d).advance sh.bits)) := by
      rw [State.decodeRun, State.decodeRun, h.memSize, h.controller]
      exact decodeBytes_agree h.mem _ _ _ _ hregion
    have hexec' := exec_decode_of_ok ht' hj' hd' sh.parsedTree_shape (hparse.trans hok)
    rw [hrun.cur, hrun.err] at hexec'
    exact ⟨_, _, _, exec_decode_of_ok ht hj hd sh.parsedTree_shape hok, hexec', isBody_of_err (Option.or _) Job.w _ _ Job.lut,
      hrun.mem⟩
  · exact ⟨_, s.mem, u.mem, exec_decode_of_error ht hj hd herr, exec_decode_of_error ht' hj' hd' (hparse.trans herr),
      isBody_of_err (fun _ => some e) Job.w _ Job.tree Job.lut, h.mem⟩

end

end Sys2Proof.Machine
end

section
/-! PROOF. Each body writes bytes of its own in the destination (20 R71): the regions of a compression plan follow one another (43 R193), as do the output ranges of a decompression plan (43 R202). -/

namespace Sys2Proof.Machine

/-! ### Ranges that follow one another -/

/-- A sum over more descriptors is no smaller. -/
theorem sizeSum_mono (size : Desc → Word) (ds : List Desc) {i k : Nat} (h : i ≤ k) :
    sizeSum size ds i ≤ sizeSum size ds k := by
  obtain ⟨n, rfl⟩ := Nat.exists_eq_add_of_le h
  rw [sizeSum, sizeSum, List.take_add, List.map_append, List.sum_append]
  exact Nat.le_add_right ..

/-- A byte at the running sums is of one descriptor alone. -/
theorem sizeSum_range_unique {size : Desc → Word} {ds : List Desc} {i k x : Nat} {d e : Desc} (hd : ds[i]? = some d)
    (he : ds[k]? = some e) (hi : sizeSum size ds i ≤ x ∧ x < sizeSum size ds i + (size d).toNat)
    (hk : sizeSum size ds k ≤ x ∧ x < sizeSum size ds k + (size e).toNat) : i = k := by
  rw [← sizeSum_succ size hd] at hi
  rw [← sizeSum_succ size he] at hk
  obtain hlt | heq | hlt := Nat.lt_trichotomy i k
  · have := sizeSum_mono size ds (show i + 1 ≤ k from hlt)
    omega
  · exact heq
  · have := sizeSum_mono size ds (show k + 1 ≤ i from hlt)
    omega

/-! ### The descriptors of a decompression plan (43 R200, R202) -/

/-- Descriptors that chain have their regions in the container and stand at the sums of the sizes. -/
theorem Plan.chainD_spec {p : Plan} {ds : List Desc} {doff x : Nat} (h : p.chainD doff ds = some x) :
    (∀ k d, ds[k]? = some d → p.headerSize.toNat + d.offset.toNat + d.csize.toNat ≤ p.srcSize.toNat ∧
      d.doff.toNat = doff + sizeSum Desc.dsize ds k) ∧ x = doff + sizeSum Desc.dsize ds ds.length := by
  induction ds generalizing doff with
  | nil => exact ⟨nofun, (Option.some.inj h).symm⟩
  | cons d ds ih =>
    rw [Plan.chainD] at h
    split at h
    · next hd =>
      rw [Bool.and_eq_true, decide_eq_true_eq, beq_iff_eq] at hd
      obtain ⟨hregion, hdoff⟩ := hd
      obtain ⟨hdescs, hx⟩ := ih h
      refine ⟨fun k e he => ?_, by rw [hx, List.length_cons, sizeSum_cons, Nat.add_assoc]⟩
      cases k with
      | zero =>
        cases he
        exact ⟨hregion, hdoff⟩
      | succ k =>
        obtain ⟨hin, hsum⟩ := hdescs k e he
        exact ⟨hin, by rw [hsum, sizeSum_cons, Nat.add_assoc]⟩
    · cases h

/-- What the invariant says of a decompression plan (10 R37, 43 R199 to R202). -/
structure Plan.Decompression (p : Plan) : Prop where
  source : p.srcBase.toNat + p.srcSize.toNat ≤ 4294967296
  regions : ∀ (i : Nat) (d : Desc), p.desc[i]? = some d → p.headerSize.toNat + d.offset.toNat + d.csize.toNat ≤ p.srcSize.toNat
  doffs : ∀ (i : Nat) (d : Desc), p.desc[i]? = some d → d.doff.toNat = sizeSum Desc.dsize p.desc i
  outSize : p.outSize.toNat = sizeSum Desc.dsize p.desc p.desc.length

theorem Plan.decompression_of_ok {p : Plan} {ms : Nat} (h : p.decompressionOk ms = true) : p.Decompression := by
  simp only [Plan.decompressionOk, Plan.sourceOk, Bool.and_eq_true, decide_eq_true_eq, beq_iff_eq] at h
  obtain ⟨⟨⟨⟨-, ⟨-, hlegal⟩, -⟩, -⟩, -⟩, hchain⟩ := h
  obtain ⟨hdescs, hsum⟩ := Plan.chainD_spec hchain
  exact ⟨hlegal, fun i d hd => (hdescs i d hd).1, fun i d hd => (hdescs i d hd).2.trans (Nat.zero_add _),
    hsum.trans (Nat.zero_add _)⟩

/-! ### The bytes a body reads and the bytes it may write -/

/-- The bytes that the body of block `i` may write (42 R176, R177). -/
def State.owns (s : State) (i a : Nat) : Prop :=
  match s.controller.phase with
  | .idle | .analyze => False
  | .encode => ∃ d, s.plan.desc[i]? = some d ∧
      s.controller.dstBase.toNat + s.plan.headerSize.toNat + d.offset.toNat ≤ a ∧
      a < s.controller.dstBase.toNat + s.plan.headerSize.toNat + d.offset.toNat + d.csize.toNat
  | .decode => ∃ d, s.plan.desc[i]? = some d ∧ s.controller.dstBase.toNat + d.doff.toNat ≤ a ∧
      a < s.controller.dstBase.toNat + d.doff.toNat + d.dsize.toNat

section
variable {s : State} (h : s.Inv)
include h

/-- The bytes of a body are in the destination range of its command (43 R206). -/
theorem State.Inv.owns_inDestination {i a : Nat} (ha : s.owns i a) :
    s.controller.dstBase.toNat ≤ a ∧ a < s.controller.dstBase.toNat + s.plan.outSize.toNat := by
  cases hp : s.controller.phase <;> simp only [State.owns, hp] at ha
  case encode =>
    obtain ⟨d, hd, hle, hlt⟩ := ha
    have := (Plan.compression_of_ok (h.plan_of_encode hp)).region_end_le (List.mem_of_getElem? hd)
    omega
  case decode =>
    obtain ⟨d, hd, hle, hlt⟩ := ha
    have hok := Plan.decompression_of_ok (h.plan_of_decode hp)
    have hdoff := hok.doffs i d hd
    have := sizeSum_le Desc.dsize s.plan.desc (i + 1)
    rw [sizeSum_succ _ hd, ← hok.outSize] at this
    omega

/-- No byte is of two bodies. -/
theorem State.Inv.owns_unique {i k a : Nat} (hi : s.owns i a) (hk : s.owns k a) : i = k := by
  cases hp : s.controller.phase <;> simp only [State.owns, hp] at hi hk
  case encode =>
    obtain ⟨d, hd, hi⟩ := hi
    obtain ⟨e, he, hk⟩ := hk
    have hoffsets := (Plan.compression_of_ok (h.plan_of_encode hp)).offsets
    rw [hoffsets i d hd] at hi
    rw [hoffsets k e he] at hk
    exact sizeSum_range_unique (size := Desc.csize) (x := a - (s.controller.dstBase.toNat + s.plan.headerSize.toNat)) hd he
      (by omega) (by omega)
  case decode =>
    obtain ⟨d, hd, hi⟩ := hi
    obtain ⟨e, he, hk⟩ := hk
    have hdoffs := (Plan.decompression_of_ok (h.plan_of_decode hp)).doffs
    rw [hdoffs i d hd] at hi
    rw [hdoffs k e he] at hk
    exact sizeSum_range_unique (size := Desc.dsize) (x := a - s.controller.dstBase.toNat) hd he (by omega) (by omega)

end

/-- A block of the partition lies in the source (43 R191). -/
theorem Plan.block_inSource {p : Plan} {ms : Nat} (h : p.partitioned ms = true) (i : Nat) :
    (0 < p.blockLen i → p.blockStart i + p.blockLen i ≤ ms) ∧
      ∀ a, p.blockStart i ≤ a → a < p.blockStart i + p.blockLen i →
        p.srcBase.toNat ≤ a ∧ a < p.srcBase.toNat + p.srcSize.toNat := by
  simp only [Plan.partitioned, Plan.sourceOk, Bool.and_eq_true, decide_eq_true_eq, beq_iff_eq] at h
  obtain ⟨⟨⟨-, ⟨hsize, -⟩, hexists⟩, -⟩, -⟩ := h
  have hlen : p.blockLen i ≤ p.srcSize.toNat - i * p.blockSize.toNat := by
    rw [Plan.blockLen, hsize]
    exact Nat.min_le_right ..
  rw [Plan.blockStart]
  exact ⟨fun hpos => by omega, fun a ha ha' => by omega⟩

/-- Each block of a compression plan has a descriptor with a sound built tree (10 R38). -/
theorem Plan.tree_of_compressionOk {p : Plan} {ms i : Nat} (h : p.compressionOk ms = true)
    (hi : i < p.blockCount.toNat) :
    ∃ d t, p.desc[i]? = some d ∧ d.tree = some t ∧ t.built = true ∧ t.wf = true := by
  obtain ⟨d, -, hd, -⟩ := Plan.desc_of_compressionOk h hi
  simp only [Plan.compressionOk, Bool.and_eq_true, beq_iff_eq] at h
  obtain ⟨-, hchain⟩ := h
  obtain ⟨x, hx, -⟩ := Option.map_eq_some_iff.mp hchain
  obtain ⟨t, ht⟩ := Plan.tree_of_chainC hx (List.mem_of_getElem? hd)
  exact ⟨d, t, hd, ht⟩

/-- The destination of a running COMPRESS ends in the address space (43 R196). -/
theorem State.Inv.destination_of_encode {s : State} (h : s.Inv) (hp : s.controller.phase = .encode) :
    s.controller.dstBase.toNat + s.plan.outSize.toNat ≤ 4294967296 := by
  have hplan := h.plan
  simp only [State.planOk, hp, State.destinationOk, Bool.and_eq_true, decide_eq_true_eq] at hplan
  obtain ⟨⟨-, hlegal, -⟩, -⟩ := hplan
  exact hlegal

/-- A descriptor of a compression plan has the size of its block (43 R191). -/
theorem Plan.Compression.dsize_eq {p : Plan} {ms i : Nat} {d : Desc} (h : p.Compression ms) (hd : p.desc[i]? = some d) :
    d.dsize.toNat = p.blockLen i := by
  have hi := congrArg (·[i]?) h.dsizes
  simpa [hd, List.getElem?_range (List.getElem?_eq_some_iff.mp hd).1] using hi

/-- The region a DECODE reads lies in the container (43 R200). -/
theorem State.regionReader_inSource {s : State} {i : Nat} {d : Desc} (h : s.plan.Decompression)
    (hd : s.plan.desc[i]? = some d) (a : Nat) (ha : (s.regionReader d).base.toNat ≤ a)
    (ha' : a < (s.regionReader d).base.toNat + d.csize.toNat) : s.inSource a := by
  have hin := h.regions i d hd
  have hlegal := h.source
  have hbase : (s.regionReader d).base.toNat = s.plan.srcBase.toNat + s.plan.headerSize.toNat + d.offset.toNat :=
    (BitVec.toNat_ofNat ..).trans (Nat.mod_eq_of_lt (by omega))
  rw [hbase] at ha ha'
  exact ⟨by omega, by omega⟩

/-! ### The body of a running phase -/

section
variable {s t : State} {i : Nat} {j : Job} {body : Instr} (h : s.Inv) (ht : s.turn = .job i) (hj : s.job? i = some j)
  (hb : s.controller.phase.body? i = some body)
include h ht hj hb

/-- A body writes its own bytes alone (20 R71). -/
theorem exec_body_frame (hexec : exec body s = .next t) {a : Nat} (ha : ¬ s.owns i a) :
    Memory.read t.mem a = Memory.read s.mem a := by
  obtain ⟨hmem, hblock⟩ := State.job?_some hj
  have hi := hblock ▸ (State.jobs_of_controlOk h.control hmem).1
  have ht' : s.turn ≠ .host := by rw [ht]; exact Agent.noConfusion
  have hu : (u32 i).toNat = i := u32_toNat_of_lt hi
  rw [← hu] at hj
  cases hp : s.controller.phase <;> rw [hp] at hb <;> cases hb
  case analyze =>
    obtain ⟨f, rfl, -⟩ := exec_analyze_done ht' hexec
    rfl
  case encode =>
    obtain ⟨d, tr, hd, htree, hbuilt, hwf⟩ := Plan.tree_of_compressionOk (h.plan_of_encode hp) hi
    have hend := (Plan.compression_of_ok (h.plan_of_encode hp)).region_end_le (List.mem_of_getElem? hd)
    have hlegal := h.destination_of_encode hp
    obtain ⟨v, -, hv, -, -, -, -, -, -, hframe, -⟩ :=
      encodeWritesOnlyItsRegion s (u32 i) j d tr ht' h.memory hj (hu.symm ▸ hd) htree hbuilt hwf (by omega)
    cases hv.symm.trans hexec
    exact hframe a fun hin => ha (by simp only [State.owns, hp]; exact ⟨d, hd, hin⟩)
  case decode =>
    obtain ⟨d, hd⟩ := Plan.desc_of_decompressionOk (h.plan_of_decode hp) hi
    obtain ⟨v, -, hv, -, -, -, -, hframe, -⟩ := decodeWritesOnlyItsRange s (u32 i) j d ht' hj (hu.symm ▸ hd)
    cases hv.symm.trans hexec
    exact hframe a fun hin => ha (by simp only [State.owns, hp]; exact ⟨d, hd, hin⟩)

/-- On a state with the same bytes in the source a body does the same. -/
theorem exec_body_runsAlike {S : Nat → Prop} {u : State} {j' : Job} (hview : s.SameView S u) (ht' : u.turn = .job i)
    (hj' : u.job? i = some j') (hS : ∀ a, s.inSource a → S a) : s.RunsAlike S u body i := by
  obtain ⟨hmem, hblock⟩ := State.job?_some hj
  have hi := hblock ▸ (State.jobs_of_controlOk h.control hmem).1
  have ht : s.turn ≠ .host := by rw [ht]; exact Agent.noConfusion
  have ht' : u.turn ≠ .host := by rw [ht']; exact Agent.noConfusion
  have hu : (u32 i).toNat = i := u32_toNat_of_lt hi
  rw [← hu] at hj hj'
  cases hp : s.controller.phase <;> rw [hp] at hb <;> cases hb
  case analyze =>
    have hpart := (h.plan_of_analyze hp).1
    have hpos := Nat.pos_of_ne_zero (Plan.blockLen_ne_zero hpart hi)
    obtain ⟨hin, hsource⟩ := Plan.block_inSource hpart i
    rw [← hu] at hpos hin hsource
    have halike := hview.analyze_runsAlike ht ht' hj hj' hpos (hin hpos) fun a ha ha' => hS a (hsource a ha ha')
    rwa [hu] at halike
  case encode =>
    obtain ⟨d, tr, hd, htree, hbuilt, hwf⟩ := Plan.tree_of_compressionOk (h.plan_of_encode hp) hi
    obtain ⟨sh, hsh⟩ := Option.isSome_iff_exists.mp (Tree.shape_isSome_of_wf hwf hbuilt)
    have hok := Plan.compression_of_ok (h.plan_of_encode hp)
    obtain ⟨-, hsource⟩ := Plan.block_inSource hok.partitioned i
    rw [← hok.dsize_eq hd] at hsource
    rw [← hu] at hd hsource
    have halike := hview.encode_runsAlike ht ht' hj hj' hd htree hsh fun a ha ha' => hS a (hsource a ha ha')
    rwa [hu] at halike
  case decode =>
    obtain ⟨d, hd⟩ := Plan.desc_of_decompressionOk (h.plan_of_decode hp) hi
    have hregion := State.regionReader_inSource (Plan.decompression_of_ok (h.plan_of_decode hp)) hd
    rw [← hu] at hd
    have halike := hview.decode_runsAlike ht ht' hj hj' hd fun a ha ha' => hS a (hregion a ha ha')
    rwa [hu] at halike

end

end Sys2Proof.Machine
end

section
/-! PROOF. The schedule does not matter (20 R76, 43 R208): a state fixes what each block will report and leave in MEM once its body has run, and no step of a job changes that. -/

namespace Sys2Proof.Machine

/-! ### What a state has in store for a block -/

/-- Block `i` once its body has run, alone and from this state on, unless it has run already. -/
def State.settled (s : State) (i : Nat) : State :=
  match s.job? i, s.controller.phase.body? i with
  | some j, some body =>
    match exec body (s.setTurn (.job i)) with
    | .next t => if j.pc.val ≤ 1 then t else s
    | .fault _ | .refused _ => s
  | _, _ => s

/-- Whether a job has its body still to run, and what it reports so far. -/
def Job.task (j : Job) : Bool × Option FaultCode × Option AnalyzeResult := (decide (j.pc.val ≤ 1), j.outcome)

/-- What block `i` reports so far. -/
def State.outcome (s : State) (i : Nat) : Option (Option FaultCode × Option AnalyzeResult) := (s.job? i).map Job.outcome

theorem State.outcome_updateJob {s : State} {i : Nat} {j : Job} {f : Job → Job} (hj : s.job? i = some j)
    (hf : ∀ j, (f j).block = j.block) : (s.updateJob i f).outcome i = some (f j).outcome :=
  congrArg (Option.map Job.outcome) (State.job?_updateJob hj hf)

theorem State.settled_of_none {s : State} {i : Nat} (hj : s.job? i = none) : s.settled i = s := by
  rw [State.settled, hj]

/-- A block whose body has run is as it is. -/
theorem State.settled_of_done {s : State} {i : Nat} {j : Job} (hj : s.job? i = some j) (hpc : ¬ j.pc.val ≤ 1) :
    s.settled i = s := by
  rw [State.settled, hj]
  split
  · next heq _ =>
    cases heq
    simp only [hpc, if_false]
    split <;> rfl
  · rfl

theorem State.settled_of_pending {s t : State} {i : Nat} {j : Job} {body : Instr} (hj : s.job? i = some j)
    (hpc : j.pc.val ≤ 1) (hb : s.controller.phase.body? i = some body) (hexec : exec body (s.setTurn (.job i)) = .next t) :
    s.settled i = t := by
  simp only [State.settled, hj, hb, hexec, hpc, if_true]

/-- Block `i` will report the same in both states, and leave the same in its bytes. -/
structure State.SettlesAlike (s t : State) (i : Nat) : Prop where
  outcome : (t.settled i).outcome i = (s.settled i).outcome i
  owned : ∀ a, s.owns i a → Memory.read (t.settled i).mem a = Memory.read (s.settled i).mem a

/-- The two states have the same in store: plan, blocks, and the bytes that are of no block. -/
structure State.SameEnd (s t : State) : Prop where
  plan : t.plan = s.plan
  controller : t.controller = s.controller
  blocks : ∀ i, s.SettlesAlike t i
  unowned : ∀ a, (∀ i, ¬ s.owns i a) → Memory.read t.mem a = Memory.read s.mem a

theorem State.owns_congr {s t : State} (hplan : t.plan = s.plan) (hctl : t.controller = s.controller) (i a : Nat) :
    t.owns i a ↔ s.owns i a := by
  rw [State.owns, State.owns, hplan, hctl]

theorem State.SameEnd.symm {s t : State} (h : s.SameEnd t) : t.SameEnd s := by
  have howns := State.owns_congr h.plan h.controller
  exact ⟨h.plan.symm, h.controller.symm,
    fun i => ⟨(h.blocks i).outcome.symm, fun a ha => ((h.blocks i).owned a ((howns i a).mp ha)).symm⟩,
    fun a ha => (h.unowned a fun i hi => ha i ((howns i a).mpr hi)).symm⟩

theorem State.SameEnd.trans {s t u : State} (h : s.SameEnd t) (h' : t.SameEnd u) : s.SameEnd u := by
  have howns := State.owns_congr h.plan h.controller
  exact ⟨h'.plan.trans h.plan, h'.controller.trans h.controller,
    fun i => ⟨(h'.blocks i).outcome.trans (h.blocks i).outcome,
      fun a ha => ((h'.blocks i).owned a ((howns i a).mpr ha)).trans ((h.blocks i).owned a ha)⟩,
    fun a ha => (h'.unowned a fun i hi => ha i ((howns i a).mp hi)).trans (h.unowned a ha)⟩

/-! ### States with the same tasks -/

section
variable {s t : State} (h : s.Inv)
include h

/-- A block with the same task and the same bytes in the source and in its own ends the same. -/
theorem State.SameView.settlesAlike {i : Nat} (hview : s.SameView (fun a => s.inSource a ∨ s.owns i a) t)
    (htask : (t.job? i).map Job.task = (s.job? i).map Job.task) : s.SettlesAlike t i := by
  cases hj : s.job? i with
  | none =>
    rw [hj] at htask
    have hj' : t.job? i = none := Option.map_eq_none_iff.mp htask
    refine ⟨?_, fun a ha => ?_⟩ <;> rw [State.settled_of_none hj, State.settled_of_none hj']
    · rw [State.outcome, State.outcome, hj, hj']
    · exact hview.mem.read a (.inr ha)
  | some j =>
    rw [hj] at htask
    obtain ⟨j', hj', hsame⟩ := Option.map_eq_some_iff.mp htask
    obtain ⟨hpending, houtcome⟩ := Prod.mk.inj hsame
    have hpending : j'.pc.val ≤ 1 ↔ j.pc.val ≤ 1 := decide_eq_decide.mp hpending
    by_cases hpc : j.pc.val ≤ 1
    · obtain ⟨hmem, hblock⟩ := State.job?_some hj
      obtain ⟨body, hb, -⟩ := Job.prog_of_controlOk (State.jobs_of_controlOk h.control hmem).2
      rw [hblock] at hb
      have hview' : (s.setTurn (.job i)).SameView (fun a => s.inSource a ∨ s.owns i a) (t.setTurn (.job i)) :=
        ⟨hview.plan, hview.controller, hview.memSize, hview.mem⟩
      have hturn : (s.setTurn (.job i)).Inv := h.picked s.sched s.draws (.job i)
      obtain ⟨f, m, m', hexec, hexec', hbody, hagree⟩ := exec_body_runsAlike hturn rfl hj hb hview' rfl hj' fun a ha => .inl ha
      have hb' : t.controller.phase.body? i = some body := by rwa [hview.controller]
      have hblocks : ∀ j, (f j).block = j.block := fun j => (hbody.after j).block
      refine ⟨?_, fun a ha => ?_⟩ <;>
        rw [State.settled_of_pending hj hpc hb hexec, State.settled_of_pending hj' (hpending.mpr hpc) hb' hexec']
      · rw [State.outcome_updateJob (s := (s.setTurn (.job i)).setMem m) hj hblocks,
          State.outcome_updateJob (s := (t.setTurn (.job i)).setMem m') hj' hblocks, hbody.outcome houtcome]
      · exact hagree.read a (.inr ha)
    · refine ⟨?_, fun a ha => ?_⟩ <;> rw [State.settled_of_done hj hpc, State.settled_of_done hj' (mt hpending.mp hpc)]
      · rw [State.outcome, State.outcome, hj, hj', Option.map_some, Option.map_some, houtcome]
      · exact hview.mem.read a (.inr ha)

/-- States that differ in nothing a body reads or reports have the same in store. -/
theorem State.sameEnd_of_tasks (hplan : t.plan = s.plan) (hctl : t.controller = s.controller)
    (hms : t.params.memSize = s.params.memSize) (hmem : t.mem = s.mem)
    (htask : ∀ i, (t.job? i).map Job.task = (s.job? i).map Job.task) : s.SameEnd t := by
  have hread : ∀ a, Memory.read t.mem a = Memory.read s.mem a := fun a => by rw [hmem]
  have hview : ∀ S, s.SameView S t := fun S => ⟨hplan, hctl, hms, h.memory, hmem ▸ h.memory, fun a _ => hread a⟩
  exact ⟨hplan, hctl, fun i => (hview _).settlesAlike h (htask i), fun a _ => hread a⟩

end

/-! ### The step of a job -/

/-- The source and the destination of the running command are apart (43 R196, R204). -/
def State.Apart (s : State) : Prop :=
  ∀ a, s.inSource a → ¬ (s.controller.dstBase.toNat ≤ a ∧ a < s.controller.dstBase.toNat + s.plan.outSize.toNat)

section
variable {s t : State} {j : Job} (h : s.Inv) (hj : s.job? j.block = some j)
include h hj

/-- A permit taken or given back changes nothing that is in store. -/
theorem State.sameEnd_of_permit {b : Bool} {pc : Fin 4} {l : Limiter} (hpc : pc.val ≤ 1 ↔ j.pc.val ≤ 1) :
    s.SameEnd (s.advanced j.block (Job.permit b pc) l s.mem) := by
  refine State.sameEnd_of_tasks h rfl rfl rfl rfl fun i => ?_
  by_cases hi : i = j.block
  · subst hi
    rw [State.advanced, State.job?_updateJob (s := (s.setLimiter l).setMem s.mem) hj (Job.permit_block b pc), hj]
    exact congrArg (fun p => some (p, j.outcome)) (decide_eq_decide.mpr hpc)
  · rw [State.advanced, State.job?_updateJob_ne (Job.permit_block b pc) hi]
    rfl

/-- A body that runs leaves what its block had in store, and what the other blocks have: it writes its own bytes alone,
which no other body reads. -/
theorem State.sameEnd_of_body {body : Instr} (ht : s.turn = .job j.block) (hpc : j.pc.val ≤ 1)
    (hb : s.controller.phase.body? j.block = some body) (hexec : exec body s = .next t) (hapart : s.Apart) :
    s.SameEnd t := by
  have hframe := fun a (ha : ¬ s.owns j.block a) => exec_body_frame h ht hj hb hexec ha
  obtain ⟨f, m, _, hf, -, hbody, hagree⟩ := exec_body_runsAlike h ht hj hb
    (⟨rfl, rfl, rfl, .refl _ h.memory⟩ : s.SameView s.inSource s) ht hj fun _ ha => ha
  cases hexec.symm.trans hf
  have hblocks : ∀ j, (f j).block = j.block := fun j => (hbody.after j).block
  refine ⟨rfl, rfl, fun i => ?_, fun a ha => hframe a (ha j.block)⟩
  by_cases hi : i = j.block
  · subst hi
    have hsettled : s.settled j.block = (s.setMem m).updateJob j.block f :=
      State.settled_of_pending hj hpc hb (by rw [← ht]; exact hexec)
    have hdone : ((s.setMem m).updateJob j.block f).settled j.block = (s.setMem m).updateJob j.block f :=
      State.settled_of_done (State.job?_updateJob (s := s.setMem m) hj hblocks) (by rw [(hbody.after j).pc]; decide)
    exact ⟨by rw [hsettled, hdone], fun a _ => by rw [hsettled, hdone]⟩
  · refine State.SameView.settlesAlike h ⟨rfl, rfl, rfl, h.memory, hagree.wf, fun a ha => hframe a ?_⟩
      (congrArg (Option.map Job.task) (State.job?_updateJob_ne (s := s.setMem m) hblocks hi))
    intro hown
    obtain hsource | hother := ha
    · exact hapart a hsource (h.owns_inDestination hown)
    · exact hi (h.owns_unique hother hown)

end

end Sys2Proof.Machine
end

section
/-! PROOF. The schedule does not matter (20 R76, 43 R208): every run of the phase comes to a join with the same in store, where nothing is left to run. -/

namespace Sys2Proof.Machine

/-! ### The run up to the join -/

/-- `t` is a later state of the phase of `s`. -/
structure State.LeadsTo (s t : State) : Prop where
  inv : t.Inv
  sameEnd : s.SameEnd t
  regs : t.regs = s.regs
  ctx : t.ctx = s.ctx
  inputs : t.inputs = s.inputs
  capacity : t.limiter.capacity = s.limiter.capacity

theorem State.LeadsTo.trans {s t u : State} (h : s.LeadsTo t) (h' : t.LeadsTo u) : s.LeadsTo u :=
  ⟨h'.inv, h.sameEnd.trans h'.sameEnd, h'.regs.trans h.regs, h'.ctx.trans h.ctx, h'.inputs.trans h.inputs,
    h'.capacity.trans h.capacity⟩

theorem State.Picked.leadsTo {s u : State} {a : Agent} (h : s.Inv) (hu : s.Picked a u) : s.LeadsTo u := by
  obtain ⟨sc, d, rfl⟩ := hu
  exact ⟨h.picked sc d a, State.sameEnd_of_tasks h rfl rfl rfl rfl fun _ => rfl, rfl, rfl, rfl, rfl⟩

theorem State.LeadsTo.apart {s t : State} (h : s.LeadsTo t) (hs : s.Apart) : t.Apart := by
  rw [State.Apart, h.sameEnd.plan, h.sameEnd.controller]
  intro a ha
  rw [State.inSource, h.sameEnd.plan] at ha
  exact hs a ha

/-- The step of a job that is ready leads on. -/
theorem State.leadsTo_of_runJob {s t : State} {j : Job} (h : s.Inv) (hp : s.controller.phase ≠ .idle) (hs : s.Apart)
    (ht : s.turn = .job j.block) (hj : s.job? j.block = some j) (hr : s.jobReady j = true)
    (hrun : s.runJob j.block = .next t) : t.stepsLeft + 1 = s.stepsLeft ∧ s.LeadsTo t := by
  obtain ⟨f, l, m, hnext, hadv⟩ := State.runJob_advances h hp ht hj hr
  cases hnext.symm.trans hrun
  refine ⟨hadv.stepsLeft (State.blocks_nodup hp h.control) hj, hadv.inv h hp hj, ?_, rfl, rfl, rfl, hadv.capacity⟩
  obtain ⟨b, pc, l, heq, -, hpc⟩ | ⟨body, hb, hpc, hexec⟩ := State.runJob_cases h.control ht hj hp hr hrun
  · rw [heq]
    exact State.sameEnd_of_permit h hj hpc
  · exact State.sameEnd_of_body h hj ht (by rw [hpc]; decide) hb hexec hs

/-- A step of the phase is its join, with no micro-operation left, or takes one of them. -/
theorem step_leadsTo {s t : State} (h : s.Inv) (hb : s.regs.busy = true) (hi : s.inputs = []) (hs : s.Apart)
    (hstep : step s = .next t) :
    (s.stepsLeft = 0 ∧ ∃ u, s.LeadsTo u ∧ u.joinReady = true ∧ u.join = .next t) ∨
      (t.stepsLeft + 1 = s.stepsLeft ∧ s.LeadsTo t) := by
  have hp := (State.busy_iff h.control).mp hb
  obtain ⟨hnone, -⟩ | ⟨u, rest, -, hhost, -⟩ | ⟨u, hu, hready, hjoin⟩ | ⟨u, j, hu, hj, hready, hrun⟩ := step_cases hstep
  · exact absurd (State.pick_eq_none_iff.mp hnone) (State.enabled_ne_nil h.control hp)
  · rw [State.HostWaits.not_ready (.inl hi) hb] at hhost
    cases hhost
  · have hlead := hu.leadsTo h
    obtain ⟨sc, d, rfl⟩ := hu
    exact .inl ⟨State.stepsLeft_of_joinReady hready, _, hlead, hready, hjoin⟩
  · have hlead := hu.leadsTo h
    have hfind := State.job?_of_mem hp h.control hj
    obtain ⟨sc, d, rfl⟩ := hu
    obtain ⟨hleft, hnext⟩ := State.leadsTo_of_runJob hlead.inv hp (hlead.apart hs) rfl hfind hready hrun
    exact .inr ⟨hleft, hlead.trans hnext⟩

/-- The run of a command ends with the join of a later state of its phase. -/
theorem run_leadsTo {n : Nat} {s t : State} (h : s.Inv) (hb : s.regs.busy = true) (hi : s.inputs = []) (hs : s.Apart)
    (hn : s.stepsLeft = n) (hrun : Host.Core.run Sys2Proof.core (n + 1) s = .next t) :
    ∃ u, s.LeadsTo u ∧ u.joinReady = true ∧ u.join = .next t := by
  induction n generalizing s with
  | zero =>
    obtain ⟨v, hstep, -⟩ := step_of_running h hb (.inl hi)
    obtain ⟨-, hjoin⟩ | ⟨hleft, -⟩ := step_leadsTo h hb hi hs hstep
    · cases (run_succ_of_step 0 hstep).symm.trans hrun
      exact hjoin
    · omega
  | succ n ih =>
    obtain ⟨v, hstep, -⟩ := step_of_running h hb (.inl hi)
    obtain ⟨hzero, -⟩ | ⟨hleft, hlead⟩ := step_leadsTo h hb hi hs hstep
    · omega
    · obtain ⟨u, hu, hjoin⟩ := ih hlead.inv (by rw [hlead.regs, hb]) (hlead.inputs.trans hi) (hlead.apart hs) (by omega)
        ((run_succ_of_step (n + 1) hstep).symm.trans hrun)
      exact ⟨u, hlead.trans hu, hjoin⟩

/-! ### The join of two states with the same in store -/

/-- When the join is enabled every body has run. -/
theorem State.settled_of_joinReady {s : State} (h : s.joinReady = true) (i : Nat) : s.settled i = s := by
  obtain ⟨-, hall⟩ := State.joinReady_iff.mp h
  cases hj : s.job? i with
  | none => exact State.settled_of_none hj
  | some j => exact State.settled_of_done hj (by rw [hall j (State.job?_some hj).1]; decide)

/-- What the join reads of a job. -/
def Job.report (j : Job) : Nat × Option FaultCode × Option AnalyzeResult := (j.block, j.outcome)

theorem lowestFailure_congr {js js' : List Job} (h : js'.map Job.report = js.map Job.report) :
    lowestFailure js' = lowestFailure js := by
  induction js generalizing js' with
  | nil => rw [List.map_eq_nil_iff.mp h]
  | cons j js ih =>
    obtain ⟨j', js', rfl, hj, hjs⟩ := List.map_eq_cons_iff.mp h
    obtain ⟨hblock, hrest⟩ := Prod.mk.inj hj
    obtain ⟨herr, -⟩ := Prod.mk.inj hrest
    rw [lowestFailure, lowestFailure, ih hjs, hblock, herr]

theorem analyzeResults_congr {js js' : List Job} (h : js'.map Job.report = js.map Job.report) :
    analyzeResults js' = analyzeResults js := by
  induction js generalizing js' with
  | nil => rw [List.map_eq_nil_iff.mp h]
  | cons j js ih =>
    obtain ⟨j', js', rfl, hj, hjs⟩ := List.map_eq_cons_iff.mp h
    obtain ⟨-, hrest⟩ := Prod.mk.inj hj
    obtain ⟨-, hres⟩ := Prod.mk.inj hrest
    rw [analyzeResults, analyzeResults, ih hjs, hres]

/-- The reports of the jobs, block by block. -/
theorem State.reports_eq {s : State} (h : s.controlOk = true) (hp : s.controller.phase ≠ .idle) :
    (s.jobs.map Job.report).map some =
      (List.range s.plan.blockCount.toNat).map fun i => (s.outcome i).map (Prod.mk i) := by
  obtain ⟨-, hjobs, -⟩ := State.controlOk_iff.mp h
  rw [← ((State.jobsOk_iff hp).mp hjobs).1, List.map_map, List.map_map]
  refine List.map_congr_left fun j hj => ?_
  rw [Function.comp, Function.comp, State.outcome, State.job?_of_mem hp h hj]
  rfl

section
variable {s s' : State} {n : Word} (hregs : s'.regs = { s.regs with nThreads := n })
include hregs

theorem State.finish_regs_congr (f : Option (Nat × FaultCode)) :
    (s'.finish f).regs = { (s.finish f).regs with nThreads := n } := by
  cases f with
  | none => exact congrArg Regs.complete hregs
  | some f => exact congrArg (fun r => r.completeFault f.2 (u32 f.1)) hregs

theorem State.installPlan_congr (hplan : s'.plan = s.plan) (rs : List AnalyzeResult) :
    (s'.installPlan rs).plan = (s.installPlan rs).plan ∧
      (s'.installPlan rs).regs = { (s.installPlan rs).regs with nThreads := n } := by
  by_cases hlt : headerSizeOf s.plan.blockCount.toNat + csizeSum rs rs.length < 4294967296
  · rw [State.installPlan_of_lt hlt, State.installPlan_of_lt (hplan ▸ hlt)]
    exact ⟨by simp only [State.complete_plan, hplan], congrArg Regs.complete hregs⟩
  · have hle := Nat.not_lt.mp hlt
    rw [State.installPlan_of_le hle, State.installPlan_of_le (hplan ▸ hle)]
    exact ⟨hplan, congrArg (fun r => r.completeFault .sizeOverflow noBlock) hregs⟩

end

/-- The joins of states with the same plan and reports leave the same plan, and the same registers but for NTHREADS. -/
theorem State.join_congr {s s' t t' : State} {n : Word} (hp : s.controller.phase ≠ .idle) (hplan : s'.plan = s.plan)
    (hctl : s'.controller = s.controller) (hreports : s'.jobs.map Job.report = s.jobs.map Job.report)
    (hregs : s'.regs = { s.regs with nThreads := n }) (hjoin : s.join = .next t) (hjoin' : s'.join = .next t') :
    t'.plan = t.plan ∧ t'.regs = { t.regs with nThreads := n } := by
  have hfailure := lowestFailure_congr hreports
  have hp' : s'.controller.phase ≠ .idle := by rwa [hctl]
  have hjoined : s'.joined.plan = s.joined.plan := by rw [State.joined, State.joined, hplan, hctl]
  by_cases hfinish : s.controller.phase = .analyze → lowestFailure s.jobs ≠ none
  · rw [State.join_eq_finish hp hfinish] at hjoin
    rw [State.join_eq_finish hp' (by rwa [hctl, hfailure]), hfailure] at hjoin'
    cases hjoin
    cases hjoin'
    rw [State.finish_plan, State.finish_plan]
    exact ⟨hjoined, State.finish_regs_congr (s := s.joined) (s' := s'.joined) hregs _⟩
  · obtain ⟨hphase, hnone⟩ : s.controller.phase = .analyze ∧ lowestFailure s.jobs = none := by simpa using hfinish
    cases hres : analyzeResults s.jobs with
    | none => simp [State.join, hphase, hnone, hres] at hjoin
    | some rs =>
      rw [State.join_eq_installPlan hphase hnone hres] at hjoin
      rw [State.join_eq_installPlan (hctl ▸ hphase) (hfailure.trans hnone)
        ((analyzeResults_congr hreports).trans hres)] at hjoin'
      cases hjoin
      cases hjoin'
      exact State.installPlan_congr (s := s.joined) (s' := s'.joined) hregs hjoined rs

/-- Two joins with the same in store have the same MEM, and the same reports of their jobs. -/
theorem State.SameEnd.of_joinReady {s t : State} (h : s.SameEnd t) (hs : s.Inv) (ht : t.Inv)
    (hready : s.joinReady = true) (hready' : t.joinReady = true) :
    t.mem = s.mem ∧ t.jobs.map Job.report = s.jobs.map Job.report := by
  have hp := (State.joinReady_iff.mp hready).1
  have hp' := (State.joinReady_iff.mp hready').1
  refine ⟨Memory.ext_of_read ht.memory hs.memory fun a => ?_, (List.map_inj_right fun _ _ => Option.some.inj).mp ?_⟩
  · by_cases howned : ∃ i, s.owns i a
    · obtain ⟨i, hi⟩ := howned
      have hread := (h.blocks i).owned a hi
      rwa [State.settled_of_joinReady hready, State.settled_of_joinReady hready'] at hread
    · exact h.unowned a (not_exists.mp howned)
  · have houtcome : ∀ i, t.outcome i = s.outcome i := fun i => by
      have hi := (h.blocks i).outcome
      rwa [State.settled_of_joinReady hready, State.settled_of_joinReady hready'] at hi
    simp only [State.reports_eq hs.control hp, State.reports_eq ht.control hp', h.plan, houtcome]

/-- The join leaves all permits of the phase (42 R180). -/
theorem State.limiter_of_join {s t : State} (h : s.Inv) (hready : s.joinReady = true) (hjoin : s.join = .next t) :
    t.limiter = { capacity := s.limiter.capacity, permits := s.limiter.capacity } := by
  have hpermits := State.permits_of_joinReady h.control hready
  obtain ⟨r, p, c, js, rfl⟩ := State.join_frame hjoin
  exact congrArg (Limiter.mk s.limiter.capacity) hpermits

/-- Settles O59: both runs end with the join of a state that has the same in store as its start, and so have the starts. -/
theorem scheduleDoesNotMatter : Obligations.ScheduleDoesNotMatter := by
  intro s s' t t' h h' hb hi heq hapart n hrun hrun'
  have hstart : s.SameEnd s' := by
    rw [heq]
    exact State.sameEnd_of_tasks h rfl rfl rfl rfl fun _ => rfl
  have hregs : s'.regs = { s.regs with nThreads := s'.regs.nThreads } := congrArg State.regs heq
  have hctx : s'.ctx = s.ctx := by rw [heq]
  have hjobs : s'.jobs = s.jobs := by rw [heq]
  have hinputs : s'.inputs = s.inputs := by rw [heq]
  have hs : s.Apart := fun a ha => hapart a ha.1 ha.2
  have hs' : s'.Apart := by
    rw [heq]
    exact hs
  obtain ⟨u, hlead, hready, hjoin⟩ := run_leadsTo h hb hi hs rfl hrun
  obtain ⟨u', hlead', hready', hjoin'⟩ := run_leadsTo h' (by rw [hregs]; exact hb) (hinputs.trans hi) hs'
    (by rw [State.stepsLeft, hjobs]) hrun'
  have hend : u.SameEnd u' := (hlead.sameEnd.symm.trans hstart).trans hlead'.sameEnd
  obtain ⟨hmem, hreports⟩ := hend.of_joinReady hlead.inv hlead'.inv hready hready'
  obtain ⟨hplan, hregs'⟩ := State.join_congr (State.joinReady_iff.mp hready).1 hend.plan hend.controller hreports
    (by rw [hlead'.regs, hlead.regs]; exact hregs) hjoin hjoin'
  have hlimiter := State.limiter_of_join hlead.inv hready hjoin
  have hlimiter' := State.limiter_of_join hlead'.inv hready' hjoin'
  rw [hlead.capacity] at hlimiter
  rw [hlead'.capacity] at hlimiter'
  refine ⟨?_, hplan, ?_, hregs', hlimiter, hlimiter'⟩
  · obtain ⟨-, -, -, -, rfl⟩ := State.join_frame hjoin
    obtain ⟨-, -, -, -, rfl⟩ := State.join_frame hjoin'
    exact hmem
  · obtain ⟨-, -, -, -, rfl⟩ := State.join_frame hjoin
    obtain ⟨-, -, -, -, rfl⟩ := State.join_frame hjoin'
    exact (hlead'.ctx.trans hctx).trans hlead.ctx.symm

end Sys2Proof.Machine
end
